-- ==== Sys2Proof/Word.lean ====
section
/-! DEFINITION. The unit every frame, register offset and data byte of the part is made of. -/

namespace Sys2Proof

/-- One byte, on a port's SPI lines or on a segment (spec 11 R177). -/
abbrev Byte := BitVec 8

end Sys2Proof
end

