-- ==== Sys2Proof/Config.lean ====
section
/-! DEFINITION. The sizes the part is built with, and the one value the spec leaves open. -/

namespace Sys2Proof.Config

/-- Places in a segment's host queue (04 R78). -/
def hostqPlaces : Nat := 6

/-- Places in a port's notice list (09 R158). -/
def noticePlaces : Nat := 16

/-- Bytes of a request frame that FRAMEBUF keeps (10 R162, R165). -/
def frameBytes : Nat := 44

/-- Where MERGE stays once there (09 R152, R158). -/
def mergeTop : Nat := 255

/-- The failure threshold after a pin reset (06 R116). -/
def threshold : Nat := 3

/-- DESIGN CHOICE (log entry 5). The order in which several effects of one step on different entries or
segments are taken, where the spec leaves it open: a list of picks, each the place of the next effect among those
that are left. It is applied to a counter of State, so that each use has an order of its own. It has no value
that anything can see. -/
opaque order : Nat → List Nat

end Sys2Proof.Config
end

