-- ==== Sys2Proof/Syntax.lean ====
section
/-! DEFINITION. The commands the part takes: one constructor of `Instr` for each row of spec/opcode_table.json,
with the row's operands. -/

namespace Sys2Proof

/-- One of the two request ports (10 R162). -/
inductive Port where
  | A
  | B
deriving DecidableEq, Repr

/-- The second of the two ports (00_scope.md, "the other port"). -/
def Port.other : Port → Port
  | .A => .B
  | .B => .A

/-- HANDLE, the number of an entry (01 R1). -/
abbrev Handle := Fin 48

/-- GEN, the generation of an entry (01 R1, R6). -/
abbrev Gen := Fin 16

/-- The number of a segment (04 R67). -/
abbrev Seg := Fin 6

/-- A request's tag (10 R167). -/
abbrev Tag := Fin 8

/-- How far a transfer had come on the wire: the bytes the device had acknowledged, out of those the part
sends, and the bytes received in full (04 R67, CURRENT; 05 R96). -/
structure Progress where
  acked : Nat
  rx : List Byte
deriving DecidableEq, Repr

/-- A transfer that reaches its end on the wire: every byte sent was acknowledged and the read bytes came in, or
the byte of number `k` (from 0, among those the part sends) was not acknowledged (05 R95 to R98, 02 R24, R25). -/
inductive TransferEnd where
  | done (rx : List Byte)
  | nack (k : Nat)
deriving DecidableEq, Repr

/-- What the recovery procedure sees each time it looks at the lines (04 R89 steps 2 to 5): the data line high,
the data line low, or the clock line held low for longer than CLKLOW. -/
inductive LineObs where
  | dataHigh
  | dataLow
  | clockLow
deriving DecidableEq, Repr

/-- Any of the events of a transfer on the bus; DISABLE_COMPLETE carries one (04 R74). -/
inductive BusEvent where
  | ended (e : TransferEnd)
  | clockTimeout (pr : Progress)
  | arbLost (pr : Progress)
  | busBusy
  | recovery (obs : List LineObs)
deriving DecidableEq, Repr

/-- The events that come about inside another step. A tick takes a list of them: the order of those it brings
about (log entry 4). -/
inductive Event where
  | leaseLapse (h : Handle) (p : Port)
  | waitExpiry (h : Handle)
  | watchProbeDue (h : Handle)
  | rearmExpiry (g : Seg)
  | settleEnd (h : Handle)
  | holdExpiry (g : Seg)
  | waiterGranted (h : Handle)
  | retireComplete (h : Handle)
  | arbiterGrant (g : Seg)
deriving DecidableEq, Repr

/-- The commands of the part. A request carries the port, the TAG byte and the parameter bytes of its frame
(11 R180); LENGTH, the command code and the check byte follow from them (log entry 1). -/
inductive Instr where
  -- exchanges and resets
  | exchangeBegin (p : Port)
  | leadByte (p : Port) (b : Byte)
  | submitRejected (p : Port) (bytes : List Byte)
  | badCommand (p : Port) (tag : Byte) (code : Byte) (params : List Byte)
  | takeResponse (p : Port) (clocked : Nat)
  | takeNotice (p : Port) (clocked : Nat)
  | summary (p : Port) (clocked : Nat)
  | portReset (p : Port)
  | pinReset
  -- the directory and admission
  | admitDevice (p : Port) (tag : Byte) (params : List Byte)
  | retire (p : Port) (tag : Byte) (params : List Byte)
  | retireComplete (h : Handle)
  | lookup (p : Port) (tag : Byte) (params : List Byte)
  | list (p : Port) (tag : Byte) (params : List Byte)
  | readEntry (p : Port) (tag : Byte) (params : List Byte)
  | subscribe (p : Port) (tag : Byte) (params : List Byte)
  | segmentSubscribe (p : Port) (tag : Byte) (params : List Byte)
  -- claims
  | claim (p : Port) (tag : Byte) (params : List Byte)
  | renew (p : Port) (tag : Byte) (params : List Byte)
  | release (p : Port) (tag : Byte) (params : List Byte)
  | waiterGranted (h : Handle)
  | leaseLapse (h : Handle) (p : Port)
  | waitExpiry (h : Handle)
  -- the timebase
  | timebaseTick10ms (first : List Event)
  | timebaseTick100us (first : List Event)
  -- transfers, the arbiter and the bus engine
  | write (p : Port) (tag : Byte) (params : List Byte)
  | read (p : Port) (tag : Byte) (params : List Byte)
  | writeRead (p : Port) (tag : Byte) (params : List Byte)
  | ping (p : Port) (tag : Byte) (params : List Byte)
  | arbiterGrant (g : Seg)
  | arbLost (g : Seg) (pr : Progress)
  | busBusy (g : Seg) (dataLineLow : Bool)
  | clockTimeout (g : Seg) (pr : Progress)
  | hostTransactionEnd (g : Seg) (e : TransferEnd)
  | holdExpiry (g : Seg)
  | settleEnd (h : Handle)
  | admissionTransferEnd (g : Seg) (e : TransferEnd)
  -- health and watches
  | watch (p : Port) (tag : Byte) (params : List Byte)
  | watchCancel (p : Port) (tag : Byte) (params : List Byte)
  | watchProbeDue (h : Handle)
  | watchProbeEnd (g : Seg) (e : TransferEnd)
  | setLimits (p : Port) (tag : Byte) (params : List Byte)
  -- surveys
  | survey (p : Port) (tag : Byte) (params : List Byte)
  | surveyAbort (p : Port) (tag : Byte) (params : List Byte)
  | surveyProbeEnd (g : Seg) (e : TransferEnd)
  -- segments
  | segmentSetup (p : Port) (tag : Byte) (params : List Byte)
  | segmentEnable (p : Port) (tag : Byte) (params : List Byte)
  | segmentDisable (p : Port) (tag : Byte) (params : List Byte) (clockHigh : Bool)
  | disableComplete (g : Seg) (ev : BusEvent)
  | segmentReset (p : Port) (tag : Byte) (params : List Byte) (pr : Progress)
  | segmentStatus (p : Port) (tag : Byte) (params : List Byte)
  | recoveryEnd (g : Seg) (obs : List LineObs)
  | portSetup (p : Port) (tag : Byte) (params : List Byte)
  -- attention inputs
  | attentionAsserted (g : Seg)
  | attentionDeasserted (g : Seg)
  | rearmExpiry (g : Seg)
  | sweepReadEnd (g : Seg) (e : TransferEnd)
  | exchangeIgnoredEnd (p : Port)
deriving DecidableEq, Repr

end Sys2Proof
end

