-- ==== Sys2Proof/Decode.lean ====
section
/-! DEFINITION. The decoder of table words. spec/opcode_table.json gives none of its rows any bits: the part takes commands,
not words, so no word spells one (log entry 20). The frames a host sends are read by Machine/Ports.lean. -/

namespace Sys2Proof

/-- The command that a word of the table's bits spells: none, for no row of the table gives bits. -/
def decodeTableWord (_nbits _w : Nat) : Option Instr := none

end Sys2Proof
end

