-- ==== Sys2Proof/Machine/Bytes.lean ====
section
/-! DEFINITION. How numbers and wider fields go into the bytes of a frame, and come out of them (11 R177: multi-byte fields of
every frame go most significant byte first). -/

namespace Sys2Proof.Machine

/-- A number as one byte of a frame. -/
def byte (n : Nat) : Byte := BitVec.ofNat 8 n

/-- A two-byte field, most significant byte first. -/
def be16 (n : Nat) : List Byte := [byte (n / 256), byte n]

/-- A four-byte field, most significant byte first. -/
def be32 (n : Nat) : List Byte := [byte (n / 16777216), byte (n / 65536), byte (n / 256), byte n]

/-- The value of two bytes, the first the more significant. -/
def ofBe16 (hi lo : Byte) : Nat := hi.toNat * 256 + lo.toNat

/-- A bit as 0 or 1. -/
def bit (b : Bool) : Nat := if b then 1 else 0

/-- The code of an absent handle, port, cursor or mode in a frame the part sends (11 R179). -/
def absent : Byte := 0xFF

/-- The codes of the command catalogue (11 R180). -/
def commandCodes : List Byte :=
  [0x10, 0x11, 0x12, 0x13, 0x14, 0x15, 0x16, 0x20, 0x21, 0x22, 0x30, 0x31, 0x32, 0x33, 0x40, 0x41, 0x42, 0x50, 0x51,
    0x60, 0x61, 0x62, 0x63, 0x64, 0x70]

end Sys2Proof.Machine
end

