-- ==== Sys2Proof/Machine/State.lean ====
section
/-! DEFINITION. The state of the part as plain data: 48 entries, six segment controllers, two ports, the failure
threshold, and the queue of commands that wait. -/

namespace Sys2Proof.Machine

/-! ## The entry record (01 R1) -/

/-- STATE of an entry (01 R3). -/
inductive EntryState where
  | vacant
  | probing
  | present
  | suspect
  | lost
  | retiring
deriving DecidableEq, Repr

/-- AMODE (01 R1). -/
inductive AMode where
  | seven
  | ten
deriving DecidableEq, Repr

/-- ORIGIN (01 R1). -/
inductive Origin where
  | byAdmit
  | survey
deriving DecidableEq, Repr

/-- DMODE (01 R1). -/
inductive DMode where
  | none
  | fetch
deriving DecidableEq, Repr

/-- DSRC (02 R29); `short` is PARTIAL. -/
inductive DSrc where
  | none
  | fetched
  | short
  | defaulted
deriving DecidableEq, Repr

/-- SEG, AMODE, ADDR, ORIGIN and DMODE: the fields that are absent, all together, when the entry is VACANT
(01 R1, R12). -/
structure Place where
  seg : Seg
  amode : AMode
  addr : Nat
  origin : Origin
  dmode : DMode
deriving DecidableEq, Repr

/-- DESC, the effective descriptor; the values here are the defaults (01 R2, 02 R27). -/
structure Desc where
  layout : Byte := 1
  cls : Byte := 0
  maker : BitVec 16 := 0
  model : BitVec 16 := 0
  serial : BitVec 32 := 0
  offsetw : Nat := 1
  maxburst : Nat := 8
  caps : Byte := 0
  statusoff : Byte := 0
  attnmask : Byte := 0xFF
  settletime : Nat := 0
deriving DecidableEq, Repr

/-- CLAIM (03 R43). -/
inductive Claim where
  | none
  | exclusive
  | shared
deriving DecidableEq, Repr

/-- A claim mode that can be asked for (03 R46). -/
inductive ClaimMode where
  | exclusive
  | shared
deriving DecidableEq, Repr

/-- The mode as the CLAIM an entry has once it is granted (03 R48). -/
def ClaimMode.claim : ClaimMode → Claim
  | .exclusive => .exclusive
  | .shared => .shared

/-- A holder record; its PORT is the place it stands in (03 R43). -/
structure Holder where
  leaseval : Nat
  lease : Nat
deriving DecidableEq, Repr

/-- The WAITER record (03 R43). -/
structure Waiter where
  port : Port
  mode : ClaimMode
  leasereq : Nat
  wait : Nat
  tag : Tag
deriving DecidableEq, Repr

/-- PROBE of a watch (06 R122). -/
inductive WatchProbe where
  | none
  | due
  | active
deriving DecidableEq, Repr

/-- The WATCH record (06 R122). -/
structure Watch where
  port : Port
  tag : Tag
  interval : Nat
  remaining : Nat
  nextdue : Nat
  probe : WatchProbe
  probes : Nat
deriving DecidableEq, Repr

/-- A port's subscription mask on an entry (09 R154). -/
structure EntryMask where
  attention : Bool := false
  health : Bool := false
  identity : Bool := false
deriving DecidableEq, Repr

/-- KIND of an admission record (02 R22). -/
inductive AdmKind where
  | first
  | re
deriving DecidableEq, Repr

/-- STEP of an admission record (02 R22). -/
inductive AdmStep where
  | probe
  | sizeRead
  | bodyRead
deriving DecidableEq, Repr

/-- SOURCE of an admission record; a port that is reset is lost from it (02 R22, R36). -/
inductive AdmSource where
  | byAdmit (owner : Option (Port × Tag))
  | survey (owner : Option Port)
  | watch
  | surveyReappear
deriving DecidableEq, Repr

/-- Whether planned work waits in BACKGROUND or is on the bus (02 R22 PLANNED, 07 R131 PROBE). -/
inductive Planned where
  | waiting
  | active
deriving DecidableEq, Repr

/-- The admission record of a PROBING entry (02 R22). -/
structure AdmRec where
  kind : AdmKind
  step : AdmStep
  source : AdmSource
  size : Option Byte
  body : Option (List Byte)
  planned : Planned
deriving DecidableEq, Repr

/-- One entry of the directory (01 R1). HOLDERS is the pair of holder records, one place for each port. `adm` is the
admission record (02 R22), `retire` the requester of the RETIRE under way (01 R13). -/
structure Entry where
  gen : Gen
  state : EntryState
  place : Option Place
  desc : Desc
  dsrc : DSrc
  fails : Nat
  claim : Claim
  holderA : Option Holder
  holderB : Option Holder
  waiter : Option Waiter
  subsA : EntryMask
  subsB : EntryMask
  inflight : Nat
  settle : Nat
  watch : Option Watch
  chainA : Bool
  chainB : Bool
  adm : Option AdmRec
  retire : Option (Port × Tag)
deriving DecidableEq, Repr

/-- A VACANT entry of generation `g`, every field at its cleared value (01 R12, R21). -/
def Entry.vacant (g : Gen) : Entry :=
  { gen := g, state := .vacant, place := none, desc := {}, dsrc := .none, fails := 0, claim := .none, holderA := none,
    holderB := none, waiter := none, subsA := {}, subsB := {}, inflight := 0, settle := 0, watch := none, chainA := false,
    chainB := false, adm := none, retire := none }

/-! ## The segment record (04 R67) -/

/-- SPEED (04 R70). -/
inductive Speed where
  | k100
  | k400
  | k1000
deriving DecidableEq, Repr

/-- CONFIG, the eight settings; the values here are the defaults (04 R70). -/
structure Settings where
  speed : Speed := .k100
  clklow : Nat := 25
  busywait : Nat := 50
  arbretry : Nat := 2
  holdlimit : Nat := 20
  descoff : Byte := 0xF0
  attnen : Bool := false
  rearm : Nat := 0
deriving DecidableEq, Repr

/-- STATE of a segment (04 R68). -/
inductive SegState where
  | off
  | idle
  | active
  | held
  | recovering
  | stuck
deriving DecidableEq, Repr

/-- KIND of a host transaction (05 R93). -/
inductive TxKind where
  | write
  | read
  | writeRead
  | ping
deriving DecidableEq, Repr

/-- A host transaction (05 R93). REF is `handle` with `gen`; WLEN is the length of `wdata`. `active` marks the one that is
on the bus (04 R67); `orphan` marks one whose port has been reset since, so that its response is discarded
(05 R102, 10 R175). -/
structure HostTx where
  port : Port
  tag : Tag
  handle : Handle
  gen : Gen
  kind : TxKind
  offset : BitVec 16
  wdata : List Byte
  rlen : Nat
  chain : Bool
  active : Bool
  orphan : Bool
deriving DecidableEq, Repr

/-- Kind of the transfer on the bus (04 R67 CURRENT, R77 CURKIND). -/
inductive CurKind where
  | host
  | admission
  | watch
  | survey
  | sweep
deriving DecidableEq, Repr

/-- What a byte sent on a segment is (05 R95). -/
inductive ByteKind where
  | addr
  | offset
  | data
deriving DecidableEq, Repr

/-- What the bus engine does on the wire, one after the other (05 R94 to R98, 02 R24, R25, 08 R144). `recv ack` receives a
byte and acknowledges it or leaves it unacknowledged. The stop, or its absence, is decided at the end. -/
inductive WireOp where
  | start
  | restart
  | send (kind : ByteKind) (b : Byte)
  | recv (ack : Bool)
deriving DecidableEq, Repr

/-- CURRENT, the transfer on the bus (04 R67). `plan` is what it puts on the wire, with the descriptor and settings
as they stood at the grant (05 R94, 02 R25, 08 R144); `acked` and `rx` say how far it has come; `lost` counts the
attempts lost to arbitration (04 R86); `followOn` marks a follow-on and `restart` an attempt that begins with a repeated
start (05 R110, R114); `recovering` a recovery within the transfer (04 R85); `claimEnded` that its port's claim on the
entry lapsed or was released while it was on the bus (05 R108). -/
structure Current where
  kind : CurKind
  entry : Option Handle
  plan : List WireOp
  acked : Nat
  rx : List Byte
  lost : Nat
  followOn : Bool
  restart : Bool
  recovering : Bool
  claimEnded : Bool
deriving DecidableEq, Repr

/-- HOLD: HOLDPORT, HOLDENTRY, HOLDLEFT (04 R67, 05 R108). -/
structure Hold where
  port : Port
  entry : Handle
  left : Nat
deriving DecidableEq, Repr

/-- The segment command whose response is deferred (04 R67). -/
inductive PendKind where
  | disable
  | reset
deriving DecidableEq, Repr

/-- PENDCMD; the requester is absent once its port has been reset (04 R67, R73, R76). -/
structure PendCmd where
  kind : PendKind
  owner : Option (Port × Tag)
deriving DecidableEq, Repr

/-- NEXTCLASS (04 R67). -/
inductive NextClass where
  | host
  | background
deriving DecidableEq, Repr

/-- How the controller last left the lines of its segment: a stop condition sent, the clock held low with no stop
(05 R109), or the lines released with no stop (04 R73, R87, R89). -/
inductive LineEnd where
  | stop
  | held
  | released
deriving DecidableEq, Repr

/-- The survey cursor (07 R131). -/
structure Cursor where
  port : Port
  tag : Tag
  low : Nat
  high : Nat
  next : Nat
  probe : Planned
  named : Option Handle
  found : Nat
  reappeared : Nat
  missing : Nat
  full : Nat
  fullPosted : Bool
deriving DecidableEq, Repr

/-- SWSTATE (08 R141). -/
inductive SwState where
  | idle
  | sweeping
  | disarmed
deriving DecidableEq, Repr

/-- The sweep record; the values here are those after a pin reset (08 R141). -/
structure Sweep where
  state : SwState := .idle
  cursor : Option Nat := none
  hits : Nat := 0
  reads : Nat := 0
  rearmleft : Nat := 0
deriving DecidableEq, Repr

/-- One segment controller's record (04 R67), with the survey cursor (07 R131), the sweep record (08 R141), the level of the
attention input (08 R141, 11.8) and how the lines were last left. The values here are those after a pin reset.
BACKGROUND is a view: `State.background`. -/
structure Segment where
  state : SegState := .off
  config : Settings := {}
  hostq : List HostTx := []
  nextclass : NextClass := .host
  current : Option Current := none
  hold : Option Hold := none
  pendcmd : Option PendCmd := none
  survey : Option Cursor := none
  sweep : Sweep := {}
  sattn : Bool := false
  lines : LineEnd := .released
deriving DecidableEq, Repr

/-! ## The port record (10 R162) -/

/-- The status codes of responses (11 R181). -/
inductive Status where
  | ok
  | stale
  | gone
  | lost
  | notReady
  | notFound
  | held
  | sharedReadonly
  | notHolder
  | claimLost
  | timedOut
  | busy
  | tooLong
  | noChain
  | segmentFull
  | segmentOff
  | segmentReset
  | addrNack
  | dataNack
  | clockTimeout
  | arbLost
  | busBusy
  | busStuck
  | aborted
  | directoryFull
  | duplicate
  | badParam
  | badCommand
  | replaced
  | watchExpired
deriving DecidableEq, Repr

/-- A finished response, with its result bytes as the owning block gave them (10 R168, 11 R181). -/
structure Response where
  tag : Tag
  status : Status
  chainBroken : Bool
  descDefaulted : Bool
  result : List Byte
deriving DecidableEq, Repr

/-- KIND of a notice (09 R153). -/
inductive NoticeKind where
  | attention
  | health
  | reappeared
  | replaced
  | admitted
  | admitFailed
  | directoryFull
  | claimLapsed
  | claimDropped
  | orphanAttention
  | segmentStuck
deriving DecidableEq, Repr

/-- SUBJECT of a notice (09 R152). -/
inductive Subject where
  | entry (h : Handle) (g : Gen)
  | segment (g : Seg)
deriving DecidableEq, Repr

/-- A notice (09 R152); DETAIL stands as its code (11 R182). -/
structure Notice where
  kind : NoticeKind
  subject : Subject
  detail : Byte
  merge : Nat
deriving DecidableEq, Repr

/-- REASON (10 R162). -/
inductive Reason where
  | badLead
  | cut
  | length
  | check
  | badTag
  | noTag
  | tagInUse
  | restart
deriving DecidableEq, Repr

/-- EXCHANGE (10 R162). -/
inductive Exchange where
  | none
  | lead
  | submit
  | takeResponse
  | takeNotice
  | summary
  | portReset
  | ignored
deriving DecidableEq, Repr

/-- LATCH: what is being shifted out in the current exchange (10 R162, R164, R169 to R171). The summary byte, and then a
latched notice, counts the postings merged into the head of NOTICES since the beginning of the exchange (09 R159, 10 R170); a latched summary report remembers whether a notice was dropped after the latch (10 R171). -/
inductive Latch where
  | summaryByte (b : Byte) (merged : Nat)
  | response (r : Response)
  | notice (n : Notice) (merged : Nat)
  | marker
  | report (bytes : List Byte) (rejected lost lostAgain : Bool)
deriving DecidableEq, Repr

/-- A port's mask over a segment's notices (09 R156). -/
structure SegMask where
  attention : Bool := false
  fault : Bool := false
deriving DecidableEq, Repr

/-- ATTNOUTMASK; the values here are those after a reset (10 R162). -/
structure AttnMask where
  resp : Bool := true
  notice : Bool := true
deriving DecidableEq, Repr

/-- One port's record (10 R162), with its six segment masks (09 R156) and the level of its chip select pin, `cs` set while it
is low (10 R163, 11.8). FRAMEBUF is `frame` with `received`, the count of bytes. A tag is OUTSTANDING where `tags` is set. -/
structure PortRec where
  cs : Bool := false
  exchange : Exchange := .none
  frame : List Byte := []
  received : Nat := 0
  tags : Vector Bool 8 := Vector.replicate 8 false
  respq : List Response := []
  notices : List Notice := []
  rejected : Bool := false
  reason : Option Reason := none
  noticeLost : Bool := false
  attnOutMask : AttnMask := {}
  latch : Option Latch := none
  segMasks : Vector SegMask 6 := Vector.replicate 6 {}
deriving DecidableEq, Repr

/-- A port's record after a pin reset (10 R162): as after a port reset, but REJECTED is set with REASON RESTART. -/
def PortRec.pinReset : PortRec := { rejected := true, reason := some .restart }

/-! ## The whole part -/

/-- The state of the part. `races` is the model's own: how many times an order that the spec leaves open has been
taken (log entry 5). `pending` is the queue of commands, first in, first out. -/
structure State where
  entries : Vector Entry 48
  segs : Vector Segment 6
  portA : PortRec
  portB : PortRec
  threshold : Nat
  races : Nat
  pending : List Instr
deriving DecidableEq, Repr

/-- The part has no fault: whatever reaches it, it answers, rejects or declares a segment STUCK, and goes on. No meaning
raises one, so none needs a name. -/
inductive Fault where
deriving DecidableEq, Repr

/-- Why a step has no meaning. -/
inductive Refusal where
  /-- Raised by `exec` for a command that has no meaning yet (none is left); safe, for nothing is then proved of it. -/
  | notModelled (mnemonic : String)
deriving DecidableEq, Repr

/-- The part right after its pin reset, with its input pins at rest (01 R21, 04 R67, 06 R130, 08 R141, 09 R161, 10 R162, R176; the
pins: DESIGN CHOICE, log entry 9). -/
def State.reset : State :=
  { entries := Vector.replicate 48 (Entry.vacant 0), segs := Vector.replicate 6 {}, portA := PortRec.pinReset,
    portB := PortRec.pinReset, threshold := Config.threshold, races := 0, pending := [] }

end Sys2Proof.Machine
end

