-- ==== Sys2Proof/Machine/Flags.lean ====
section
/-! DEFINITION. The codes that stand for states, modes, masks, flags and statuses inside frames (11 R179, R181, R182), and
the bytes made of flags: the summary byte (10 R164) and a response's FLAGS (11 R181). -/

namespace Sys2Proof.Machine

/-! ## Enumerated values (11 R179) -/

def portCode : Port → Byte
  | .A => 0x00
  | .B => 0x01

def amodeCode : AMode → Byte
  | .seven => 0x00
  | .ten => 0x01

def dmodeCode : DMode → Byte
  | .none => 0x00
  | .fetch => 0x01

def originCode : Origin → Byte
  | .byAdmit => 0x00
  | .survey => 0x01

def entryStateCode : EntryState → Byte
  | .vacant => 0x00
  | .probing => 0x01
  | .present => 0x02
  | .suspect => 0x03
  | .lost => 0x04
  | .retiring => 0x05

def dsrcCode : DSrc → Byte
  | .none => 0x00
  | .fetched => 0x01
  | .short => 0x02
  | .defaulted => 0x03

def claimCode : Claim → Byte
  | .none => 0x00
  | .exclusive => 0x01
  | .shared => 0x02

def speedCode : Speed → Byte
  | .k100 => 0x00
  | .k400 => 0x01
  | .k1000 => 0x02

def segStateCode : SegState → Byte
  | .off => 0x00
  | .idle => 0x01
  | .active => 0x02
  | .held => 0x03
  | .recovering => 0x04
  | .stuck => 0x05

def pendingCode : Option PendCmd → Byte
  | none => 0x00
  | some ⟨.disable, _⟩ => 0x01
  | some ⟨.reset, _⟩ => 0x02

def curKindCode : Option CurKind → Byte
  | none => 0x00
  | some .host => 0x01
  | some .admission => 0x02
  | some .watch => 0x03
  | some .survey => 0x04
  | some .sweep => 0x05

def swStateCode : SwState → Byte
  | .idle => 0x00
  | .sweeping => 0x01
  | .disarmed => 0x02

def nextClassCode : NextClass → Byte
  | .host => 0x00
  | .background => 0x01

/-- HOW of a watch's OK answer: PRESENT at the WATCH, RECOVERED, REAPPEARED (11 R179). -/
def howPresent : Byte := 0x00
def howRecovered : Byte := 0x01
def howReappeared : Byte := 0x02

/-- DETAIL of SEGMENT_STUCK: which recovery failed (09 R153, 11 R179). -/
def stuckAfterTimeout : Byte := 0x00
def stuckAfterReset : Byte := 0x01
def stuckInTransfer : Byte := 0x02

/-! ## Masks and flags (11 R179) -/

def entryMaskCode (m : EntryMask) : Byte := byte (bit m.attention + 2 * bit m.health + 4 * bit m.identity)

def segMaskCode (m : SegMask) : Byte := byte (bit m.attention + 2 * bit m.fault)

def attnMaskCode (m : AttnMask) : Byte := byte (bit m.resp + 2 * bit m.notice)

/-- Holding ports: bit 0 A, bit 1 B. -/
def holdersCode (e : Entry) : Byte := byte (bit e.holderA.isSome + 2 * bit e.holderB.isSome)

/-- CHAINBRK: bit 0 Port A's flag, bit 1 Port B's. -/
def chainCode (e : Entry) : Byte := byte (bit e.chainA + 2 * bit e.chainB)

/-- CAPS bit 0, ATTN_CAPABLE (02 R27). -/
def Desc.attnCapable (d : Desc) : Bool := d.caps.getLsbD 0

/-- CAPS bit 1, CHAIN_CAPABLE (02 R27). -/
def Desc.chainCapable (d : Desc) : Bool := d.caps.getLsbD 1

/-! ## Statuses, reasons, kinds of notice (11 R177, R181, R182) -/

def statusCode : Status → Byte
  | .ok => 0x00
  | .stale => 0x01
  | .gone => 0x02
  | .lost => 0x03
  | .notReady => 0x04
  | .notFound => 0x05
  | .held => 0x06
  | .sharedReadonly => 0x07
  | .notHolder => 0x08
  | .claimLost => 0x09
  | .timedOut => 0x0A
  | .busy => 0x0B
  | .tooLong => 0x0C
  | .noChain => 0x0D
  | .segmentFull => 0x0E
  | .segmentOff => 0x0F
  | .segmentReset => 0x10
  | .addrNack => 0x11
  | .dataNack => 0x12
  | .clockTimeout => 0x13
  | .arbLost => 0x14
  | .busBusy => 0x15
  | .busStuck => 0x16
  | .aborted => 0x17
  | .directoryFull => 0x18
  | .duplicate => 0x19
  | .badParam => 0x1A
  | .badCommand => 0x1B
  | .replaced => 0x1C
  | .watchExpired => 0x1D

def reasonCode : Option Reason → Byte
  | none => 0x00
  | some .badLead => 0x01
  | some .cut => 0x02
  | some .length => 0x03
  | some .check => 0x04
  | some .badTag => 0x05
  | some .noTag => 0x06
  | some .tagInUse => 0x07
  | some .restart => 0x08

def noticeKindCode : NoticeKind → Byte
  | .attention => 0x01
  | .health => 0x02
  | .reappeared => 0x03
  | .replaced => 0x04
  | .admitted => 0x05
  | .admitFailed => 0x06
  | .directoryFull => 0x07
  | .claimLapsed => 0x08
  | .claimDropped => 0x09
  | .orphanAttention => 0x0A
  | .segmentStuck => 0x0B

/-- FLAGS of a response: bit 0 CHAIN_BROKEN, bit 1 DESC_DEFAULTED, the others 0 (11 R181). -/
def responseFlags (r : Response) : Byte := byte (bit r.chainBroken + 2 * bit r.descDefaulted)

/-- FREETAGS, the number of FREE tags (10 R164). -/
def PortRec.freeTags (r : PortRec) : Nat := (r.tags.toList.filter (fun b => !b)).length

/-- The summary byte of a port (10 R164, 11 R177): bit 7 RESP_READY, bit 6 NOTICE_READY, bit 5 REJECTED, bit 4 NOTICE_LOST,
bits 3..0 FREETAGS. -/
def PortRec.summaryByte (r : PortRec) : Byte :=
  byte (128 * bit (!r.respq.isEmpty) + 64 * bit (!r.notices.isEmpty) + 32 * bit r.rejected + 16 * bit r.noticeLost + r.freeTags)

/-- The port's ATTN output, asserted or not (10 R172). -/
def PortRec.attnOut (r : PortRec) : Bool :=
  (!r.respq.isEmpty && r.attnOutMask.resp) || (!r.notices.isEmpty && r.attnOutMask.notice)

end Sys2Proof.Machine
end

