-- ==== Sys2Proof/Machine/Descriptor.lean ====
section
/-! DEFINITION. The descriptor a device publishes, turned into DESC and DSRC (02 R27 to R30). -/

namespace Sys2Proof.Machine

/-- The byte at an offset of the descriptor; SIZE itself stands at offset 0 and `body` begins at offset 1 (02 R25, R27). -/
def descByte (body : List Byte) (off : Nat) : Byte := body.getD (off - 1) 0

/-- A two-byte field, least significant byte first (02 R27). -/
def descWord (body : List Byte) (off : Nat) : BitVec 16 := descByte body (off + 1) ++ descByte body off

/-- SIZE is valid (02 R27). -/
def sizeValid (size : Byte) : Bool := 1 ≤ size.toNat && size.toNat ≤ 18

/-- OFFSETW outside 0, 1, 2 is replaced by its default (02 R28). -/
def validOffsetw (n : Nat) : Bool := n ≤ 2

/-- MAXBURST outside 1..32 is replaced by its default (02 R28). -/
def validMaxburst (n : Nat) : Bool := 1 ≤ n && n ≤ 32

/-- DESC from SIZE and BODY: a field is present when all its bytes lie below SIZE, and a present field of an invalid value
takes its default; CAPS keeps bits 0 and 1 alone (02 R27, R28). MAKER is present from SIZE 5 on, as the rule and its table say; the example
of R27 for SIZE 6 says otherwise (DESIGN CHOICE, log entry 24). -/
def buildDesc (size : Nat) (body : List Byte) : Desc :=
  let offsetw := (descByte body 11).toNat
  let maxburst := (descByte body 12).toNat
  { layout := if 2 ≤ size then descByte body 1 else 1
    cls := if 3 ≤ size then descByte body 2 else 0
    maker := if 5 ≤ size then descWord body 3 else 0
    model := if 7 ≤ size then descWord body 5 else 0
    serial := if 11 ≤ size then descWord body 9 ++ descWord body 7 else 0
    offsetw := if 12 ≤ size ∧ validOffsetw offsetw then offsetw else 1
    maxburst := if 13 ≤ size ∧ validMaxburst maxburst then maxburst else 8
    caps := if 14 ≤ size then descByte body 13 &&& 0x03 else 0
    statusoff := if 15 ≤ size then descByte body 14 else 0
    attnmask := if 16 ≤ size ∧ descByte body 15 ≠ 0 then descByte body 15 else 0xFF
    settletime := if 18 ≤ size then (descWord body 16).toNat else 0 }

/-- Whether some present field of a whole descriptor was replaced for invalidity (02 R28, R29). -/
def someReplaced (body : List Byte) : Bool :=
  !validOffsetw (descByte body 11).toNat || !validMaxburst (descByte body 12).toNat || descByte body 15 == 0

/-- DESC and DSRC at the end of an admission whose descriptor was read (02 R28, R29). -/
def readDesc (size : Byte) (body : List Byte) : Desc × DSrc :=
  if !sizeValid size then ({}, .defaulted)
  else if size.toNat < 18 then (buildDesc size.toNat body, .short)
  else if someReplaced body then (buildDesc size.toNat body, .short)
  else (buildDesc size.toNat body, .fetched)

/-- Two identities are equal when CLASS, MAKER, MODEL and SERIAL are (02 R30). -/
def Desc.sameIdentity (a b : Desc) : Bool :=
  a.cls == b.cls && a.maker == b.maker && a.model == b.model && a.serial == b.serial

end Sys2Proof.Machine
end

