-- ==== Sys2Proof/Machine/Ops.lean ====
section
/-! DEFINITION. The named operations over the records of State: reading and changing an entry, a segment, a port; placing a
response (10 R168); posting a notice (09 R158); the orders of events that the spec leaves open (log entries 4 and 5). -/

namespace Sys2Proof.Machine

/-! ## Entries, segments, ports -/

/-- Every handle, ascending. -/
def handles : List Handle := List.finRange 48

/-- Every segment, ascending. -/
def segments : List Seg := List.finRange 6

/-- The entry of a handle. -/
def State.entry (s : State) (h : Handle) : Entry := s.entries[h.val]

/-- The part with one entry replaced. -/
def State.setEntry (s : State) (h : Handle) (e : Entry) : State := { s with entries := s.entries.set h.val e }

/-- The part with one entry changed. -/
def State.modEntry (s : State) (h : Handle) (f : Entry → Entry) : State := s.setEntry h (f (s.entry h))

/-- The part with every entry changed. -/
def State.mapEntries (s : State) (f : Entry → Entry) : State := { s with entries := s.entries.map f }

/-- The record of a segment. -/
def State.seg (s : State) (g : Seg) : Segment := s.segs[g.val]

/-- The part with one segment's record replaced. -/
def State.setSeg (s : State) (g : Seg) (r : Segment) : State := { s with segs := s.segs.set g.val r }

/-- The part with one segment's record changed. -/
def State.modSeg (s : State) (g : Seg) (f : Segment → Segment) : State := s.setSeg g (f (s.seg g))

/-- The part with every segment's record changed. -/
def State.mapSegs (s : State) (f : Segment → Segment) : State := { s with segs := s.segs.map f }

/-- The record of a port. -/
def State.port (s : State) : Port → PortRec
  | .A => s.portA
  | .B => s.portB

/-- The part with one port's record replaced. -/
def State.setPort (s : State) (p : Port) (r : PortRec) : State :=
  match p with
  | .A => { s with portA := r }
  | .B => { s with portB := r }

/-- The part with one port's record changed. -/
def State.modPort (s : State) (p : Port) (f : PortRec → PortRec) : State := s.setPort p (f (s.port p))

/-! ## The fields of an entry that stand once for each port -/

def Entry.holder (e : Entry) : Port → Option Holder
  | .A => e.holderA
  | .B => e.holderB

def Entry.setHolder (e : Entry) (p : Port) (o : Option Holder) : Entry :=
  match p with
  | .A => { e with holderA := o }
  | .B => { e with holderB := o }

def Entry.subs (e : Entry) : Port → EntryMask
  | .A => e.subsA
  | .B => e.subsB

def Entry.setSubs (e : Entry) (p : Port) (m : EntryMask) : Entry :=
  match p with
  | .A => { e with subsA := m }
  | .B => { e with subsB := m }

def Entry.chain (e : Entry) : Port → Bool
  | .A => e.chainA
  | .B => e.chainB

def Entry.setChain (e : Entry) (p : Port) (b : Bool) : Entry :=
  match p with
  | .A => { e with chainA := b }
  | .B => { e with chainB := b }

/-- Whether the entry lies on a segment (01 R1 SEG). -/
def Entry.onSeg (e : Entry) (g : Seg) : Bool := e.place.any (fun pl => pl.seg == g)

/-- INFLIGHT rises by 1 (01 R11). -/
def Entry.rise (e : Entry) : Entry := { e with inflight := e.inflight + 1 }

/-- INFLIGHT falls by 1 (01 R11). -/
def Entry.lower (e : Entry) : Entry := { e with inflight := e.inflight - 1 }

/-- Whether the entry is PRESENT or SUSPECT, so that host work may reach its device (01 R3). -/
def Entry.reachable (e : Entry) : Bool := e.state == .present || e.state == .suspect

/-- Whether the arbiter keeps the entry off the bus (05 R106). -/
def Entry.settling (e : Entry) : Bool := 0 < e.settle

/-! ## The index (01 R7) -/

/-- Whether an entry has the place (segment, mode, address). -/
def Entry.at (e : Entry) (g : Seg) (m : AMode) (a : Nat) : Bool :=
  e.state != .vacant && e.place.any (fun pl => pl.seg == g && pl.amode == m && pl.addr == a)

/-- The handle at a place, if the place is in the index. -/
def State.find (s : State) (g : Seg) (m : AMode) (a : Nat) : Option Handle := handles.find? (fun h => (s.entry h).at g m a)

/-- The VACANT entry of lowest handle (01 R8). -/
def State.lowestVacant (s : State) : Option Handle := handles.find? (fun h => (s.entry h).state == .vacant)

/-- Whether a reference is current (01 R5). -/
def State.isCurrent (s : State) (h : Handle) (g : Gen) : Bool := (s.entry h).state != .vacant && (s.entry h).gen == g

/-! ## Responses (10 R168) -/

/-- A response is placed at the tail of its port's RESPQ (10 R168). -/
def State.enqueue (s : State) (p : Port) (r : Response) : State :=
  s.modPort p (fun pr => { pr with respq := pr.respq ++ [r] })

/-- A response with both FLAGS clear. -/
def State.respond (s : State) (p : Port) (t : Tag) (st : Status) (result : List Byte) : State :=
  s.enqueue p ⟨t, st, false, false, result⟩

/-- A deferred response, discarded where its port has been reset (10 R175). -/
def State.respondTo (s : State) (owner : Option (Port × Tag)) (st : Status) (result : List Byte) : State :=
  match owner with
  | some (p, t) => s.respond p t st result
  | none => s

/-! ## Notices (09 R158) -/

/-- Whether a notice has this kind and subject (09 R152). -/
def Notice.is (n : Notice) (k : NoticeKind) (sub : Subject) : Bool := n.kind == k && n.subject == sub

/-- What a merge does to LATCH: one into the head of NOTICES is counted from the beginning of the exchange, and so is one into the notice once it is
latched, which is that head (09 R159, 10 R163, R170). -/
def Latch.merged (l : Latch) (head : Option Notice) (k : NoticeKind) (sub : Subject) : Latch :=
  match l with
  | .summaryByte b m => if head.any (fun n => n.is k sub) then .summaryByte b (min Config.mergeTop (m + 1)) else l
  | .notice n m => if n.is k sub then .notice n (min Config.mergeTop (m + 1)) else l
  | .response _ | .marker | .report _ _ _ _ => l

/-- What a drop does to LATCH: a summary report remembers that it came after the latch (10 R171). -/
def Latch.dropped (l : Latch) : Latch :=
  match l with
  | .report b r lo _ => .report b r lo true
  | .summaryByte _ _ | .response _ | .notice _ _ | .marker => l

/-- A notice is offered to a port's list: merged, appended or dropped (09 R158). -/
def PortRec.offer (pr : PortRec) (k : NoticeKind) (sub : Subject) (d : Byte) : PortRec :=
  if pr.notices.any (fun n => n.is k sub) then
    { pr with
      notices := pr.notices.map (fun n => if n.is k sub then { n with detail := d, merge := min Config.mergeTop (n.merge + 1) } else n)
      latch := pr.latch.map (fun l => l.merged pr.notices.head? k sub) }
  else if pr.notices.length < Config.noticePlaces then
    { pr with notices := pr.notices ++ [⟨k, sub, d, 1⟩] }
  else
    { pr with noticeLost := true, latch := pr.latch.map Latch.dropped }

/-- A notice is posted to a port. -/
def State.post (s : State) (p : Port) (k : NoticeKind) (sub : Subject) (d : Byte) : State :=
  s.modPort p (fun pr => pr.offer k sub d)

/-- A notice is posted to each port that a condition names; each list takes its own posting (09 R153). -/
def State.postWhere (s : State) (who : Port → Bool) (k : NoticeKind) (sub : Subject) (d : Byte) : State :=
  let s₁ := if who .A then s.post .A k sub d else s
  if who .B then s₁.post .B k sub d else s₁

/-- The reference of an entry as it stands, as a subject (09 R152). -/
def State.subject (s : State) (h : Handle) : Subject := .entry h (s.entry h).gen

/-- A HEALTH notice of an entry, with the state entered as DETAIL (06 R120). -/
def State.postHealth (s : State) (h : Handle) (st : EntryState) : State :=
  s.postWhere (fun p => ((s.entry h).subs p).health) .health (s.subject h) (entryStateCode st)

/-! ## Orders that the spec leaves open -/

/-- The list `l` in the order that the picks give: each pick names the next element by its place among those left. -/
def arrange {α : Type} : List Nat → List α → List α
  | _, [] => []
  | [], l => l
  | n :: ns, x :: xs =>
    let l := x :: xs
    let i := n % l.length
    match l[i]? with
    | some y => y :: arrange ns (l.eraseIdx i)
    | none => l

/-- Several effects of one step in an order that nothing constrains (log entry 5): a free value. Where there are fewer than two
there is nothing to choose. -/
def State.anyOrder {α : Type} (s : State) (l : List α) : List α × State :=
  if l.length < 2 then (l, s) else (arrange (Config.order s.races) l, { s with races := s.races + 1 })

/-- The effects `f x` of the elements of `l`, taken in any order. -/
def State.forAnyOrder {α : Type} (s : State) (l : List α) (f : State → α → State) : State :=
  (s.anyOrder l).1.foldl f (s.anyOrder l).2

/-- The events that fall due, each once: those named in `first` in the order in which it first names them, then the others in their
own (log entry 4). -/
def preferring (first due : List Event) : List Event := due.insertionSort (fun a b => first.idxOf a ≤ first.idxOf b)

end Sys2Proof.Machine
end

