-- ==== Sys2Proof/Machine/Bus.lean ====
section
/-! DEFINITION. The bus engine: what each kind of transfer puts on the wire (02 R24, R25, 05 R94 to R98, 07 R134, 08 R144), how far a
transfer has come, the outcome of one that reaches its end (04 R88), and the recovery procedure (04 R89). -/

namespace Sys2Proof.Machine

/-! ## Addresses and offsets on the wire -/

/-- The first byte of the ten-bit form: 11110, bits 9 and 8 of ADDR, the direction (02 R24). -/
def tenFirst (addr : Nat) (rd : Bool) : Byte := byte (0xF0 + 2 * (addr / 256 % 4) + bit rd)

/-- The address phase with the write direction (02 R24, 05 R94). -/
def addrWrite (pl : Place) : List WireOp :=
  match pl.amode with
  | .seven => [.send .addr (byte (2 * pl.addr))]
  | .ten => [.send .addr (tenFirst pl.addr false), .send .addr (byte (pl.addr % 256))]

/-- The address phase with the read direction, after a write phase where the mode is TEN (05 R94). -/
def addrRead (pl : Place) : List WireOp :=
  match pl.amode with
  | .seven => [.send .addr (byte (2 * pl.addr + 1))]
  | .ten => [.send .addr (tenFirst pl.addr true)]

/-- The low OFFSETW bytes of OFFSET, most significant first (05 R94). -/
def offsetBytes (offsetw : Nat) (offset : BitVec 16) : List WireOp :=
  match offsetw with
  | 0 => []
  | 1 => [.send .offset (offset.setWidth 8)]
  | _ => [.send .offset ((offset >>> 8).setWidth 8), .send .offset (offset.setWidth 8)]

/-- The bytes received: every one but the last is acknowledged (05 R96, 02 R25). -/
def recvBytes (n : Nat) : List WireOp := (List.range n).map (fun i => .recv (i + 1 < n))

/-! ## The transfers -/

/-- The address probe, and so the watch probe, the survey probe and the PING (02 R24, 05 R98, 06 R124, 07 R134). -/
def probePlan (pl : Place) : List WireOp := addrWrite pl

/-- A read of `n` bytes of a descriptor: a one-byte offset whatever OFFSETW is (02 R25). -/
def descPlan (pl : Place) (off : Byte) (n : Nat) : List WireOp :=
  addrWrite pl ++ [.send .offset off, .restart] ++ addrRead pl ++ recvBytes n

/-- A read of `n` bytes at an offset: with OFFSETW 0 a plain read, which a TEN entry is first addressed for writing for
(05 R94, R96, 08 R144). -/
def readPlan (pl : Place) (offsetw : Nat) (offset : BitVec 16) (n : Nat) : List WireOp :=
  if offsetw = 0 ∧ pl.amode = .seven then addrRead pl ++ recvBytes n
  else addrWrite pl ++ offsetBytes offsetw offset ++ [.restart] ++ addrRead pl ++ recvBytes n

/-- A write of bytes at an offset (05 R95). -/
def writePlan (pl : Place) (offsetw : Nat) (offset : BitVec 16) (data : List Byte) : List WireOp :=
  addrWrite pl ++ offsetBytes offsetw offset ++ data.map (.send .data)

/-- The transfer of a host transaction, without its first start or repeated start (05 R95 to R98). -/
def txPlan (pl : Place) (d : Desc) (t : HostTx) : List WireOp :=
  match t.kind with
  | .write => writePlan pl d.offsetw t.offset t.wdata
  | .read => readPlan pl d.offsetw t.offset t.rlen
  | .writeRead => writePlan pl d.offsetw t.offset t.wdata ++ [.restart] ++ addrRead pl ++ recvBytes t.rlen
  | .ping => probePlan pl

/-- The sweep read: one byte at STATUSOFF (08 R144). -/
def sweepPlan (pl : Place) (d : Desc) : List WireOp := readPlan pl d.offsetw (d.statusoff.setWidth 16) 1

/-- The transfer of an admission's STEP; the body read starts at the descriptor offset plus 1, taken in one byte, and reads
SIZE−1 bytes (02 R24, R25). -/
def admPlan (pl : Place) (descoff : Byte) (a : AdmRec) : List WireOp :=
  match a.step with
  | .probe => probePlan pl
  | .sizeRead => descPlan pl descoff 1
  | .bodyRead => descPlan pl (descoff + 1) ((a.size.getD 0).toNat - 1)

/-! ## How far a transfer has come -/

/-- The kinds of the bytes a transfer sends, in order. -/
def sends (plan : List WireOp) : List ByteKind :=
  plan.filterMap (fun o => match o with
    | .send k _ => some k
    | .start | .restart | .recv _ => none)

/-- The number of bytes a transfer receives. -/
def recvs (plan : List WireOp) : Nat :=
  (plan.filter (fun o => match o with
    | .recv _ => true
    | .start | .restart | .send _ _ => false)).length

/-- WRITTEN: the data bytes among the first `acked` bytes sent (05 R95, R97, R102). -/
def writtenOf (plan : List WireOp) (acked : Nat) : Nat := ((sends plan).take acked).count .data

/-- Whether the write phase has been acknowledged in full: there are data bytes, and the last of them is
acknowledged (05 R105). -/
def writePhaseDone (plan : List WireOp) (acked : Nat) : Bool :=
  0 < (sends plan).count .data && writtenOf plan acked == (sends plan).count .data

/-- The transfer on the bus has come this far: no further than its plan goes, and no byte is received before every byte sent is
acknowledged (log entry 6). -/
def Current.advance (c : Current) (pr : Progress) : Current :=
  let n := (sends c.plan).length
  { c with acked := min pr.acked n, rx := if n ≤ pr.acked then pr.rx.take (recvs c.plan) else [] }

/-- The bytes a completed transfer received: a byte that the event does not give is read as FFH, for the data line is high
while nobody drives it (log entry 6). -/
def receivedAll (plan : List WireOp) (rx : List Byte) : List Byte := (List.range (recvs plan)).map (fun i => rx.getD i 0xFF)

/-! ## Outcomes (04 R88) -/

/-- How a transfer ends. -/
inductive Outcome where
  | ok
  | addrNack
  | dataNack
  | clockTimeout
  | arbLost
  | busBusy
  | busStuck
  | aborted
deriving DecidableEq, Repr

/-- The status of a work that ended so (05 R102). -/
def Outcome.status : Outcome → Status
  | .ok => .ok
  | .addrNack => .addrNack
  | .dataNack => .dataNack
  | .clockTimeout => .clockTimeout
  | .arbLost => .arbLost
  | .busBusy => .busBusy
  | .busStuck => .busStuck
  | .aborted => .aborted

/-- An outcome that is a success report (04 R88, 06 R117). -/
def Outcome.isSuccess : Outcome → Bool
  | .ok | .dataNack => true
  | .addrNack | .clockTimeout | .arbLost | .busBusy | .busStuck | .aborted => false

/-- An outcome that is a failure report (04 R88, 06 R117). -/
def Outcome.isFailure : Outcome → Bool
  | .addrNack | .clockTimeout => true
  | .ok | .dataNack | .arbLost | .busBusy | .busStuck | .aborted => false

/-- A transfer that reaches its end: its outcome and how far it came. A byte that is not acknowledged gives ADDR_NACK where it is an
address byte and DATA_NACK where it is an offset or data byte (05 R95 to R98). `none` where the transfer sends no byte
of that number, so that no such end can come. -/
def Current.ended (c : Current) (e : TransferEnd) : Option (Outcome × Progress) :=
  match e with
  | .done rx => some (.ok, ⟨(sends c.plan).length, receivedAll c.plan rx⟩)
  | .nack k =>
    match (sends c.plan)[k]? with
    | some .addr => some (.addrNack, ⟨k, []⟩)
    | some .offset | some .data => some (.dataNack, ⟨k, []⟩)
    | none => none

/-! ## Recovery (04 R89) -/

/-- After the procedure has begun to pulse: what it sees after each of the pulses that are left. -/
def pulses : Nat → List LineObs → Option Bool
  | 0, _ => some false
  | _ + 1, [] => none
  | n + 1, o :: rest =>
    match o with
    | .dataHigh => some true
    | .clockLow => some false
    | .dataLow => pulses n rest

/-- The recovery procedure: whether it succeeds, from what it sees each time it looks; `none` while it has not ended. First it waits
for the clock and looks at the data line; then it gives up to nine pulses (04 R89). -/
def recover : List LineObs → Option Bool
  | [] => none
  | .dataHigh :: _ => some true
  | .clockLow :: _ => some false
  | .dataLow :: rest => pulses 9 rest

end Sys2Proof.Machine
end

