-- ==== Sys2Proof/Machine/ClaimUnit.lean ====
section
/-! DEFINITION. The claim unit's shared operations: access rights (03 R44), the waiter's re-evaluation and grant (03 R54), the removal of a
holder record, and the dropping of an entry's claims (03 R64). -/

namespace Sys2Proof.Machine

/-- The right of a port to a host transfer on an entry: `none` where it is allowed, else the refusal (03 R44). -/
def Entry.right (e : Entry) (p : Port) (k : TxKind) : Option Status :=
  match e.claim with
  | .none => none
  | .exclusive => if (e.holder p).isSome then none else some .held
  | .shared =>
    match k with
    | .write | .writeRead => some .sharedReadonly
    | .read | .ping => none

/-- A port's holder record is removed; CLAIM becomes NONE if no holder remains (03 R58, R62, R65). -/
def Entry.dropHolder (e : Entry) (p : Port) : Entry :=
  let e₁ := e.setHolder p none
  { e₁ with claim := if e₁.holderA.isNone && e₁.holderB.isNone then .none else e₁.claim }

/-- The claims and the waiter of an entry are gone (03 R64). -/
def Entry.noClaims (e : Entry) : Entry := { e with claim := .none, holderA := none, holderB := none, waiter := none }

/-- Whether the waiter's mode is compatible with the other port's holding (03 R54). -/
def Entry.compatible (e : Entry) (w : Waiter) : Bool :=
  match w.mode with
  | .exclusive => (e.holder w.port.other).isNone
  | .shared => !((e.holder w.port.other).isSome && e.claim == .exclusive)

/-- The entry once its waiter is granted: for EXCLUSIVE the waiter's port is the sole holder, for SHARED it is added
(03 R54). -/
def Entry.grantTo (e : Entry) (w : Waiter) : Entry :=
  let held : Holder := ⟨w.leasereq, w.leasereq⟩
  match w.mode with
  | .exclusive => { ((e.setHolder w.port.other none).setHolder w.port (some held)) with claim := .exclusive, waiter := none }
  | .shared => { (e.setHolder w.port (some held)) with claim := .shared, waiter := none }

/-- Whether the entry has a waiter that can be granted now (03 R54). -/
def Entry.waiterReady (e : Entry) : Bool := e.waiter.any e.compatible

/-- The WAITER, if there is one, is re-evaluated: found compatible it is granted and its deferred CLAIM answered OK; else it stays
(03 R54). -/
def State.reevaluate (s : State) (h : Handle) : State :=
  match (s.entry h).waiter with
  | none => s
  | some w =>
    if (s.entry h).compatible w then
      (s.modEntry h (fun e => e.grantTo w)).respond w.port w.tag .ok [claimCode w.mode.claim, byte w.leasereq]
    else s

/-- The claims of an entry are dropped: each holder but the one spared is posted CLAIM_DROPPED for the reference as it stands, CLAIM becomes
NONE, HOLDERS empty, and the WAITER is answered GONE (01 R12, R14, 02 R41, 03 R64). -/
def State.dropClaims (s : State) (h : Handle) (spared : Option Port) : State :=
  let e := s.entry h
  let s₁ := s.postWhere (fun p => (e.holder p).isSome && spared != some p) .claimDropped (s.subject h) (claimCode e.claim)
  let s₂ := s₁.modEntry h Entry.noClaims
  match e.waiter with
  | some w => s₂.respond w.port w.tag .gone []
  | none => s₂

/-- CLAIM and the holding ports, which the HELD, BUSY and TIMED_OUT answers of CLAIM carry (03 R52, R55, 11 R181). -/
def claimResult (e : Entry) : List Byte := [claimCode e.claim, holdersCode e]

end Sys2Proof.Machine
end

