-- ==== Sys2Proof/Machine/DirectoryOps.lean ====
section
/-! DEFINITION. The directory's shared operations: taking an entry (01 R9), its return to VACANT (01 R12), the fall of INFLIGHT (01 R11)
and the end of a retire (01 R15). -/

namespace Sys2Proof.Machine

/-- The entry enters VACANT: its claims are dropped, GEN increases by 1, every field takes its cleared value, and the entry leaves
the index (01 R6, R12). -/
def State.enterVacant (s : State) (h : Handle) : State :=
  let g := (s.entry h).gen
  (s.dropClaims h none).setEntry h (Entry.vacant (g + 1))

/-- The end of a retire: the RETIRING entry enters VACANT and the deferred RETIRE is answered OK (01 R15). -/
def State.completeRetire (s : State) (h : Handle) : State :=
  let owner := (s.entry h).retire
  (s.enterVacant h).respondTo owner .ok []

/-- Whether a retire is to complete now (01 R15). -/
def Entry.drained (e : Entry) : Bool := e.state == .retiring && e.inflight == 0

/-- INFLIGHT falls by 1; where that brings a RETIRING entry to 0 the retire completes (01 R11, R15). -/
def State.fall (s : State) (h : Handle) : State :=
  let s₁ := s.modEntry h Entry.lower
  if (s₁.entry h).drained then s₁.completeRetire h else s₁

/-- The taking of an entry: its starting values, its place in the index, and the admission record with the address probe planned
(01 R9, 02 R22, R32). GEN stays. -/
def Entry.taken (e : Entry) (pl : Place) (subsA subsB : EntryMask) (source : AdmSource) : Entry :=
  { Entry.vacant e.gen with
    state := .probing, place := some pl, subsA := subsA, subsB := subsB, inflight := 1,
    adm := some ⟨.first, .probe, source, none, none, .waiting⟩ }

end Sys2Proof.Machine
end

