-- ==== Sys2Proof/Machine/HealthMonitor.lean ====
section
/-! DEFINITION. The health monitor's shared operations: answering a watch (06 R119, R125 to R127, 11 R181), failure and success reports
(06 R118, R119). -/

namespace Sys2Proof.Machine

/-- Whether a watch's answer of this status carries result bytes (11 R181). -/
def watchCarries : Status → Bool
  | .ok | .replaced | .watchExpired | .aborted => true
  | _ => false

/-- The result bytes of a watch's answer: HANDLE, GEN, STATE, PROBES, AUX (11 R181). -/
def watchResult (h : Handle) (e : Entry) (probes : Nat) (aux : Byte) : List Byte :=
  [byte h.val, byte e.gen.val, entryStateCode e.state, byte probes, aux]

/-- The WATCH is removed; a probe that is DUE is withdrawn and INFLIGHT falls by 1, one that is ACTIVE stays counted
(06 R127). -/
def Entry.endWatch (e : Entry) : Entry :=
  match e.watch with
  | some w => if w.probe = .due then { e.lower with watch := none } else { e with watch := none }
  | none => e

/-- The watch of an entry, if there is one, is answered and removed (06 R127). -/
def State.answerWatch (s : State) (h : Handle) (st : Status) (aux : Byte) : State :=
  match (s.entry h).watch with
  | some w =>
    let s₁ := s.modEntry h Entry.endWatch
    s₁.respond w.port w.tag st (if watchCarries st then watchResult h (s₁.entry h) w.probes aux else [])
  | none => s

/-- The entry becomes LOST with FAILS 0, and HEALTH is posted (06 R116, R118, R120, R121). -/
def State.becomeLost (s : State) (h : Handle) : State :=
  (s.modEntry h (fun e => { e with state := .lost, fails := 0 })).postHealth h .lost

/-- A failure report (06 R117, R118). On an entry that is neither PRESENT nor SUSPECT it changes nothing. -/
def State.failureReport (s : State) (h : Handle) : State :=
  let e := s.entry h
  if e.reachable then
    if s.threshold ≤ e.fails + 1 then s.becomeLost h
    else
      let s₁ := s.modEntry h (fun e => { e with state := .suspect, fails := e.fails + 1 })
      if e.state = .present then s₁.postHealth h .suspect else s₁
  else s

/-- A success report (06 R117, R119): a SUSPECT entry becomes PRESENT with its HEALTH notice, and its watch is answered OK with HOW
RECOVERED. -/
def State.successReport (s : State) (h : Handle) : State :=
  if (s.entry h).state = .suspect then
    ((s.modEntry h (fun e => { e with state := .present, fails := 0 })).postHealth h .present).answerWatch h .ok howRecovered
  else s

/-- The report that an outcome gives on an entry, or none (04 R88, 06 R117). -/
def State.report (s : State) (h : Handle) (o : Outcome) : State :=
  if o.isSuccess then s.successReport h else if o.isFailure then s.failureReport h else s

end Sys2Proof.Machine
end

