-- ==== Sys2Proof/Machine/AdmissionUnit.lean ====
section
/-! DEFINITION. The admission unit's shared operations: how a first admission and a re-admission begin, go on and end (02 R22 to R42). -/

namespace Sys2Proof.Machine

/-- DMODE of an entry (01 R1). -/
def Entry.dmode (e : Entry) : DMode := (e.place.map Place.dmode).getD .none

/-- The transfer of a STEP is planned: it waits as background work and counts in INFLIGHT (02 R23). -/
def Entry.plan (e : Entry) (a : AdmRec) : Entry := { e.rise with adm := some { a with planned := .waiting } }

/-- A re-admission begins: the entry becomes PROBING, its address probe is planned, and a watch's probe that is DUE is withdrawn
(02 R38, 06 R126). -/
def State.beginReadmission (s : State) (h : Handle) (source : AdmSource) : State :=
  s.modEntry h (fun e =>
    let e₁ := match e.watch with
      | some w => if w.probe = WatchProbe.due then { e.lower with watch := some { w with probe := .none } } else e
      | none => e
    Entry.plan { e₁ with state := .probing, fails := 0 } ⟨.re, .probe, source, none, none, .waiting⟩)

/-- The SOURCE of a first admission that fails or is ended is told: an ADMIT by its deferred response, a survey's requester by ADMIT_FAILED
(01 R14, 02 R34 to R37). -/
def State.tellFailure (s : State) (a : Option AdmRec) (pl : Option Place) (st : Status) : State :=
  match a.map AdmRec.source, pl with
  | some (.byAdmit owner), _ => s.respondTo owner st []
  | some (.survey (some p)), some pl => s.post p .admitFailed (.segment pl.seg) (byte pl.addr)
  | _, _ => s

/-- A first admission fails or is ended: the entry enters VACANT, and its SOURCE is told (02 R34, R35). -/
def State.failFirst (s : State) (h : Handle) (st : Status) : State :=
  (s.enterVacant h).tellFailure (s.entry h).adm (s.entry h).place st

/-- A first admission ends PRESENT: FAILS 0, DESC and DSRC set, the record removed, and the result given to the SOURCE (02 R33, R37). -/
def State.endFirst (s : State) (h : Handle) (a : AdmRec) (d : Desc) (src : DSrc) : State :=
  let s₁ := s.modEntry h (fun e => { e with state := .present, fails := 0, desc := d, dsrc := src, adm := none })
  match a.source with
  | .byAdmit (some (p, t)) =>
    s₁.enqueue p ⟨t, .ok, false, src == .short || src == .defaulted, [byte h.val, byte (s₁.entry h).gen.val, dsrcCode src]⟩
  | .survey (some p) => s₁.post p .admitted (s₁.subject h) (dsrcCode src)
  | .byAdmit none | .survey none | .watch | .surveyReappear => s₁

/-- A re-admission ends REAPPEARED (02 R39, R40, 06 R126). -/
def State.endReappeared (s : State) (h : Handle) (d : Desc) (src : DSrc) : State :=
  let s₁ := s.modEntry h (fun e => { e with state := .present, fails := 0, desc := d, dsrc := src, adm := none })
  let s₂ := s₁.postWhere (fun p => ((s₁.entry h).subs p).health) .reappeared (s₁.subject h) (dsrcCode src)
  s₂.answerWatch h .ok howReappeared

/-- A re-admission ends REPLACED: the claims are dropped under the old reference, GEN increases, the new DESC is adopted, the entry is PRESENT,
REPLACED is posted under the new reference, and the watch is answered (02 R41, 06 R126). -/
def State.endReplaced (s : State) (h : Handle) (d : Desc) (src : DSrc) : State :=
  let old := (s.entry h).gen
  let s₁ := s.dropClaims h none
  let s₂ := s₁.modEntry h (fun e => { e with gen := e.gen + 1, state := .present, fails := 0, desc := d, dsrc := src, adm := none })
  let s₃ := s₂.postWhere (fun p => ((s₂.entry h).subs p).identity) .replaced (s₂.subject h) (byte old.val)
  s₃.answerWatch h .replaced (byte old.val)

/-- A re-admission's address probe failed: the entry returns to LOST, and a watch on it expires or goes on from a fresh interval
(02 R39, 06 R126). -/
def State.failRe (s : State) (h : Handle) : State :=
  let s₁ := s.modEntry h (fun e => { e with state := .lost, fails := 0, adm := none })
  match (s₁.entry h).watch with
  | some w =>
    if w.remaining = 0 then s₁.answerWatch h .watchExpired 0x00
    else s₁.modEntry h (fun e => { e with watch := some { w with probe := .none, nextdue := w.interval } })
  | none => s₁

/-- An admission reaches its end without failure, with the DESC and DSRC read: the end of a first admission, or the comparison of
identities of a re-admission (02 R33, R39 to R41). -/
def State.endAdmission (s : State) (h : Handle) (a : AdmRec) (d : Desc) (src : DSrc) : State :=
  let e := s.entry h
  match a.kind with
  | .first => s.endFirst h a d src
  | .re =>
    if e.dmode = .none then s.endReappeared h e.desc .none
    else if e.desc.sameIdentity d then s.endReappeared h d src
    else s.endReplaced h d src

/-- An admission whose address probe failed (02 R34, R39). -/
def State.failAdmission (s : State) (h : Handle) (a : AdmRec) (st : Status) : State :=
  match a.kind with
  | .first => s.failFirst h st
  | .re => s.failRe h

/-- What an admission transfer's end does to its admission; INFLIGHT has fallen for it already (02 R24 to R26). -/
def State.admissionNext (s : State) (h : Handle) (a : AdmRec) (o : Outcome) (rx : List Byte) : State :=
  match o with
  | .ok =>
    match a.step with
    | .probe =>
      if (s.entry h).dmode = .none then s.endAdmission h a {} .none
      else s.modEntry h (fun e => e.plan { a with step := .sizeRead })
    | .sizeRead =>
      let size := rx.getD 0 0
      if 2 ≤ size.toNat ∧ size.toNat ≤ 18 then s.modEntry h (fun e => e.plan { a with step := .bodyRead, size := some size })
      else
        let r := readDesc size []
        s.endAdmission h { a with size := some size } r.1 r.2
    | .bodyRead =>
      let whole := { a with body := some rx }
      let r := readDesc (whole.size.getD 0) (whole.body.getD [])
      s.endAdmission h whole r.1 r.2
  | .aborted => s.modEntry h (fun e => e.plan a)
  | .busStuck =>
    match a.kind with
    | .first => s.failFirst h .busStuck
    | .re => s.modEntry h (fun e => e.plan a)
  | .addrNack | .dataNack | .clockTimeout | .arbLost | .busBusy =>
    match a.step with
    | .probe => s.failAdmission h a o.status
    | .sizeRead | .bodyRead => s.endAdmission h a {} .defaulted

end Sys2Proof.Machine
end

