-- ==== Sys2Proof/Machine/SegmentOps.lean ====
section
/-! DEFINITION. The segment controllers' shared operations that need no arbiter: the answer of a survey (07 R138), the completion of a host transaction
(05 R102, R113), the end of a hold (05 R111, R112), the start and end of a sweep (08 R142, R147, R150), what going STUCK
and going OFF do (04 R91, R73). -/

namespace Sys2Proof.Machine

/-! ## Surveys -/

/-- The segment and range, NEXT and the four counts of a survey's answer (07 R138, 11 R181). -/
def surveyResult (g : Seg) (c : Cursor) : List Byte :=
  [byte g.val, byte c.low, byte c.high, byte c.next, byte c.found, byte c.reappeared, byte c.missing, byte c.full]

/-- The running survey, if there is one, is answered and its cursor removed (07 R138). -/
def State.answerSurvey (s : State) (g : Seg) (st : Status) : State :=
  match (s.seg g).survey with
  | some c => (s.modSeg g (fun r => { r with survey := none })).respond c.port c.tag st (surveyResult g c)
  | none => s

/-! ## Host transactions -/

/-- The result bytes of a host transaction's response (05 R102, 11 R181). -/
def txResult (k : TxKind) (written : Nat) (rx : List Byte) : List Byte :=
  match k with
  | .write => [byte written]
  | .read => byte rx.length :: rx
  | .writeRead => byte written :: byte rx.length :: rx
  | .ping => []

/-- A host transaction, already out of HOSTQ, is answered: its response carries CHAIN_BROKEN if CHAINBRK of its port on its entry
is set, which is cleared, or if `broken` (05 R102, R113, R114). It is discarded for a port that has been reset
(05 R102). -/
def State.answerTx (s : State) (t : HostTx) (st : Status) (written : Nat) (rx : List Byte) (broken : Bool) : State :=
  let flag := (s.entry t.handle).chain t.port
  let s₁ := if t.orphan then s else s.enqueue t.port ⟨t.tag, st, flag || broken, false, txResult t.kind written rx⟩
  s₁.modEntry t.handle (fun e => e.setChain t.port false)

/-- A host transaction completes without the bus: it leaves HOSTQ, is answered, and its entry's INFLIGHT falls (05 R101,
R102). -/
def State.completeAt (s : State) (g : Seg) (i : Nat) (t : HostTx) (st : Status) : State :=
  ((s.modSeg g (fun r => { r with hostq := r.hostq.eraseIdx i })).answerTx t st 0 [] false).fall t.handle

/-- Every host transaction in HOSTQ completes, oldest first (04 R73 step 2, R75 step 2, R91 step 1). -/
def State.completeAll (s : State) (g : Seg) (st : Status) : State :=
  (s.seg g).hostq.foldl (fun s t => (s.answerTx t st 0 [] false).fall t.handle) (s.modSeg g (fun r => { r with hostq := [] }))

/-! ## Holds -/

/-- A hold ends: HOLD becomes absent, the lines are left as given, and where `brk` CHAINBRK of HOLDPORT on HOLDENTRY is set
(05 R111, R112). The segment's new state is set by the event's own rule. -/
def State.dropHold (s : State) (g : Seg) (lines : LineEnd) (brk : Bool) : State :=
  match (s.seg g).hold with
  | some ho =>
    let s₁ := s.modSeg g (fun r => { r with hold := none, lines := lines })
    if brk then s₁.modEntry ho.entry (fun e => e.setChain ho.port true) else s₁
  | none => s

/-- A hold ends with a stop condition and leaves the segment IDLE (05 R111, R112). -/
def State.endHold (s : State) (g : Seg) (brk : Bool) : State :=
  (s.modSeg g (fun r => { r with state := .idle })).dropHold g .stop brk

/-- Whether a segment is HELD by a chain that a test on its hold picks out. -/
def Segment.heldBy (r : Segment) (f : Hold → Bool) : Bool := r.state == .held && r.hold.any f

/-! ## Sweeps -/

/-- The unit follows its input (08 R142). -/
def Segment.following (r : Segment) : Bool := r.config.attnen && r.state != .off

/-- An IDLE unit that follows an asserted input starts a sweep, if its segment is not STUCK (08 R142). -/
def Segment.startSweep (r : Segment) : Segment :=
  if r.following && r.sattn && r.sweep.state == .idle && r.state != .stuck then
    { r with sweep := ⟨.sweeping, some 0, 0, 0, 0⟩ }
  else r

/-- A sweep is ended early, or a DISARMED unit armed: IDLE, no cursor, no interval (08 R150). -/
def Segment.armSweep (r : Segment) : Segment :=
  { r with sweep := { r.sweep with state := .idle, cursor := none, rearmleft := 0 } }

/-- A sweep that is running is ended early by its segment going STUCK; a DISARMED unit stays so (08 R150). -/
def Segment.stickSweep (r : Segment) : Segment := if r.sweep.state = .sweeping then r.armSweep else r

/-- Whether the sweep would read the entry: PRESENT or SUSPECT, on the segment, ATTN_CAPABLE (08 R143). -/
def Entry.sweepable (e : Entry) (g : Seg) : Bool := e.reachable && e.onSeg g && e.desc.attnCapable

/-- The candidate of a sweep: the entry of lowest handle, at or above CURSOR, that it would read (08 R143). -/
def State.candidate (s : State) (g : Seg) : Option Handle :=
  handles.find? (fun h => ((s.seg g).sweep.cursor.getD 0) ≤ h.val && (s.entry h).sweepable g)

/-- A sweep reaches its end: ORPHAN_ATTENTION where HITS is 0, CURSOR absent, and the unit armed or DISARMED by the level of the
input (08 R147). -/
def State.endSweep (s : State) (g : Seg) : State :=
  let sw := (s.seg g).sweep
  let s₁ :=
    if sw.hits = 0 then
      s.postWhere (fun p => (s.port p).segMasks[g.val].attention) .orphanAttention (.segment g) (byte sw.reads)
    else s
  s₁.modSeg g (fun r => { r with sweep :=
    if r.sattn then { r.sweep with state := .disarmed, cursor := none, rearmleft := r.config.rearm }
    else { r.sweep with state := .idle, cursor := none, rearmleft := 0 } })

/-! ## Admissions of a segment -/

/-- Whether the entry is under admission of a kind on a segment (02 R22). -/
def Entry.admits (e : Entry) (g : Seg) (k : AdmKind) : Bool :=
  e.state == .probing && e.onSeg g && e.adm.any (fun a => a.kind == k)

/-- The handles under admission of a kind on a segment. -/
def State.admitting (s : State) (g : Seg) (k : AdmKind) : List Handle := handles.filter (fun h => (s.entry h).admits g k)

/-- A re-admission is ended by segment disable: the entry returns to LOST and a planned transfer is withdrawn (02 R42). -/
def Entry.cancelRe (e : Entry) : Entry :=
  let e₁ := if e.adm.any (fun a => a.planned == .waiting) then e.lower else e
  { e₁ with state := .lost, fails := 0, adm := none }

/-! ## Going STUCK and going OFF -/

/-- A segment becomes STUCK (04 R91). `cause` is the DETAIL of SEGMENT_STUCK (09 R153). -/
def State.becomeStuck (s : State) (g : Seg) (cause : Byte) : State :=
  let s₁ := s.modSeg g (fun r => { r with state := .stuck, current := none, lines := .released })
  let s₂ := s₁.completeAll g .busStuck
  let s₃ := s₂.answerSurvey g .busStuck
  let s₄ := s₃.modSeg g Segment.stickSweep
  let s₅ := s₄.forAnyOrder (s₄.admitting g .first) (fun s h => s.failFirst h .busStuck)
  s₅.postWhere (fun p => (s₅.port p).segMasks[g.val].fault) .segmentStuck (.segment g) cause

/-- The handles of a segment's entries that have a WATCH. -/
def State.watched (s : State) (g : Seg) : List Handle := handles.filter (fun h => (s.entry h).onSeg g && (s.entry h).watch.isSome)

/-- The lines once a segment goes OFF: a hold's end sends a stop if the clock line, once released, stands high; a recovery is abandoned with the
lines released (04 R73 steps 5, 6, 9). -/
def Segment.offLines (r : Segment) (clockHigh : Bool) : LineEnd :=
  match r.state with
  | .held => if clockHigh then .stop else .released
  | .recovering => .released
  | .off | .idle | .active | .stuck => r.lines

/-- Going OFF, with the steps of 04 R73. Where a DISABLE was pending its requester is answered; else `owner` is the requester of the
DISABLE that is being taken. -/
def State.goOff (s : State) (g : Seg) (clockHigh : Bool) (owner : Option (Port × Tag)) : State :=
  let s₁ := s.modSeg g (fun r => { r with state := .off, pendcmd := none, current := none, lines := r.offLines clockHigh })
  let s₂ := s₁.completeAll g .segmentOff
  let s₃ := s₂.answerSurvey g .segmentOff
  let s₄ := s₃.modSeg g Segment.armSweep
  let s₅ := s₄.dropHold g (s₄.seg g).lines true
  let s₆ := s₅.forAnyOrder (s₅.watched g) (fun s h => s.answerWatch h .segmentOff 0x00)
  let s₇ := s₆.forAnyOrder (s₆.admitting g .first) (fun s h => s.failFirst h .segmentOff)
  let s₈ := (s₇.admitting g .re).foldl (fun s h => s.modEntry h Entry.cancelRe) s₇
  s₈.respondTo owner .ok []

end Sys2Proof.Machine
end

