-- ==== Sys2Proof/Machine/Arbiter.lean ====
section
/-! DEFINITION. The arbiter of a segment: what is eligible, the dispatch recheck, the grants, and the choice (04 R79 to R84, 05 R101, R106,
R110, 07 R133, 08 R143, R144). -/

namespace Sys2Proof.Machine

/-! ## BACKGROUND (04 R80) -/

/-- Whether the entry has a planned admission transfer in BACKGROUND (04 R80). -/
def Entry.admWaiting (e : Entry) : Bool := e.adm.any (fun a => a.planned == .waiting)

/-- Whether the entry has a watch probe in BACKGROUND (04 R80). -/
def Entry.watchDue (e : Entry) : Bool := e.watch.any (fun w => w.probe == .due)

/-- Whether the segment's survey has its probe in BACKGROUND (04 R80, 07 R131). -/
def Segment.surveyWaiting (r : Segment) : Bool := r.survey.any (fun c => c.probe == .waiting)

/-- An item of BACKGROUND (04 R80). -/
inductive BgItem where
  | admission (h : Handle)
  | watch (h : Handle)
  | survey (a : Nat)
deriving DecidableEq, Repr

/-- BACKGROUND of a segment: the work of its own that waits for the bus (04 R67, R80; log entry 11). -/
def State.background (s : State) (g : Seg) : List BgItem :=
  (handles.filter (fun h => (s.entry h).onSeg g && (s.entry h).admWaiting)).map .admission ++
  (handles.filter (fun h => (s.entry h).onSeg g && (s.entry h).watchDue)).map .watch ++
  match (s.seg g).survey with
  | some c => if c.probe = .waiting then [.survey c.next] else []
  | none => []

/-! ## The dispatch recheck (05 R101) -/

/-- What a limit of the descriptor says against a transfer: TOO_LONG, then NO_CHAIN (05 R99 checks 5 and 6, R101 check 4). -/
def Desc.limits (d : Desc) (wlen rlen : Nat) (chain : Bool) : Option Status :=
  if d.maxburst < wlen ∨ d.maxburst < rlen then some .tooLong
  else if chain ∧ ¬ d.chainCapable then some .noChain
  else none

/-- The status that the entry's STATE gives a host transfer, or none (01 R3). -/
def EntryState.transferStatus : EntryState → Option Status
  | .present | .suspect => none
  | .probing => some .notReady
  | .lost => some .lost
  | .retiring => some .gone
  | .vacant => some .stale

/-- The dispatch recheck: the status of the first check that fails, or none (05 R101). -/
def State.recheck (s : State) (t : HostTx) : Option Status :=
  let e := s.entry t.handle
  if e.gen ≠ t.gen then some .stale
  else match e.state.transferStatus with
    | some st => some st
    | none =>
      match e.right t.port t.kind with
      | some _ => some .claimLost
      | none => e.desc.limits t.wdata.length t.rlen t.chain

/-! ## Grants -/

/-- A transfer as it stands when it is granted the bus. -/
def Current.begin (k : CurKind) (h : Option Handle) (followOn : Bool) (plan : List WireOp) : Current :=
  { kind := k, entry := h, plan := (if followOn then WireOp.restart else WireOp.start) :: plan, acked := 0, rx := [], lost := 0,
    followOn := followOn, restart := followOn, recovering := false, claimEnded := false }

/-- The bus is granted: CURRENT is set and the segment becomes ACTIVE (04 R82). -/
def Segment.grant (r : Segment) (c : Current) : Segment := { r with state := .active, current := some c }

/-- The plan of a transfer to an entry; an entry out of use has no place to address. -/
def Entry.wire (e : Entry) (f : Place → List WireOp) : List WireOp := (e.place.map f).getD []

/-- A host transaction is granted: NEXTCLASS becomes BACKGROUND, and a hold it follows on becomes absent (04 R83, 05 R110). -/
def State.grantHost (s : State) (g : Seg) (i : Nat) (t : HostTx) (followOn : Bool) : State :=
  let e := s.entry t.handle
  s.modSeg g (fun r =>
    { r.grant (Current.begin .host (some t.handle) followOn (e.wire (fun pl => txPlan pl e.desc t))) with
      hostq := r.hostq.set i { t with active := true }, hold := none, nextclass := .background })

/-- An admission transfer is granted (02 R23, 04 R83). -/
def State.grantAdmission (s : State) (g : Seg) (h : Handle) : State :=
  match (s.entry h).adm with
  | some a =>
    (s.modEntry h (fun e => { e with adm := some { a with planned := .active } })).modSeg g (fun r =>
      { r.grant (Current.begin .admission (some h) false ((s.entry h).wire (fun pl => admPlan pl r.config.descoff a))) with
        nextclass := .host })
  | none => s

/-- A watch probe is granted (06 R124, 04 R83). -/
def State.grantWatch (s : State) (g : Seg) (h : Handle) : State :=
  (s.modEntry h (fun e => { e with watch := e.watch.map (fun w => { w with probe := .active }) })).modSeg g (fun r =>
    { r.grant (Current.begin .watch (some h) false ((s.entry h).wire probePlan)) with nextclass := .host })

/-- The survey's probe of NEXT is granted: NAMED is set to the listed entry, whose INFLIGHT rises (07 R133). -/
def State.grantSurvey (s : State) (g : Seg) (c : Cursor) : State :=
  let named := s.find g .seven c.next
  let s₁ := match named with
    | some h => s.modEntry h Entry.rise
    | none => s
  s₁.modSeg g (fun r =>
    { r.grant (Current.begin .survey named false (probePlan ⟨g, .seven, c.next, .survey, .fetch⟩)) with
      survey := some { c with probe := .active, named := named }, nextclass := .host })

/-- A sweep read is granted: it counts in INFLIGHT, and NEXTCLASS stays (08 R144). -/
def State.grantSweep (s : State) (g : Seg) (h : Handle) : State :=
  (s.modEntry h Entry.rise).modSeg g (fun r =>
    r.grant (Current.begin .sweep (some h) false ((s.entry h).wire (fun pl => sweepPlan pl (s.entry h).desc))))

/-! ## The background class (04 R83) -/

/-- Whether the survey's probe of an address is passed over: the place of a listed SEVEN entry that is PROBING, RETIRING or settling
(04 R83, 07 R133). -/
def State.passedOver (s : State) (g : Seg) (a : Nat) : Bool :=
  match s.find g .seven a with
  | some h => (s.entry h).state == .probing || (s.entry h).state == .retiring || (s.entry h).settling
  | none => false

/-- The first address from `a` on, out of the next `n`, that is not passed over; `a + n` where all are (07 R133). -/
def State.walk (s : State) (g : Seg) : Nat → Nat → Nat
  | 0, a => a
  | n + 1, a => if s.passedOver g a then s.walk g n (a + 1) else a

/-- The survey offers its probe. Addresses that are passed over are judged with no count; past HIGH the survey is answered OK. The flag says whether
the bus was granted (07 R133). -/
def State.offerSurvey (s : State) (g : Seg) : State × Bool :=
  match (s.seg g).survey with
  | none => (s, false)
  | some c =>
    if c.probe = .active then (s, false)
    else
      let c₁ := { c with next := s.walk g (c.high + 1 - c.next) c.next }
      let s₁ := s.modSeg g (fun r => { r with survey := some c₁ })
      if c.high < c₁.next then (s₁.answerSurvey g .ok, false) else (s₁.grantSurvey g c₁, true)

/-- The admission transfer that comes first: the lowest handle whose entry is not settling (04 R83). -/
def State.pickAdmission (s : State) (g : Seg) : Option Handle :=
  handles.find? (fun h => (s.entry h).onSeg g && (s.entry h).admWaiting && !(s.entry h).settling)

/-- The due watch probe that comes first: the lowest handle whose entry is not settling (04 R83). -/
def State.pickWatch (s : State) (g : Seg) : Option Handle :=
  handles.find? (fun h => (s.entry h).onSeg g && (s.entry h).watchDue && !(s.entry h).settling)

/-- The background class is tried: an admission transfer, a due watch probe, the survey's next probe (04 R83). The flag says whether the bus
was granted. -/
def State.tryBackground (s : State) (g : Seg) : State × Bool :=
  match s.pickAdmission g with
  | some h => (s.grantAdmission g h, true)
  | none =>
    match s.pickWatch g with
    | some h => (s.grantWatch g h, true)
    | none => s.offerSurvey g

/-! ## The host class (04 R79, R83, R84) -/

/-- The oldest transaction of a queue that a test picks out, with its place. -/
def firstTx (f : HostTx → Bool) : Nat → List HostTx → Option (Nat × HostTx)
  | _, [] => none
  | i, t :: rest => if f t then some (i, t) else firstTx f (i + 1) rest

/-- On an IDLE segment: the oldest transaction whose entry is not settling (04 R83). -/
def State.pickHost (s : State) (g : Seg) : Option (Nat × HostTx) :=
  firstTx (fun t => !(s.entry t.handle).settling) 0 (s.seg g).hostq

/-- On a HELD segment: the oldest transaction from HOLDPORT that names HOLDENTRY, when HOLDENTRY is not settling (04 R84, 05 R110). -/
def State.pickFollowOn (s : State) (g : Seg) : Option (Nat × HostTx) :=
  match (s.seg g).hold with
  | some ho =>
    if (s.entry ho.entry).settling then none
    else firstTx (fun t => t.port == ho.port && t.handle == ho.entry) 0 (s.seg g).hostq
  | none => none

/-! ## The choice -/

/-- What the attention unit does before a choice on an IDLE segment: a sweep with no candidate ends (08 R143, R147). -/
def State.lookSweep (s : State) (g : Seg) : State :=
  if (s.seg g).sweep.state = .sweeping ∧ s.candidate g = none then s.endSweep g else s

/-- The entry whose sweep read is offered: the candidate, unless it is settling (08 R143). -/
def State.sweepOffer (s : State) (g : Seg) : Option Handle :=
  if (s.seg g).sweep.state = .sweeping then (s.candidate g).filter (fun h => !(s.entry h).settling) else none

/-- The arbiter chooses. A pick that fails the dispatch recheck completes and the arbiter chooses again; each such pick takes one transaction from
HOSTQ, so `fuel` above its length is never used up (04 R82 to R84). -/
def State.arbitrate : Nat → State → Seg → State
  | 0, s, _ => s
  | fuel + 1, s, g =>
    match (s.seg g).state with
    | .held =>
      match s.pickFollowOn g with
      | none => s
      | some (i, t) =>
        match s.recheck t with
        | some st => State.arbitrate fuel (s.completeAt g i t st) g
        | none => s.grantHost g i t true
    | .idle =>
      let s₁ := s.lookSweep g
      match s₁.sweepOffer g with
      | some h => s₁.grantSweep g h
      | none =>
        let bg := s₁.tryBackground g
        match (s₁.seg g).nextclass with
        | .host =>
          match s₁.pickHost g with
          | none => bg.1
          | some (i, t) =>
            match s₁.recheck t with
            | some st => State.arbitrate fuel (s₁.completeAt g i t st) g
            | none => s₁.grantHost g i t false
        | .background =>
          if bg.2 then bg.1
          else
            match bg.1.pickHost g with
            | none => bg.1
            | some (i, t) =>
              match bg.1.recheck t with
              | some st => State.arbitrate fuel (bg.1.completeAt g i t st) g
              | none => bg.1.grantHost g i t false
    | .off | .active | .recovering | .stuck => s

/-- The arbiter of a segment chooses, if the segment is IDLE or HELD and work is eligible (04 R82). -/
def State.choose (s : State) (g : Seg) : State := s.arbitrate ((s.seg g).hostq.length + 1) g

end Sys2Proof.Machine
end

