-- ==== Sys2Proof/Machine/BusEngine.lean ====
section
/-! DEFINITION. The end of a transfer on the bus: what its outcome does to the directory, to its owner and to the segment (04 R74, R85 to
R91, 05 R102 to R108, R114, 06 R125, 07 R133 to R137, 08 R145, R146). -/

namespace Sys2Proof.Machine

/-! ## What the outcome does to the work's owner (04 R88, parts 1 and 2) -/

/-- The bytes written that a host transaction reports: none where the outcome's row says 0 (05 R102). -/
def Current.reportedWritten (c : Current) (o : Outcome) : Nat :=
  match o with
  | .ok | .addrNack | .dataNack | .clockTimeout | .aborted => writtenOf c.plan c.acked
  | .arbLost | .busBusy | .busStuck => 0

/-- The bytes received that a host transaction reports (05 R102). -/
def Current.reportedRead (c : Current) (o : Outcome) : List Byte :=
  match o with
  | .ok | .clockTimeout | .aborted => c.rx
  | .addrNack | .dataNack | .arbLost | .busBusy | .busStuck => []

/-- SETTLE is loaded with SETTLETIME where the write phase was acknowledged in full (05 R105). -/
def State.loadSettle (s : State) (h : Handle) (c : Current) : State :=
  if writePhaseDone c.plan c.acked then s.modEntry h (fun e => { e with settle := e.desc.settletime }) else s

/-- Why a chained transaction that ended OK may not hold: a DISABLE is pending, its port's claim ended while it was on the bus, or its
entry is RETIRING (05 R108). -/
def State.holdBarred (s : State) (g : Seg) (t : HostTx) (c : Current) : Bool :=
  (s.seg g).pendcmd.any (fun p => p.kind == .disable) || c.claimEnded || (s.entry t.handle).state == .retiring

/-- A chained transaction that ended OK holds the bus, or is barred from it and sets CHAINBRK; one whose port has been reset does neither
(05 R108), and so it is where a DISABLE is pending too (04 R74; DESIGN CHOICE, log entry 25). -/
def State.tryHold (s : State) (g : Seg) (t : HostTx) (c : Current) : State :=
  if t.orphan then s
  else if s.holdBarred g t c then s.modEntry t.handle (fun e => e.setChain t.port true)
  else s.modSeg g (fun r => { r with hold := some ⟨t.port, t.handle, r.config.holdlimit⟩, lines := .held })

/-- The host transaction on the bus, with its place in HOSTQ. -/
def Segment.activeTx (r : Segment) : Option (Nat × HostTx) := firstTx HostTx.active 0 r.hostq

/-- A host transaction ends on the bus: report, settle load, response, hold (05 R102, R103, R105, R108, R114). -/
def State.endHost (s : State) (g : Seg) (c : Current) (o : Outcome) : State :=
  match (s.seg g).activeTx with
  | none => s
  | some (i, t) =>
    let s₁ := (s.report t.handle o).loadSettle t.handle c
    let s₂ := s₁.modSeg g (fun r => { r with hostq := r.hostq.eraseIdx i })
    let s₃ := s₂.answerTx t o.status (c.reportedWritten o) (c.reportedRead o) (o == .ok && c.followOn && 0 < c.lost)
    let s₄ := if t.chain ∧ o = .ok then s₃.tryHold g t c else s₃
    s₄.fall t.handle

/-- An admission transfer ends; one of an admission that has been ended since simply ends (02 R26, 04 R75). -/
def State.endAdmissionTransfer (s : State) (h : Handle) (c : Current) (o : Outcome) : State :=
  let s₁ := s.report h o
  match (s₁.entry h).adm with
  | some a => if a.planned = .active then (s₁.modEntry h Entry.lower).admissionNext h a o c.rx else s₁.fall h
  | none => s₁.fall h

/-- What the outcome of a watch's own probe does to the watch, once its report is applied: it has been answered by the report, it hands over to
re-admission, expires or goes on; after BUS_STUCK and ABORTED it is due again (06 R125, R126). -/
def State.watchOutcome (s : State) (h : Handle) (o : Outcome) : State :=
  match (s.entry h).watch with
  | none => s
  | some w =>
    if o = .busStuck ∨ o = .aborted then s.modEntry h (fun e => { e.rise with watch := some { w with probe := .due } })
    else if o = .ok ∧ (s.entry h).state = .lost then s.beginReadmission h .watch
    else if w.remaining = 0 then s.answerWatch h .watchExpired 0x00
    else s.modEntry h (fun e => { e with watch := some { w with nextdue := w.interval } })

/-- A probe of the watch ended on the bus: PROBES and REMAINING move, except for BUS_STUCK and ABORTED, and PROBE becomes NONE
(06 R125). -/
def Watch.count (w : Watch) (o : Outcome) : Watch :=
  match o with
  | .busStuck | .aborted => { w with probe := .none }
  | .ok | .addrNack | .dataNack | .clockTimeout | .arbLost | .busBusy =>
    { w with probe := .none, probes := w.probes + 1, remaining := w.remaining - 1 }

/-- A watch probe ends; one of a watch that has been removed since ends with its report alone (06 R125, R127). -/
def State.endWatchProbe (s : State) (h : Handle) (o : Outcome) : State :=
  match (s.entry h).watch with
  | some w =>
    if w.probe = .active then
      (((s.modEntry h (fun e => { e with watch := some (w.count o) })).report h o).watchOutcome h o).fall h
    else (s.report h o).fall h
  | none => (s.report h o).fall h

/-- A survey judges the address of its probe, by the index and by the state that the listed entry had before the report (07 R135, R136).
The counts go into the cursor that is given back. -/
def State.judge (s : State) (g : Seg) (c : Cursor) (listed : Option (Handle × EntryState)) (o : Outcome) : State × Cursor :=
  match listed with
  | none =>
    if o = .ok then
      match s.lowestVacant with
      | some h =>
        (s.modEntry h (fun e => e.taken ⟨g, .seven, c.next, .survey, .fetch⟩ {} {} (.survey (some c.port))),
          { c with found := c.found + 1 })
      | none =>
        (if c.fullPosted then s else s.post c.port .directoryFull (.segment g) (byte c.next),
          { c with full := c.full + 1, fullPosted := true })
    else (s, c)
  | some (h, st) =>
    match st with
    | .present | .suspect => (s, if o.isFailure then { c with missing := c.missing + 1 } else c)
    | .lost =>
      if o = .ok then (s.beginReadmission h .surveyReappear, { c with reappeared := c.reappeared + 1 }) else (s, c)
    | .vacant | .probing | .retiring => (s, c)

/-- INFLIGHT falls for a named entry, if there is one. -/
def State.fallNamed (s : State) (named : Option Handle) : State :=
  match named with
  | some h => s.fall h
  | none => s

/-- The listed entry at the survey's address, with its state. -/
def State.listedAt (s : State) (g : Seg) (a : Nat) : Option (Handle × EntryState) :=
  (s.find g .seven a).map (fun h => (h, (s.entry h).state))

/-- A survey probe ends; one of a survey that has ended since ends with its report alone (07 R133 to R137, R139). Where it ends BUS_STUCK or
ABORTED the survey is answered first, and then the INFLIGHT of NAMED falls (DESIGN CHOICE, log entry 21). -/
def State.endSurveyProbe (s : State) (g : Seg) (named : Option Handle) (o : Outcome) : State :=
  let s₁ := match named with
    | some h => s.report h o
    | none => s
  match (s.seg g).survey with
  | some c =>
    if c.probe = .active then
      if o = .busStuck ∨ o = .aborted then (s₁.answerSurvey g (if o = .aborted then .aborted else .busStuck)).fallNamed named
      else
        let judged := s₁.judge g c (s.listedAt g c.next) o
        let c₂ := { judged.2 with next := c.next + 1, named := none, probe := .waiting }
        let s₃ := (judged.1.modSeg g (fun r => { r with survey := some c₂ })).fallNamed named
        if c.high < c₂.next then s₃.answerSurvey g .ok else s₃
    else s₁.fallNamed named
  | none => s₁.fallNamed named

/-- Whether a status byte passes the mask test of an entry that is not RETIRING (08 R145). -/
def Entry.asks (e : Entry) (b : Byte) : Bool := e.state != .retiring && b &&& e.desc.attnmask != 0

/-- The sweep judges a byte read: ATTENTION is posted and HITS rises where the entry asks (08 R145). -/
def State.judgeByte (s : State) (g : Seg) (h : Handle) (b : Byte) : State :=
  if (s.entry h).asks b then
    (s.postWhere (fun p => ((s.entry h).subs p).attention) .attention (s.subject h) b).modSeg g (fun r =>
      { r with sweep := { r.sweep with hits := r.sweep.hits + 1 } })
  else s

/-- READS and CURSOR after a read that the sweep counts (08 R145, R146). -/
def Segment.passRead (r : Segment) (h : Handle) : Segment :=
  { r with sweep := { r.sweep with reads := r.sweep.reads + 1, cursor := some (h.val + 1) } }

/-- A sweep read ends (08 R145, R146). -/
def State.endSweepRead (s : State) (g : Seg) (h : Handle) (c : Current) (o : Outcome) : State :=
  let s₁ := s.report h o
  let s₂ :=
    if (s₁.seg g).sweep.state = .sweeping then
      match o with
      | .ok => (s₁.judgeByte g h (c.rx.getD 0 0)).modSeg g (fun r => r.passRead h)
      | .addrNack | .dataNack | .clockTimeout | .arbLost | .busBusy => s₁.modSeg g (fun r => r.passRead h)
      | .busStuck | .aborted => s₁
    else s₁
  s₂.fall h

/-- The outcome of a transfer is handed to the health monitor and to the work's owner, by its kind (04 R88). -/
def State.deliver (s : State) (g : Seg) (c : Current) (o : Outcome) : State :=
  match c.kind with
  | .host => s.endHost g c o
  | .survey => s.endSurveyProbe g c.entry o
  | .admission =>
    match c.entry with
    | some h => s.endAdmissionTransfer h c o
    | none => s
  | .watch =>
    match c.entry with
    | some h => s.endWatchProbe h o
    | none => s
  | .sweep =>
    match c.entry with
    | some h => s.endSweepRead g h c o
    | none => s

/-! ## What the outcome does to the segment (04 R88, parts 3 and 4) -/

/-- How the lines are left by an outcome, but for a hold (04 R73, R87, R88). -/
def Outcome.lines : Outcome → LineEnd
  | .ok | .addrNack | .dataNack => .stop
  | .clockTimeout | .arbLost | .busBusy | .busStuck | .aborted => .released

/-- The segment after a transfer: OFF where a DISABLE is pending, RECOVERING, STUCK, HELD or IDLE; on an IDLE or HELD segment the arbiter
chooses (04 R74, R82, R87, R88, R91). -/
def State.afterTransfer (s : State) (g : Seg) (o : Outcome) : State :=
  match (s.seg g).pendcmd with
  | some ⟨.disable, owner⟩ => s.goOff g true owner
  | some ⟨.reset, _⟩ | none =>
    match o with
    | .clockTimeout => s.modSeg g (fun r => { r with state := .recovering })
    | .busStuck => s.becomeStuck g stuckInTransfer
    | .ok | .addrNack | .dataNack | .arbLost | .busBusy | .aborted =>
      (s.modSeg g (fun r => { r with state := if r.hold.isSome then .held else .idle })).choose g

/-- The transfer on the bus ends with an outcome (04 R88). -/
def State.endTransfer (s : State) (g : Seg) (c : Current) (o : Outcome) : State :=
  ((s.modSeg g (fun r => { r with current := none, lines := o.lines })).deliver g c o).afterTransfer g o

/-! ## The events of a transfer on the bus -/

/-- The next attempt after a lost arbitration: the whole transfer again, from a start condition (04 R86, 05 R114). -/
def Current.retry (c : Current) : Current :=
  { c with plan := .start :: c.plan.drop 1, acked := 0, rx := [], lost := c.lost + 1, restart := false }

/-- The transfer on the bus reaches its end on the wire (05 R95 to R98). -/
def State.transferEnds (s : State) (g : Seg) (c : Current) (e : TransferEnd) : State :=
  match c.ended e with
  | some (o, pr) => s.endTransfer g (c.advance pr) o
  | none => s

/-- Arbitration is lost: the part stops driving the lines, for a new attempt or the end ARB_LOST. It cannot be lost once the part has only bytes to
receive (04 R86). -/
def State.losesArbitration (s : State) (g : Seg) (c : Current) (pr : Progress) : State :=
  if (sends c.plan).length ≤ pr.acked then s
  else if c.lost < (s.seg g).config.arbretry then s.modSeg g (fun r => { r with current := some c.retry, lines := .released })
  else s.endTransfer g (c.advance pr) .arbLost

/-- The wait for a free bus reaches BUSYWAIT: the recovery within the transfer begins, with both lines released, where the data line alone is held low,
else the transfer ends BUS_BUSY. A follow-on's repeated start waits for no free bus (04 R85, R89 step 1, 05 R110). -/
def State.waitsTooLong (s : State) (g : Seg) (c : Current) (dataLineLow : Bool) : State :=
  if c.restart then s
  else if dataLineLow then s.modSeg g (fun r => { r with current := some { c with recovering := true }, lines := .released })
  else s.endTransfer g c .busBusy

/-- The recovery within a transfer ends: with a stop condition, and the transfer goes on to its start, or the transfer ends BUS_STUCK
(04 R85, R89 steps 3 to 5). -/
def State.innerRecovery (s : State) (g : Seg) (c : Current) (obs : List LineObs) : State :=
  match recover obs with
  | none => s
  | some true => s.modSeg g (fun r => { r with current := some { c with recovering := false }, lines := .stop })
  | some false => s.endTransfer g c .busStuck

/-- An event reaches the transfer on the bus; one that cannot happen to it changes nothing (log entry 3). -/
def State.busEvent (s : State) (g : Seg) (ev : BusEvent) : State :=
  match (s.seg g).state, (s.seg g).current with
  | .active, some c =>
    if c.recovering then
      match ev with
      | .recovery obs => s.innerRecovery g c obs
      | .ended _ | .clockTimeout _ | .arbLost _ | .busBusy => s
    else
      match ev with
      | .ended e => s.transferEnds g c e
      | .clockTimeout pr => s.endTransfer g (c.advance pr) .clockTimeout
      | .arbLost pr => s.losesArbitration g c pr
      | .busBusy => s.waitsTooLong g c false
      | .recovery _ => s
  | _, _ => s

/-- The transfer on the bus, if it is of a kind and not in recovery, reaches its end on the wire. -/
def State.endOfKind (s : State) (g : Seg) (k : CurKind) (e : TransferEnd) : State :=
  if (s.seg g).current.any (fun c => c.kind == k) then s.busEvent g (.ended e) else s

/-- The recovery of a RECOVERING segment ends (04 R76, R89, R91). -/
def State.outerRecovery (s : State) (g : Seg) (ok : Bool) : State :=
  match (s.seg g).pendcmd with
  | some ⟨.reset, owner⟩ =>
    if ok then
      ((s.modSeg g (fun r => { r with state := .idle, pendcmd := none, lines := .stop })).respondTo owner .ok
        [segStateCode .idle]).choose g
    else
      ((s.becomeStuck g stuckAfterReset).modSeg g (fun r => { r with pendcmd := none })).respondTo owner .busStuck
        [segStateCode .stuck]
  | some ⟨.disable, _⟩ | none =>
    if ok then (s.modSeg g (fun r => { r with state := .idle, lines := .stop })).choose g
    else s.becomeStuck g stuckAfterTimeout

/-! ## The end of a claim, seen from the bus -/

/-- What is done on the segment of an entry; an entry out of use has none. -/
def State.atSegOf (s : State) (h : Handle) (f : State → Seg → State) : State :=
  match (s.entry h).place with
  | some pl => f s pl.seg
  | none => s

/-- A port's claim on an entry has lapsed or been released: a hold of that port on that entry ends with a stop and CHAINBRK, and its transaction to
that entry on the bus will not hold (03 R58, R62, 05 R104, R108, R112). -/
def State.claimEnds (s : State) (h : Handle) (p : Port) : State :=
  s.atSegOf h (fun s g =>
    let r := s.seg g
    if r.heldBy (fun ho => ho.port == p && ho.entry == h) then s.endHold g true
    else
      match r.activeTx with
      | some (_, t) =>
        if t.port = p ∧ t.handle = h then
          s.modSeg g (fun r => { r with current := r.current.map (fun c => { c with claimEnded := true }) })
        else s
      | none => s)

end Sys2Proof.Machine
end

