-- ==== Sys2Proof/Machine/Attention.lean ====
section
/-! DEFINITION. The attention inputs and the re-arm interval (08 R142, R148, R149), and the end of a sweep read (08 R145). -/

namespace Sys2Proof.Machine

/-- The attention input is asserted: an IDLE following unit starts a sweep (08 R142). -/
def State.attentionAsserted (s : State) (g : Seg) : State :=
  (s.modSeg g (fun r => { r with sattn := true }.startSweep)).choose g

def execAttentionAsserted (g : Seg) (s : State) : Host.Outcome State Fault Refusal := .next (s.attentionAsserted g)

/-- A DISARMED unit becomes IDLE with no interval running (08 R148). -/
def Segment.rearm (r : Segment) : Segment := { r with sweep := { r.sweep with state := .idle, rearmleft := 0 } }

/-- The attention input is deasserted: a DISARMED unit re-arms, a sweep runs on (08 R148, R149). -/
def State.attentionDeasserted (s : State) (g : Seg) : State :=
  s.modSeg g (fun r => if r.sweep.state = .disarmed then { r.rearm with sattn := false } else { r with sattn := false })

def execAttentionDeasserted (g : Seg) (s : State) : Host.Outcome State Fault Refusal := .next (s.attentionDeasserted g)

/-- Whether the re-arm interval of a DISARMED unit has run out (08 R148). With REARM 0 no interval runs. -/
def Segment.rearmDue (r : Segment) : Bool := r.sweep.state == .disarmed && r.sweep.rearmleft == 0 && 0 < r.config.rearm

/-- The interval of a DISARMED unit has run out: the unit re-arms, and starts a new sweep where the input is asserted (08 R148; log
entry 2). -/
def State.rearmExpiry (s : State) (g : Seg) : State :=
  if (s.seg g).rearmDue then (s.modSeg g (fun r => r.rearm.startSweep)).choose g else s

def execRearmExpiry (g : Seg) (s : State) : Host.Outcome State Fault Refusal := .next (s.rearmExpiry g)

/-- A sweep read reaches its end on the wire (08 R145). -/
def execSweepReadEnd (g : Seg) (e : TransferEnd) (s : State) : Host.Outcome State Fault Refusal :=
  .next (s.endOfKind g .sweep e)

end Sys2Proof.Machine
end

