-- ==== Sys2Proof/Machine/Frames.lean ====
section
/-! DEFINITION. The frames: the check byte (11 R178), request frames and how a port judges them (10 R165, 11 R180), response
and notice frames (11 R181, R182), the summary report (11 R177), and what a port shifts out (10 R163). -/

namespace Sys2Proof.Machine

/-! ## The check byte (11 R178) -/

/-- One bit of the CRC: generator x⁸+x²+x+1, most significant bit first. -/
def crcBit (c : Byte) : Byte := if c.msb then (c <<< 1) ^^^ 0x07 else c <<< 1

/-- One byte of the CRC. -/
def crcByte (c b : Byte) : Byte :=
  crcBit (crcBit (crcBit (crcBit (crcBit (crcBit (crcBit (crcBit (c ^^^ b))))))))

/-- The CRC-8 of a list of bytes: initial value 00H, no reflection, no final inversion (11 R178). -/
def crc8 (l : List Byte) : Byte := l.foldl crcByte 0x00

/-- The bytes of a frame with its check byte. -/
def withCheck (l : List Byte) : List Byte := l ++ [crc8 l]

/-! ## Request frames (11 R180, 10 R165) -/

/-- A request frame: LENGTH, TAG, the command code, the parameter bytes, the check byte (11 R180). -/
def requestFrame (tag code : Byte) (params : List Byte) : List Byte :=
  withCheck (byte (4 + params.length) :: tag :: code :: params)

/-- The bytes of a SUBMIT exchange go into FRAMEBUF, up to 44, and are counted (10 R162, R165). -/
def PortRec.receive (pr : PortRec) (bytes : List Byte) : PortRec :=
  { pr with frame := bytes.take Config.frameBytes, received := min 255 bytes.length }

/-- Whether a tag is FREE (10 R167). -/
def PortRec.isFree (pr : PortRec) (t : Tag) : Bool := !pr.tags[t.val]

/-- How a port judges the frame in its FRAMEBUF, by the first test that fails; a frame that passes them all has a tag
(10 R165). -/
def PortRec.judge (pr : PortRec) : Except Reason Tag :=
  match pr.frame with
  | [] => .error .cut
  | len :: rest =>
    if len.toNat < 4 ∨ Config.frameBytes < len.toNat then .error .length
    else if pr.received < len.toNat then .error .cut
    else if len.toNat < pr.received then .error .length
    else if crc8 (pr.frame.take (len.toNat - 1)) ≠ pr.frame.getD (len.toNat - 1) 0 then .error .check
    else if h : (rest.getD 0 0).toNat < 8 then
      if pr.freeTags = 0 then .error .noTag
      else if pr.isFree ⟨(rest.getD 0 0).toNat, h⟩ then .ok ⟨(rest.getD 0 0).toNat, h⟩
      else .error .tagInUse
    else .error .badTag

/-! ## Frames the part sends -/

/-- A response frame: LENGTH, TAG, STATUS, FLAGS, the result bytes, the check byte (11 R181). -/
def responseFrame (r : Response) : List Byte :=
  withCheck (byte (5 + r.result.length) :: byte r.tag.val :: statusCode r.status :: responseFlags r :: r.result)

/-- The subject type, number and GEN of a notice frame (11 R182). -/
def subjectBytes : Subject → List Byte
  | .entry h g => [0x00, byte h.val, byte g.val]
  | .segment g => [0x01, byte g.val, 0x00]

/-- A notice frame of eight bytes (11 R182). -/
def noticeFrame (n : Notice) : List Byte :=
  withCheck (0x08 :: noticeKindCode n.kind :: (subjectBytes n.subject ++ [n.detail, byte n.merge]))

/-- The summary report of a SUMMARY exchange: the summary byte, REASON, the numbers of responses and of notices
(10 R171, 11 R177). -/
def PortRec.reportBytes (pr : PortRec) : List Byte :=
  [pr.summaryByte, reasonCode pr.reason, byte pr.respq.length, byte pr.notices.length]

/-- The bytes a latch holds to be shifted out after the summary byte; the summary byte itself is shifted out during the
lead byte (10 R163, R164, R169 to R171). -/
def Latch.bytes : Latch → List Byte
  | .summaryByte _ _ => []
  | .response r => responseFrame r
  | .notice n _ => noticeFrame n
  | .marker => [0x00]
  | .report bytes _ _ _ => bytes

/-- The byte a port shifts out while the lead byte comes in (10 R164); none in an exchange that a pin reset has abandoned (DESIGN CHOICE, log
entry 23). -/
def PortRec.leadOut (pr : PortRec) : Option Byte :=
  match pr.latch with
  | some (.summaryByte b _) => some b
  | some (.response _) | some (.notice _ _) | some .marker | some (.report _ _ _ _) | none => none

/-- The byte of number `i`, from 0, that a port shifts out after the lead byte: those of the latch, then 00H (10 R163). In an exchange that a
pin reset has abandoned LATCH is absent, and every byte is 00H (DESIGN CHOICE, log entry 23). -/
def PortRec.shiftOut (pr : PortRec) (i : Nat) : Byte := ((pr.latch.map Latch.bytes).getD []).getD i 0x00

end Sys2Proof.Machine
end

