-- ==== Sys2Proof/Machine/Operands.lean ====
section
/-! DEFINITION. The parameter bytes of each request, read in the order and widths of 11 R180 with the codes of 11 R179. `none` is a
request that is answered BAD_PARAM: its parameter bytes are too few or too many (10 R166), or a value lies outside its
range (11 R179, and the first line of each command's refusals). -/

namespace Sys2Proof.Machine

/-! ## Single operands -/

def parseHandle (b : Byte) : Option Handle := if h : b.toNat < 48 then some ⟨b.toNat, h⟩ else none

def parseGen (b : Byte) : Option Gen := if h : b.toNat < 16 then some ⟨b.toNat, h⟩ else none

def parseSeg (b : Byte) : Option Seg := if h : b.toNat < 6 then some ⟨b.toNat, h⟩ else none

/-- A reference, HANDLE and GEN: a handle above 47 or a generation above 15 is BAD_PARAM (01 R5). -/
def parseRef (h g : Byte) : Option (Handle × Gen) := do
  let h ← parseHandle h
  let g ← parseGen g
  pure (h, g)

def parseAMode (b : Byte) : Option AMode := if b = 0x00 then some .seven else if b = 0x01 then some .ten else none

def parseDMode (b : Byte) : Option DMode := if b = 0x00 then some .none else if b = 0x01 then some .fetch else none

/-- Whether an address lies in the range of its mode: SEVEN 08H..77H, TEN 000H..3FFH (01 R18). -/
def addrInRange : AMode → Nat → Bool
  | .seven, a => 0x08 ≤ a && a ≤ 0x77
  | .ten, a => a ≤ 0x3FF

/-- Segment, address mode, address (01 R18, 02 R31). -/
def parsePlace (g am hi lo : Byte) : Option (Seg × AMode × Nat) := do
  let g ← parseSeg g
  let m ← parseAMode am
  if addrInRange m (ofBe16 hi lo) then pure (g, m, ofBe16 hi lo) else none

/-- An entry mask; a set bit outside bits 0..2 names no notice kind (11 R179). -/
def parseEntryMask (b : Byte) : Option EntryMask :=
  if b.toNat < 8 then some ⟨b.getLsbD 0, b.getLsbD 1, b.getLsbD 2⟩ else none

def parseSegMask (b : Byte) : Option SegMask := if b.toNat < 4 then some ⟨b.getLsbD 0, b.getLsbD 1⟩ else none

def parseAttnMask (b : Byte) : Option AttnMask := if b.toNat < 4 then some ⟨b.getLsbD 0, b.getLsbD 1⟩ else none

/-- A requested claim mode; NONE is not one (11 R179). -/
def parseClaimMode (b : Byte) : Option ClaimMode :=
  if b = 0x01 then some .exclusive else if b = 0x02 then some .shared else none

/-- FLAGS of a request: bit 0 CHAIN, any other bit BAD_PARAM (11 R179). -/
def parseFlags (b : Byte) : Option Bool := if b.toNat < 2 then some (b.getLsbD 0) else none

/-- WLEN or RLEN, 1..32 (05 R99). -/
def parseLen (b : Byte) : Option Nat := if 1 ≤ b.toNat ∧ b.toNat ≤ 32 then some b.toNat else none

/-- A number that may not be 0. -/
def parsePos (b : Byte) : Option Nat := if 1 ≤ b.toNat then some b.toNat else none

def parseSpeed (b : Byte) : Option Speed :=
  if b = 0x00 then some .k100 else if b = 0x01 then some .k400 else if b = 0x02 then some .k1000 else none

def parseOnOff (b : Byte) : Option Bool := if b = 0x00 then some false else if b = 0x01 then some true else none

/-! ## The parameters of each command (11 R180) -/

/-- RETIRE, READ_ENTRY, RENEW, RELEASE, WATCH_CANCEL: a reference. -/
def parseRefOnly : List Byte → Option (Handle × Gen)
  | [h, g] => parseRef h g
  | _ => none

/-- SURVEY_ABORT, SEGMENT_ENABLE, SEGMENT_DISABLE, SEGMENT_RESET, SEGMENT_STATUS: a segment. -/
def parseSegOnly : List Byte → Option Seg
  | [g] => parseSeg g
  | _ => none

/-- What ADMIT names (02 R31). -/
structure AdmitArgs where
  seg : Seg
  amode : AMode
  addr : Nat
  dmode : DMode
  mask : EntryMask
deriving DecidableEq, Repr

def parseAdmit : List Byte → Option AdmitArgs
  | [g, am, hi, lo, dm, mask] => do
    let (g, m, a) ← parsePlace g am hi lo
    let d ← parseDMode dm
    let k ← parseEntryMask mask
    pure ⟨g, m, a, d, k⟩
  | _ => none

/-- LOOKUP: a place (01 R18). -/
def parseLookup : List Byte → Option (Seg × AMode × Nat)
  | [g, am, hi, lo] => parsePlace g am hi lo
  | _ => none

/-- LIST: a starting handle 0..47 and a count 1..6 (01 R19). -/
def parseList : List Byte → Option (Handle × Nat)
  | [start, count] => do
    let h ← parseHandle start
    if 1 ≤ count.toNat ∧ count.toNat ≤ 6 then pure (h, count.toNat) else none
  | _ => none

/-- SUBSCRIBE: a reference and a mask (09 R155). -/
def parseSubscribe : List Byte → Option ((Handle × Gen) × EntryMask)
  | [h, g, mask] => do
    let r ← parseRef h g
    let m ← parseEntryMask mask
    pure (r, m)
  | _ => none

/-- SEGMENT_SUBSCRIBE: a segment and a mask (09 R156). -/
def parseSegSubscribe : List Byte → Option (Seg × SegMask)
  | [g, mask] => do
    let g ← parseSeg g
    let m ← parseSegMask mask
    pure (g, m)
  | _ => none

/-- What CLAIM names (03 R46). -/
structure ClaimArgs where
  handle : Handle
  gen : Gen
  mode : ClaimMode
  lease : Nat
  wait : Nat
deriving DecidableEq, Repr

def parseClaim : List Byte → Option ClaimArgs
  | [h, g, mode, lease, wait] => do
    let (h, g) ← parseRef h g
    let m ← parseClaimMode mode
    let l ← parsePos lease
    pure ⟨h, g, m, l, wait.toNat⟩
  | _ => none

/-- What a host transfer names (05 R93); WLEN is the length of `wdata`. -/
structure TransferArgs where
  handle : Handle
  gen : Gen
  kind : TxKind
  offset : BitVec 16
  wdata : List Byte
  rlen : Nat
  chain : Bool
deriving DecidableEq, Repr

/-- WRITE: the port counts 6 + WLEN parameter bytes, with WLEN read from its place (11 R179, R180). -/
def parseWrite : List Byte → Option TransferArgs
  | h :: g :: oh :: ol :: flags :: wlen :: data => do
    let (h, g) ← parseRef h g
    let c ← parseFlags flags
    let n ← parseLen wlen
    if data.length = n then pure ⟨h, g, .write, oh ++ ol, data, 0, c⟩ else none
  | _ => none

def parseRead : List Byte → Option TransferArgs
  | [h, g, oh, ol, flags, rlen] => do
    let (h, g) ← parseRef h g
    let c ← parseFlags flags
    let n ← parseLen rlen
    pure ⟨h, g, .read, oh ++ ol, [], n, c⟩
  | _ => none

/-- WRITE_READ: the port counts 7 + WLEN parameter bytes (11 R180). -/
def parseWriteRead : List Byte → Option TransferArgs
  | h :: g :: oh :: ol :: flags :: wlen :: rlen :: data => do
    let (h, g) ← parseRef h g
    let c ← parseFlags flags
    let n ← parseLen wlen
    let m ← parseLen rlen
    if data.length = n then pure ⟨h, g, .writeRead, oh ++ ol, data, m, c⟩ else none
  | _ => none

/-- PING: it has no OFFSET and no data, and CHAIN set is BAD_PARAM (05 R93, R98). -/
def parsePing : List Byte → Option TransferArgs
  | [h, g, flags] => do
    let (h, g) ← parseRef h g
    let c ← parseFlags flags
    if c then none else pure ⟨h, g, .ping, 0, [], 0, false⟩
  | _ => none

/-- What WATCH names (06 R123). -/
structure WatchArgs where
  handle : Handle
  gen : Gen
  interval : Nat
  limit : Nat
deriving DecidableEq, Repr

def parseWatch : List Byte → Option WatchArgs
  | [h, g, interval, limit] => do
    let (h, g) ← parseRef h g
    let i ← parsePos interval
    let l ← parsePos limit
    pure ⟨h, g, i, l⟩
  | _ => none

/-- SET_LIMITS: a threshold 1..7 (06 R121). -/
def parseLimits : List Byte → Option Nat
  | [n] => if 1 ≤ n.toNat ∧ n.toNat ≤ 7 then some n.toNat else none
  | _ => none

/-- SURVEY: a segment and a range of seven-bit addresses (07 R132). -/
def parseSurvey : List Byte → Option (Seg × Nat × Nat)
  | [g, low, high] => do
    let g ← parseSeg g
    if 0x08 ≤ low.toNat ∧ low.toNat ≤ high.toNat ∧ high.toNat ≤ 0x77 then pure (g, low.toNat, high.toNat) else none
  | _ => none

/-- SEGMENT_SETUP: a segment and the eight settings (04 R70, R71). -/
def parseSetup : List Byte → Option (Seg × Settings)
  | [g, speed, clklow, busywait, arbretry, holdlimit, descoff, attnen, rearm] => do
    let g ← parseSeg g
    let sp ← parseSpeed speed
    let cl ← parsePos clklow
    let bw ← parsePos busywait
    let ar ← if arbretry.toNat ≤ 3 then some arbretry.toNat else none
    let hl ← parsePos holdlimit
    let en ← parseOnOff attnen
    pure (g, ⟨sp, cl, bw, ar, hl, descoff, en, rearm.toNat⟩)
  | _ => none

/-- PORT_SETUP: a mask (10 R173). -/
def parsePortSetup : List Byte → Option AttnMask
  | [mask] => parseAttnMask mask
  | _ => none

end Sys2Proof.Machine
end

