-- ==== Sys2Proof/Machine/Ports.lean ====
section
/-! DEFINITION. The request ports: the exchanges (10 R163 to R171), the acceptance of a request (10 R165, R166), and PORT_SETUP (10 R173). -/

namespace Sys2Proof.Machine

/-! ## The end of an exchange -/

/-- An exchange ends: chip select rises, EXCHANGE returns to NONE and LATCH becomes absent (10 R163). -/
def PortRec.endExchange (pr : PortRec) : PortRec := { pr with cs := false, exchange := .none, latch := none }

/-- FRAMEBUF is emptied (10 R165, R166). -/
def PortRec.emptyFrame (pr : PortRec) : PortRec := { pr with frame := [], received := 0 }

/-- A frame is rejected: REJECTED is set and REASON takes the reason (10 R165). -/
def PortRec.reject (pr : PortRec) (why : Reason) : PortRec :=
  { pr.emptyFrame.endExchange with rejected := true, reason := some why }

/-- A frame is accepted: its tag becomes OUTSTANDING (10 R166). -/
def PortRec.accept (pr : PortRec) (t : Tag) : PortRec :=
  { pr.emptyFrame.endExchange with tags := pr.tags.set t.val true }

/-- A SUBMIT exchange ends with a request frame: the port receives and judges it, rejects it, or accepts it and hands the request to its block,
`body`, in the same step (10 R165, R166). Where no SUBMIT exchange is in progress nothing happens (log entry 3). -/
def State.submit (s : State) (p : Port) (tag code : Byte) (params : List Byte) (body : Tag → State → State) : State :=
  if (s.port p).exchange = .submit then
    let pr := (s.port p).receive (requestFrame tag code params)
    match pr.judge with
    | .error why => s.setPort p (pr.reject why)
    | .ok t => body t (s.setPort p (pr.accept t))
  else s

/-- The answer to a request whose parameter bytes are `none`, or what its block does with them (10 R166, 11 R179). -/
def State.orBadParam {α : Type} (s : State) (p : Port) (t : Tag) (args : Option α) (f : α → State) : State :=
  match args with
  | none => s.respond p t .badParam []
  | some a => f a

/-! ## EXCHANGE_BEGIN, LEAD_BYTE, EXCHANGE_IGNORED_END -/

/-- Chip select falls: the exchange begins and the summary byte is latched (10 R163, R164). -/
def PortRec.beginExchange (pr : PortRec) : PortRec :=
  if pr.cs then pr else { pr with cs := true, exchange := .lead, latch := some (.summaryByte pr.summaryByte 0) }

def execExchangeBegin (p : Port) (s : State) : Host.Outcome State Fault Refusal :=
  .next (s.modPort p PortRec.beginExchange)

/-- The kind of exchange that a lead byte names; `none` for an unknown value (10 R163, 11 R177). -/
def leadKind (b : Byte) : Option Exchange :=
  if b = 0x01 then some .submit
  else if b = 0x02 then some .takeResponse
  else if b = 0x03 then some .takeNotice
  else if b = 0x04 then some .summary
  else if b = 0x0A then some .portReset
  else none

/-- How many postings have merged into the head of NOTICES since the exchange began, while the lead byte came in (10 R163, R170). -/
def PortRec.headMerges (pr : PortRec) : Nat :=
  match pr.latch with
  | some (.summaryByte _ m) => m
  | some (.response _) | some (.notice _ _) | some .marker | some (.report _ _ _ _) | none => 0

/-- What an exchange of a kind latches at the end of its lead byte, once the summary byte has been shifted out (10 R169 to R171). The merges
of a latched notice are counted from the beginning of the exchange (10 R170; log entry 22). -/
def PortRec.leadLatch (pr : PortRec) (k : Exchange) : Option Latch :=
  match k with
  | .takeResponse => some (match pr.respq with
    | r :: _ => .response r
    | [] => .marker)
  | .takeNotice => some (match pr.notices with
    | n :: _ => .notice n pr.headMerges
    | [] => .marker)
  | .summary => some (.report pr.reportBytes pr.rejected pr.noticeLost false)
  | .none | .lead | .submit | .portReset | .ignored => none

/-- The lead byte is complete and decides the exchange; an unknown one sets REJECTED with BAD_LEAD (10 R163). -/
def PortRec.takeLead (pr : PortRec) (b : Byte) : PortRec :=
  if pr.exchange = .lead then
    match leadKind b with
    | some k => { pr with exchange := k, latch := pr.leadLatch k }
    | none => { pr with exchange := .ignored, latch := none, rejected := true, reason := some .badLead }
  else pr

def execLeadByte (p : Port) (b : Byte) (s : State) : Host.Outcome State Fault Refusal :=
  .next (s.modPort p (fun pr => pr.takeLead b))

/-- The end of an exchange that takes no effect: one that is IGNORED, one cut before its lead byte was complete, or one begun before a pin reset
(10 R163, R176). -/
def PortRec.endIgnored (pr : PortRec) : PortRec :=
  match pr.exchange with
  | .none | .lead | .ignored => pr.endExchange
  | .submit | .takeResponse | .takeNotice | .summary | .portReset => pr

def execExchangeIgnoredEnd (p : Port) (s : State) : Host.Outcome State Fault Refusal :=
  .next (s.modPort p PortRec.endIgnored)

/-! ## SUBMIT_REJECTED, BAD_COMMAND -/

/-- A SUBMIT exchange ends with bytes that are no acceptable frame (10 R165). -/
def State.submitRejected (s : State) (p : Port) (bytes : List Byte) : State :=
  if (s.port p).exchange = .submit then
    let pr := (s.port p).receive bytes
    match pr.judge with
    | .error why => s.setPort p (pr.reject why)
    | .ok _ => s
  else s

def execSubmitRejected (p : Port) (bytes : List Byte) (s : State) : Host.Outcome State Fault Refusal :=
  .next (s.submitRejected p bytes)

/-- A whole frame whose code names no command is accepted and answered BAD_COMMAND by the port (10 R166). -/
def execBadCommand (p : Port) (tag code : Byte) (params : List Byte) (s : State) : Host.Outcome State Fault Refusal :=
  .next (if commandCodes.contains code then s
    else s.submit p tag code params (fun t s => s.respond p t .badCommand []))

/-! ## TAKE_RESPONSE, TAKE_NOTICE, SUMMARY -/

/-- Whether the exchange ended after the last byte that the latch holds: `clocked` bytes were shifted out after the lead byte. -/
def Latch.whole (l : Latch) (clocked : Nat) : Bool := l.bytes.length ≤ clocked

/-- A TAKE_RESPONSE exchange ends: a response shifted out whole leaves RESPQ and its tag becomes FREE (10 R169). -/
def PortRec.takeResponse (pr : PortRec) (clocked : Nat) : PortRec :=
  if pr.exchange = .takeResponse then
    match pr.latch with
    | some (.response r) =>
      if (Latch.response r).whole clocked then
        { pr.endExchange with respq := pr.respq.tail, tags := pr.tags.set r.tag.val false }
      else pr.endExchange
    | some (.summaryByte _ _) | some (.notice _ _) | some .marker | some (.report _ _ _ _) | none => pr.endExchange
  else pr

def execTakeResponse (p : Port) (clocked : Nat) (s : State) : Host.Outcome State Fault Refusal :=
  .next (s.modPort p (fun pr => pr.takeResponse clocked))

/-- The list once its head has been delivered whole: the head is removed, or stays with the merges it took during the exchange (09 R159). -/
def deliverHead (notices : List Notice) (merged : Nat) : List Notice :=
  match notices with
  | [] => []
  | n :: rest => if merged = 0 then rest else { n with merge := merged } :: rest

/-- A TAKE_NOTICE exchange ends (09 R159, 10 R170). -/
def PortRec.takeNotice (pr : PortRec) (clocked : Nat) : PortRec :=
  if pr.exchange = .takeNotice then
    match pr.latch with
    | some (.notice n m) =>
      if (Latch.notice n m).whole clocked then { pr.endExchange with notices := deliverHead pr.notices m } else pr.endExchange
    | some (.summaryByte _ _) | some (.response _) | some .marker | some (.report _ _ _ _) | none => pr.endExchange
  else pr

def execTakeNotice (p : Port) (clocked : Nat) (s : State) : Host.Outcome State Fault Refusal :=
  .next (s.modPort p (fun pr => pr.takeNotice clocked))

/-- A SUMMARY exchange ends: after its last byte it clears what its latched condition showed, but an indicator set again since the latch
(10 R171). -/
def PortRec.takeSummary (pr : PortRec) (clocked : Nat) : PortRec :=
  if pr.exchange = .summary then
    match pr.latch with
    | some (.report bytes rej lost again) =>
      if (Latch.report bytes rej lost again).whole clocked then
        { pr.endExchange with
          rejected := pr.rejected && !rej
          reason := if rej then none else pr.reason
          noticeLost := pr.noticeLost && (!lost || again) }
      else pr.endExchange
    | some (.summaryByte _ _) | some (.response _) | some (.notice _ _) | some .marker | none => pr.endExchange
  else pr

def execSummary (p : Port) (clocked : Nat) (s : State) : Host.Outcome State Fault Refusal :=
  .next (s.modPort p (fun pr => pr.takeSummary clocked))

/-! ## PORT_SETUP -/

/-- ATTNOUTMASK is replaced and answered with the mask before and after (10 R173). -/
def State.portSetup (s : State) (p : Port) (t : Tag) (m : AttnMask) : State :=
  (s.modPort p (fun pr => { pr with attnOutMask := m })).respond p t .ok
    [attnMaskCode (s.port p).attnOutMask, attnMaskCode m]

def execPortSetup (p : Port) (tag : Byte) (params : List Byte) (s : State) : Host.Outcome State Fault Refusal :=
  .next (s.submit p tag 0x70 params (fun t s => s.orBadParam p t (parsePortSetup params) (s.portSetup p t)))

end Sys2Proof.Machine
end

