-- ==== Sys2Proof/Machine/Directory.lean ====
section
/-! DEFINITION. The directory's commands: RETIRE, RETIRE_COMPLETE, LOOKUP, LIST, READ_ENTRY (01 R13 to R20), and the subscriptions SUBSCRIBE and
SEGMENT_SUBSCRIBE (09 R155, R156). -/

namespace Sys2Proof.Machine

/-! ## RETIRE -/

/-- The refusal of a command whose reference is stale or names a RETIRING entry: STALE, then GONE (01 R5, R17). -/
def State.refRefusal (s : State) (h : Handle) (g : Gen) : Option Status :=
  if !s.isCurrent h g then some .stale else if (s.entry h).state = .retiring then some .gone else none

/-- The first refusal of RETIRE that applies, after BAD_PARAM (01 R13). -/
def State.retireRefusal (s : State) (p : Port) (h : Handle) (g : Gen) : Option Status :=
  match s.refRefusal h g with
  | some st => some st
  | none =>
    if (s.entry h).claim = .exclusive ∧ ((s.entry h).holder p.other).isSome then some .held else none

/-- A planned admission transfer that has not started is withdrawn and the admission record is removed (01 R14). -/
def Entry.endAdm (e : Entry) : Entry :=
  let e₁ := if e.adm.any (fun a => a.planned == .waiting) then e.lower else e
  { e₁ with adm := none }

/-- Any admission under way is ended; a first admission's SOURCE is told (01 R14, 02 R36, R42). -/
def State.retireAdmission (s : State) (h : Handle) : State :=
  let e := s.entry h
  let s₁ := if e.adm.any (fun a => a.kind == .first) then s.tellFailure e.adm e.place .gone else s
  s₁.modEntry h Entry.endAdm

/-- A hold that stands for the entry ends with a stop condition, and CHAINBRK of its owner is set (01 R14, 05 R112). -/
def State.retireHold (s : State) (h : Handle) : State :=
  s.atSegOf h (fun s g => if (s.seg g).heldBy (fun ho => ho.entry == h) then s.endHold g true else s)

/-- The entry enters RETIRING and gives up its claims, its waiter, its watch, its hold and any admission (01 R14). -/
def State.enterRetiring (s : State) (p : Port) (t : Tag) (h : Handle) : State :=
  let s₁ := s.modEntry h (fun e => { e with state := .retiring, fails := 0, retire := some (p, t) })
  ((((s₁.dropClaims h (some p)).answerWatch h .gone 0x00).retireHold h).retireAdmission h)

/-- An accepted RETIRE: the entry enters RETIRING, reaches VACANT in the same step if nothing is in flight, and the arbiter of its segment
chooses (01 R14, R15, 04 R82). -/
def State.retire (s : State) (p : Port) (t : Tag) (h : Handle) : State :=
  let s₁ := s.enterRetiring p t h
  let s₂ := if (s₁.entry h).drained then s₁.completeRetire h else s₁
  s.atSegOf h (fun _ g => s₂.choose g)

/-- RETIRE, once its parameters are read (01 R13). -/
def State.answerRetire (s : State) (p : Port) (t : Tag) (r : Handle × Gen) : State :=
  match s.retireRefusal p r.1 r.2 with
  | some st => s.respond p t st []
  | none => s.retire p t r.1

def execRetire (p : Port) (tag : Byte) (params : List Byte) (s : State) : Host.Outcome State Fault Refusal :=
  .next (s.submit p tag 0x11 params (fun t s => s.orBadParam p t (parseRefOnly params) (s.answerRetire p t)))

/-- The retire of an entry whose INFLIGHT is 0 completes (01 R15; log entry 2). -/
def execRetireComplete (h : Handle) (s : State) : Host.Outcome State Fault Refusal :=
  .next (if (s.entry h).drained then s.completeRetire h else s)

/-! ## LOOKUP -/

/-- LOOKUP: the reference and state of the entry at a place, or NOT_FOUND (01 R18). -/
def State.answerLookup (s : State) (p : Port) (t : Tag) (a : Seg × AMode × Nat) : State :=
  match s.find a.1 a.2.1 a.2.2 with
  | some h => s.respond p t .ok [byte h.val, byte (s.entry h).gen.val, entryStateCode (s.entry h).state]
  | none => s.respond p t .notFound []

def execLookup (p : Port) (tag : Byte) (params : List Byte) (s : State) : Host.Outcome State Fault Refusal :=
  .next (s.submit p tag 0x12 params (fun t s => s.orBadParam p t (parseLookup params) (s.answerLookup p t)))

/-! ## LIST -/

/-- SEG, AMODE, ADDR of an entry in a frame; absent where the entry is VACANT (11 R179, R181). -/
def placeBytes (pl : Option Place) : List Byte :=
  match pl with
  | some pl => byte pl.seg.val :: amodeCode pl.amode :: be16 pl.addr
  | none => [absent, absent, absent, absent]

/-- The short record of an entry: HANDLE, GEN, STATE, SEG, AMODE, ADDR, CLAIM (01 R19, 11 R181). -/
def shortRecord (h : Handle) (e : Entry) : List Byte :=
  [byte h.val, byte e.gen.val, entryStateCode e.state] ++ placeBytes e.place ++ [claimCode e.claim]

/-- The handles that LIST gives records of: those not VACANT from the starting handle upward, no more than the count (01 R19). -/
def State.listed (s : State) (start : Handle) (count : Nat) : List Handle :=
  (handles.filter (fun h => start.val ≤ h.val && (s.entry h).state != .vacant)).take count

/-- NEXT of LIST: the handle after the last one listed where the count has been reached, else 48 (01 R19). -/
def listNext (l : List Handle) (count : Nat) : Nat :=
  if l.length = count then (l.getLast?.map (fun h => h.val + 1)).getD 48 else 48

/-- LIST (01 R19). -/
def State.answerList (s : State) (p : Port) (t : Tag) (a : Handle × Nat) : State :=
  let l := s.listed a.1 a.2
  s.respond p t .ok (byte l.length :: byte (listNext l a.2) :: l.flatMap (fun h => shortRecord h (s.entry h)))

def execList (p : Port) (tag : Byte) (params : List Byte) (s : State) : Host.Outcome State Fault Refusal :=
  .next (s.submit p tag 0x13 params (fun t s => s.orBadParam p t (parseList params) (s.answerList p t)))

/-! ## READ_ENTRY -/

/-- The eleven fields of DESC, most significant byte first (11 R181). -/
def descBytes (d : Desc) : List Byte :=
  [d.layout, d.cls] ++ be16 d.maker.toNat ++ be16 d.model.toNat ++ be32 d.serial.toNat ++
    [byte d.offsetw, byte d.maxburst, d.caps, d.statusoff, d.attnmask] ++ be16 d.settletime

/-- LEASE of a port, 0 where it holds nothing (11 R181). -/
def leaseByte (o : Option Holder) : Byte := byte ((o.map Holder.lease).getD 0)

/-- PORT, MODE and WAIT of the WAITER (11 R181). -/
def waiterBytes (o : Option Waiter) : List Byte :=
  match o with
  | some w => [portCode w.port, claimCode w.mode.claim, byte w.wait]
  | none => [absent, absent, 0x00]

/-- PORT, INTERVAL and REMAINING of the WATCH (11 R181). -/
def watchBytes (o : Option Watch) : List Byte :=
  match o with
  | some w => [portCode w.port, byte w.interval, byte w.remaining]
  | none => [absent, 0x00, 0x00]

/-- The entry record of READ_ENTRY, 43 bytes (01 R20, 11 R181). -/
def entryRecord (h : Handle) (e : Entry) : List Byte :=
  [byte h.val, byte e.gen.val, entryStateCode e.state] ++ placeBytes e.place ++
    [(e.place.map (fun pl => originCode pl.origin)).getD absent, (e.place.map (fun pl => dmodeCode pl.dmode)).getD absent] ++
    [dsrcCode e.dsrc] ++ descBytes e.desc ++ [byte e.fails, claimCode e.claim, leaseByte e.holderA, leaseByte e.holderB] ++
    waiterBytes e.waiter ++ [entryMaskCode e.subsA, entryMaskCode e.subsB] ++ watchBytes e.watch ++
    [byte e.inflight] ++ be16 e.settle ++ [chainCode e]

/-- READ_ENTRY (01 R20). -/
def State.answerReadEntry (s : State) (p : Port) (t : Tag) (r : Handle × Gen) : State :=
  if s.isCurrent r.1 r.2 then s.respond p t .ok (entryRecord r.1 (s.entry r.1)) else s.respond p t .stale []

def execReadEntry (p : Port) (tag : Byte) (params : List Byte) (s : State) : Host.Outcome State Fault Refusal :=
  .next (s.submit p tag 0x14 params (fun t s => s.orBadParam p t (parseRefOnly params) (s.answerReadEntry p t)))

/-! ## SUBSCRIBE, SEGMENT_SUBSCRIBE -/

/-- SUBSCRIBE: the requesting port's mask on the entry is replaced (09 R155). -/
def State.answerSubscribe (s : State) (p : Port) (t : Tag) (a : (Handle × Gen) × EntryMask) : State :=
  match s.refRefusal a.1.1 a.1.2 with
  | some st => s.respond p t st []
  | none =>
    (s.modEntry a.1.1 (fun e => e.setSubs p a.2)).respond p t .ok
      [entryMaskCode ((s.entry a.1.1).subs p), entryMaskCode a.2]

def execSubscribe (p : Port) (tag : Byte) (params : List Byte) (s : State) : Host.Outcome State Fault Refusal :=
  .next (s.submit p tag 0x15 params (fun t s => s.orBadParam p t (parseSubscribe params) (s.answerSubscribe p t)))

/-- SEGMENT_SUBSCRIBE: the requesting port's mask for the segment is replaced (09 R156). -/
def State.answerSegSubscribe (s : State) (p : Port) (t : Tag) (a : Seg × SegMask) : State :=
  (s.modPort p (fun pr => { pr with segMasks := pr.segMasks.set a.1.val a.2 })).respond p t .ok
    [segMaskCode (s.port p).segMasks[a.1.val], segMaskCode a.2]

def execSegmentSubscribe (p : Port) (tag : Byte) (params : List Byte) (s : State) : Host.Outcome State Fault Refusal :=
  .next (s.submit p tag 0x16 params (fun t s => s.orBadParam p t (parseSegSubscribe params) (s.answerSegSubscribe p t)))

end Sys2Proof.Machine
end

