-- ==== Sys2Proof/Machine/Claims.lean ====
section
/-! DEFINITION. The claim commands CLAIM, RENEW and RELEASE, and the events of leases and waits (03 R46 to R62). -/

namespace Sys2Proof.Machine

/-! ## CLAIM -/

/-- The outcome of a CLAIM that is not refused (03 R47). -/
inductive ClaimOutcome where
  | grant
  | renew
  | upgrade
  | downgrade
  | conflict
deriving DecidableEq, Repr

/-- The table of outcomes, by the requester's holding, the other port's holding and the mode asked for (03 R47). -/
def Entry.claimOutcome (e : Entry) (p : Port) (m : ClaimMode) : ClaimOutcome :=
  match (e.holder p).isSome, (e.holder p.other).isSome, e.claim, m with
  | false, false, _, _ => .grant
  | false, true, .shared, .shared => .grant
  | false, true, _, _ => .conflict
  | true, _, .exclusive, .exclusive => .renew
  | true, _, .exclusive, .shared => .downgrade
  | true, _, _, .shared => .renew
  | true, false, _, .exclusive => .upgrade
  | true, true, _, .exclusive => .conflict

/-- The requester's holder record with LEASEVAL and LEASE both the lease asked for, and CLAIM the mode asked for
(03 R48 to R51). -/
def Entry.takeClaim (e : Entry) (p : Port) (m : ClaimMode) (lease : Nat) : Entry :=
  { e.setHolder p (some ⟨lease, lease⟩) with claim := m.claim }

/-- A CLAIM that is granted, renewed in place, upgraded or downgraded, and its OK answer (03 R48 to R51). -/
def State.giveClaim (s : State) (p : Port) (t : Tag) (a : ClaimArgs) : State :=
  (s.modEntry a.handle (fun e => e.takeClaim p a.mode a.lease)).respond p t .ok [claimCode a.mode.claim, byte a.lease]

/-- A CLAIM that meets a conflict: HELD, BUSY, or it becomes the WAITER (03 R52). -/
def State.conflict (s : State) (p : Port) (t : Tag) (a : ClaimArgs) : State :=
  let e := s.entry a.handle
  if a.wait = 0 then s.respond p t .held (claimResult e)
  else if e.waiter.isSome then s.respond p t .busy (claimResult e)
  else s.modEntry a.handle (fun e => { e with waiter := some ⟨p, a.mode, a.lease, a.wait, t⟩ })

/-- CLAIM, once its parameters are read (03 R46, R47). -/
def State.answerClaim (s : State) (p : Port) (t : Tag) (a : ClaimArgs) : State :=
  match s.refRefusal a.handle a.gen with
  | some st => s.respond p t st []
  | none =>
    let e := s.entry a.handle
    if e.waiter.any (fun w => w.port == p) then s.respond p t .busy (claimResult e)
    else
      match e.claimOutcome p a.mode with
      | .grant | .renew | .upgrade => s.giveClaim p t a
      | .downgrade => (s.giveClaim p t a).reevaluate a.handle
      | .conflict => s.conflict p t a

def execClaim (p : Port) (tag : Byte) (params : List Byte) (s : State) : Host.Outcome State Fault Refusal :=
  .next (s.submit p tag 0x20 params (fun t s => s.orBadParam p t (parseClaim params) (s.answerClaim p t)))

/-! ## RENEW -/

/-- RENEW: the requesting port's LEASE becomes its LEASEVAL (03 R60). -/
def State.answerRenew (s : State) (p : Port) (t : Tag) (r : Handle × Gen) : State :=
  match s.refRefusal r.1 r.2 with
  | some st => s.respond p t st []
  | none =>
    match (s.entry r.1).holder p with
    | none => s.respond p t .notHolder []
    | some hr =>
      (s.modEntry r.1 (fun e => e.setHolder p (some { hr with lease := hr.leaseval }))).respond p t .ok
        [claimCode (s.entry r.1).claim, byte hr.leaseval]

def execRenew (p : Port) (tag : Byte) (params : List Byte) (s : State) : Host.Outcome State Fault Refusal :=
  .next (s.submit p tag 0x21 params (fun t s => s.orBadParam p t (parseRefOnly params) (s.answerRenew p t)))

/-! ## RELEASE -/

/-- A holder record is removed: the end of the claim goes to the segment, and the WAITER is re-evaluated (03 R62). -/
def State.release (s : State) (p : Port) (h : Handle) : State :=
  ((s.modEntry h (fun e => e.dropHolder p)).claimEnds h p).reevaluate h

/-- RELEASE, once its parameters are read; the arbiter chooses where a hold ended (03 R62, 05 R112). -/
def State.answerRelease (s : State) (p : Port) (t : Tag) (r : Handle × Gen) : State :=
  match s.refRefusal r.1 r.2 with
  | some st => s.respond p t st []
  | none =>
    if ((s.entry r.1).holder p).isSome then
      ((s.release p r.1).respond p t .ok []).atSegOf r.1 State.choose
    else s.respond p t .notHolder []

def execRelease (p : Port) (tag : Byte) (params : List Byte) (s : State) : Host.Outcome State Fault Refusal :=
  .next (s.submit p tag 0x22 params (fun t s => s.orBadParam p t (parseRefOnly params) (s.answerRelease p t)))

/-! ## WAITER_GRANTED, LEASE_LAPSE, WAIT_EXPIRY -/

/-- The WAITER of an entry is granted, if its mode is compatible (03 R54; log entry 2). -/
def execWaiterGranted (h : Handle) (s : State) : Host.Outcome State Fault Refusal := .next (s.reevaluate h)

/-- A claim lapses: its holder record is removed, CLAIM_LAPSED is posted with the mode that lapsed, the end of the claim goes to the segment, and
the WAITER is re-evaluated (03 R58). -/
def State.lapse (s : State) (p : Port) (h : Handle) : State :=
  let mode := claimCode (s.entry h).claim
  let s₁ := s.modEntry h (fun e => e.dropHolder p)
  ((s₁.post p .claimLapsed (s₁.subject h) mode).claimEnds h p).reevaluate h

/-- The lapse of a LEASE that stands at 0 (03 R57, R58; log entry 2). -/
def State.leaseLapse (s : State) (h : Handle) (p : Port) : State :=
  if ((s.entry h).holder p).any (fun hr => hr.lease == 0) then (s.lapse p h).atSegOf h State.choose else s

def execLeaseLapse (h : Handle) (p : Port) (s : State) : Host.Outcome State Fault Refusal := .next (s.leaseLapse h p)

/-- The expiry of a WAIT that stands at 0: the WAITER is removed and its CLAIM answered TIMED_OUT (03 R55; log entry 2). -/
def State.waitExpiry (s : State) (h : Handle) : State :=
  match (s.entry h).waiter with
  | some w =>
    if w.wait = 0 then
      (s.modEntry h (fun e => { e with waiter := none })).respond w.port w.tag .timedOut (claimResult (s.entry h))
    else s
  | none => s

def execWaitExpiry (h : Handle) (s : State) : Host.Outcome State Fault Refusal := .next (s.waitExpiry h)

end Sys2Proof.Machine
end

