-- ==== Sys2Proof/Machine/Health.lean ====
section
/-! DEFINITION. The health monitor's commands WATCH, WATCH_CANCEL and SET_LIMITS (06 R121, R123, R128), and the events of watches
(06 R124, R125). -/

namespace Sys2Proof.Machine

/-! ## WATCH -/

/-- The first refusal of WATCH that applies, after BAD_PARAM and before the entry's own state decides (06 R123). -/
def State.watchRefusal (s : State) (h : Handle) (g : Gen) : Option Status :=
  match s.refRefusal h g with
  | some st => some st
  | none =>
    if (s.entry h).watch.isSome then some .busy
    else if (s.entry h).state = .probing then some .notReady
    else none

/-- Whether the segment of an entry is OFF. -/
def State.segmentIsOff (s : State) (h : Handle) : Bool := (s.entry h).place.any (fun pl => (s.seg pl.seg).state == .off)

/-- WATCH, once its parameters are read: a PRESENT entry is answered at once, a SUSPECT or LOST one gets a WATCH (06 R123). -/
def State.answerWatchCommand (s : State) (p : Port) (t : Tag) (a : WatchArgs) : State :=
  match s.watchRefusal a.handle a.gen with
  | some st => s.respond p t st []
  | none =>
    if (s.entry a.handle).state = .present then
      s.respond p t .ok (watchResult a.handle (s.entry a.handle) 0 howPresent)
    else if s.segmentIsOff a.handle then s.respond p t .segmentOff []
    else s.modEntry a.handle (fun e => { e with watch := some ⟨p, t, a.interval, a.limit, a.interval, .none, 0⟩ })

def execWatch (p : Port) (tag : Byte) (params : List Byte) (s : State) : Host.Outcome State Fault Refusal :=
  .next (s.submit p tag 0x40 params (fun t s => s.orBadParam p t (parseWatch params) (s.answerWatchCommand p t)))

/-! ## WATCH_CANCEL -/

/-- WATCH_CANCEL: the requester's watch is answered ABORTED, and then the cancel OK (06 R128). -/
def State.answerWatchCancel (s : State) (p : Port) (t : Tag) (r : Handle × Gen) : State :=
  match s.refRefusal r.1 r.2 with
  | some st => s.respond p t st []
  | none =>
    if (s.entry r.1).watch.any (fun w => w.port == p) then (s.answerWatch r.1 .aborted 0x00).respond p t .ok []
    else s.respond p t .notFound []

def execWatchCancel (p : Port) (tag : Byte) (params : List Byte) (s : State) : Host.Outcome State Fault Refusal :=
  .next (s.submit p tag 0x41 params (fun t s => s.orBadParam p t (parseRefOnly params) (s.answerWatchCancel p t)))

/-! ## SET_LIMITS -/

/-- A SUSPECT entry whose FAILS is at or above the threshold becomes LOST (06 R121). -/
def State.applyLimit (s : State) (h : Handle) : State :=
  if (s.entry h).state = .suspect ∧ s.threshold ≤ (s.entry h).fails then s.becomeLost h else s

/-- The segments whose sweep may have lost its candidate. -/
def State.sweepingSegs (s : State) : List Seg := segments.filter (fun g => (s.seg g).sweep.state == .sweeping)

/-- SET_LIMITS: the threshold is replaced, entries become LOST in ascending handle order, the response follows, and the arbiter of a segment that
sweeps chooses (06 R121, 08 R143; log entry 5). -/
def State.answerSetLimits (s : State) (p : Port) (t : Tag) (n : Nat) : State :=
  let s₁ := handles.foldl State.applyLimit { s with threshold := n }
  let s₂ := s₁.respond p t .ok [byte s.threshold, byte n]
  s₂.forAnyOrder s₂.sweepingSegs State.choose

def execSetLimits (p : Port) (tag : Byte) (params : List Byte) (s : State) : Host.Outcome State Fault Refusal :=
  .next (s.submit p tag 0x42 params (fun t s => s.orBadParam p t (parseLimits params) (s.answerSetLimits p t)))

/-! ## WATCH_PROBE_DUE, WATCH_PROBE_END -/

/-- Whether the NEXTDUE of an entry's watch runs: PROBE is NONE and the entry is SUSPECT or LOST (06 R124). -/
def Entry.watchRuns (e : Entry) : Bool :=
  (e.state == .suspect || e.state == .lost) && e.watch.any (fun w => w.probe == .none)

/-- The probe of a watch becomes due: it joins BACKGROUND, INFLIGHT rises, and the arbiter chooses (06 R124, 04 R82). -/
def State.becomeDue (s : State) (h : Handle) : State :=
  (s.modEntry h (fun e => { e.rise with watch := e.watch.map (fun w => { w with probe := .due }) })).atSegOf h State.choose

/-- The probe of a watch whose NEXTDUE stands at 0 becomes due (06 R124; log entry 2). -/
def State.watchProbeDue (s : State) (h : Handle) : State :=
  if (s.entry h).watchRuns && (s.entry h).watch.any (fun w => w.nextdue == 0) then s.becomeDue h else s

def execWatchProbeDue (h : Handle) (s : State) : Host.Outcome State Fault Refusal := .next (s.watchProbeDue h)

/-- A watch probe reaches its end on the wire (06 R125). -/
def execWatchProbeEnd (g : Seg) (e : TransferEnd) (s : State) : Host.Outcome State Fault Refusal :=
  .next (s.endOfKind g .watch e)

end Sys2Proof.Machine
end

