-- ==== Sys2Proof/Machine/Admission.lean ====
section
/-! DEFINITION. ADMIT (02 R31, R32) and the end of an admission transfer (02 R26). -/

namespace Sys2Proof.Machine

/-- What the state of a segment says to new work that names it: SEGMENT_OFF, BUS_STUCK, or nothing (04 R68). -/
def SegState.refusal : SegState → Option Status
  | .off => some .segmentOff
  | .stuck => some .busStuck
  | .idle | .active | .held | .recovering => none

/-- The first refusal of ADMIT that applies, after BAD_PARAM, with its result bytes; or the entry to be taken (02 R31). -/
def State.admitDecision (s : State) (a : AdmitArgs) : Except (Status × List Byte) Handle :=
  match s.find a.seg a.amode a.addr with
  | some h => .error (.duplicate, [byte h.val, byte (s.entry h).gen.val])
  | none =>
    match s.lowestVacant with
    | none => .error (.directoryFull, [])
    | some h =>
      match (s.seg a.seg).state.refusal with
      | some st => .error (st, [])
      | none => .ok h

/-- The entry that an accepted ADMIT takes (01 R9, 02 R32). -/
def Entry.admitted (e : Entry) (p : Port) (t : Tag) (a : AdmitArgs) : Entry :=
  e.taken ⟨a.seg, a.amode, a.addr, .byAdmit, a.dmode⟩ (if p = .A then a.mask else {}) (if p = .B then a.mask else {})
    (.byAdmit (some (p, t)))

/-- ADMIT, once its parameters are read (02 R31, R32). -/
def State.answerAdmit (s : State) (p : Port) (t : Tag) (a : AdmitArgs) : State :=
  match s.admitDecision a with
  | .error (st, result) => s.respond p t st result
  | .ok h => (s.modEntry h (fun e => e.admitted p t a)).choose a.seg

def execAdmit (p : Port) (tag : Byte) (params : List Byte) (s : State) : Host.Outcome State Fault Refusal :=
  .next (s.submit p tag 0x10 params (fun t s => s.orBadParam p t (parseAdmit params) (s.answerAdmit p t)))

/-- An address probe, SIZE read or body read of an admission reaches its end on the wire (02 R26). -/
def execAdmissionTransferEnd (g : Seg) (e : TransferEnd) (s : State) : Host.Outcome State Fault Refusal :=
  .next (s.endOfKind g .admission e)

end Sys2Proof.Machine
end

