-- ==== Sys2Proof/Machine/Transfers.lean ====
section
/-! DEFINITION. The transfer commands WRITE, READ, WRITE_READ and PING (05 R99, R100), and the events of the bus engine, of holds and of settling
(04 R85 to R87, R89, 05 R102, R106, R111). -/

namespace Sys2Proof.Machine

/-! ## WRITE, READ, WRITE_READ, PING -/

/-- The first check of acceptance that fails, after BAD_PARAM; or the segment whose HOSTQ the transaction joins (05 R99). -/
def State.transferDecision (s : State) (p : Port) (a : TransferArgs) : Except Status Seg :=
  let e := s.entry a.handle
  match e.place with
  | none => .error .stale
  | some pl =>
    if !s.isCurrent a.handle a.gen then .error .stale
    else
      match e.state.transferStatus with
      | some st => .error st
      | none =>
        match (s.seg pl.seg).state.refusal with
        | some st => .error st
        | none =>
          match e.right p a.kind with
          | some st => .error st
          | none =>
            match e.desc.limits a.wdata.length a.rlen a.chain with
            | some st => .error st
            | none => if (s.seg pl.seg).hostq.length < Config.hostqPlaces then .ok pl.seg else .error .segmentFull

/-- The host transaction that a request becomes (05 R93). -/
def TransferArgs.tx (a : TransferArgs) (p : Port) (t : Tag) : HostTx :=
  { port := p, tag := t, handle := a.handle, gen := a.gen, kind := a.kind, offset := a.offset, wdata := a.wdata, rlen := a.rlen,
    chain := a.chain, active := false, orphan := false }

/-- A transfer is accepted: it joins the tail of HOSTQ, INFLIGHT rises by 1, and the arbiter chooses (05 R100). -/
def State.acceptTransfer (s : State) (p : Port) (t : Tag) (g : Seg) (a : TransferArgs) : State :=
  ((s.modSeg g (fun r => { r with hostq := r.hostq ++ [a.tx p t] })).modEntry a.handle Entry.rise).choose g

/-- A transfer request of a kind, once its parameters are read: refused at once with counts of 0, or accepted (05 R99, R100, 11 R181;
a BAD_PARAM carries the counts as every status does: log entry 8). -/
def State.answerTransfer (s : State) (p : Port) (t : Tag) (k : TxKind) (args : Option TransferArgs) : State :=
  match args with
  | none => s.respond p t .badParam (txResult k 0 [])
  | some a =>
    match s.transferDecision p a with
    | .error st => s.respond p t st (txResult k 0 [])
    | .ok g => s.acceptTransfer p t g a

def execWrite (p : Port) (tag : Byte) (params : List Byte) (s : State) : Host.Outcome State Fault Refusal :=
  .next (s.submit p tag 0x30 params (fun t s => s.answerTransfer p t .write (parseWrite params)))

def execRead (p : Port) (tag : Byte) (params : List Byte) (s : State) : Host.Outcome State Fault Refusal :=
  .next (s.submit p tag 0x31 params (fun t s => s.answerTransfer p t .read (parseRead params)))

def execWriteRead (p : Port) (tag : Byte) (params : List Byte) (s : State) : Host.Outcome State Fault Refusal :=
  .next (s.submit p tag 0x32 params (fun t s => s.answerTransfer p t .writeRead (parseWriteRead params)))

def execPing (p : Port) (tag : Byte) (params : List Byte) (s : State) : Host.Outcome State Fault Refusal :=
  .next (s.submit p tag 0x33 params (fun t s => s.answerTransfer p t .ping (parsePing params)))

/-! ## The arbiter and the bus engine -/

/-- The arbiter of a segment chooses (04 R82 to R84; log entry 2). -/
def execArbiterGrant (g : Seg) (s : State) : Host.Outcome State Fault Refusal := .next (s.choose g)

/-- The transfer on the bus loses arbitration, after this much progress of the attempt (04 R86). -/
def execArbLost (g : Seg) (pr : Progress) (s : State) : Host.Outcome State Fault Refusal := .next (s.busEvent g (.arbLost pr))

/-- The wait for a free bus reaches BUSYWAIT, with the data line alone held low for the whole of it or not (04 R85). -/
def State.busBusy (s : State) (g : Seg) (dataLineLow : Bool) : State :=
  match (s.seg g).state, (s.seg g).current with
  | .active, some c => if c.recovering then s else s.waitsTooLong g c dataLineLow
  | _, _ => s

def execBusBusy (g : Seg) (dataLineLow : Bool) (s : State) : Host.Outcome State Fault Refusal := .next (s.busBusy g dataLineLow)

/-- The clock line has been held low for longer than CLKLOW, after this much progress (04 R87). -/
def execClockTimeout (g : Seg) (pr : Progress) (s : State) : Host.Outcome State Fault Refusal :=
  .next (s.busEvent g (.clockTimeout pr))

/-- The host transaction on the bus reaches its end on the wire (05 R102). -/
def execHostTransactionEnd (g : Seg) (e : TransferEnd) (s : State) : Host.Outcome State Fault Refusal :=
  .next (s.endOfKind g .host e)

/-- The recovery procedure ends, with what it saw each time it looked at the lines (04 R89). -/
def State.recoveryEnd (s : State) (g : Seg) (obs : List LineObs) : State :=
  match (s.seg g).state with
  | .recovering =>
    match recover obs with
    | some ok => s.outerRecovery g ok
    | none => s
  | .off | .idle | .active | .held | .stuck => s.busEvent g (.recovery obs)

def execRecoveryEnd (g : Seg) (obs : List LineObs) (s : State) : Host.Outcome State Fault Refusal := .next (s.recoveryEnd g obs)

/-! ## Holds and settling -/

/-- A hold expires: a stop, CHAINBRK, and the arbiter chooses (05 R111). -/
def State.expireHold (s : State) (g : Seg) : State := (s.endHold g true).choose g

/-- The expiry of a hold whose HOLDLEFT stands at 0 (05 R111; log entry 2). -/
def State.holdExpiry (s : State) (g : Seg) : State :=
  if (s.seg g).heldBy (fun ho => ho.left == 0) then s.expireHold g else s

def execHoldExpiry (g : Seg) (s : State) : Host.Outcome State Fault Refusal := .next (s.holdExpiry g)

/-- SETTLE of an entry reaches 0, and the arbiter of its segment chooses (04 R82, 05 R106). -/
def State.settleEnd (s : State) (h : Handle) : State := (s.modEntry h (fun e => { e with settle := 0 })).atSegOf h State.choose

/-- The end of a SETTLE that stands at 0 (05 R106; log entry 2). -/
def execSettleEnd (h : Handle) (s : State) : Host.Outcome State Fault Refusal :=
  .next (if (s.entry h).settle = 0 then s.settleEnd h else s)

end Sys2Proof.Machine
end

