-- ==== Sys2Proof/Machine/Timebase.lean ====
section
/-! DEFINITION. The two ticks of the timebase (03 R55, R57, 04 R81, 05 R109, 06 R124, 08 R148), with the events that each brings about in its own step, in
the order that the tick gives (log entry 4). -/

namespace Sys2Proof.Machine

/-! ## The events -/

/-- An event comes about inside a step, if it is still due when its turn comes (log entry 4). -/
def State.happen (s : State) : Event → State
  | .leaseLapse h p => s.leaseLapse h p
  | .waitExpiry h => s.waitExpiry h
  | .watchProbeDue h => s.watchProbeDue h
  | .rearmExpiry g => s.rearmExpiry g
  | .settleEnd h => s.settleEnd h
  | .holdExpiry g => s.holdExpiry g
  | .waiterGranted h => s.reevaluate h
  | .retireComplete h => if (s.entry h).drained then s.completeRetire h else s
  | .arbiterGrant g => s.choose g

/-! ## The 10 ms tick -/

/-- A holder's LEASE decreases by 1 (03 R57). -/
def Holder.tick (hr : Holder) : Holder := { hr with lease := hr.lease - 1 }

/-- The leases, the wait and the watch of an entry, one 10 ms tick later (03 R55, R57, 06 R124). -/
def Entry.tick10ms (e : Entry) : Entry :=
  { e with
    holderA := e.holderA.map Holder.tick
    holderB := e.holderB.map Holder.tick
    waiter := e.waiter.map (fun w => { w with wait := w.wait - 1 })
    watch := if e.watchRuns then e.watch.map (fun w => { w with nextdue := w.nextdue - 1 }) else e.watch }

/-- The re-arm interval of a DISARMED unit, one 10 ms tick later (08 R148). -/
def Segment.tick10ms (r : Segment) : Segment :=
  if r.sweep.state = .disarmed then { r with sweep := { r.sweep with rearmleft := r.sweep.rearmleft - 1 } } else r

/-- The events of an entry that are due once the tick has counted (03 R55, R57, 06 R124). -/
def State.due10msEntry (s : State) (h : Handle) : List Event :=
  let e := s.entry h
  (if e.holderA.any (fun hr => hr.lease == 0) then [.leaseLapse h .A] else []) ++
  (if e.holderB.any (fun hr => hr.lease == 0) then [.leaseLapse h .B] else []) ++
  (if e.waiter.any (fun w => w.wait == 0) then [.waitExpiry h] else []) ++
  (if e.watchRuns && e.watch.any (fun w => w.nextdue == 0) then [.watchProbeDue h] else [])

/-- The events that are due once a 10 ms tick has counted. -/
def State.due10ms (s : State) : List Event :=
  handles.flatMap s.due10msEntry ++
  (segments.filter (fun g => (s.seg g).rearmDue)).map .rearmExpiry

/-- A 10 ms tick counts (03 R55, R57, 06 R124, 08 R148). -/
def State.count10ms (s : State) : State := (s.mapEntries Entry.tick10ms).mapSegs Segment.tick10ms

/-- A 10 ms tick: the counts fall, and what reaches 0 comes about in the same step, in the order given (03 R55 to R59). -/
def State.tick10ms (s : State) (first : List Event) : State :=
  (preferring first s.count10ms.due10ms).foldl State.happen s.count10ms

def execTimebaseTick10ms (first : List Event) (s : State) : Host.Outcome State Fault Refusal := .next (s.tick10ms first)

/-! ## The 100 µs tick -/

/-- SETTLE of an entry, one 100 µs tick later; the last unit is taken by its own event (04 R81). -/
def Entry.tick100us (e : Entry) : Entry := { e with settle := if 1 < e.settle then e.settle - 1 else e.settle }

/-- HOLDLEFT of a HELD segment, one 100 µs tick later (05 R109). -/
def Segment.tick100us (r : Segment) : Segment := { r with hold := r.hold.map (fun ho => { ho with left := ho.left - 1 }) }

/-- A 100 µs tick counts: the SETTLE of every settling entry and the HOLDLEFT of every hold fall by 1. A SETTLE of 1 falls to 0 in its own
event, so that whatever is taken before that event still finds the entry settling (04 R81, 05 R109, R111). -/
def State.count100us (s : State) : State := (s.mapEntries Entry.tick100us).mapSegs Segment.tick100us

/-- The events that a 100 µs tick brings about on `s`: a SETTLE of 1 and a HOLDLEFT of 1 reach 0 (05 R106, R111). -/
def State.due100us (s : State) : List Event :=
  (handles.filter (fun h => (s.entry h).settle == 1)).map .settleEnd ++
  (segments.filter (fun g => (s.seg g).heldBy (fun ho => ho.left ≤ 1))).map .holdExpiry

/-- A 100 µs tick, and what reaches 0 comes about in the same step, in the order given (05 R106, R111). -/
def State.tick100us (s : State) (first : List Event) : State :=
  (preferring first s.due100us).foldl State.happen s.count100us

def execTimebaseTick100us (first : List Event) (s : State) : Host.Outcome State Fault Refusal := .next (s.tick100us first)

end Sys2Proof.Machine
end

