-- ==== Sys2Proof/Machine/Resets.lean ====
section
/-! DEFINITION. PORT_RESET (10 R174, R175, 03 R65, 04 R78, 06 R130, 07 R140, 09 R157) and PIN_RESET (01 R21, 10 R176). -/

namespace Sys2Proof.Machine

/-! ## PORT_RESET -/

/-- A requester is forgotten where it is the port that is reset (01 R15, 04 R73, R76). -/
def forget (p : Port) (owner : Option (Port × Tag)) : Option (Port × Tag) := owner.filter (fun o => o.1 != p)

/-- The SOURCE of an admission loses the port that is reset (02 R36, R42). -/
def AdmSource.forget (p : Port) : AdmSource → AdmSource
  | .byAdmit owner => .byAdmit (Machine.forget p owner)
  | .survey owner => .survey (owner.filter (fun o => o != p))
  | .watch => .watch
  | .surveyReappear => .surveyReappear

/-- What a reset of a port does to an entry: its holder record, its WAITER, its WATCH, its mask, its CHAINBRK flag, and its name in the admission
and the retire under way are gone (03 R65, 06 R130, 10 R174, R175). -/
def Entry.portReset (e : Entry) (p : Port) : Entry :=
  let e₁ := if (e.holder p).isSome then e.dropHolder p else e
  let e₂ := { e₁ with waiter := e₁.waiter.filter (fun w => w.port != p) }
  let e₃ := if e₂.watch.any (fun w => w.port == p) then e₂.endWatch else e₂
  let e₄ := (e₃.setSubs p {}).setChain p false
  { e₄ with
    adm := e₄.adm.map (fun a => { a with source := a.source.forget p })
    retire := forget p e₄.retire }

/-- The transactions of a port in HOSTQ that are not on the bus (04 R78). -/
def Segment.withdrawn (r : Segment) (p : Port) : List HostTx := r.hostq.filter (fun t => t.port == p && !t.active)

/-- What a reset of a port does to a segment: its transactions in HOSTQ are removed but the one on the bus, whose response will be discarded; its
survey and its hold end, and its name in PENDCMD is gone (04 R78, 05 R112, 07 R140, 10 R175). -/
def Segment.portReset (r : Segment) (p : Port) : Segment :=
  let r₁ := { r with
    hostq := (r.hostq.filter (fun t => t.port != p || t.active)).map (fun t => if t.port = p then { t with orphan := true } else t)
    survey := r.survey.filter (fun c => c.port != p)
    pendcmd := r.pendcmd.map (fun c => { c with owner := forget p c.owner }) }
  if r.heldBy (fun ho => ho.port == p) then { r₁ with state := .idle, hold := none, lines := .stop } else r₁

/-- The transactions of a port withdrawn from every HOSTQ. -/
def State.withdrawn (s : State) (p : Port) : List HostTx := segments.flatMap (fun g => (s.seg g).withdrawn p)

/-- The port's record, and what it had asked for on every entry and every segment, as a reset of the port leaves them (10 R174, R175). -/
def State.withdrawPort (s : State) (p : Port) : State :=
  let s₁ := (s.withdrawn p).foldl (fun s t => s.modEntry t.handle Entry.lower) s
  ((s₁.mapEntries (fun e => e.portReset p)).mapSegs (fun r => r.portReset p)).setPort p {}

/-- What a reset of a port brings about on the entries in its own step, once `s` is what it left: a WAITER of the other port may be granted, and a
retire may complete (03 R65 step 3, 01 R15). -/
def State.portResetEvents (s : State) : List Event :=
  (handles.filter (fun h => (s.entry h).waiterReady)).map .waiterGranted ++
  (handles.filter (fun h => (s.entry h).drained)).map .retireComplete

/-- The segments held by a port (05 R108). -/
def State.heldSegs (s : State) (p : Port) : List Seg := segments.filter (fun g => (s.seg g).heldBy (fun ho => ho.port == p))

/-- A PORT_RESET exchange ends and resets the port (10 R174, R175). What the reset brings about on the entries is taken in any order; after that the
arbiter of each segment whose hold ended chooses, in any order, so that every transaction meets the dispatch recheck with the claims as
they stand once the WAITERs have been granted (03 R65, 04 R82; log entries 5 and 15). -/
def State.portReset (s : State) (p : Port) : State :=
  if (s.port p).exchange = .portReset then
    let s₁ := s.withdrawPort p
    let s₂ := s₁.forAnyOrder s₁.portResetEvents State.happen
    s₂.forAnyOrder (s.heldSegs p) State.choose
  else s

def execPortReset (p : Port) (s : State) : Host.Outcome State Fault Refusal := .next (s.portReset p)

/-! ## PIN_RESET -/

/-- The whole part after a reset by its pin. The input pins keep their levels; the queue of commands and the count of open orders are the
model's own (01 R21, 10 R176; log entry 9). -/
def State.pinReset (s : State) : State :=
  { State.reset with
    segs := s.segs.map (fun r => { ({} : Segment) with sattn := r.sattn })
    portA := { PortRec.pinReset with cs := s.portA.cs }
    portB := { PortRec.pinReset with cs := s.portB.cs }
    races := s.races
    pending := s.pending }

def execPinReset (s : State) : Host.Outcome State Fault Refusal := .next s.pinReset

end Sys2Proof.Machine
end

