-- ==== Sys2Proof/Machine/Segments.lean ====
section
/-! DEFINITION. The segment commands SEGMENT_SETUP, SEGMENT_ENABLE, SEGMENT_DISABLE, SEGMENT_RESET and SEGMENT_STATUS (04 R71 to R77), and
DISABLE_COMPLETE (04 R74). -/

namespace Sys2Proof.Machine

/-! ## SEGMENT_SETUP -/

/-- The eight settings, in the order of the request (11 R180, R181). -/
def settingsBytes (c : Settings) : List Byte :=
  [speedCode c.speed, byte c.clklow, byte c.busywait, byte c.arbretry, byte c.holdlimit, c.descoff, byte (bit c.attnen), byte c.rearm]

/-- SEGMENT_SETUP: all eight settings are replaced where the segment is OFF (04 R71). -/
def State.answerSetup (s : State) (p : Port) (t : Tag) (a : Seg × Settings) : State :=
  if (s.seg a.1).state = .off then
    (s.modSeg a.1 (fun r => { r with config := a.2 })).respond p t .ok (settingsBytes a.2)
  else s.respond p t .busy []

def execSegmentSetup (p : Port) (tag : Byte) (params : List Byte) (s : State) : Host.Outcome State Fault Refusal :=
  .next (s.submit p tag 0x60 params (fun t s => s.orBadParam p t (parseSetup params) (s.answerSetup p t)))

/-! ## SEGMENT_ENABLE -/

/-- An OFF segment becomes IDLE with NEXTCLASS HOST, and its attention unit follows its input (04 R72, 08 R142). -/
def Segment.enable (r : Segment) : Segment := { r with state := .idle, nextclass := .host }.startSweep

/-- SEGMENT_ENABLE: OK in every state (04 R72). -/
def State.answerEnable (s : State) (p : Port) (t : Tag) (g : Seg) : State :=
  if (s.seg g).state = .off then ((s.modSeg g Segment.enable).respond p t .ok []).choose g
  else s.respond p t .ok []

def execSegmentEnable (p : Port) (tag : Byte) (params : List Byte) (s : State) : Host.Outcome State Fault Refusal :=
  .next (s.submit p tag 0x61 params (fun t s => s.orBadParam p t (parseSegOnly params) (s.answerEnable p t)))

/-! ## SEGMENT_DISABLE, DISABLE_COMPLETE -/

/-- SEGMENT_DISABLE, once its parameters are read. `clockHigh` says whether the clock line of a HELD segment, once released, stands high
(04 R73). -/
def State.answerDisable (s : State) (p : Port) (t : Tag) (clockHigh : Bool) (g : Seg) : State :=
  if (s.seg g).pendcmd.isSome then s.respond p t .busy []
  else
    match (s.seg g).state with
    | .off => s.respond p t .ok []
    | .active => s.modSeg g (fun r => { r with pendcmd := some ⟨.disable, some (p, t)⟩ })
    | .idle | .held | .recovering | .stuck => s.goOff g clockHigh (some (p, t))

def execSegmentDisable (p : Port) (tag : Byte) (params : List Byte) (clockHigh : Bool) (s : State) :
    Host.Outcome State Fault Refusal :=
  .next (s.submit p tag 0x62 params (fun t s => s.orBadParam p t (parseSegOnly params) (s.answerDisable p t clockHigh)))

/-- An event reaches the transfer on the bus while a DISABLE is pending; where it ends the transfer the segment goes OFF (04 R74). -/
def execDisableComplete (g : Seg) (ev : BusEvent) (s : State) : Host.Outcome State Fault Refusal :=
  .next (if (s.seg g).pendcmd.any (fun c => c.kind == .disable) then s.busEvent g ev else s)

/-! ## SEGMENT_RESET -/

/-- Part 1 of a segment reset: the transfer on the bus, if any, is cut and its work told, but for a survey probe and a sweep read
(04 R75). -/
def State.cutTransfer (s : State) (g : Seg) (c : Current) : State :=
  match c.kind with
  | .host | .admission | .watch => s.deliver g c .aborted
  | .survey | .sweep => s

/-- Part 3: a running survey is answered ABORTED, and its probe on the bus ends with it (04 R75, 07 R139). -/
def State.cutSurvey (s : State) (g : Seg) (cut : Option Current) : State :=
  let s₁ := match cut with
    | some c => if c.kind = CurKind.survey then s.deliver g c .aborted else s
    | none => s
  s₁.answerSurvey g .aborted

/-- Part 4: the sweep ends with its read on the bus, and the unit is armed (04 R75, 08 R150). -/
def State.cutSweep (s : State) (g : Seg) (cut : Option Current) : State :=
  let s₁ := match cut with
    | some c => if c.kind = CurKind.sweep then s.deliver g c .aborted else s
    | none => s
  s₁.modSeg g Segment.armSweep

/-- Part 7: PENDCMD, NEXTCLASS and STATE, the lines released for the recovery, and a new sweep where the input is asserted
(04 R75, R89, 08 R150). -/
def Segment.beginReset (r : Segment) (owner : Port × Tag) : Segment :=
  { r with pendcmd := some ⟨.reset, some owner⟩, nextclass := .host, state := .recovering, lines := .released }.startSweep

/-- An accepted SEGMENT_RESET. `pr` says how far the transfer on the bus had come when it was cut (04 R75). -/
def State.resetSegment (s : State) (p : Port) (t : Tag) (g : Seg) (pr : Progress) : State :=
  let cut := (s.seg g).current.map (fun c => c.advance pr)
  let s₁ := s.modSeg g (fun r => { r with current := none })
  let s₂ := match cut with
    | some c => s₁.cutTransfer g c
    | none => s₁
  let s₃ := s₂.completeAll g .segmentReset
  let s₄ := s₃.cutSurvey g cut
  let s₅ := s₄.cutSweep g cut
  let s₆ := s₅.dropHold g .released true
  s₆.modSeg g (fun r => r.beginReset (p, t))

/-- SEGMENT_RESET, once its parameters are read (04 R75). -/
def State.answerReset (s : State) (p : Port) (t : Tag) (pr : Progress) (g : Seg) : State :=
  if (s.seg g).state = .off then s.respond p t .segmentOff []
  else if (s.seg g).pendcmd.isSome then s.respond p t .busy []
  else s.resetSegment p t g pr

def execSegmentReset (p : Port) (tag : Byte) (params : List Byte) (pr : Progress) (s : State) :
    Host.Outcome State Fault Refusal :=
  .next (s.submit p tag 0x63 params (fun t s => s.orBadParam p t (parseSegOnly params) (s.answerReset p t pr)))

/-! ## SEGMENT_STATUS -/

/-- A handle in a frame, FFH where absent (11 R179). -/
def handleByte (o : Option Handle) : Byte := (o.map (fun h => byte h.val)).getD absent

/-- HOLDPORT, HOLDENTRY, HOLDLEFT (11 R181). -/
def holdBytes (o : Option Hold) : List Byte :=
  match o with
  | some ho => [portCode ho.port, byte ho.entry.val, byte ho.left]
  | none => [absent, absent, 0x00]

/-- The survey's PORT, NEXT, HIGH and four counts (11 R181). -/
def surveyBytes (o : Option Cursor) : List Byte :=
  match o with
  | some c => [portCode c.port, byte c.next, byte c.high, byte c.found, byte c.reappeared, byte c.missing, byte c.full]
  | none => [absent, 0, 0, 0, 0, 0, 0]

/-- ADMITS: the admission transfers in BACKGROUND (04 R77). -/
def State.admits (s : State) (g : Seg) : Nat := (handles.filter (fun h => (s.entry h).onSeg g && (s.entry h).admWaiting)).length

/-- WATCHDUE: the watch probes in BACKGROUND (04 R77). -/
def State.watchesDue (s : State) (g : Seg) : Nat := (handles.filter (fun h => (s.entry h).onSeg g && (s.entry h).watchDue)).length

/-- The segment report of SEGMENT_STATUS, 28 bytes (04 R77, 11 R181). -/
def State.segmentReport (s : State) (g : Seg) : List Byte :=
  let r := s.seg g
  [segStateCode r.state, pendingCode r.pendcmd, byte r.hostq.length, curKindCode (r.current.map Current.kind),
    handleByte (r.current.bind Current.entry)] ++ holdBytes r.hold ++ [byte (s.admits g), byte (s.watchesDue g)] ++
    surveyBytes r.survey ++
    [swStateCode r.sweep.state, (r.sweep.cursor.map byte).getD absent, nextClassCode r.nextclass] ++ settingsBytes r.config

/-- SEGMENT_STATUS (04 R77). -/
def State.answerStatus (s : State) (p : Port) (t : Tag) (g : Seg) : State := s.respond p t .ok (s.segmentReport g)

def execSegmentStatus (p : Port) (tag : Byte) (params : List Byte) (s : State) : Host.Outcome State Fault Refusal :=
  .next (s.submit p tag 0x64 params (fun t s => s.orBadParam p t (parseSegOnly params) (s.answerStatus p t)))

end Sys2Proof.Machine
end

