-- ==== Sys2Proof/Machine/Surveys.lean ====
section
/-! DEFINITION. SURVEY and SURVEY_ABORT (07 R132, R139), and the end of a survey probe (07 R133). -/

namespace Sys2Proof.Machine

/-- The cursor of a survey that has just been accepted (07 R132). -/
def Cursor.start (p : Port) (t : Tag) (low high : Nat) : Cursor :=
  { port := p, tag := t, low := low, high := high, next := low, probe := .waiting, named := none, found := 0, reappeared := 0,
    missing := 0, full := 0, fullPosted := false }

/-- SURVEY, once its parameters are read; BUSY carries the running survey's port and NEXT (07 R132). -/
def State.answerSurveyCommand (s : State) (p : Port) (t : Tag) (a : Seg × Nat × Nat) : State :=
  match (s.seg a.1).state.refusal with
  | some st => s.respond p t st []
  | none =>
    match (s.seg a.1).survey with
    | some c => s.respond p t .busy [portCode c.port, byte c.next]
    | none => (s.modSeg a.1 (fun r => { r with survey := some (Cursor.start p t a.2.1 a.2.2) })).choose a.1

def execSurvey (p : Port) (tag : Byte) (params : List Byte) (s : State) : Host.Outcome State Fault Refusal :=
  .next (s.submit p tag 0x50 params (fun t s => s.orBadParam p t (parseSurvey params) (s.answerSurveyCommand p t)))

/-- SURVEY_ABORT: the survey is answered ABORTED, and then the abort OK (07 R139). -/
def State.answerSurveyAbort (s : State) (p : Port) (t : Tag) (g : Seg) : State :=
  if (s.seg g).survey.isSome then (s.answerSurvey g .aborted).respond p t .ok [] else s.respond p t .notFound []

def execSurveyAbort (p : Port) (tag : Byte) (params : List Byte) (s : State) : Host.Outcome State Fault Refusal :=
  .next (s.submit p tag 0x51 params (fun t s => s.orBadParam p t (parseSegOnly params) (s.answerSurveyAbort p t)))

/-- A survey probe reaches its end on the wire (07 R133). -/
def execSurveyProbeEnd (g : Seg) (e : TransferEnd) (s : State) : Host.Outcome State Fault Refusal :=
  .next (s.endOfKind g .survey e)

end Sys2Proof.Machine
end

