-- ==== Sys2Proof/Machine/Dispatch.lean ====
section
/-! DEFINITION. The meaning of every command: one arm for each constructor of `Instr`. -/

namespace Sys2Proof.Machine

def exec (i : Instr) (s : State) : Host.Outcome State Fault Refusal :=
  match i with
  | .exchangeBegin p => Sys2Proof.Machine.execExchangeBegin p s
  | .leadByte p b => Sys2Proof.Machine.execLeadByte p b s
  | .submitRejected p bytes => Sys2Proof.Machine.execSubmitRejected p bytes s
  | .badCommand p tag code params => Sys2Proof.Machine.execBadCommand p tag code params s
  | .takeResponse p clocked => Sys2Proof.Machine.execTakeResponse p clocked s
  | .takeNotice p clocked => Sys2Proof.Machine.execTakeNotice p clocked s
  | .summary p clocked => Sys2Proof.Machine.execSummary p clocked s
  | .portReset p => Sys2Proof.Machine.execPortReset p s
  | .pinReset => Sys2Proof.Machine.execPinReset s
  | .admitDevice p tag params => Sys2Proof.Machine.execAdmit p tag params s
  | .retire p tag params => Sys2Proof.Machine.execRetire p tag params s
  | .retireComplete h => Sys2Proof.Machine.execRetireComplete h s
  | .lookup p tag params => Sys2Proof.Machine.execLookup p tag params s
  | .list p tag params => Sys2Proof.Machine.execList p tag params s
  | .readEntry p tag params => Sys2Proof.Machine.execReadEntry p tag params s
  | .subscribe p tag params => Sys2Proof.Machine.execSubscribe p tag params s
  | .segmentSubscribe p tag params => Sys2Proof.Machine.execSegmentSubscribe p tag params s
  | .claim p tag params => Sys2Proof.Machine.execClaim p tag params s
  | .renew p tag params => Sys2Proof.Machine.execRenew p tag params s
  | .release p tag params => Sys2Proof.Machine.execRelease p tag params s
  | .waiterGranted h => Sys2Proof.Machine.execWaiterGranted h s
  | .leaseLapse h p => Sys2Proof.Machine.execLeaseLapse h p s
  | .waitExpiry h => Sys2Proof.Machine.execWaitExpiry h s
  | .timebaseTick10ms first => Sys2Proof.Machine.execTimebaseTick10ms first s
  | .timebaseTick100us first => Sys2Proof.Machine.execTimebaseTick100us first s
  | .write p tag params => Sys2Proof.Machine.execWrite p tag params s
  | .read p tag params => Sys2Proof.Machine.execRead p tag params s
  | .writeRead p tag params => Sys2Proof.Machine.execWriteRead p tag params s
  | .ping p tag params => Sys2Proof.Machine.execPing p tag params s
  | .arbiterGrant g => Sys2Proof.Machine.execArbiterGrant g s
  | .arbLost g pr => Sys2Proof.Machine.execArbLost g pr s
  | .busBusy g dataLineLow => Sys2Proof.Machine.execBusBusy g dataLineLow s
  | .clockTimeout g pr => Sys2Proof.Machine.execClockTimeout g pr s
  | .hostTransactionEnd g e => Sys2Proof.Machine.execHostTransactionEnd g e s
  | .holdExpiry g => Sys2Proof.Machine.execHoldExpiry g s
  | .settleEnd h => Sys2Proof.Machine.execSettleEnd h s
  | .admissionTransferEnd g e => Sys2Proof.Machine.execAdmissionTransferEnd g e s
  | .watch p tag params => Sys2Proof.Machine.execWatch p tag params s
  | .watchCancel p tag params => Sys2Proof.Machine.execWatchCancel p tag params s
  | .watchProbeDue h => Sys2Proof.Machine.execWatchProbeDue h s
  | .watchProbeEnd g e => Sys2Proof.Machine.execWatchProbeEnd g e s
  | .setLimits p tag params => Sys2Proof.Machine.execSetLimits p tag params s
  | .survey p tag params => Sys2Proof.Machine.execSurvey p tag params s
  | .surveyAbort p tag params => Sys2Proof.Machine.execSurveyAbort p tag params s
  | .surveyProbeEnd g e => Sys2Proof.Machine.execSurveyProbeEnd g e s
  | .segmentSetup p tag params => Sys2Proof.Machine.execSegmentSetup p tag params s
  | .segmentEnable p tag params => Sys2Proof.Machine.execSegmentEnable p tag params s
  | .segmentDisable p tag params clockHigh => Sys2Proof.Machine.execSegmentDisable p tag params clockHigh s
  | .disableComplete g ev => Sys2Proof.Machine.execDisableComplete g ev s
  | .segmentReset p tag params pr => Sys2Proof.Machine.execSegmentReset p tag params pr s
  | .segmentStatus p tag params => Sys2Proof.Machine.execSegmentStatus p tag params s
  | .recoveryEnd g obs => Sys2Proof.Machine.execRecoveryEnd g obs s
  | .portSetup p tag params => Sys2Proof.Machine.execPortSetup p tag params s
  | .attentionAsserted g => Sys2Proof.Machine.execAttentionAsserted g s
  | .attentionDeasserted g => Sys2Proof.Machine.execAttentionDeasserted g s
  | .rearmExpiry g => Sys2Proof.Machine.execRearmExpiry g s
  | .sweepReadEnd g e => Sys2Proof.Machine.execSweepReadEnd g e s
  | .exchangeIgnoredEnd p => Sys2Proof.Machine.execExchangeIgnoredEnd p s

end Sys2Proof.Machine
end

