-- ==== Sys2Proof/Safety.lean ====
section
/-! DEFINITION. The terms in which claims are made: a request that its port accepts, a transfer on the bus, and the conditions that the spec says always
stand. -/

namespace Sys2Proof.Machine

/-! ## Requests that a port accepts -/

/-- The port is in a SUBMIT exchange and the tag is FREE: a whole frame that names the tag will be accepted (10 R165, R166). -/
structure Ready (s : State) (p : Port) (t : Tag) : Prop where
  submit : (s.port p).exchange = .submit
  free : (s.port p).tags[t.val] = false

/-- The part once a port has accepted a frame and before its block has answered (10 R166). -/
def State.accepted (s : State) (p : Port) (t : Tag) : State := s.setPort p ((s.port p).accept t)

/-- The part once a port has rejected what a SUBMIT exchange brought (10 R165): REJECTED is set, REASON takes the reason, FRAMEBUF is emptied and the
exchange is over. -/
def State.rejectedAs (s : State) (p : Port) (why : Reason) : State :=
  s.setPort p { s.port p with
    cs := false, exchange := .none, frame := [], received := 0, rejected := true, reason := some why, latch := none }

/-- The first test of the table of 10 R165 that the bytes of a SUBMIT exchange fail, with the port's tags as they stand; none where they pass all seven. -/
def frameReason (tags : Vector Bool 8) (bytes : List Byte) : Option Reason :=
  let len := (bytes.getD 0 0).toNat
  let tag := (bytes.getD 1 0).toNat
  if bytes = [] then some .cut
  else if len < 4 ∨ 44 < len then some .length
  else if bytes.length < len then some .cut
  else if len < bytes.length then some .length
  else if crc8 (bytes.take (len - 1)) ≠ bytes.getD (len - 1) 0 then some .check
  else if 8 ≤ tag then some .badTag
  else if tags.toList.all id then some .noTag
  else if tags.toList.getD tag false then some .tagInUse
  else none

/-- The commands that are requests of the catalogue: their port, TAG and parameter bytes (10 section 10.9). -/
def requestOf : Instr → Option (Port × Byte × List Byte)
  | .admitDevice p tag params | .retire p tag params | .lookup p tag params | .list p tag params | .readEntry p tag params
  | .subscribe p tag params | .segmentSubscribe p tag params | .claim p tag params | .renew p tag params | .release p tag params
  | .write p tag params | .read p tag params | .writeRead p tag params | .ping p tag params | .watch p tag params
  | .watchCancel p tag params | .setLimits p tag params | .survey p tag params | .surveyAbort p tag params
  | .segmentSetup p tag params | .segmentEnable p tag params | .segmentDisable p tag params _ | .segmentReset p tag params _
  | .segmentStatus p tag params | .portSetup p tag params => some (p, tag, params)
  | .exchangeBegin _ | .leadByte _ _ | .submitRejected _ _ | .badCommand _ _ _ _ | .takeResponse _ _ | .takeNotice _ _ | .summary _ _
  | .portReset _ | .pinReset | .retireComplete _ | .waiterGranted _ | .leaseLapse _ _ | .waitExpiry _ | .timebaseTick10ms _
  | .timebaseTick100us _ | .arbiterGrant _ | .arbLost _ _ | .busBusy _ _ | .clockTimeout _ _ | .hostTransactionEnd _ _ | .holdExpiry _
  | .settleEnd _ | .admissionTransferEnd _ _ | .watchProbeDue _ | .watchProbeEnd _ _ | .surveyProbeEnd _ _ | .disableComplete _ _
  | .recoveryEnd _ _ | .attentionAsserted _ | .attentionDeasserted _ | .rearmExpiry _ | .sweepReadEnd _ _ | .exchangeIgnoredEnd _ => none

/-- The result bytes of a BAD_PARAM: the counts of 0 that every status of WRITE, READ and WRITE_READ carries, nothing for the others (11 R181; log
entry 8). -/
def badParamResult : Instr → List Byte
  | .write _ _ _ | .read _ _ _ => [0x00]
  | .writeRead _ _ _ => [0x00, 0x00]
  | .admitDevice _ _ _ | .retire _ _ _ | .lookup _ _ _ | .list _ _ _ | .readEntry _ _ _ | .subscribe _ _ _ | .segmentSubscribe _ _ _ | .claim _ _ _
  | .renew _ _ _ | .release _ _ _ | .ping _ _ _ | .watch _ _ _ | .watchCancel _ _ _ | .setLimits _ _ _ | .survey _ _ _ | .surveyAbort _ _ _
  | .segmentSetup _ _ _ | .segmentEnable _ _ _ | .segmentDisable _ _ _ _ | .segmentReset _ _ _ _ | .segmentStatus _ _ _ | .portSetup _ _ _
  | .exchangeBegin _ | .leadByte _ _ | .submitRejected _ _ | .badCommand _ _ _ _ | .takeResponse _ _ | .takeNotice _ _ | .summary _ _
  | .portReset _ | .pinReset | .retireComplete _ | .waiterGranted _ | .leaseLapse _ _ | .waitExpiry _ | .timebaseTick10ms _
  | .timebaseTick100us _ | .arbiterGrant _ | .arbLost _ _ | .busBusy _ _ | .clockTimeout _ _ | .hostTransactionEnd _ _ | .holdExpiry _
  | .settleEnd _ | .admissionTransferEnd _ _ | .watchProbeDue _ | .watchProbeEnd _ _ | .surveyProbeEnd _ _ | .disableComplete _ _
  | .recoveryEnd _ _ | .attentionAsserted _ | .attentionDeasserted _ | .rearmExpiry _ | .sweepReadEnd _ _ | .exchangeIgnoredEnd _ => []

/-- The request for a host transfer of a kind, with OFFSET, CHAIN, the bytes to write and the number to read as far as the kind has them (05 R93,
11 R180). -/
def transferRequest (p : Port) (t : Tag) (k : TxKind) (h : Handle) (g : Gen) (hi lo : Byte) (chain : Bool) (data : List Byte) (m : Nat) : Instr :=
  match k with
  | .write => .write p (byte t.val) ([byte h.val, byte g.val, hi, lo, byte (bit chain), byte data.length] ++ data)
  | .read => .read p (byte t.val) [byte h.val, byte g.val, hi, lo, byte (bit chain), byte m]
  | .writeRead => .writeRead p (byte t.val) ([byte h.val, byte g.val, hi, lo, byte (bit chain), byte data.length, byte m] ++ data)
  | .ping => .ping p (byte t.val) [byte h.val, byte g.val, 0x00]

/-! ## A transfer on the bus -/

/-- The transfer `c` is on the bus of a segment, past any recovery within it (04 R67, R68). -/
structure OnBus (s : State) (g : Seg) (c : Current) : Prop where
  active : (s.seg g).state = .active
  current : (s.seg g).current = some c
  running : c.recovering = false
  hold : (s.seg g).hold = none

/-- It is the transfer of the host transaction `t`, which stands between `pre` and `post` in HOSTQ. -/
structure HostOnBus (s : State) (g : Seg) (c : Current) (pre : List HostTx) (t : HostTx) (post : List HostTx) : Prop where
  bus : OnBus s g c
  kind : c.kind = .host
  queue : (s.seg g).hostq = pre ++ t :: post
  waiting : ∀ u ∈ pre, u.active = false
  mark : t.active = true

/-- The response of a host transaction is placed, or discarded where its port has been reset since (05 R102, 10 R175). -/
def State.give (u : State) (t : HostTx) (r : Response) : State := if t.orphan = true then u else u.enqueue t.port r

/-- The work of the transfer `c` for the entry has ended while it was on the bus: the admission by a RETIRE, the watch or the survey by any of its ends; a
new watch or a new survey may have begun since (01 R14, 06 R127, 07 R139, R140). -/
def WorkGone (s : State) (g : Seg) (c : Current) (e : Entry) : Prop :=
  (c.kind = .admission ∧ e.adm = none) ∨ (c.kind = .watch ∧ ∀ w ∈ e.watch, w.probe ≠ .active) ∨
    (c.kind = .survey ∧ ∀ cu ∈ (s.seg g).survey, cu.probe ≠ .active)

/-- The command by which a transfer of a kind reaches its end on the wire. -/
def CurKind.ends : CurKind → Seg → TransferEnd → Instr
  | .host => .hostTransactionEnd
  | .admission => .admissionTransferEnd
  | .watch => .watchProbeEnd
  | .survey => .surveyProbeEnd
  | .sweep => .sweepReadEnd

/-- How a transfer that has learned nothing ends: ARB_LOST after its last attempt, BUS_BUSY, or CLOCK_TIMEOUT, with the lines released. `told` is what the
outcome does to the directory and to the work's owner. The segment is IDLE and the arbiter chooses; after a CLOCK_TIMEOUT it is RECOVERING
(04 R85 to R88). -/
structure FaultsEnd (s : State) (g : Seg) (c : Current) (told : Status → State → State) : Prop where
  arbLost : ∀ pr, pr.acked < (sends c.plan).length → (s.seg g).config.arbretry ≤ c.lost → exec (.arbLost g pr) s =
    .next ((told .arbLost (s.setSeg g { s.seg g with state := .idle, current := none, lines := .released })).choose g)
  busBusy : c.restart = false → exec (.busBusy g false) s =
    .next ((told .busBusy (s.setSeg g { s.seg g with state := .idle, current := none, lines := .released })).choose g)
  clockTimeout : ∀ pr, exec (.clockTimeout g pr) s =
    .next (told .clockTimeout (s.setSeg g { s.seg g with state := .recovering, current := none, lines := .released }))

/-- A RETIRING entry whose last work ends has no claim, no holder and no WAITER (01 R14); of other entries this says nothing. -/
def Entry.EndsOk (e : Entry) : Prop :=
  e.state = .retiring → e.inflight ≤ 1 → e.claim = .none ∧ e.holderA = none ∧ e.holderB = none ∧ e.waiter = none

/-- A work of an entry ends: INFLIGHT falls by 1. The last work of a RETIRING entry completes its retire: the entry is VACANT with GEN one higher, and the
RETIRE is answered OK, unless its port has been reset (01 R11, R12, R15; log entry 15). -/
def State.workEnds (u : State) (h : Handle) : State :=
  let e := u.entry h
  if e.state = .retiring ∧ e.inflight ≤ 1 then (u.setEntry h (Entry.vacant (e.gen + 1))).respondTo e.retire .ok []
  else u.setEntry h { e with inflight := e.inflight - 1 }

/-- Nothing on a segment's entries would end with the segment: no watch and no admission (04 R73). -/
def State.calmOn (s : State) (g : Seg) : Prop := ∀ h, (s.entry h).onSeg g = true → (s.entry h).watch = none ∧ (s.entry h).adm = none

/-! ## How an admission ends (02 R33 to R41)

`e` is the entry as it stood before its admission transfer ended. -/

/-- The SOURCE of a first admission that has failed or been ended is told: an ADMIT by its response, without a result, a survey's requester by
ADMIT_FAILED for the segment, with the address; nobody where its port has been reset (02 R34, R36, R37). -/
def State.sourceTold (u : State) (a : AdmRec) (pl : Place) (st : Status) : State :=
  match a.source with
  | .byAdmit (some (p, t)) => u.respond p t st []
  | .survey (some p) => u.post p .admitFailed (.segment pl.seg) (byte pl.addr)
  | .byAdmit none | .survey none | .watch | .surveyReappear => u

/-- A first admission ends with its entry PRESENT, with DESC and DSRC as given. An ADMIT is answered OK with the reference and DSRC, flagged DESC_DEFAULTED
for PARTIAL and DEFAULTED; a survey's requester is posted ADMITTED (02 R33, R37). -/
def State.firstPresent (u : State) (h : Handle) (e : Entry) (a : AdmRec) (d : Desc) (src : DSrc) : State :=
  let v := u.setEntry h { e with state := .present, fails := 0, desc := d, dsrc := src, adm := none, inflight := e.inflight - 1 }
  match a.source with
  | .byAdmit (some (p, t)) =>
    v.enqueue p ⟨t, .ok, false, src == .short || src == .defaulted, [byte h.val, byte e.gen.val, dsrcCode src]⟩
  | .survey (some p) => v.post p .admitted (.entry h e.gen) (dsrcCode src)
  | .byAdmit none | .survey none | .watch | .surveyReappear => v

/-- A first admission ends failed: the entry is VACANT with GEN one higher, its holders are posted CLAIM_DROPPED under the old reference, its WAITER is
answered GONE, and the SOURCE is told the status (01 R12, 02 R34). -/
def State.firstFailed (u : State) (h : Handle) (e : Entry) (a : AdmRec) (pl : Place) (st : Status) : State :=
  ((((u.setEntry h (Entry.vacant (e.gen + 1))).postWhere (fun q => (e.holder q).isSome) .claimDropped (.entry h e.gen)
    (claimCode e.claim))).respondTo (e.waiter.map (fun w => (w.port, w.tag))) .gone []).sourceTold a pl st

/-- The watch of an entry, if there is one, is answered with the reference, a state, PROBES and AUX (11 R181). -/
def State.watchTold (u : State) (h : Handle) (e : Entry) (gen : Gen) (st : Status) (code aux : Byte) : State :=
  match e.watch with
  | some w => u.respond w.port w.tag st [byte h.val, byte gen.val, code, byte w.probes, aux]
  | none => u

/-- A re-admission ends with its entry PRESENT, with DESC and DSRC as given and the watch answered. With the old identity REAPPEARED is posted; with another
GEN is one higher, the claims are dropped with CLAIM_DROPPED under the old reference, the WAITER is answered GONE, and REPLACED is posted under the
new reference with the old GEN (02 R30, R40, R41, 06 R126). -/
def State.readmitted (u : State) (h : Handle) (e : Entry) (d : Desc) (src : DSrc) : State :=
  let f := { e with state := .present, fails := 0, desc := d, dsrc := src, adm := none, watch := none, inflight := e.inflight - 1 }
  if e.desc.cls = d.cls ∧ e.desc.maker = d.maker ∧ e.desc.model = d.model ∧ e.desc.serial = d.serial then
    ((u.setEntry h f).postWhere (fun q => (e.subs q).health) .reappeared (.entry h e.gen) (dsrcCode src)).watchTold h e e.gen .ok 0x02 0x02
  else
    ((((u.setEntry h { f with gen := e.gen + 1, claim := .none, holderA := none, holderB := none, waiter := none }).postWhere
      (fun q => (e.holder q).isSome) .claimDropped (.entry h e.gen) (claimCode e.claim)).respondTo
        (e.waiter.map (fun w => (w.port, w.tag))) .gone []).postWhere
          (fun q => (e.subs q).identity) .replaced (.entry h (e.gen + 1)) (byte e.gen.val)).watchTold h e (e.gen + 1) .replaced 0x02
            (byte e.gen.val)

/-- A re-admission's address probe has failed: the entry is LOST again, and its watch is answered WATCH_EXPIRED where REMAINING is 0, or goes on from a fresh
interval (02 R39, 06 R126). -/
def State.lostAgain (u : State) (h : Handle) (e : Entry) : State :=
  let f := { e with state := .lost, fails := 0, adm := none, inflight := e.inflight - 1 }
  match e.watch with
  | some w =>
    if w.remaining = 0 then (u.setEntry h { f with watch := none }).watchTold h e e.gen .watchExpired 0x04 0x00
    else u.setEntry h { f with watch := some { w with nextdue := w.interval } }
  | none => u.setEntry h f

/-! ## What the arbiter may choose (04 R83, R84) -/

/-- No entry of the segment with a planned admission transfer may use the bus now: each is settling. -/
def State.noAdmission (s : State) (g : Seg) : Prop :=
  ∀ h, (s.entry h).onSeg g = true → (s.entry h).admWaiting = true → (s.entry h).settle ≠ 0

/-- No entry of the segment with a watch probe due may use the bus now: each is settling. -/
def State.noWatchProbe (s : State) (g : Seg) : Prop :=
  ∀ h, (s.entry h).onSeg g = true → (s.entry h).watchDue = true → (s.entry h).settle ≠ 0

/-- No sweep read may use the bus now, and no sweep is at its end: no sweep runs, or its candidate is settling (08 R143). -/
def State.noSweepRead (s : State) (g : Seg) : Prop :=
  (s.seg g).sweep.state ≠ .sweeping ∨ ∃ h, s.candidate g = some h ∧ (s.entry h).settle ≠ 0

/-- No host transaction of the segment may use the bus now: each one's entry is settling. -/
def State.noHost (s : State) (g : Seg) : Prop := ∀ t ∈ (s.seg g).hostq, (s.entry t.handle).settle ≠ 0

/-- The arbiter's next pick is the host transaction `t`, which stands between `pre` and `post` in HOSTQ. On an IDLE segment it is the turn of the host class,
or nothing of the background class may go, and the entry of each older transaction is settling; on a HELD one it is the oldest of HOLDPORT that
names HOLDENTRY (04 R83, R84). -/
structure Picks (s : State) (g : Seg) (pre : List HostTx) (t : HostTx) (post : List HostTx) : Prop where
  queue : (s.seg g).hostq = pre ++ t :: post
  ready : (s.entry t.handle).settle = 0
  turn :
    ((s.seg g).state = .idle ∧ s.noSweepRead g ∧
      ((s.seg g).nextclass = .host ∨
        (s.noAdmission g ∧ s.noWatchProbe g ∧ ∀ c ∈ (s.seg g).survey, c.probe = .active)) ∧
      ∀ u ∈ pre, (s.entry u.handle).settle ≠ 0) ∨
    ((s.seg g).state = .held ∧ (∃ left, (s.seg g).hold = some ⟨t.port, t.handle, left⟩) ∧
      ∀ u ∈ pre, ¬(u.port = t.port ∧ u.handle = t.handle))

/-- The survey passes an address over: it is the place of a listed SEVEN entry that is PROBING, RETIRING or settling (07 R133). -/
def State.skips (s : State) (g : Seg) (a : Nat) : Prop :=
  ∃ h, (s.entry h).at g .seven a = true ∧ ((s.entry h).state = .probing ∨ (s.entry h).state = .retiring ∨ (s.entry h).settle ≠ 0)

/-! ## Counts of the timebase -/

/-- A 10 ms tick has counted, and done nothing else: the LEASE of every holder, the WAIT of every WAITER, the NEXTDUE of every watch that runs and the REARMLEFT of
every DISARMED unit are one lower (03 R55, R57, 06 R124, 08 R148). -/
structure CountedSlow (s t : State) : Prop where
  entries : ∀ h, t.entry h = { s.entry h with
    holderA := (s.entry h).holderA.map (fun hr => { hr with lease := hr.lease - 1 })
    holderB := (s.entry h).holderB.map (fun hr => { hr with lease := hr.lease - 1 })
    waiter := (s.entry h).waiter.map (fun w => { w with wait := w.wait - 1 })
    watch := (s.entry h).watch.map (fun w => { w with nextdue :=
      if w.probe = .none ∧ ((s.entry h).state = .suspect ∨ (s.entry h).state = .lost) then w.nextdue - 1 else w.nextdue }) }
  segs : ∀ g, t.seg g = { s.seg g with sweep := { (s.seg g).sweep with rearmleft :=
    if (s.seg g).sweep.state = .disarmed then (s.seg g).sweep.rearmleft - 1 else (s.seg g).sweep.rearmleft } }
  ports : ∀ p, t.port p = s.port p
  threshold : t.threshold = s.threshold
  races : t.races = s.races
  pending : t.pending = s.pending

/-- A 100 µs tick has counted, and done nothing else: every SETTLE above 0 and the HOLDLEFT of every hold are one lower (04 R81, 05 R109). -/
structure CountedFast (s t : State) : Prop where
  entries : ∀ h, t.entry h = { s.entry h with settle := (s.entry h).settle - 1 }
  segs : ∀ g, t.seg g = { s.seg g with hold := (s.seg g).hold.map (fun ho => { ho with left := ho.left - 1 }) }
  ports : ∀ p, t.port p = s.port p
  threshold : t.threshold = s.threshold
  races : t.races = s.races
  pending : t.pending = s.pending

/-- A 100 µs tick has counted, but for each SETTLE of 1, which its own event brings to 0 (04 R81, 05 R109, R111; log entry 4). -/
structure CountedButLast (s t : State) : Prop where
  entries : ∀ h, t.entry h = { s.entry h with settle := if (s.entry h).settle = 1 then 1 else (s.entry h).settle - 1 }
  segs : ∀ g, t.seg g = { s.seg g with hold := (s.seg g).hold.map (fun ho => { ho with left := ho.left - 1 }) }
  ports : ∀ p, t.port p = s.port p
  threshold : t.threshold = s.threshold
  races : t.races = s.races
  pending : t.pending = s.pending

/-- What a 100 µs tick brings to 0 for an event: a SETTLE, or the HOLDLEFT of a hold (05 R106, R111). -/
def State.fastDue (s : State) : Event → Prop
  | .settleEnd h => (s.entry h).settle = 1
  | .holdExpiry g => (s.seg g).state = .held ∧ ∃ ho ∈ (s.seg g).hold, ho.left = 1
  | .leaseLapse _ _ | .waitExpiry _ | .watchProbeDue _ | .rearmExpiry _ | .waiterGranted _ | .retireComplete _ | .arbiterGrant _ => False

/-- The SETTLE that an event stands for falls from 1 to 0 (04 R81). -/
def State.settled (s : State) : Event → State
  | .settleEnd h => s.setEntry h { s.entry h with settle := 0 }
  | .holdExpiry _ | .leaseLapse _ _ | .waitExpiry _ | .watchProbeDue _ | .rearmExpiry _ | .waiterGranted _ | .retireComplete _ | .arbiterGrant _ => s

/-- What a 10 ms tick counts down for an event stands at `n`: a LEASE, a WAIT, the NEXTDUE of a watch that runs, the REARMLEFT of a DISARMED unit with an
interval (03 R55, R57, 06 R124, 08 R148). -/
def State.slowLeft (s : State) (n : Nat) : Event → Prop
  | .leaseLapse h p => ∃ hr, (s.entry h).holder p = some hr ∧ hr.lease = n
  | .waitExpiry h => ∃ w, (s.entry h).waiter = some w ∧ w.wait = n
  | .watchProbeDue h => ∃ w, (s.entry h).watch = some w ∧ w.probe = .none ∧ w.nextdue = n ∧
      ((s.entry h).state = .suspect ∨ (s.entry h).state = .lost)
  | .rearmExpiry g => (s.seg g).sweep.state = .disarmed ∧ 1 ≤ (s.seg g).config.rearm ∧ (s.seg g).sweep.rearmleft = n
  | .settleEnd _ | .holdExpiry _ | .waiterGranted _ | .retireComplete _ | .arbiterGrant _ => False

/-- The command by which an event comes about on its own. -/
def Event.command : Event → Instr
  | .leaseLapse h p => .leaseLapse h p
  | .waitExpiry h => .waitExpiry h
  | .watchProbeDue h => .watchProbeDue h
  | .rearmExpiry g => .rearmExpiry g
  | .settleEnd h => .settleEnd h
  | .holdExpiry g => .holdExpiry g
  | .waiterGranted h => .waiterGranted h
  | .retireComplete h => .retireComplete h
  | .arbiterGrant g => .arbiterGrant g

/-- Commands carried out one after the other lead from one state to another. -/
def LeadsTo : List Instr → State → State → Prop
  | [], s, t => t = s
  | c :: rest, s, t => ∃ u, exec c s = .next u ∧ LeadsTo rest u t

/-- The events of a 100 µs tick taken one after the other lead from one state to another: each SETTLE falls to 0 when its turn comes, and then the event's
command is carried out (05 R106, R111). -/
def FastLeadsTo : List Event → State → State → Prop
  | [], s, t => t = s
  | e :: rest, s, t => ∃ u, exec (Event.command e) (s.settled e) = .next u ∧ FastLeadsTo rest u t

/-! ## Answers of one step -/

/-- The tag, status and result bytes of each response that waits in a port's RESPQ, in order. -/
def State.answers (s : State) (p : Port) : List (Tag × Status × List Byte) := (s.port p).respq.map (fun r => (r.tag, r.status, r.result))

/-- What a port is told where the host transactions of a queue complete without the bus with a status: counts of 0, in the order of the queue, nothing for
a port that has been reset since (05 R102). -/
def queueAnswers (p : Port) (st : Status) (queue : List HostTx) : List (Tag × Status × List Byte) :=
  (queue.filter (fun t => t.port == p && !t.orphan)).map (fun t => (t.tag, st, txResult t.kind 0 []))

/-- What a port is told where a survey ends with a status (07 R138). -/
def surveyAnswers (p : Port) (st : Status) (g : Seg) (survey : Option Cursor) : List (Tag × Status × List Byte) :=
  (survey.toList.filter (fun c => c.port == p)).map (fun c =>
    (c.tag, st, [byte g.val, byte c.low, byte c.high, byte c.next, byte c.found, byte c.reappeared, byte c.missing, byte c.full]))

/-- What a port is told where a deferred command is answered (10 R175). -/
def ownerAnswers (p : Port) (st : Status) (result : List Byte) (owner : Option (Port × Tag)) : List (Tag × Status × List Byte) :=
  (owner.toList.filter (fun o => o.1 == p)).map (fun o => (o.2, st, result))

/-- A port has been told by a notice: one of this KIND and SUBJECT waits, with its latest DETAIL, or the list was full (09 R158). -/
def State.told (s : State) (p : Port) (k : NoticeKind) (sub : Subject) (d : Byte) : Prop :=
  (∃ n ∈ (s.port p).notices, n.kind = k ∧ n.subject = sub ∧ n.detail = d) ∨
    (16 ≤ (s.port p).notices.length ∧ (s.port p).noticeLost = true)

/-- The entry is under a first admission on a segment (02 R22). -/
def Entry.firstOn (e : Entry) (g : Seg) : Prop := e.state = .probing ∧ e.onSeg g = true ∧ ∃ a, e.adm = some a ∧ a.kind = .first

/-- The segment has become STUCK, with all that this brings about (04 R91). Every transaction in HOSTQ and the survey are answered BUS_STUCK, every first
admission ends with its entry VACANT and its SOURCE told, a running sweep is ended, and SEGMENT_STUCK is posted with its DETAIL. -/
structure StuckAs (s u : State) (g : Seg) (cause : Byte) : Prop where
  seg : u.seg g = { s.seg g with
    state := .stuck, hostq := [], current := none, pendcmd := none, survey := none, lines := .released
    sweep := if (s.seg g).sweep.state = .sweeping then { (s.seg g).sweep with state := .idle, cursor := none, rearmleft := 0 }
      else (s.seg g).sweep }
  others : ∀ k, k ≠ g → u.seg k = s.seg k
  queue : ∀ t ∈ (s.seg g).hostq, t.orphan = false → (t.tag, .busStuck, txResult t.kind 0 []) ∈ u.answers t.port
  survey : ∀ p, ∀ x ∈ surveyAnswers p .busStuck g (s.seg g).survey, x ∈ u.answers p
  first : ∀ h, (s.entry h).firstOn g → u.entry h = Entry.vacant ((s.entry h).gen + 1) ∧
    (∀ a ∈ (s.entry h).adm, ∀ p t, a.source = .byAdmit (some (p, t)) → (t, .busStuck, []) ∈ u.answers p) ∧
    (∀ a ∈ (s.entry h).adm, ∀ p, a.source = .survey (some p) → ∃ d, u.told p .admitFailed (.segment g) d)
  notice : ∀ p, (s.port p).segMasks[g.val].fault = true → u.told p .segmentStuck (.segment g) cause

/-- An entry once every host transaction of a queue that names it has completed: INFLIGHT is lower by their number, and CHAINBRK is clear for each port that had
one (05 R102, R113). -/
def Entry.without (e : Entry) (h : Handle) (queue : List HostTx) : Entry :=
  { e with
    inflight := e.inflight - queue.countP (fun t => t.handle == h)
    chainA := e.chainA && !queue.any (fun t => t.handle == h && t.port == .A)
    chainB := e.chainB && !queue.any (fun t => t.handle == h && t.port == .B) }

/-- An entry, not RETIRING and not under first admission, once its segment has gone OFF: its transactions in HOSTQ have completed, a hold for it has set
CHAINBRK of HOLDPORT, its watch and its due probe are gone, and a re-admission has ended with the entry LOST and its planned transfer
withdrawn (04 R73 steps 2, 5, 7, 8, 02 R42). -/
def Entry.afterOff (e : Entry) (h : Handle) (r : Segment) (here : Bool) : Entry :=
  let f := e.without h r.hostq
  let f := match r.hold with
    | some ho => if ho.entry = h then f.setChain ho.port true else f
    | none => f
  if here then
    let f := { f with watch := none, inflight := f.inflight - bit e.watchDue }
    if e.state = .probing ∧ e.adm.isSome then { f with state := .lost, fails := 0, adm := none, inflight := f.inflight - bit e.admWaiting } else f
  else f

/-- The segment has gone OFF, with all that this brings about (04 R73). Every transaction in HOSTQ, the survey and the watches of its entries are answered
SEGMENT_OFF, every first admission ends with its entry VACANT and its SOURCE told, and every re-admission ends with its entry LOST. The end of a hold
sends a stop where the clock line, once released, stands high. -/
structure OffAs (s u : State) (g : Seg) (clockHigh : Bool) : Prop where
  seg : u.seg g = { s.seg g with
    state := .off, current := none, hold := none, pendcmd := none, hostq := [], survey := none
    lines := match (s.seg g).state with
      | .held => if clockHigh then .stop else .released
      | .recovering => .released
      | .off | .idle | .active | .stuck => (s.seg g).lines
    sweep := { (s.seg g).sweep with state := .idle, cursor := none, rearmleft := 0 } }
  others : ∀ k, k ≠ g → u.seg k = s.seg k
  queue : ∀ t ∈ (s.seg g).hostq, t.orphan = false → (t.tag, .segmentOff, txResult t.kind 0 []) ∈ u.answers t.port
  survey : ∀ p, ∀ x ∈ surveyAnswers p .segmentOff g (s.seg g).survey, x ∈ u.answers p
  watch : ∀ h, (s.entry h).onSeg g = true → (s.entry h).state ≠ .retiring → ∀ w ∈ (s.entry h).watch, (w.tag, .segmentOff, []) ∈ u.answers w.port
  first : ∀ h, (s.entry h).firstOn g → u.entry h = Entry.vacant ((s.entry h).gen + 1) ∧
    (∀ a ∈ (s.entry h).adm, ∀ p t, a.source = .byAdmit (some (p, t)) → (t, .segmentOff, []) ∈ u.answers p) ∧
    (∀ a ∈ (s.entry h).adm, ∀ p, a.source = .survey (some p) → ∃ d, u.told p .admitFailed (.segment g) d)
  entries : ∀ h, (s.entry h).state ≠ .retiring → ¬(s.entry h).firstOn g →
    u.entry h = (s.entry h).afterOff h (s.seg g) ((s.entry h).onSeg g)

/-! ## What a reset of a port leaves (10 R174, R175) -/

/-- What an entry keeps of a port where the other port is reset: its mask, its watch, and its claim, or the claim that it waited for and has been granted
(03 R65, 10 R174, R175). Whether a watch's probe still waits is the arbiter's. -/
structure KeptOf (q : Port) (e f : Entry) : Prop where
  subs : f.subs q = e.subs q
  watch : f.watch.map (fun w => { w with probe := .none }) =
    (e.watch.filter (fun w => w.port == q)).map (fun w => { w with probe := .none })
  claim : (∀ w ∈ e.waiter, w.port ≠ q) → f.holder q = e.holder q ∧ f.claim = if e.holder q = none then .none else e.claim
  granted : ∀ w ∈ e.waiter, w.port = q → f.holder q = some ⟨w.leasereq, w.leasereq⟩ ∧ f.claim = w.mode.claim

/-- Nothing of a port is left: its record is as after a port reset, no admission names it as its SOURCE (02 R36), and no entry and no segment holds anything
of it but a transaction on the bus, whose response will be discarded. -/
structure State.NothingOf (s : State) (p : Port) : Prop where
  port : s.port p = {}
  holder : ∀ h, (s.entry h).holder p = none
  waiter : ∀ h, ∀ w ∈ (s.entry h).waiter, w.port ≠ p
  watch : ∀ h, ∀ w ∈ (s.entry h).watch, w.port ≠ p
  subs : ∀ h, (s.entry h).subs p = {}
  chain : ∀ h, (s.entry h).chain p = false
  retire : ∀ h, ∀ o ∈ (s.entry h).retire, o.1 ≠ p
  queue : ∀ g, ∀ t ∈ (s.seg g).hostq, t.port = p → t.active = true ∧ t.orphan = true
  source : ∀ h, ∀ a ∈ (s.entry h).adm, (∀ t, a.source ≠ .byAdmit (some (p, t))) ∧ a.source ≠ .survey (some p)
  survey : ∀ g, ∀ c ∈ (s.seg g).survey, c.port ≠ p
  hold : ∀ g, ∀ o ∈ (s.seg g).hold, (s.seg g).state = .held → o.port ≠ p
  pendcmd : ∀ g, ∀ c ∈ (s.seg g).pendcmd, ∀ o ∈ c.owner, o.1 ≠ p

/-! ## What a port's lists always satisfy (09 R158) -/

/-- No two notices have the same KIND and SUBJECT. -/
def distinctNotices (l : List Notice) : Prop := l.Pairwise (fun a b => ¬(a.kind = b.kind ∧ a.subject = b.subject))

/-- A notice list: at most 16 notices, no two of the same KIND and SUBJECT, each standing for 1 to 255 postings (09 R152, R158). -/
structure NoticesOk (l : List Notice) : Prop where
  length : l.length ≤ 16
  distinct : distinctNotices l
  merge : ∀ n ∈ l, 1 ≤ n.merge ∧ n.merge ≤ 255

/-- A latch has counted at most 255 merges (09 R159). -/
def Latch.mergesOk : Latch → Prop
  | .summaryByte _ m | .notice _ m => m ≤ 255
  | .response _ | .marker | .report _ _ _ _ => True

/-- The notice list of a port and what is latched from it. -/
structure PortRec.NoticesOk (pr : PortRec) : Prop where
  list : Machine.NoticesOk pr.notices
  latch : ∀ l ∈ pr.latch, l.mergesOk

/-! ## What an entry always satisfies -/

/-- CLAIM, HOLDERS and WAITER stand in the relation of 03 R43: NONE with no holder, EXCLUSIVE with exactly one, SHARED with one or two; and an entry in
VACANT or RETIRING has no claim and no waiter. -/
structure Entry.ClaimsOk (e : Entry) : Prop where
  none : e.claim = .none → e.holderA = none ∧ e.holderB = none
  exclusive : e.claim = .exclusive → e.holderA.isSome ≠ e.holderB.isSome
  shared : e.claim = .shared → e.holderA.isSome ∨ e.holderB.isSome
  idle : e.state = .vacant ∨ e.state = .retiring → e.claim = .none ∧ e.waiter = Option.none

/-- A WAITER exists only while the other port holds a claim that conflicts with the mode it waits for (03 R52). -/
def Entry.WaiterOk (e : Entry) : Prop :=
  ∀ w ∈ e.waiter, (e.holder w.port.other).isSome = true ∧ (w.mode = .exclusive ∨ e.claim = .exclusive)

/-- No lease and no wait has run out: every LEASE lies from 1 to its LEASEVAL, and every WAITER waits on, for a lease of at least 1 (03 R43, R55, R57). -/
structure Entry.LeasesOk (e : Entry) : Prop where
  lease : ∀ p, ∀ hr ∈ e.holder p, 1 ≤ hr.lease ∧ hr.lease ≤ hr.leaseval
  wait : ∀ w ∈ e.waiter, 1 ≤ w.wait ∧ 1 ≤ w.leasereq

/-- FAILS stands in the relation of 06 R116 to the entry's STATE and the threshold. -/
def Entry.FailsOk (n : Nat) (e : Entry) : Prop :=
  if e.state = .suspect then 1 ≤ e.fails ∧ e.fails < n else e.fails = 0

/-- The health figures of the whole part (06 R116). -/
structure State.HealthOk (s : State) : Prop where
  low : 1 ≤ s.threshold
  high : s.threshold ≤ 7
  fails : ∀ h, (s.entry h).FailsOk s.threshold

/-- Only a VACANT entry has no place, only a PROBING entry has an admission record, and no two entries have the same place
(01 R1, R7, 02 R22). -/
structure State.IndexOk (s : State) : Prop where
  place : ∀ h, (s.entry h).place = none ↔ (s.entry h).state = .vacant
  record : ∀ h, (s.entry h).adm = none ↔ (s.entry h).state ≠ .probing
  single : ∀ h k pl pl', (s.entry h).place = some pl → (s.entry k).place = some pl' →
    pl.seg = pl'.seg → pl.amode = pl'.amode → pl.addr = pl'.addr → h = k

/-! ## What a segment always satisfies -/

/-- HOSTQ holds at most six transactions (04 R78), CURRENT is present exactly when the segment is ACTIVE (04 R67, R68), and HOLD exactly when it is HELD (04 R67,
R68). -/
structure Segment.Ok (r : Segment) : Prop where
  queue : r.hostq.length ≤ 6
  current : r.current.isSome = true ↔ r.state = .active
  hold : r.hold.isSome = true ↔ r.state = .held

/-! ## What INFLIGHT counts (01 R10) -/

/-- The works of an entry: its host transactions in every HOSTQ, the one on the bus among them; its planned admission transfer; its watch's probe that is DUE;
and the admission transfers, watch probes, survey probes and sweep reads on the bus that name it (01 R10). -/
def State.works (s : State) (h : Handle) : Nat :=
  (segments.map (fun g => (s.seg g).hostq.countP (fun t => t.handle == h) +
    bit ((s.seg g).current.any (fun c => c.kind != .host && c.entry == some h)))).sum +
  bit (s.entry h).admWaiting + bit (s.entry h).watchDue

/-- INFLIGHT of every entry is the number of its works (01 R10), with what keeps it so: a VACANT entry has every field at its cleared value (01 R12), only a
PROBING entry has an admission record, an entry under first admission has no work but its admission transfer (01 R10) and no watch, an admission
transfer that does not wait is on the bus, work and holds name entries of their own segment, and no hold is for a RETIRING entry or one under first
admission (01 R14, 05 R108). -/
structure State.WorkOk (s : State) : Prop where
  segs : ∀ g, (s.seg g).Ok
  vacant : ∀ h, (s.entry h).state = .vacant → s.entry h = Entry.vacant (s.entry h).gen
  record : ∀ h, (s.entry h).adm = none ↔ (s.entry h).state ≠ .probing
  first : ∀ h, ∀ a ∈ (s.entry h).adm, a.kind = .first → (s.entry h).inflight = 1 ∧ (s.entry h).watch = none
  planned : ∀ h, ∀ a ∈ (s.entry h).adm, a.planned = .active →
    ∃ g c, (s.seg g).current = some c ∧ c.kind = .admission ∧ c.entry = some h
  bus : ∀ g h, ∀ c ∈ (s.seg g).current, c.kind ≠ .host → c.entry = some h → (s.entry h).onSeg g = true
  queue : ∀ g, ∀ t ∈ (s.seg g).hostq, (s.entry t.handle).onSeg g = true
  hold : ∀ g, ∀ ho ∈ (s.seg g).hold, (s.entry ho.entry).onSeg g = true ∧ (s.entry ho.entry).state ≠ .retiring ∧
    ∀ a ∈ (s.entry ho.entry).adm, a.kind = .re
  count : ∀ h, (s.entry h).inflight = s.works h

/-! ## What holds a tag (10 R167, R168) -/

/-- The requests that an entry will answer: its WAITER, its watch, the RETIRE under way, and the ADMIT that is the SOURCE of its admission. -/
def Entry.owners (e : Entry) : List (Port × Tag) :=
  (e.waiter.map (fun w => (w.port, w.tag))).toList ++ (e.watch.map (fun w => (w.port, w.tag))).toList ++ e.retire.toList ++
    (e.adm.bind (fun a => match a.source with
      | .byAdmit o => o
      | .survey _ | .watch | .surveyReappear => none)).toList

/-- The requests that a segment will answer: its host transactions, its survey, and the command it defers. -/
def Segment.owners (r : Segment) : List (Port × Tag) :=
  (r.hostq.filter (fun t => !t.orphan)).map (fun t => (t.port, t.tag)) ++ (r.survey.map (fun c => (c.port, c.tag))).toList ++
    (r.pendcmd.bind PendCmd.owner).toList

/-- The tags of a port that are in use: those of the responses in its RESPQ, and those of the requests that will be answered. -/
def State.tagsInUse (s : State) (p : Port) : List Tag :=
  (s.port p).respq.map Response.tag ++
    ((handles.flatMap (fun h => (s.entry h).owners) ++ segments.flatMap (fun g => (s.seg g).owners)).filter (fun o => o.1 == p)).map Prod.snd

/-- An OUTSTANDING tag is in use once, and a FREE one not at all: its request waits for its answer, or its response waits in RESPQ, and not both (10 R167, R168);
with what keeps it so: a RETIRING entry has no WAITER and no watch, only a RETIRING entry has a RETIRE under way, a re-admission answers no ADMIT, and the
response being shifted out stands at the head of RESPQ. -/
structure State.TagsOk (s : State) : Prop where
  count : ∀ p (t : Tag), (s.tagsInUse p).count t = bit (s.port p).tags[t.val]
  retiring : ∀ h, (s.entry h).state = .retiring → (s.entry h).waiter = none ∧ (s.entry h).watch = none
  retire : ∀ h, (s.entry h).retire.isSome = true → (s.entry h).state = .retiring
  source : ∀ h, ∀ a ∈ (s.entry h).adm, a.kind = .re → a.source = .watch ∨ a.source = .surveyReappear
  latch : ∀ p r, (s.port p).latch = some (.response r) → (s.port p).respq.head? = some r

end Sys2Proof.Machine
end

