-- ==== Sys2Proof/WellFormed.lean ====
section
/-! DEFINITION. Which commands are well formed: a request whose TAG names a tag, whose parameter bytes are as many as
11 R180 gives and lie inside the ranges of the rules that own them; a tick that is given events of its own kind;
a progress no longer than the longest transfer. An ill-formed command still has its meaning (a rejected frame, a
BAD_PARAM answer): these checks refuse nothing at run time. -/

namespace Sys2Proof

/-- TAG 0..7 (10 R165 test 5). -/
def wfTag (tag : Byte) : Bool := tag.toNat < 8

/-- HANDLE 0..47 and GEN 0..15 (01 R5). -/
def wfRef (h g : Byte) : Bool := h.toNat < 48 && g.toNat < 16

/-- Segment 0..5 (04 R67). -/
def wfSeg (g : Byte) : Bool := g.toNat < 6

/-- An address in the range of its mode: SEVEN 08H..77H, TEN 000H..3FFH (01 R18, 11 R179). -/
def wfPlace (g am hi lo : Byte) : Bool :=
  let addr := hi.toNat * 256 + lo.toNat
  wfSeg g && ((am = 0 && 0x08 ≤ addr && addr ≤ 0x77) || (am = 1 && addr ≤ 0x3FF))

/-- A transfer's data length 1..32 (05 R93, R99). -/
def wfLen (n : Byte) : Bool := 1 ≤ n.toNat && n.toNat ≤ 32

/-- The events a 10 ms tick brings about (03 R57, R55, 06 R124, 08 R148). -/
def Event.ofTick10ms : Event → Bool
  | .leaseLapse _ _ | .waitExpiry _ | .watchProbeDue _ | .rearmExpiry _ => true
  | .settleEnd _ | .holdExpiry _ | .waiterGranted _ | .retireComplete _ | .arbiterGrant _ => false

/-- The events a 100 µs tick brings about (04 R81, 05 R109). -/
def Event.ofTick100us : Event → Bool
  | .settleEnd _ | .holdExpiry _ => true
  | .leaseLapse _ _ | .waitExpiry _ | .watchProbeDue _ | .rearmExpiry _
  | .waiterGranted _ | .retireComplete _ | .arbiterGrant _ => false

/-- No transfer sends more than 37 bytes or receives more than 32: the longest is a WRITE_READ of a TEN device
with a two-byte offset (05 R93, R97). -/
def Progress.wf (pr : Progress) : Bool := pr.acked ≤ 37 && pr.rx.length ≤ 32

/-- As `Progress.wf`, for a transfer that reached its end. -/
def TransferEnd.wf : TransferEnd → Bool
  | .done rx => rx.length ≤ 32
  | .nack k => k < 37

/-- The procedure looks at the lines once before its pulses and once after each of at most nine (04 R89). -/
def wfObs (obs : List LineObs) : Bool := 1 ≤ obs.length && obs.length ≤ 10

/-- As above, for the event a DISABLE_COMPLETE carries. -/
def BusEvent.wf : BusEvent → Bool
  | .ended e => e.wf
  | .clockTimeout pr | .arbLost pr => pr.wf
  | .busBusy => true
  | .recovery obs => wfObs obs

/-- The parameters of a command that carries a reference alone (11 R180). -/
def wfRefParams : List Byte → Bool
  | [h, g] => wfRef h g
  | _ => false

/-- The parameters of a command that carries a segment alone (11 R180). -/
def wfSegParams : List Byte → Bool
  | [g] => wfSeg g
  | _ => false

/-- The well-formed commands. -/
def Instr.wf : Instr → Bool
  | .exchangeBegin _ | .leadByte _ _ | .takeResponse _ _ | .takeNotice _ _ | .summary _ _ | .portReset _ | .pinReset
  | .exchangeIgnoredEnd _ => true
  | .submitRejected _ bytes => bytes.length ≤ 255
  | .badCommand _ tag code params => wfTag tag && !Machine.commandCodes.contains code && params.length ≤ 40
  | .admitDevice _ tag params => wfTag tag && match params with
    | [g, am, hi, lo, dm, mask] => wfPlace g am hi lo && dm.toNat < 2 && mask.toNat < 8
    | _ => false
  | .retire _ tag params | .readEntry _ tag params | .renew _ tag params | .release _ tag params
  | .watchCancel _ tag params => wfTag tag && wfRefParams params
  | .lookup _ tag params => wfTag tag && match params with
    | [g, am, hi, lo] => wfPlace g am hi lo
    | _ => false
  | .list _ tag params => wfTag tag && match params with
    | [start, count] => start.toNat < 48 && 1 ≤ count.toNat && count.toNat ≤ 6
    | _ => false
  | .subscribe _ tag params => wfTag tag && match params with
    | [h, g, mask] => wfRef h g && mask.toNat < 8
    | _ => false
  | .segmentSubscribe _ tag params => wfTag tag && match params with
    | [g, mask] => wfSeg g && mask.toNat < 4
    | _ => false
  | .claim _ tag params => wfTag tag && match params with
    | [h, g, mode, lease, _] => wfRef h g && (mode = 1 || mode = 2) && 1 ≤ lease.toNat
    | _ => false
  | .write _ tag params => wfTag tag && match params with
    | h :: g :: _ :: _ :: flags :: wlen :: data =>
      wfRef h g && flags.toNat < 2 && wfLen wlen && data.length = wlen.toNat
    | _ => false
  | .read _ tag params => wfTag tag && match params with
    | [h, g, _, _, flags, rlen] => wfRef h g && flags.toNat < 2 && wfLen rlen
    | _ => false
  | .writeRead _ tag params => wfTag tag && match params with
    | h :: g :: _ :: _ :: flags :: wlen :: rlen :: data =>
      wfRef h g && flags.toNat < 2 && wfLen wlen && wfLen rlen && data.length = wlen.toNat
    | _ => false
  | .ping _ tag params => wfTag tag && match params with
    | [h, g, flags] => wfRef h g && flags = 0
    | _ => false
  | .watch _ tag params => wfTag tag && match params with
    | [h, g, interval, limit] => wfRef h g && 1 ≤ interval.toNat && 1 ≤ limit.toNat
    | _ => false
  | .setLimits _ tag params => wfTag tag && match params with
    | [n] => 1 ≤ n.toNat && n.toNat ≤ 7
    | _ => false
  | .survey _ tag params => wfTag tag && match params with
    | [g, low, high] => wfSeg g && 0x08 ≤ low.toNat && low.toNat ≤ high.toNat && high.toNat ≤ 0x77
    | _ => false
  | .segmentSetup _ tag params => wfTag tag && match params with
    | [g, speed, clklow, busywait, arbretry, holdlimit, _, attnen, _] =>
      wfSeg g && speed.toNat < 3 && 1 ≤ clklow.toNat && 1 ≤ busywait.toNat && arbretry.toNat < 4 &&
        1 ≤ holdlimit.toNat && attnen.toNat < 2
    | _ => false
  | .surveyAbort _ tag params | .segmentEnable _ tag params | .segmentStatus _ tag params => wfTag tag && wfSegParams params
  | .segmentDisable _ tag params _ => wfTag tag && wfSegParams params
  | .segmentReset _ tag params pr => wfTag tag && wfSegParams params && pr.wf
  | .portSetup _ tag params => wfTag tag && match params with
    | [mask] => mask.toNat < 4
    | _ => false
  | .timebaseTick10ms first => first.all Event.ofTick10ms
  | .timebaseTick100us first => first.all Event.ofTick100us
  | .retireComplete _ | .waiterGranted _ | .leaseLapse _ _ | .waitExpiry _ | .arbiterGrant _ | .holdExpiry _ | .settleEnd _
  | .watchProbeDue _ | .rearmExpiry _ | .attentionAsserted _ | .attentionDeasserted _ | .busBusy _ _ => true
  | .arbLost _ pr | .clockTimeout _ pr => pr.wf
  | .hostTransactionEnd _ e | .admissionTransferEnd _ e | .watchProbeEnd _ e | .surveyProbeEnd _ e | .sweepReadEnd _ e => e.wf
  | .disableComplete _ ev => ev.wf
  | .recoveryEnd _ obs => wfObs obs

end Sys2Proof
end

