-- ==== Sys2Proof/Certificates/Slice0/Obligations.lean ====
section
/-! DEFINITION. The statements about the part that the provers prove. Each docstring names the rule of spec/ that it formalises; where a statement rests on a
choice of the model, it names the log entry. -/

section
open Sys2Proof Sys2Proof.Machine

/-! ## Steps -/

/-- A step takes the command at the front of the queue, and carries it out with the rest of the queue still waiting; with an empty queue the part idles (the
block's queue and its idling are the model's: log entry 10). -/
def Obligations.StepTakesFront : Prop :=
  ∀ (c : Instr) (rest : List Instr) (s : State),
    step { s with pending := c :: rest } = exec c { s with pending := rest } ∧
    step { s with pending := [] } = .next { s with pending := [] }

/-- Whatever command reaches the part in whatever state, the part goes on, and the queue of commands is left alone (that no command faults or is refused is
DEDUCED: log entry 17; the queue is the model's: log entry 10). -/
def Obligations.EveryCommandGoesOn : Prop :=
  ∀ (c : Instr) (s : State), ∃ t, exec c s = .next t ∧ t.pending = s.pending

/-! ## Request ports: exchanges -/

/-- 10 R163, R164: where chip select was high, EXCHANGE_BEGIN begins an exchange and latches the summary byte: bit 7 RESP_READY, bit 6 NOTICE_READY, bit 5
REJECTED, bit 4 NOTICE_LOST, bits 3..0 FREETAGS (11 R177). Nothing else changes.

10 R163, R169 to R171: the lead byte decides the exchange; TAKE_RESPONSE latches the head of RESPQ, TAKE_NOTICE the head of NOTICES, or the empty marker, and
SUMMARY the port's condition; any other value makes the exchange IGNORED and sets REJECTED with REASON BAD_LEAD. Nothing else changes. The
merges of a latched notice are those that its head took since chip select fell (10 R170; log entry 22).

10 R163, R176: an exchange that is IGNORED, that is cut before its lead byte, or that a pin reset has abandoned ends with no effect: EXCHANGE returns to NONE
and LATCH becomes absent. -/
def Obligations.ExchangesBeginAndAreDecided : Prop :=
  (∀ (s : State) (p : Port), (s.port p).cs = false →
     ∃ b : Byte,
       exec (.exchangeBegin p) s =
         .next (s.setPort p { s.port p with cs := true, exchange := .lead, latch := some (.summaryByte b 0) }) ∧
       b.getLsbD 7 = !(s.port p).respq.isEmpty ∧ b.getLsbD 6 = !(s.port p).notices.isEmpty ∧
       b.getLsbD 5 = (s.port p).rejected ∧ b.getLsbD 4 = (s.port p).noticeLost ∧
       b.toNat % 16 = (s.port p).tags.toList.count false) ∧
  (∀ (s : State) (p : Port), (s.port p).exchange = .lead →
     exec (.leadByte p 0x01) s = .next (s.setPort p { s.port p with exchange := .submit, latch := none }) ∧
     exec (.leadByte p 0x02) s = .next (s.setPort p { s.port p with
       exchange := .takeResponse, latch := some ((s.port p).respq.head?.elim .marker .response) }) ∧
     (∀ b merged, (s.port p).latch = some (.summaryByte b merged) →
       exec (.leadByte p 0x03) s = .next (s.setPort p { s.port p with
         exchange := .takeNotice, latch := some ((s.port p).notices.head?.elim .marker (fun n => .notice n merged)) })) ∧
     exec (.leadByte p 0x04) s = .next (s.setPort p { s.port p with
       exchange := .summary
       latch := some (.report [(s.port p).summaryByte, reasonCode (s.port p).reason, byte (s.port p).respq.length,
         byte (s.port p).notices.length] (s.port p).rejected (s.port p).noticeLost false) }) ∧
     exec (.leadByte p 0x0A) s = .next (s.setPort p { s.port p with exchange := .portReset, latch := none }) ∧
     ∀ b : Byte, b ∉ [(0x01 : Byte), 0x02, 0x03, 0x04, 0x0A] →
       exec (.leadByte p b) s = .next (s.setPort p { s.port p with
         exchange := .ignored, latch := none, rejected := true, reason := some .badLead })) ∧
  (∀ (s : State) (p : Port), (s.port p).exchange ∈ [Exchange.none, .lead, .ignored] →
     exec (.exchangeIgnoredEnd p) s = .next (s.setPort p { s.port p with cs := false, exchange := .none, latch := none }))

/-- 10 R169: a response shifted out whole is removed from the head of RESPQ and its tag becomes FREE; one cut short stays with its tag; after the empty marker
nothing changes. Each time the exchange is over.

10 R170, 09 R159: a notice frame has eight bytes. Shifted out whole, the notice leaves the head of NOTICES, or stays there with the merges it took during the
exchange as its MERGE; cut short, it stays with every merge applied. No tag becomes FREE and NOTICE_LOST stays. A
posting that merges into the head counts as one of them from the fall of chip select on, up to 255 (10 R163; log entry 22).

10 R171: a SUMMARY that ends after its last byte clears REJECTED and REASON if the latched condition had REJECTED set, and NOTICE_LOST if it had NOTICE_LOST
set and no drop came after the latch; one cut short clears nothing. Nothing else changes. -/
def Obligations.TakesDeliverWholeOrNotAtAll : Prop :=
  (∀ (s : State) (p : Port) (n : Nat), (s.port p).exchange = .takeResponse →
     (∀ r rest, (s.port p).latch = some (.response r) → (s.port p).respq = r :: rest →
       ((responseFrame r).length ≤ n →
         exec (.takeResponse p n) s = .next (s.setPort p { s.port p with
           cs := false, exchange := .none, latch := none, respq := rest, tags := (s.port p).tags.set r.tag.val false })) ∧
       (n < (responseFrame r).length →
         exec (.takeResponse p n) s = .next (s.setPort p { s.port p with cs := false, exchange := .none, latch := none }))) ∧
     ((s.port p).latch = some .marker →
       exec (.takeResponse p n) s = .next (s.setPort p { s.port p with cs := false, exchange := .none, latch := none }))) ∧
  (∀ (s : State) (p : Port) (n : Nat), (s.port p).exchange = .takeNotice →
     (∀ latched merged head rest, (s.port p).latch = some (.notice latched merged) → (s.port p).notices = head :: rest →
       (8 ≤ n →
         exec (.takeNotice p n) s = .next (s.setPort p { s.port p with
           cs := false, exchange := .none, latch := none
           notices := if merged = 0 then rest else { head with merge := merged } :: rest })) ∧
       (n < 8 →
         exec (.takeNotice p n) s = .next (s.setPort p { s.port p with cs := false, exchange := .none, latch := none }))) ∧
     ((s.port p).latch = some .marker →
       exec (.takeNotice p n) s = .next (s.setPort p { s.port p with cs := false, exchange := .none, latch := none }))) ∧
  (∀ (s : State) (p : Port) (k : NoticeKind) (sub : Subject) (d : Byte) (head : Notice) (rest : List Notice),
     (s.port p).notices = head :: rest → head.kind = k → head.subject = sub →
     (∀ b m, (s.port p).latch = some (.summaryByte b m) →
       ((s.post p k sub d).port p).latch = some (.summaryByte b (min 255 (m + 1)))) ∧
     (∀ n m, (s.port p).latch = some (.notice n m) → n.kind = k → n.subject = sub →
       ((s.post p k sub d).port p).latch = some (.notice n (min 255 (m + 1))))) ∧
  (∀ (s : State) (p : Port) (n : Nat) (b0 b1 b2 b3 : Byte) (rej lost again : Bool), (s.port p).exchange = .summary →
     (s.port p).latch = some (.report [b0, b1, b2, b3] rej lost again) →
     (4 ≤ n →
       exec (.summary p n) s = .next (s.setPort p { s.port p with
         cs := false, exchange := .none, latch := none
         rejected := if rej then false else (s.port p).rejected
         reason := if rej then none else (s.port p).reason
         noticeLost := if lost && !again then false else (s.port p).noticeLost })) ∧
     (n < 4 →
       exec (.summary p n) s = .next (s.setPort p { s.port p with cs := false, exchange := .none, latch := none })))

/-! ## Request ports: requests -/

/-- 10 R165: what a SUBMIT exchange brings is rejected for the reason of the first of the seven tests that fails; no tag changes and no response is given.

11 R178, 10 R165: a whole frame with one byte changed after LENGTH, the check byte among them, never passes: it is rejected CHECK. -/
def Obligations.BadFramesRejected : Prop :=
  (∀ (s : State) (p : Port) (bytes : List Byte) (why : Reason), (s.port p).exchange = .submit →
     frameReason (s.port p).tags bytes = some why →
     exec (.submitRejected p bytes) s = .next (s.rejectedAs p why)) ∧
  (∀ (s : State) (p : Port) (tag code : Byte) (params : List Byte) (i : Nat) (b : Byte), (s.port p).exchange = .submit →
     params.length ≤ 40 → 1 ≤ i → i < params.length + 4 → b ≠ (requestFrame tag code params).getD i 0 →
     exec (.submitRejected p ((requestFrame tag code params).set i b)) s = .next (s.rejectedAs p .check))

/-- 10 R165 tests 5 to 7, R166, R167: every request of the catalogue is rejected BAD_TAG, NO_TAG or TAG_IN_USE, or is accepted: its tag becomes OUTSTANDING,
FRAMEBUF is emptied, the exchange is over, and REJECTED and REASON stay. Whatever the request, the other port keeps its exchange, its FRAMEBUF, its
tags, its indicators of rejection and its masks. -/
def Obligations.RequestTakesItsTag : Prop :=
  ∀ (c : Instr) (s : State) (p : Port) (tag : Byte) (params : List Byte), requestOf c = some (p, tag, params) → params.length ≤ 40 →
    (s.port p).exchange = .submit →
    (8 ≤ tag.toNat → exec c s = .next (s.rejectedAs p .badTag)) ∧
    (∀ t : Tag, tag = byte t.val →
      ((∀ u : Tag, (s.port p).tags[u.val] = true) → exec c s = .next (s.rejectedAs p .noTag)) ∧
      (∀ u : Tag, (s.port p).tags[u.val] = false → (s.port p).tags[t.val] = true → exec c s = .next (s.rejectedAs p .tagInUse)) ∧
      ((s.port p).tags[t.val] = false → ∃ v, exec c s = .next v ∧
        (v.port p).tags = (s.port p).tags.set t.val true ∧ (v.port p).cs = false ∧ (v.port p).exchange = .none ∧
        (v.port p).frame = [] ∧ (v.port p).received = 0 ∧ (v.port p).latch = none ∧
        (v.port p).rejected = (s.port p).rejected ∧ (v.port p).reason = (s.port p).reason ∧
        (v.port p.other).cs = (s.port p.other).cs ∧ (v.port p.other).exchange = (s.port p.other).exchange ∧
        (v.port p.other).frame = (s.port p.other).frame ∧ (v.port p.other).received = (s.port p.other).received ∧
        (v.port p.other).tags = (s.port p.other).tags ∧ (v.port p.other).rejected = (s.port p.other).rejected ∧
        (v.port p.other).reason = (s.port p.other).reason ∧ (v.port p.other).attnOutMask = (s.port p.other).attnOutMask ∧
        (v.port p.other).segMasks = (s.port p.other).segMasks))

/-- 10 R166, 11 R179: a request whose parameter bytes are too few or too many, or lie outside their ranges, is accepted all the same and answered BAD_PARAM, and
changes nothing else. (The counts of 0 that a BAD_PARAM of WRITE, READ and WRITE_READ carries are DEDUCED: log entry 8.)

10 R166: a whole frame whose code names no command is accepted, with its tag OUTSTANDING and FRAMEBUF empty, and answered BAD_COMMAND by the port. Nothing
else changes. -/
def Obligations.PortAnswersBadRequestsItself : Prop :=
  (∀ (c : Instr) (s : State) (p : Port) (t : Tag) (params : List Byte), requestOf c = some (p, byte t.val, params) → params.length ≤ 40 →
     Ready s p t → c.wf = false → (∀ pr, c = .segmentReset p (byte t.val) params pr → pr.wf = true) →
     exec c s = .next ((s.accepted p t).respond p t .badParam (badParamResult c))) ∧
  (∀ (s : State) (p : Port) (t : Tag) (code : Byte) (params : List Byte), Ready s p t → params.length ≤ 40 → code ∉ commandCodes →
     exec (.badCommand p (byte t.val) code params) s = .next (s.setPort p { s.port p with
       cs := false, exchange := .none, frame := [], received := 0, latch := none, tags := (s.port p).tags.set t.val true
       respq := (s.port p).respq ++ [⟨t, .badCommand, false, false, []⟩] }))

/-- 10 R173: PORT_SETUP replaces ATTNOUTMASK by a mask of RESP and NOTICE, is answered OK with the mask before and after, and the ATTN output follows with
that response counted; any other mask is answered BAD_PARAM and ATTNOUTMASK stays. Nothing else changes. -/
def Obligations.PortSetupReplacesMask : Prop :=
  ∀ (s : State) (p : Port) (t : Tag) (m : Byte), Ready s p t →
    (m.toNat < 4 → ∃ u, exec (.portSetup p (byte t.val) [m]) s = .next u ∧
      u = (s.accepted p t).modPort p (fun r => { r with
        attnOutMask := ⟨m.getLsbD 0, m.getLsbD 1⟩
        respq := r.respq ++ [⟨t, .ok, false, false, [attnMaskCode (s.port p).attnOutMask, m]⟩] }) ∧
      (u.port p).attnOut = (m.getLsbD 0 || (!(s.port p).notices.isEmpty && m.getLsbD 1))) ∧
    (4 ≤ m.toNat → exec (.portSetup p (byte t.val) [m]) s = .next ((s.accepted p t).respond p t .badParam []))

/-- 10 R174, R175, 02 R36: a PORT_RESET leaves nothing of the port: its record is as R162 gives after a port reset, its claims, waits, watches, masks and CHAINBRK
flags are gone from every entry, no admission names it as its SOURCE, and its queued transactions, its survey and its hold are gone from every
segment.

03 R65, 10 R174, R175: the other port keeps its tags, its exchange, its FRAMEBUF, its masks and its indicators, and on every entry not RETIRING its mask, its watch
and its claim; where it waited it is granted, and answered OK. Only then do the arbiters of the segments that the port held choose, in any order (log
entry 5); where it held none, the other port's record stays but for the responses placed in RESPQ. -/
def Obligations.PortResetLeavesNothing : Prop :=
  ∀ (s : State) (p : Port), (s.port p).exchange = .portReset →
    let q := p.other
    let held (g : Seg) : Prop := (s.seg g).state = .held ∧ ∃ ho ∈ (s.seg g).hold, ho.port = p
    ∃ t, exec (.portReset p) s = .next t ∧ t.NothingOf p ∧ t.threshold = s.threshold ∧
      (t.port q).cs = (s.port q).cs ∧ (t.port q).tags = (s.port q).tags ∧ (t.port q).exchange = (s.port q).exchange ∧
      (t.port q).frame = (s.port q).frame ∧ (t.port q).received = (s.port q).received ∧
      (t.port q).attnOutMask = (s.port q).attnOutMask ∧ (t.port q).segMasks = (s.port q).segMasks ∧
      (t.port q).rejected = (s.port q).rejected ∧ (t.port q).reason = (s.port q).reason ∧
      ((∀ h, (s.entry h).ClaimsOk) →
        ∃ (v : State) (l : List Seg), t = l.foldl State.choose v ∧ (∀ g, g ∈ l ↔ held g) ∧
          (∀ x ∈ [v, t], ∀ h, (s.entry h).state ≠ .retiring → KeptOf q (s.entry h) (x.entry h)) ∧
          (∀ h, ∀ w ∈ (s.entry h).waiter, w.port = q → (w.tag, .ok, [claimCode w.mode.claim, byte w.leasereq]) ∈ v.answers q) ∧
          v.port q = { s.port q with respq := (s.port q).respq ++ (v.port q).respq.drop (s.port q).respq.length } ∧
          (v.port q).respq <+: (t.port q).respq)

/-- 01 R21, 04 R67, 06 R130, 08 R141, 10 R162, R176: a PIN_RESET leaves every entry VACANT with GEN 0, every segment OFF with its default settings, the threshold 3,
and both ports as R162 gives, REJECTED with REASON RESTART. (The input pins keep their levels, and the queue of commands stays: log entry 9.)

The state after reset is that state with the pins at rest, and satisfies everything that every step keeps. -/
def Obligations.ResetsClearThePart : Prop :=
  (∀ s : State, ∃ t, exec .pinReset s = .next t ∧
     (∀ h, t.entry h = Entry.vacant 0) ∧ (∀ g, t.seg g = { sattn := (s.seg g).sattn }) ∧
     (∀ p, t.port p = { cs := (s.port p).cs, rejected := true, reason := some .restart }) ∧
     t.threshold = 3 ∧ t.pending = s.pending) ∧
  (∀ h, State.reset.entry h = Entry.vacant 0) ∧ (∀ g, State.reset.seg g = {}) ∧
  (∀ p, State.reset.port p = { rejected := true, reason := some .restart }) ∧ State.reset.threshold = 3 ∧
  (∀ p, (State.reset.port p).NoticesOk) ∧ (∀ h, (State.reset.entry h).ClaimsOk) ∧ (∀ h, (State.reset.entry h).WaiterOk) ∧
  (∀ h, (State.reset.entry h).LeasesOk) ∧ State.reset.HealthOk ∧ State.reset.IndexOk ∧ (∀ g, (State.reset.seg g).Ok) ∧
  State.reset.WorkOk ∧ State.reset.TagsOk

/-! ## Notices -/

/-- 09 R158: a notice posted to a port merges into the one of the same KIND and SUBJECT, which takes its DETAIL and counts one more, up to 255; else it is appended
with MERGE 1 while fewer than 16 wait; else it is dropped and NOTICE_LOST is set. The list so keeps at most 16 notices, no two of the same KIND and
SUBJECT. The other port, the entries and the segments stay. -/
def Obligations.PostingMergesAppendsOrDrops : Prop :=
  ∀ (s : State) (p : Port) (k : NoticeKind) (sub : Subject) (d : Byte),
    (s.post p k sub d).port p.other = s.port p.other ∧ (s.post p k sub d).entries = s.entries ∧ (s.post p k sub d).segs = s.segs ∧
    ((s.port p).NoticesOk → ((s.post p k sub d).port p).NoticesOk) ∧
    (∀ pre n post, (s.port p).notices = pre ++ n :: post → n.kind = k → n.subject = sub → distinctNotices (s.port p).notices →
      ((s.post p k sub d).port p).notices = pre ++ { n with detail := d, merge := min 255 (n.merge + 1) } :: post ∧
      ((s.post p k sub d).port p).noticeLost = (s.port p).noticeLost) ∧
    ((∀ n ∈ (s.port p).notices, ¬(n.kind = k ∧ n.subject = sub)) →
      ((s.port p).notices.length < 16 →
        ((s.post p k sub d).port p).notices = (s.port p).notices ++ [⟨k, sub, d, 1⟩] ∧
        ((s.post p k sub d).port p).noticeLost = (s.port p).noticeLost) ∧
      (16 ≤ (s.port p).notices.length →
        ((s.post p k sub d).port p).notices = (s.port p).notices ∧ ((s.post p k sub d).port p).noticeLost = true))

/-! ## What every step keeps -/

/-- 09 R158, R159: every step keeps each port's notice list: at most 16 notices, no two of the same KIND and SUBJECT, each standing for 1 to 255 postings. -/
def Obligations.NoticeListsKept : Prop :=
  ∀ s t : State, (∀ p, (s.port p).NoticesOk) → step s = .next t → ∀ p, (t.port p).NoticesOk

/-- 03 R43: every step keeps CLAIM, HOLDERS and WAITER of every entry in their relation.

03 R52, R54: with that, every step keeps a WAITER only where the other port holds a claim that conflicts with the mode it waits for. -/
def Obligations.ClaimsKept : Prop :=
  (∀ s t : State, (∀ h, (s.entry h).ClaimsOk) → step s = .next t → ∀ h, (t.entry h).ClaimsOk) ∧
  (∀ s t : State, (∀ h, (s.entry h).ClaimsOk) → (∀ h, (s.entry h).WaiterOk) → step s = .next t → ∀ h, (t.entry h).WaiterOk)

/-- 03 R55, R57, R58: every step leaves no lease and no wait that has run out: what a tick brings to 0 lapses or expires in that tick's own step. -/
def Obligations.LeasesKept : Prop :=
  ∀ s t : State, (∀ h, (s.entry h).LeasesOk) → step s = .next t → ∀ h, (t.entry h).LeasesOk

/-- 06 R116: every step keeps the threshold from 1 to 7 and FAILS of every entry in its relation to the entry's STATE and the threshold. -/
def Obligations.HealthKept : Prop := ∀ s t : State, s.HealthOk → step s = .next t → t.HealthOk

/-- 01 R1, R7, 02 R22: every step keeps the index without duplicates, a place for exactly the entries not VACANT, and an admission record for exactly the
PROBING ones. -/
def Obligations.IndexKept : Prop := ∀ s t : State, s.IndexOk → step s = .next t → t.IndexOk

/-- 04 R67, R68, R78: every step keeps HOSTQ of every segment within six transactions, CURRENT present exactly when the segment is ACTIVE, and HOLD present exactly
when it is HELD. -/
def Obligations.SegmentsKept : Prop := ∀ s t : State, (∀ g, (s.seg g).Ok) → step s = .next t → ∀ g, (t.seg g).Ok

/-- 01 R10, R11, R12: every step keeps INFLIGHT of every entry equal to the number of its works: host transactions queued or on the bus, a planned admission
transfer, a watch probe due, and the transfers on the bus that name it. What keeps it so stands in State.WorkOk, and is kept with it. -/
def Obligations.InflightKept : Prop := ∀ s t : State, s.WorkOk → step s = .next t → t.WorkOk

/-- 10 R167, R168: every step keeps each OUTSTANDING tag in use exactly once, by a request that waits for its answer or by a response in RESPQ, and each FREE tag
unused. So RESPQ never holds two responses of one tag, each of its tags is OUTSTANDING, and it holds at most eight. Stated where the works are in
order too (01 R10). -/
def Obligations.TagsKept : Prop :=
  (∀ s t : State, s.WorkOk → s.TagsOk → step s = .next t → t.TagsOk) ∧
  (∀ s : State, s.TagsOk → ∀ p, ((s.port p).respq.map Response.tag).Nodup ∧ (s.port p).respq.length ≤ 8 ∧
    ∀ r ∈ (s.port p).respq, (s.port p).tags[r.tag.val] = true)

/-! ## The directory and admission -/

/-- 01 R8, R9, 02 R31, R32: an ADMIT of a place that no entry has, on a segment that is neither OFF nor STUCK, takes the VACANT entry of lowest handle, with the
starting values of R9 and its address probe planned, and the arbiter of the segment chooses. GEN stays.

02 R31: ADMIT is refused, with no other change, by the first that applies: DUPLICATE with the reference of the entry that has the place, DIRECTORY_FULL
where no entry is VACANT, SEGMENT_OFF, BUS_STUCK. -/
def Obligations.AdmitTakesAnEntryOrIsRefused : Prop :=
  (∀ (s : State) (p : Port) (t : Tag) (a : AdmitArgs) (h : Handle), Ready s p t → addrInRange a.amode a.addr = true →
     (∀ k, (s.entry k).at a.seg a.amode a.addr = false) →
     (s.entry h).state = .vacant → (∀ k, k < h → (s.entry k).state ≠ .vacant) →
     (s.seg a.seg).state ≠ .off → (s.seg a.seg).state ≠ .stuck →
     exec (.admitDevice p (byte t.val)
         [byte a.seg.val, amodeCode a.amode, byte (a.addr / 256), byte a.addr, dmodeCode a.dmode, entryMaskCode a.mask]) s =
       .next (((s.accepted p t).setEntry h
         { gen := (s.entry h).gen, state := .probing, place := some ⟨a.seg, a.amode, a.addr, .byAdmit, a.dmode⟩, desc := {}, dsrc := .none,
           fails := 0, claim := .none, holderA := none, holderB := none, waiter := none,
           subsA := if p = .A then a.mask else {}, subsB := if p = .B then a.mask else {}, inflight := 1, settle := 0, watch := none,
           chainA := false, chainB := false, adm := some ⟨.first, .probe, .byAdmit (some (p, t)), none, none, .waiting⟩,
           retire := none }).choose a.seg)) ∧
  (∀ (s : State) (p : Port) (t : Tag) (a : AdmitArgs), Ready s p t → addrInRange a.amode a.addr = true → s.IndexOk →
     let ask : Instr := .admitDevice p (byte t.val)
       [byte a.seg.val, amodeCode a.amode, byte (a.addr / 256), byte a.addr, dmodeCode a.dmode, entryMaskCode a.mask]
     (∀ h, (s.entry h).at a.seg a.amode a.addr = true →
       exec ask s = .next ((s.accepted p t).respond p t .duplicate [byte h.val, byte (s.entry h).gen.val])) ∧
     ((∀ k, (s.entry k).at a.seg a.amode a.addr = false) →
       ((∀ k, (s.entry k).state ≠ .vacant) → exec ask s = .next ((s.accepted p t).respond p t .directoryFull [])) ∧
       (∀ k, (s.entry k).state = .vacant →
         ((s.seg a.seg).state = .off → exec ask s = .next ((s.accepted p t).respond p t .segmentOff [])) ∧
         ((s.seg a.seg).state = .stuck → exec ask s = .next ((s.accepted p t).respond p t .busStuck [])))))

/-- 01 R5, R13, R17: RETIRE is refused, with no other change: STALE for a reference that is not current, GONE for a RETIRING entry, HELD where the other port
holds EXCLUSIVE.

01 R14, R15: whatever the entry has when a RETIRE is accepted, after the step it is VACANT with GEN one higher, or it is RETIRING with work in flight and with
no claim, waiter, watch or admission.

01 R14, R15, 02 R36, 05 R112: on the way CLAIM_DROPPED is posted to the other holder; the WAITER, the watch and the ADMIT of a first admission are answered GONE, in this
order (log entry 16), or ADMIT_FAILED is posted; a due probe and a planned transfer are withdrawn; a hold for the entry ends with a stop and
CHAINBRK; with nothing left in flight the entry is VACANT and the RETIRE answered OK (log entry 15). Then the arbiter chooses.

01 R12, R15: the retire of an entry with nothing in flight completes: the entry is VACANT, cleared, with GEN one higher, and its requester is answered OK, unless
its port has been reset. (A RETIRING entry that stands with INFLIGHT 0, and RETIRE_COMPLETE as a command of its own, are the model's: log entry 2.) -/
def Obligations.RetireRefusedOrEndsEverything : Prop :=
  (∀ (s : State) (p : Port) (t : Tag) (h : Handle) (g : Gen), Ready s p t →
     (¬((s.entry h).gen = g ∧ (s.entry h).state ≠ .vacant) →
       exec (.retire p (byte t.val) [byte h.val, byte g.val]) s = .next ((s.accepted p t).respond p t .stale [])) ∧
     ((s.entry h).gen = g → (s.entry h).state = .retiring →
       exec (.retire p (byte t.val) [byte h.val, byte g.val]) s = .next ((s.accepted p t).respond p t .gone [])) ∧
     ((s.entry h).gen = g → (s.entry h).state ≠ .vacant → (s.entry h).state ≠ .retiring → (s.entry h).claim = .exclusive →
       ((s.entry h).holder p.other).isSome = true →
       exec (.retire p (byte t.val) [byte h.val, byte g.val]) s = .next ((s.accepted p t).respond p t .held []))) ∧
  (∀ (s : State) (p : Port) (t : Tag) (h : Handle), Ready s p t → s.IndexOk →
     (s.entry h).state ≠ .vacant → (s.entry h).state ≠ .retiring →
     ¬((s.entry h).claim = .exclusive ∧ ((s.entry h).holder p.other).isSome = true) →
     ∃ u, exec (.retire p (byte t.val) [byte h.val, byte (s.entry h).gen.val]) s = .next u ∧
       (u.entry h = Entry.vacant ((s.entry h).gen + 1) ∨
         ((u.entry h).state = .retiring ∧ (u.entry h).gen = (s.entry h).gen ∧ (u.entry h).inflight ≠ 0 ∧ (u.entry h).claim = .none ∧
           (u.entry h).holderA = none ∧ (u.entry h).holderB = none ∧ (u.entry h).waiter = none ∧ (u.entry h).watch = none ∧
           (u.entry h).adm = none ∧ (u.entry h).retire = some (p, t)))) ∧
  (∀ (s : State) (p : Port) (t : Tag) (h : Handle) (pl : Place), Ready s p t → (s.entry h).place = some pl →
     (s.entry h).state ≠ .vacant → (s.entry h).state ≠ .retiring →
     ¬((s.entry h).claim = .exclusive ∧ ((s.entry h).holder p.other).isSome = true) →
     let e := s.entry h
     let dropped := (s.accepted p t).postWhere (fun q => (e.holder q).isSome && q != p) .claimDropped (.entry h e.gen) (claimCode e.claim)
     let gone := (dropped.respondTo (e.waiter.map (fun w => (w.port, w.tag))) .gone []).respondTo (e.watch.map (fun w => (w.port, w.tag))) .gone []
     let told := match e.adm with
       | some a => if a.kind = .first then gone.sourceTold a pl .gone else gone
       | none => gone
     let left := { e with
       state := .retiring, fails := 0, claim := .none, holderA := none, holderB := none, waiter := none, watch := none, adm := none
       retire := some (p, t), inflight := e.inflight - bit e.watchDue - bit e.admWaiting }
     let end_ (u : State) (f : Entry) : State :=
       (if f.inflight = 0 then (u.setEntry h (Entry.vacant (e.gen + 1))).respond p t .ok [] else u.setEntry h f).choose pl.seg
     let ask : Instr := .retire p (byte t.val) [byte h.val, byte e.gen.val]
     (¬((s.seg pl.seg).state = .held ∧ ∃ ho ∈ (s.seg pl.seg).hold, ho.entry = h) → exec ask s = .next (end_ told left)) ∧
     (∀ ho, (s.seg pl.seg).state = .held → (s.seg pl.seg).hold = some ho → ho.entry = h →
       exec ask s = .next (end_ (told.setSeg pl.seg { s.seg pl.seg with state := .idle, hold := none, lines := .stop })
         (left.setChain ho.port true)))) ∧
  (∀ (s : State) (h : Handle), (s.entry h).ClaimsOk → (s.entry h).state = .retiring → (s.entry h).inflight = 0 →
     exec (.retireComplete h) s = .next ((s.setEntry h (Entry.vacant ((s.entry h).gen + 1))).respondTo (s.entry h).retire .ok []))

/-- 01 R18: LOOKUP of a place in the range of its mode is answered OK with the reference and state of the entry that has it, or NOT_FOUND; a segment above 5, an unknown
address mode or an address outside the range of its mode is answered BAD_PARAM. Nothing else changes. -/
def Obligations.LookupAnswers : Prop :=
  ∀ (s : State) (p : Port) (t : Tag) (g : Seg) (m : AMode) (a : Nat), Ready s p t → addrInRange m a = true → s.IndexOk →
    (∀ sg am hi lo : Byte, wfPlace sg am hi lo = false →
      exec (.lookup p (byte t.val) [sg, am, hi, lo]) s = .next ((s.accepted p t).respond p t .badParam [])) ∧
    (∀ h, (s.entry h).at g m a = true →
      exec (.lookup p (byte t.val) [byte g.val, amodeCode m, byte (a / 256), byte a]) s =
        .next ((s.accepted p t).respond p t .ok [byte h.val, byte (s.entry h).gen.val, entryStateCode (s.entry h).state])) ∧
    ((∀ h, (s.entry h).at g m a = false) →
      exec (.lookup p (byte t.val) [byte g.val, amodeCode m, byte (a / 256), byte a]) s =
        .next ((s.accepted p t).respond p t .notFound []))

/-- 01 R19, 11 R181: LIST is answered OK with the number of records, NEXT, and a record of eight bytes for each entry not VACANT from the starting handle upward,
up to the count; NEXT is the handle after the last one listed where the count was reached, else 48. Nothing else changes.

01 R5, R20, 11 R179, R181: READ_ENTRY of a current reference is answered OK with the record of 43 bytes: HANDLE, GEN, STATE; the place; ORIGIN, DMODE, DSRC; DESC;
FAILS, CLAIM, the leases of Port A and Port B; PORT, MODE and WAIT of the WAITER; the masks of Port A and Port B; PORT, INTERVAL and REMAINING of the
watch; INFLIGHT, SETTLE and CHAINBRK. Of any other reference, STALE. Nothing else changes. -/
def Obligations.ListAndReadEntryAnswer : Prop :=
  (∀ (s : State) (p : Port) (t : Tag) (start : Handle) (n : Nat), Ready s p t → 1 ≤ n → n ≤ 6 →
     ∃ (l : List Handle) (records : List Byte),
       l = ((List.finRange 48).filter (fun h => start ≤ h ∧ (s.entry h).state ≠ .vacant)).take n ∧
       records = l.flatMap (fun h => [byte h.val, byte (s.entry h).gen.val, entryStateCode (s.entry h).state] ++
         placeBytes (s.entry h).place ++ [claimCode (s.entry h).claim]) ∧
       records.length = 8 * l.length ∧
       exec (.list p (byte t.val) [byte start.val, byte n]) s =
         .next ((s.accepted p t).respond p t .ok
           (byte l.length :: (if l.length = n then byte ((l.getLastD 0).val + 1) else 0x30) :: records))) ∧
  (∀ (s : State) (p : Port) (t : Tag) (h : Handle) (g : Gen), Ready s p t →
     let e := s.entry h
     (e.gen = g → e.state ≠ .vacant → ∃ r : List Byte,
       exec (.readEntry p (byte t.val) [byte h.val, byte g.val]) s = .next ((s.accepted p t).respond p t .ok r) ∧ r.length = 43 ∧
       r.take 3 = [byte h.val, byte g.val, entryStateCode e.state] ∧
       (r.drop 3).take 4 = placeBytes e.place ∧
       (r.drop 7).take 3 = [e.place.elim 0xFF (fun pl => originCode pl.origin), e.place.elim 0xFF (fun pl => dmodeCode pl.dmode),
         dsrcCode e.dsrc] ∧
       (r.drop 10).take 17 = descBytes e.desc ∧
       (r.drop 27).take 4 = [byte e.fails, claimCode e.claim, e.holderA.elim 0 (fun hr => byte hr.lease),
         e.holderB.elim 0 (fun hr => byte hr.lease)] ∧
       (r.drop 31).take 3 = e.waiter.elim [0xFF, 0xFF, 0x00] (fun w => [portCode w.port, claimCode w.mode.claim, byte w.wait]) ∧
       (r.drop 34).take 2 = [entryMaskCode e.subsA, entryMaskCode e.subsB] ∧
       (r.drop 36).take 3 = e.watch.elim [0xFF, 0x00, 0x00] (fun w => [portCode w.port, byte w.interval, byte w.remaining]) ∧
       r.drop 39 = byte e.inflight :: be16 e.settle ++ [chainCode e]) ∧
     (¬(e.gen = g ∧ e.state ≠ .vacant) →
       exec (.readEntry p (byte t.val) [byte h.val, byte g.val]) s = .next ((s.accepted p t).respond p t .stale [])))

/-- 09 R155: SUBSCRIBE on a current reference of an entry that is not RETIRING replaces the requesting port's mask on the entry and is answered OK with the mask before
and after; STALE and GONE change no mask.

09 R156: SEGMENT_SUBSCRIBE replaces the requesting port's mask for the segment and is answered OK with the mask before and after. -/
def Obligations.SubscriptionsReplaceMasks : Prop :=
  (∀ (s : State) (p : Port) (t : Tag) (h : Handle) (g : Gen) (m : EntryMask), Ready s p t →
     let ask : Instr := .subscribe p (byte t.val) [byte h.val, byte g.val, entryMaskCode m]
     ((s.entry h).gen = g → (s.entry h).state ≠ .vacant → (s.entry h).state ≠ .retiring →
       exec ask s = .next (((s.accepted p t).setEntry h ((s.entry h).setSubs p m)).respond p t .ok
         [entryMaskCode ((s.entry h).subs p), entryMaskCode m])) ∧
     (¬((s.entry h).gen = g ∧ (s.entry h).state ≠ .vacant) → exec ask s = .next ((s.accepted p t).respond p t .stale [])) ∧
     ((s.entry h).gen = g → (s.entry h).state = .retiring → exec ask s = .next ((s.accepted p t).respond p t .gone []))) ∧
  (∀ (s : State) (p : Port) (t : Tag) (g : Seg) (m : SegMask), Ready s p t →
     exec (.segmentSubscribe p (byte t.val) [byte g.val, segMaskCode m]) s =
       .next ((s.accepted p t).modPort p (fun r => { r with
         segMasks := r.segMasks.set g.val m
         respq := r.respq ++ [⟨t, .ok, false, false, [segMaskCode (s.port p).segMasks[g.val], segMaskCode m]⟩] })))

/-! ## Claims -/

/-- 03 R46 to R52: CLAIM on a current reference of an entry that is not RETIRING. BUSY where the requester waits there already. Where the other port holds nothing, or
both are for SHARED, it is granted: the requester's record holds the lease asked for, CLAIM is the mode asked for, and the answer is OK with both;
after a downgrade the WAITER is re-evaluated. Else HELD with a wait of 0, BUSY where there is a WAITER, or the requester becomes the WAITER. (That
the first BUSY carries the claim's bytes is DEDUCED from 11 R181: log entry 16. STALE and GONE stand in StaleAndGoneRefused.) -/
def Obligations.ClaimDecided : Prop :=
  ∀ (s : State) (p : Port) (t : Tag) (h : Handle) (m : ClaimMode) (lease wait : Nat), Ready s p t → (s.entry h).ClaimsOk →
    (s.entry h).state ≠ .vacant → (s.entry h).state ≠ .retiring → 1 ≤ lease → lease ≤ 255 → wait ≤ 255 →
    let e := s.entry h
    let ask : Instr := .claim p (byte t.val) [byte h.val, byte e.gen.val, claimCode m.claim, byte lease, byte wait]
    let given := ((s.accepted p t).setEntry h { e.setHolder p (some ⟨lease, lease⟩) with claim := m.claim }).respond p t .ok
      [claimCode m.claim, byte lease]
    let holding : List Byte := [claimCode e.claim, holdersCode e]
    ((∃ w, e.waiter = some w ∧ w.port = p) → exec ask s = .next ((s.accepted p t).respond p t .busy holding)) ∧
    ((∀ w ∈ e.waiter, w.port ≠ p) →
      (e.holder p.other = none ∨ (e.claim = .shared ∧ m = .shared) →
        (e.claim = .exclusive ∧ (e.holder p).isSome = true ∧ m = .shared → exec ask s = .next (given.reevaluate h)) ∧
        (¬(e.claim = .exclusive ∧ (e.holder p).isSome = true ∧ m = .shared) → exec ask s = .next given)) ∧
      (¬(e.holder p.other = none ∨ (e.claim = .shared ∧ m = .shared)) →
        (wait = 0 → exec ask s = .next ((s.accepted p t).respond p t .held holding)) ∧
        (wait ≠ 0 → e.waiter.isSome = true → exec ask s = .next ((s.accepted p t).respond p t .busy holding)) ∧
        (wait ≠ 0 → e.waiter = none →
          exec ask s = .next ((s.accepted p t).setEntry h { e with waiter := some ⟨p, m, lease, wait, t⟩ }))))

/-- 03 R60: RENEW sets the requesting port's LEASE to its LEASEVAL and is answered OK with the mode and that lease; NOT_HOLDER where the port holds nothing, after
BAD_PARAM, STALE and GONE. Nothing else changes. -/
def Obligations.RenewRestoresLease : Prop :=
  ∀ (s : State) (p : Port) (t : Tag) (h : Handle) (g : Gen), Ready s p t →
    let ask : Instr := .renew p (byte t.val) [byte h.val, byte g.val]
    (∀ b c : Byte, 48 ≤ b.toNat ∨ 16 ≤ c.toNat →
      exec (.renew p (byte t.val) [b, c]) s = .next ((s.accepted p t).respond p t .badParam [])) ∧
    (¬((s.entry h).gen = g ∧ (s.entry h).state ≠ .vacant) → exec ask s = .next ((s.accepted p t).respond p t .stale [])) ∧
    ((s.entry h).gen = g → (s.entry h).state = .retiring → exec ask s = .next ((s.accepted p t).respond p t .gone [])) ∧
    ((s.entry h).gen = g → (s.entry h).state ≠ .vacant → (s.entry h).state ≠ .retiring →
      ((s.entry h).holder p = none → exec ask s = .next ((s.accepted p t).respond p t .notHolder [])) ∧
      (∀ hr, (s.entry h).holder p = some hr →
        exec ask s = .next (((s.accepted p t).setEntry h ((s.entry h).setHolder p (some { hr with lease := hr.leaseval }))).respond p t
          .ok [claimCode (s.entry h).claim, byte hr.leaseval])))

/-- 01 R5, R17, 03 R46, R62, 06 R123, R128: CLAIM, RELEASE, WATCH and WATCH_CANCEL of a reference that is not current are answered STALE, and of a RETIRING entry GONE.
Nothing else changes. -/
def Obligations.StaleAndGoneRefused : Prop :=
  ∀ (s : State) (p : Port) (t : Tag) (h : Handle) (g : Gen) (m : ClaimMode) (lease wait interval limit : Nat), Ready s p t →
    1 ≤ lease → lease ≤ 255 → wait ≤ 255 → 1 ≤ interval → interval ≤ 255 → 1 ≤ limit → limit ≤ 255 →
    ∀ ask ∈ [Instr.claim p (byte t.val) [byte h.val, byte g.val, claimCode m.claim, byte lease, byte wait],
        .release p (byte t.val) [byte h.val, byte g.val], .watch p (byte t.val) [byte h.val, byte g.val, byte interval, byte limit],
        .watchCancel p (byte t.val) [byte h.val, byte g.val]],
      (¬((s.entry h).gen = g ∧ (s.entry h).state ≠ .vacant) → exec ask s = .next ((s.accepted p t).respond p t .stale [])) ∧
      ((s.entry h).gen = g → (s.entry h).state = .retiring → exec ask s = .next ((s.accepted p t).respond p t .gone []))

/-- 03 R62, 05 R108, R112: RELEASE removes the requesting port's holder record, CLAIM becomes NONE if no holder remains, the WAITER is re-evaluated, and the answer
is OK. Where the port holds the segment by a chain on the entry, the hold ends too, with a stop and CHAINBRK, and the segment is IDLE; where a host
transaction of the port on the entry is on the bus, it will not hold. Then the arbiter chooses. NOT_HOLDER where the port holds nothing. What the
re-evaluation does is stated by WaiterGranted. -/
def Obligations.ReleaseEndsClaim : Prop :=
  ∀ (s : State) (p : Port) (t : Tag) (h : Handle) (pl : Place), Ready s p t → (s.entry h).place = some pl →
    (s.entry h).state ≠ .vacant → (s.entry h).state ≠ .retiring →
    let e := s.entry h
    let ask : Instr := .release p (byte t.val) [byte h.val, byte e.gen.val]
    let e₁ := { e.setHolder p none with claim := if e.holder p.other = none then .none else e.claim }
    let released (u : State) : State := (u.reevaluate h).respond p t .ok []
    (e.holder p = none → exec ask s = .next ((s.accepted p t).respond p t .notHolder [])) ∧
    ((e.holder p).isSome = true →
      ((∀ left, (s.seg pl.seg).state = .held → (s.seg pl.seg).hold ≠ some ⟨p, h, left⟩) →
        (∀ u ∈ (s.seg pl.seg).hostq, u.active = true → ¬(u.port = p ∧ u.handle = h)) →
        exec ask s = .next ((released ((s.accepted p t).setEntry h e₁)).choose pl.seg)) ∧
      (∀ left, (s.seg pl.seg).state = .held → (s.seg pl.seg).hold = some ⟨p, h, left⟩ →
        exec ask s = .next ((released (((s.accepted p t).setEntry h (e₁.setChain p true)).setSeg pl.seg
          { s.seg pl.seg with state := .idle, hold := none, lines := .stop })).choose pl.seg)) ∧
      (∀ c pre u post, HostOnBus s pl.seg c pre u post → u.port = p → u.handle = h →
        exec ask s = .next (released (((s.accepted p t).setEntry h e₁).setSeg pl.seg
          { s.seg pl.seg with current := some { c with claimEnded := true } }))))

/-- 03 R54: a WAITER whose mode goes with what the other port holds is granted: for EXCLUSIVE its port is the sole holder, for SHARED it is added, its
LEASE the one it asked for, and its CLAIM is answered OK with the mode and lease. One whose mode does not go with it waits on, and where nobody
waits nothing happens. The command does what the re-evaluation of the WAITER does inside another step. (A waiter that stands compatible, and
WAITER_GRANTED as a command of its own, are the model's: log entry 2.) -/
def Obligations.WaiterGranted : Prop :=
  (∀ (s : State) (h : Handle) (w : Waiter), (s.entry h).waiter = some w →
     let e := s.entry h
     let held : Holder := ⟨w.leasereq, w.leasereq⟩
     (w.mode = .exclusive → e.holder w.port.other = none →
       exec (.waiterGranted h) s = .next ((s.setEntry h { e.setHolder w.port (some held) with claim := .exclusive, waiter := none }).respond
         w.port w.tag .ok [0x01, byte w.leasereq])) ∧
     (w.mode = .shared → (e.holder w.port.other = none ∨ e.claim ≠ .exclusive) →
       exec (.waiterGranted h) s = .next ((s.setEntry h { e.setHolder w.port (some held) with claim := .shared, waiter := none }).respond
         w.port w.tag .ok [0x02, byte w.leasereq])) ∧
     ((e.holder w.port.other).isSome = true → (w.mode = .exclusive ∨ e.claim = .exclusive) → exec (.waiterGranted h) s = .next s)) ∧
  (∀ (s : State) (h : Handle), exec (.waiterGranted h) s = .next (s.reevaluate h) ∧ ((s.entry h).waiter = none → s.reevaluate h = s))

/-- 03 R55: a WAIT at 0 expires: the WAITER is removed, and its CLAIM is answered TIMED_OUT with the entry's CLAIM and holding ports. Nothing else changes.

03 R58, 05 R104, R112: a LEASE at 0 lapses: the holder record is removed, CLAIM becomes NONE if no holder remains, CLAIM_LAPSED is posted to the port that held,
with the mode that lapsed, and the WAITER is re-evaluated; a hold of that port on that entry ends with a stop and CHAINBRK, and its transaction to that
entry on the bus will not hold; then the arbiter of the segment chooses. What the re-evaluation does is stated by WaiterGranted.

04 R82, 05 R106: the end of a SETTLE that stands at 0 gives the arbiter of the entry's segment its choice.

05 R111: a hold whose HOLDLEFT stands at 0 expires: a stop is sent, HOLD becomes absent, the segment is IDLE, CHAINBRK of HOLDPORT on HOLDENTRY is set, and the
arbiter chooses. (A WAIT, LEASE, SETTLE or HOLDLEFT that stands at 0, and WAIT_EXPIRY, LEASE_LAPSE, SETTLE_END and HOLD_EXPIRY as commands of their
own, are the model's: log entry 2; a tick that brings one to 0 is in TicksBringAboutWhatIsDue.) -/
def Obligations.CountersAtZeroTakeEffect : Prop :=
  (∀ (s : State) (h : Handle) (w : Waiter), (s.entry h).waiter = some w → w.wait = 0 →
     exec (.waitExpiry h) s = .next ((s.setEntry h { s.entry h with waiter := none }).respond w.port w.tag .timedOut
       [claimCode (s.entry h).claim, holdersCode (s.entry h)])) ∧
  (∀ (s : State) (h : Handle) (p : Port) (pl : Place) (leaseval : Nat), (s.entry h).place = some pl →
     (s.entry h).holder p = some ⟨leaseval, 0⟩ →
     let e := s.entry h
     let e₁ := { e.setHolder p none with claim := if e.holder p.other = none then .none else e.claim }
     let lapsed (u : State) : State := (u.post p .claimLapsed (.entry h e.gen) (claimCode e.claim)).reevaluate h
     ((∀ left, (s.seg pl.seg).state = .held → (s.seg pl.seg).hold ≠ some ⟨p, h, left⟩) →
       (∀ u ∈ (s.seg pl.seg).hostq, u.active = true → ¬(u.port = p ∧ u.handle = h)) →
       exec (.leaseLapse h p) s = .next ((lapsed (s.setEntry h e₁)).choose pl.seg)) ∧
     (∀ left, (s.seg pl.seg).state = .held → (s.seg pl.seg).hold = some ⟨p, h, left⟩ →
       exec (.leaseLapse h p) s = .next ((lapsed ((s.setEntry h (e₁.setChain p true)).setSeg pl.seg
         { s.seg pl.seg with state := .idle, hold := none, lines := .stop })).choose pl.seg)) ∧
     (∀ c pre u post, HostOnBus s pl.seg c pre u post → u.port = p → u.handle = h →
       exec (.leaseLapse h p) s = .next (lapsed ((s.setEntry h e₁).setSeg pl.seg
         { s.seg pl.seg with current := some { c with claimEnded := true } })))) ∧
  (∀ (s : State) (h : Handle) (pl : Place), (s.entry h).settle = 0 → (s.entry h).place = some pl →
     exec (.settleEnd h) s = .next (s.choose pl.seg)) ∧
  (∀ (s : State) (g : Seg) (p : Port) (h : Handle), (s.seg g).state = .held → (s.seg g).hold = some ⟨p, h, 0⟩ →
     exec (.holdExpiry g) s =
       .next (((s.setSeg g { s.seg g with state := .idle, hold := none, lines := .stop }).setEntry h
         ((s.entry h).setChain p true)).choose g))

/-! ## The timebase -/

/-- 03 R55, R57, 06 R124, 08 R148: a 10 ms tick takes 1 from the LEASE of every holder, the WAIT of every WAITER, the NEXTDUE of every watch whose PROBE is NONE and whose
entry is SUSPECT or LOST, and the REARMLEFT of every DISARMED unit. Stated where none of them reaches 0: nothing else of an entry, a segment or a port changes then.

04 R81, 05 R109: a 100 µs tick takes 1 from every SETTLE above 0 and from the HOLDLEFT of every hold. Stated where none of them reaches 0: nothing else of an
entry, a segment or a port changes then. -/
def Obligations.TicksCount : Prop :=
  (∀ (s : State) (first : List Event),
     (∀ h p, ∀ hr ∈ (s.entry h).holder p, 2 ≤ hr.lease) → (∀ h, ∀ w ∈ (s.entry h).waiter, 2 ≤ w.wait) →
     (∀ h, ∀ w ∈ (s.entry h).watch, w.probe = .none → ((s.entry h).state = .suspect ∨ (s.entry h).state = .lost) → 2 ≤ w.nextdue) →
     (∀ g, (s.seg g).sweep.state = .disarmed → 1 ≤ (s.seg g).config.rearm → 2 ≤ (s.seg g).sweep.rearmleft) →
     ∃ t, exec (.timebaseTick10ms first) s = .next t ∧ CountedSlow s t) ∧
  (∀ (s : State) (first : List Event), (∀ h, (s.entry h).settle ≠ 1) →
     (∀ g, (s.seg g).state = .held → ∀ ho ∈ (s.seg g).hold, 2 ≤ ho.left) →
     ∃ t, exec (.timebaseTick100us first) s = .next t ∧ CountedFast s t)

/-- 03 R55, R57, R58, 06 R124, 08 R148: a 10 ms tick brings about, in its own step, what its count brings to 0: the lapse of each LEASE, the expiry of each WAIT, the probe of each
watch and the re-arming of each unit whose counter stood at 1, one after the other as their own commands do it. The order is the tick's operand
(log entry 4).

05 R106, R111: a 100 µs tick on which one SETTLE reaches 0 gives the arbiter its choice, and one on which one HOLDLEFT reaches 0 ends that hold, as SETTLE_END and
HOLD_EXPIRY do it. Where several SETTLEs and HOLDLEFTs reach 0 together, among them the SETTLE of HOLDENTRY and its hold, each is taken in its turn, in the order
that the tick gives: a SETTLE falls to 0 in its own event, so that one not yet taken still keeps its entry settling, and an expiry whose hold is gone does
nothing (log entry 4). -/
def Obligations.TicksBringAboutWhatIsDue : Prop :=
  (∀ (s : State) (due : List Event), due.Nodup → (∀ e, e ∈ due ↔ s.slowLeft 1 e) → (∀ e, ¬s.slowLeft 0 e) →
     ∃ t u, CountedSlow s t ∧ LeadsTo (due.map Event.command) t u ∧ exec (.timebaseTick10ms due) s = .next u) ∧
  (∀ (s : State) (first : List Event) (h : Handle), (∀ k, (s.entry k).settle = 1 ↔ k = h) →
     (∀ g, (s.seg g).state = .held → ∀ ho ∈ (s.seg g).hold, 2 ≤ ho.left) →
     ∃ t, CountedFast s t ∧ exec (.timebaseTick100us first) s = exec (.settleEnd h) t) ∧
  (∀ (s : State) (first : List Event) (g : Seg), (∀ h, (s.entry h).settle ≠ 1) →
     (∀ k, (s.seg k).state = .held → ∀ ho ∈ (s.seg k).hold, 1 ≤ ho.left ∧ (ho.left = 1 ↔ k = g)) →
     (s.seg g).state = .held → (s.seg g).hold.isSome = true →
     ∃ t, CountedFast s t ∧ exec (.timebaseTick100us first) s = exec (.holdExpiry g) t) ∧
  (∀ (s : State) (due : List Event), due.Nodup → (∀ e, e ∈ due ↔ s.fastDue e) →
     (∀ g, (s.seg g).state = .held → ∀ ho ∈ (s.seg g).hold, 1 ≤ ho.left) →
     ∃ t u, CountedButLast s t ∧ FastLeadsTo due t u ∧ exec (.timebaseTick100us due) s = .next u)

/-! ## Transfers -/

/-- 05 R93, R99, R100: a WRITE, READ, WRITE_READ or PING of a PRESENT or SUSPECT entry that its port may use, within the entry's limits, on a segment neither OFF nor STUCK
whose HOSTQ has room, joins the tail of HOSTQ as it was given; INFLIGHT rises by 1, and the arbiter chooses. No response is given. -/
def Obligations.TransferAccepted : Prop :=
  ∀ (s : State) (p : Port) (t : Tag) (h : Handle) (pl : Place) (hi lo : Byte) (chain : Bool) (data : List Byte) (m : Nat),
    Ready s p t → (s.entry h).place = some pl → (s.entry h).state = .present ∨ (s.entry h).state = .suspect →
    (s.seg pl.seg).state ≠ .off → (s.seg pl.seg).state ≠ .stuck → (s.seg pl.seg).hostq.length < 6 →
    1 ≤ data.length → data.length ≤ 32 → data.length ≤ (s.entry h).desc.maxburst →
    1 ≤ m → m ≤ 32 → m ≤ (s.entry h).desc.maxburst → (chain = true → (s.entry h).desc.chainCapable = true) →
    let e := s.entry h
    let ref : List Byte := [byte h.val, byte e.gen.val]
    let joined (k : TxKind) (off : BitVec 16) (d : List Byte) (rlen : Nat) (c : Bool) : State :=
      (((s.accepted p t).setSeg pl.seg { s.seg pl.seg with
        hostq := (s.seg pl.seg).hostq ++ [⟨p, t, h, e.gen, k, off, d, rlen, c, false, false⟩] }).setEntry h
          { e with inflight := e.inflight + 1 }).choose pl.seg
    (e.claim = .none ∨ (e.claim = .exclusive ∧ (e.holder p).isSome = true) →
      exec (.write p (byte t.val) (ref ++ [hi, lo, byte (bit chain), byte data.length] ++ data)) s =
        .next (joined .write (hi ++ lo) data 0 chain) ∧
      exec (.writeRead p (byte t.val) (ref ++ [hi, lo, byte (bit chain), byte data.length, byte m] ++ data)) s =
        .next (joined .writeRead (hi ++ lo) data m chain)) ∧
    (e.claim = .none ∨ e.claim = .shared ∨ (e.claim = .exclusive ∧ (e.holder p).isSome = true) →
      exec (.read p (byte t.val) (ref ++ [hi, lo, byte (bit chain), byte m])) s = .next (joined .read (hi ++ lo) [] m chain) ∧
      exec (.ping p (byte t.val) (ref ++ [0x00])) s = .next (joined .ping 0 [] 0 false))

/-- 05 R99, R44, R98, R102: the checks of acceptance of a WRITE, READ, WRITE_READ or PING, in their order: STALE, the state of the entry, the state of the segment, the
claim, HELD or SHARED_READONLY, the limits of the descriptor, SEGMENT_FULL. A refused request is answered with counts of 0 and changes no state but
its port's. -/
def Obligations.TransferRefused : Prop :=
  ∀ (s : State) (p : Port) (t : Tag) (k : TxKind) (h : Handle) (g : Gen) (hi lo : Byte) (chain : Bool) (data : List Byte) (m : Nat), Ready s p t →
    1 ≤ data.length → data.length ≤ 32 → 1 ≤ m → m ≤ 32 →
    let e := s.entry h
    let writes : Prop := k = .write ∨ k = .writeRead
    let reads : Prop := k = .read ∨ k = .writeRead
    let tooLong : Prop := (writes ∧ e.desc.maxburst < data.length) ∨ (reads ∧ e.desc.maxburst < m)
    let noChain : Prop := k ≠ .ping ∧ chain = true ∧ e.desc.chainCapable = false
    let refused (st : Status) : Prop := exec (transferRequest p t k h g hi lo chain data m) s =
      .next ((s.accepted p t).respond p t st (match k with
        | .write | .read => [0x00]
        | .writeRead => [0x00, 0x00]
        | .ping => []))
    (¬(e.gen = g ∧ e.state ≠ .vacant) → refused .stale) ∧
    (∀ pl, e.gen = g → e.place = some pl →
      (e.state = .probing → refused .notReady) ∧ (e.state = .lost → refused .lost) ∧ (e.state = .retiring → refused .gone) ∧
      (e.state = .present ∨ e.state = .suspect →
        ((s.seg pl.seg).state = .off → refused .segmentOff) ∧ ((s.seg pl.seg).state = .stuck → refused .busStuck) ∧
        ((s.seg pl.seg).state ≠ .off → (s.seg pl.seg).state ≠ .stuck →
          (e.claim = .exclusive → e.holder p = none → refused .held) ∧
          (e.claim = .shared → writes → refused .sharedReadonly) ∧
          (¬(e.claim = .exclusive ∧ e.holder p = none) → ¬(e.claim = .shared ∧ writes) →
            (tooLong → refused .tooLong) ∧
            (¬tooLong → noChain → refused .noChain) ∧
            (¬tooLong → ¬noChain → 6 ≤ (s.seg pl.seg).hostq.length → refused .segmentFull)))))

/-! ## The arbiter -/

/-- 04 R79, R83, 05 R106: on an IDLE segment with no sweep read to make, at the turn of the host class or where nothing of the background class may go, the oldest host
transaction whose entry is not settling is granted the bus, if it passes the dispatch recheck: the segment is ACTIVE, NEXTCLASS is BACKGROUND, and the
transfer begins with a start condition. Nothing else changes.

04 R84, 05 R110: on a HELD segment only the oldest transaction from HOLDPORT that names HOLDENTRY, once HOLDENTRY is not settling, is granted the bus, with a repeated
start and with HOLD absent; without one the segment stays as it is. (That its age against the chained transaction need not be looked at is DEDUCED:
log entry 12; ARBITER_GRANT as a command on work that stands is the model's: log entry 2.) -/
def Obligations.HostTransactionsGranted : Prop :=
  (∀ (s : State) (g : Seg) (pre : List HostTx) (t : HostTx) (post : List HostTx) (pl : Place), Picks s g pre t post →
     (s.seg g).state = .idle → s.recheck t = none → (s.entry t.handle).place = some pl →
     exec (.arbiterGrant g) s = .next (s.setSeg g { s.seg g with
       state := .active, nextclass := .background, hold := none, hostq := pre ++ { t with active := true } :: post
       current := some { kind := .host, entry := some t.handle, plan := .start :: txPlan pl (s.entry t.handle).desc t, acked := 0, rx := [],
                         lost := 0, followOn := false, restart := false, recovering := false, claimEnded := false } })) ∧
  (∀ (s : State) (g : Seg) (ho : Hold), (s.seg g).state = .held → (s.seg g).hold = some ho →
     ((s.entry ho.entry).settle ≠ 0 ∨ (∀ u ∈ (s.seg g).hostq, ¬(u.port = ho.port ∧ u.handle = ho.entry)) →
       exec (.arbiterGrant g) s = .next s) ∧
     (∀ pre t post pl, Picks s g pre t post → s.recheck t = none → (s.entry ho.entry).place = some pl →
       exec (.arbiterGrant g) s = .next (s.setSeg g { s.seg g with
         state := .active, nextclass := .background, hold := none, hostq := pre ++ { t with active := true } :: post
         current := some { kind := .host, entry := some ho.entry, plan := .restart :: txPlan pl (s.entry ho.entry).desc t, acked := 0,
                           rx := [], lost := 0, followOn := true, restart := true, recovering := false, claimEnded := false } })))

/-- 04 R84, 05 R101, R113: a picked transaction, on an IDLE or a HELD segment, that fails the dispatch recheck completes without the bus: it leaves HOSTQ, is answered
with the status of the first check it fails, counts of 0 and CHAIN_BROKEN if CHAINBRK was set, unless its port has been reset, and INFLIGHT falls by 1;
NEXTCLASS and a hold stay, and the arbiter chooses again. STALE where the generation has moved on; NOT_READY, LOST or GONE by the entry's state;
CLAIM_LOST; TOO_LONG; NO_CHAIN. The last work of a RETIRING entry completes its retire too (01 R11, R15; that its OK is placed at that fall of
INFLIGHT, before what the next choice places, is DEDUCED: log entry 15). (ARBITER_GRANT as a command on work that stands is the model's: log entry
2.) -/
def Obligations.RecheckCompletes : Prop :=
  ∀ (s : State) (g : Seg) (pre : List HostTx) (t : HostTx) (post : List HostTx), Picks s g pre t post →
    let e := s.entry t.handle
    let gone (st : Status) (e₁ : Entry) (owner : Option (Port × Tag)) : Prop :=
      exec (.arbiterGrant g) s = .next (((((s.setSeg g { s.seg g with hostq := pre ++ post }).setEntry t.handle e₁).give t
        ⟨t.tag, st, e.chain t.port, false, txResult t.kind 0 []⟩).respondTo owner .ok []).choose g)
    let completed (st : Status) : Prop :=
      (¬(e.state = .retiring ∧ e.inflight ≤ 1) → gone st { e.setChain t.port false with inflight := e.inflight - 1 } none) ∧
      (e.state = .retiring → e.inflight ≤ 1 → e.EndsOk → gone st (Entry.vacant (e.gen + 1)) e.retire)
    (e.gen ≠ t.gen → completed .stale) ∧
    (e.gen = t.gen →
      (e.state = .lost → completed .lost) ∧ (e.state = .probing → completed .notReady) ∧ (e.state = .retiring → completed .gone) ∧
      (e.state = .present ∨ e.state = .suspect →
        (e.right t.port t.kind ≠ none → completed .claimLost) ∧
        (e.right t.port t.kind = none →
          (e.desc.maxburst < t.wdata.length ∨ e.desc.maxburst < t.rlen → completed .tooLong) ∧
          (t.wdata.length ≤ e.desc.maxburst → t.rlen ≤ e.desc.maxburst → t.chain = true → e.desc.chainCapable = false →
            completed .noChain))))

/-- 04 R83, 08 R143, R144: on an IDLE segment the read of a sweep's candidate comes before every other work, if the candidate is not settling; it counts in INFLIGHT and
leaves NEXTCLASS. Else, at the turn of the background class or where no host transaction may go, an admission transfer is granted before a due watch probe,
each from the entry of lowest handle that is not settling, and after both the survey's probe (07 R133), which passes over the places of
entries that are PROBING, RETIRING or settling, and counts a listed entry as NAMED; NEXTCLASS is HOST. A survey whose whole rest is passed over
is answered OK with no grant. (ARBITER_GRANT as a command on work that stands is the model's: log entry 2.) -/
def Obligations.BackgroundGranted : Prop :=
  ∀ (s : State) (g : Seg), (s.seg g).state = .idle →
    let r := s.seg g
    let granted (k : CurKind) (o : Option Handle) (plan : List WireOp) : Current :=
      { kind := k, entry := o, plan := .start :: plan, acked := 0, rx := [], lost := 0, followOn := false, restart := false,
        recovering := false, claimEnded := false }
    (∀ h pl, (s.entry h).place = some pl → (s.entry h).settle = 0 → r.sweep.state = .sweeping → s.candidate g = some h →
      exec (.arbiterGrant g) s = .next ((s.setEntry h { s.entry h with inflight := (s.entry h).inflight + 1 }).setSeg g { r with
        state := .active
        current := some (granted .sweep (some h) (readPlan pl (s.entry h).desc.offsetw ((s.entry h).desc.statusoff.setWidth 16) 1)) })) ∧
    (s.noSweepRead g → r.nextclass = .background ∨ s.noHost g →
      (∀ h pl, (s.entry h).place = some pl → pl.seg = g → (s.entry h).settle = 0 →
        (∀ a, (s.entry h).adm = some a → a.planned = .waiting →
          (∀ k, k < h → (s.entry k).onSeg g = true → (s.entry k).admWaiting = true → (s.entry k).settle ≠ 0) →
          exec (.arbiterGrant g) s = .next ((s.setEntry h { s.entry h with adm := some { a with planned := .active } }).setSeg g { r with
            state := .active, nextclass := .host, current := some (granted .admission (some h) (admPlan pl r.config.descoff a)) })) ∧
        (∀ w, (s.entry h).watch = some w → w.probe = .due → s.noAdmission g →
          (∀ k, k < h → (s.entry k).onSeg g = true → (s.entry k).watchDue = true → (s.entry k).settle ≠ 0) →
          exec (.arbiterGrant g) s = .next ((s.setEntry h { s.entry h with watch := some { w with probe := .active } }).setSeg g { r with
            state := .active, nextclass := .host, current := some (granted .watch (some h) (addrWrite pl)) }))) ∧
      (∀ cu, r.survey = some cu → cu.probe = .waiting → s.noAdmission g → s.noWatchProbe g → s.IndexOk →
        (∀ n, cu.next ≤ n → n ≤ cu.high → (∀ a, cu.next ≤ a → a < n → s.skips g a) → ¬s.skips g n →
          let probed (o : Option Handle) : Segment := { r with
            state := .active, nextclass := .host, survey := some { cu with next := n, probe := .active, named := o }
            current := some (granted .survey o [.send .addr (byte (2 * n))]) }
          ((∀ h, (s.entry h).at g .seven n = false) → exec (.arbiterGrant g) s = .next (s.setSeg g (probed none))) ∧
          (∀ h, (s.entry h).at g .seven n = true → exec (.arbiterGrant g) s = .next ((s.setSeg g (probed (some h))).setEntry h
            { s.entry h with inflight := (s.entry h).inflight + 1 }))) ∧
        (s.noHost g → cu.next ≤ cu.high → (∀ a, cu.next ≤ a → a ≤ cu.high → s.skips g a) →
          exec (.arbiterGrant g) s = .next ((s.setSeg g { r with survey := none }).respond cu.port cu.tag .ok
            [byte g.val, byte cu.low, byte cu.high, byte (cu.high + 1), byte cu.found, byte cu.reappeared, byte cu.missing, byte cu.full]))))

/-- 05 R101: a host transaction that a choice has granted the bus has passed every check of the dispatch recheck: its entry has its generation and is PRESENT or SUSPECT, its
port has the right to it, and it is within the limits of the descriptor.

04 R82, R83, R84, 05 R106, 07 R133, 08 R143, R147: once the arbiter has chosen it leaves nothing eligible behind. On a segment that is IDLE then, every host
transaction in HOSTQ, every planned admission transfer and every due watch probe is of an entry that is settling, no survey probe waits, and a sweep that
runs has a candidate, which is settling; on one that is HELD no follow-on may run. Choosing again changes nothing. -/
def Obligations.ChoiceGrantsWhatMayRunAndLeavesNothing : Prop :=
  (∀ (s : State) (g : Seg) (c : Current), (s.seg g).current = none → ((s.choose g).seg g).current = some c → c.kind = .host →
    ∃ t ∈ ((s.choose g).seg g).hostq, t.active = true ∧ c.entry = some t.handle ∧ t.gen = ((s.choose g).entry t.handle).gen ∧
      (((s.choose g).entry t.handle).state = .present ∨ ((s.choose g).entry t.handle).state = .suspect) ∧
      ((s.choose g).entry t.handle).right t.port t.kind = none ∧
      ((s.choose g).entry t.handle).desc.limits t.wdata.length t.rlen t.chain = none) ∧
  (∀ (s : State) (g : Seg),
    let u := s.choose g
    ((u.seg g).state = .idle →
      u.noHost g ∧ u.noAdmission g ∧ u.noWatchProbe g ∧ u.noSweepRead g ∧ ∀ c ∈ (u.seg g).survey, c.probe = .active) ∧
    ((u.seg g).state = .held → ∀ ho ∈ (u.seg g).hold, (u.entry ho.entry).settle ≠ 0 ∨
      ∀ t ∈ (u.seg g).hostq, ¬(t.port = ho.port ∧ t.handle = ho.entry)) ∧
    u.choose g = u)

/-! ## The bus engine -/

/-- 04 R86: arbitration lost before every byte is sent: while attempts are left the lines are released and the whole transfer begins again from its start condition.
04 R85, R89: a wait for a free bus that reaches BUSYWAIT with the data line alone held low releases the lines and begins the recovery within the transfer.

04 R85 to R88, 05 R102, R103, R105, R113: after the last attempt a host transaction ends ARB_LOST, and after any other wait that reaches BUSYWAIT it ends BUS_BUSY, with no
report on its entry, counts of 0 and the lines released, and the arbiter chooses. The clock held low past CLKLOW, wherever the transfer had come, ends it
CLOCK_TIMEOUT, with the bytes written and received so far and a failure report on the entry, stated by ReportsMoveHealth, and the segment goes
RECOVERING with its lines released. Each time SETTLE is loaded where the write phase was acknowledged in full, CHAINBRK is given and
cleared, and the response is discarded where its port has been reset. INFLIGHT falls by 1 then, and the last work of a RETIRING entry completes its retire
(01 R11, R15; log entry 15). -/
def Obligations.BusFaultsEndHostTransactions : Prop :=
  (∀ (s : State) (g : Seg) (c : Current), OnBus s g c →
     (∀ pr, pr.acked < (sends c.plan).length → c.lost < (s.seg g).config.arbretry →
       exec (.arbLost g pr) s = .next (s.setSeg g { s.seg g with
         lines := .released
         current := some { c with plan := .start :: c.plan.tail, acked := 0, rx := [], lost := c.lost + 1, restart := false } })) ∧
     (c.restart = false →
       exec (.busBusy g true) s = .next (s.setSeg g { s.seg g with current := some { c with recovering := true }, lines := .released }))) ∧
  (∀ (s : State) (g : Seg) (c : Current) (pre : List HostTx) (t : HostTx) (post : List HostTx), HostOnBus s g c pre t post →
     (s.seg g).pendcmd = none → (s.entry t.handle).EndsOk →
     let ended (u : State) (k : Nat) (st : Status) (result : List Byte) : State :=
       let e := u.entry t.handle
       ((u.setEntry t.handle { e.setChain t.port false with
         settle := if writePhaseDone c.plan k then e.desc.settletime else e.settle }).give t
           ⟨t.tag, st, e.chain t.port, false, result⟩).workEnds t.handle
     let left (st : SegState) : State := s.setSeg g { s.seg g with state := st, current := none, hostq := pre ++ post, lines := .released }
     (∀ pr, pr.acked < (sends c.plan).length → (s.seg g).config.arbretry ≤ c.lost →
       exec (.arbLost g pr) s = .next ((ended (left .idle) pr.acked .arbLost (txResult t.kind 0 [])).choose g)) ∧
     (c.restart = false → c.acked = 0 →
       exec (.busBusy g false) s = .next ((ended (left .idle) 0 .busBusy (txResult t.kind 0 [])).choose g)) ∧
     (∀ k (rx : List Byte), k ≤ (sends c.plan).length → rx.length ≤ recvs c.plan → (rx = [] ∨ k = (sends c.plan).length) →
       exec (.clockTimeout g ⟨k, rx⟩) s =
         .next (ended ((left .recovering).failureReport t.handle) k .clockTimeout (txResult t.kind (writtenOf c.plan k) rx))))

/-- 04 R85 to R88, 02 R26, R29, R34, R39: an address probe of an admission that ends ARB_LOST, BUS_BUSY or CLOCK_TIMEOUT fails: a first admission ends with its entry VACANT
and its SOURCE told this status, a re-admission with its entry LOST again. A SIZE or body read that ends so ends the admission with every default, DSRC
DEFAULTED.

06 R125: a watch probe that ends so uses up one of the watch's probes, after the failure report of a CLOCK_TIMEOUT: the watch goes on from a fresh interval, or is
answered WATCH_EXPIRED at its last one.

07 R137, R136: a survey probe that ends so judges its address with no count, but for MISSING after a CLOCK_TIMEOUT of a listed PRESENT or SUSPECT entry, which has its
failure report; INFLIGHT of NAMED falls, which may complete a retire (01 R15), and the walk goes on, or the survey is answered OK after its last address.
An address that was unlisted at the grant is judged so too where an entry, PROBING or RETIRING, has its place by then.

02 R26, R35, R42, 06 R125: a SEGMENT_RESET that cuts an admission transfer or a watch probe, and a failed recovery within one of a re-admission or of a watch, plan it
again: nothing else of the entry changes. Stated for entries without host transactions there. -/
def Obligations.BusFaultsEndBackgroundWork : Prop :=
  (∀ (s : State) (g : Seg) (c : Current) (h : Handle) (pl : Place) (a : AdmRec), OnBus s g c → c.kind = .admission → c.entry = some h →
     (s.seg g).pendcmd = none → (s.entry h).state = .probing → (s.entry h).place = some pl → (s.entry h).adm = some a → a.planned = .active →
     (∀ w ∈ (s.entry h).watch, w.probe = .none) → pl.dmode = .fetch ∨ a.step = .probe →
     FaultsEnd s g c (fun st u => match a.kind, a.step with
       | .first, .probe => u.firstFailed h (s.entry h) a pl st
       | .re, .probe => u.lostAgain h (s.entry h)
       | .first, .sizeRead | .first, .bodyRead => u.firstPresent h (s.entry h) a {} .defaulted
       | .re, .sizeRead | .re, .bodyRead => u.readmitted h (s.entry h) {} .defaulted)) ∧
  (∀ (s : State) (g : Seg) (c : Current) (h : Handle) (w : Watch), OnBus s g c → c.kind = .watch → c.entry = some h →
     (s.seg g).pendcmd = none → (s.entry h).watch = some w → w.probe = .active → 1 ≤ w.remaining → 1 ≤ (s.entry h).inflight →
     (s.entry h).state = .lost ∨ (s.entry h).state = .suspect →
     FaultsEnd s g c (fun st u =>
       let v := if st = .clockTimeout then u.failureReport h else u
       let e := v.entry h
       if w.remaining = 1 then
         (v.setEntry h { e with watch := none, inflight := e.inflight - 1 }).respond w.port w.tag .watchExpired
           [byte h.val, byte e.gen.val, entryStateCode e.state, byte (w.probes + 1), 0x00]
       else v.setEntry h { e with inflight := e.inflight - 1, watch := some { w with
         probe := .none, probes := w.probes + 1, remaining := w.remaining - 1, nextdue := w.interval } })) ∧
  (∀ (s : State) (g : Seg) (c : Current) (cu : Cursor), OnBus s g c → c.kind = .survey → (s.seg g).pendcmd = none →
     (s.seg g).survey = some cu → cu.probe = .active → cu.next ≤ cu.high →
     let walked (u : State) (missing : Nat) : State :=
       if cu.next < cu.high then u.setSeg g { u.seg g with survey := some { cu with
         next := cu.next + 1, named := none, probe := .waiting, missing := missing } }
       else (u.setSeg g { u.seg g with survey := none }).respond cu.port cu.tag .ok [byte g.val, byte cu.low, byte cu.high,
         byte (cu.next + 1), byte cu.found, byte cu.reappeared, byte missing, byte cu.full]
     (c.entry = none → (∀ h, (s.entry h).at g .seven cu.next = true → (s.entry h).state = .probing ∨ (s.entry h).state = .retiring) →
       FaultsEnd s g c (fun _ u => walked u cu.missing)) ∧
     (∀ h, c.entry = some h → (s.entry h).at g .seven cu.next = true → s.IndexOk → (s.entry h).EndsOk →
       FaultsEnd s g c (fun st u =>
         let v := if st = .clockTimeout then u.failureReport h else u
         let e := s.entry h
         let missed := st = .clockTimeout ∧ (e.state = .present ∨ e.state = .suspect)
         walked (v.workEnds h) (if missed then cu.missing + 1 else cu.missing)))) ∧
  (∀ (s : State) (g : Seg) (c : Current) (h : Handle), (s.seg g).state = .active → (s.seg g).current = some c → (s.seg g).hold = none →
     c.entry = some h → (s.seg g).pendcmd = none → 1 ≤ (s.entry h).inflight → (∀ t ∈ (s.seg g).hostq, t.handle ≠ h) →
     let again (f : Entry) (u : State) : Prop := u.entry h = f
     let cut (f : Entry) : Prop := ∀ p t pr, Ready s p t →
       ∃ u, exec (.segmentReset p (byte t.val) [byte g.val] pr) s = .next u ∧ again f u
     let stuck (f : Entry) : Prop := c.recovering = true →
       ∃ u, exec (.recoveryEnd g (List.replicate 10 .dataLow)) s = .next u ∧ again f u
     (∀ a, c.kind = .admission → (s.entry h).state = .probing → (s.entry h).adm = some a → a.planned = .active →
       let f := { s.entry h with adm := some { a with planned := .waiting } }
       cut f ∧ (a.kind = .re → stuck f)) ∧
     (∀ w, c.kind = .watch → (s.entry h).state = .lost ∨ (s.entry h).state = .suspect → (s.entry h).watch = some w → w.probe = .active →
       let f := { s.entry h with watch := some { w with probe := .due } }
       cut f ∧ stuck f))

/-- 05 R95 to R97, R102, R103, R105, R108, R113, R114, 06 R117: a host transaction reaches its end: OK, with every byte written and the bytes received; DATA_NACK at an offset
or data byte, or ADDR_NACK at an address byte, with the data bytes acknowledged. OK and DATA_NACK are success reports, ADDR_NACK is a failure
report, stated by ReportsMoveHealth. SETTLE is loaded where the write phase was acknowledged in full, INFLIGHT falls by 1, CHAINBRK is given and cleared,
and a stop is sent; a chained one that ends OK holds the bus in its place, or sets CHAINBRK where its claim has ended or its entry is RETIRING. Where its
port has been reset it is not answered, does not hold and sets no CHAINBRK (also where its claim has ended or its entry is RETIRING: log entry 25).

01 R11, R15, 04 R88: the last work of a RETIRING entry completes its retire too; that its OK is placed at that fall of INFLIGHT, before what the next choice places, is
DEDUCED (log entry 15). Then the arbiter chooses. (A byte that the event does not give reads FFH: PRESUMED, log entry 6.) -/
def Obligations.HostTransactionEnds : Prop :=
  ∀ (s : State) (g : Seg) (c : Current) (pre : List HostTx) (t : HostTx) (post : List HostTx), HostOnBus s g c pre t post →
    (s.seg g).pendcmd = none → (s.entry t.handle).EndsOk →
    let e := s.entry t.handle
    let n := (sends c.plan).length
    let idle := { s.seg g with state := .idle, current := none, hostq := pre ++ post, lines := .stop }
    let broken := c.followOn && 0 < c.lost
    let ended (v : State) (k : Nat) (barred : Bool) (st : Status) (rx : List Byte) (br : Bool) : State :=
      ((v.setEntry t.handle { (v.entry t.handle).setChain t.port barred with
        settle := if writePhaseDone c.plan k then e.desc.settletime else e.settle }).give t
          ⟨t.tag, st, e.chain t.port || br, false, txResult t.kind (writtenOf c.plan k) rx⟩).workEnds t.handle
    let good (r : Segment) : State := (s.setSeg g r).successReport t.handle
    let bad : State := (s.setSeg g idle).failureReport t.handle
    let holding := { idle with state := .held, hold := some ⟨t.port, t.handle, (s.seg g).config.holdlimit⟩, lines := .held }
    (∀ rx, t.chain = false ∨ t.orphan = true → exec (.hostTransactionEnd g (.done rx)) s =
      .next ((ended (good idle) n false .ok (receivedAll c.plan rx) broken).choose g)) ∧
    (∀ rx, t.chain = true → t.orphan = false → c.claimEnded = false → e.state ≠ .retiring → exec (.hostTransactionEnd g (.done rx)) s =
      .next ((ended (good holding) n false .ok (receivedAll c.plan rx) broken).choose g)) ∧
    (∀ rx, t.chain = true → t.orphan = false → c.claimEnded = true ∨ e.state = .retiring → exec (.hostTransactionEnd g (.done rx)) s =
      .next ((ended (good idle) n true .ok (receivedAll c.plan rx) broken).choose g)) ∧
    (∀ k, (sends c.plan)[k]? = some .offset ∨ (sends c.plan)[k]? = some .data → exec (.hostTransactionEnd g (.nack k)) s =
      .next ((ended (good idle) k false .dataNack [] false).choose g)) ∧
    (∀ k, (sends c.plan)[k]? = some .addr → exec (.hostTransactionEnd g (.nack k)) s =
      .next ((ended bad k false .addrNack [] false).choose g))

/-- 02 R24 to R26, R33, R34, R36, R37, 01 R12: the address probe of a first admission: acknowledged, it leaves an entry of DMODE NONE PRESENT with the default descriptor,
and plans the SIZE read of one of DMODE FETCH; not acknowledged, the entry is VACANT with GEN one higher, with CLAIM_DROPPED to its holders and GONE to
its WAITER. The SOURCE has its result: an ADMIT is answered OK with the reference, or ADDR_NACK; a survey's requester is posted ADMITTED, or
ADMIT_FAILED; nobody where the port has been reset. The segment is IDLE with a stop sent, and the arbiter chooses.

02 R39, R40, 06 R126: the address probe of a re-admission: acknowledged, it leaves an entry of DMODE NONE PRESENT with REAPPEARED posted and its watch answered OK, and plans
the SIZE read of one of DMODE FETCH; not acknowledged, the entry is LOST again, and its watch is answered WATCH_EXPIRED where REMAINING is 0, or goes
on from a fresh interval. (The ends are written out in State.firstPresent, firstFailed, readmitted and lostAgain of Safety.) -/
def Obligations.AdmissionProbeEnds : Prop :=
  ∀ (s : State) (g : Seg) (c : Current) (h : Handle) (pl : Place) (a : AdmRec), OnBus s g c → c.kind = .admission →
    c.entry = some h → (s.seg g).pendcmd = none → (s.entry h).state = .probing → (s.entry h).place = some pl → (s.entry h).adm = some a →
    a.step = .probe → a.planned = .active →
    let e := s.entry h
    let idle := s.setSeg g { s.seg g with state := .idle, current := none, lines := .stop }
    (∀ rx, pl.dmode = .fetch → 1 ≤ e.inflight →
      exec (.admissionTransferEnd g (.done rx)) s = .next ((idle.setEntry h { e with
        adm := some { a with step := .sizeRead, planned := .waiting } }).choose g)) ∧
    (a.kind = .first →
      (∀ rx, pl.dmode = .none → exec (.admissionTransferEnd g (.done rx)) s = .next ((idle.firstPresent h e a {} .none).choose g)) ∧
      (∀ k, (sends c.plan)[k]? = some .addr →
        exec (.admissionTransferEnd g (.nack k)) s = .next ((idle.firstFailed h e a pl .addrNack).choose g))) ∧
    (a.kind = .re → (∀ w ∈ e.watch, w.probe = .none) →
      (∀ rx, pl.dmode = .none → exec (.admissionTransferEnd g (.done rx)) s = .next ((idle.readmitted h e e.desc .none).choose g)) ∧
      (∀ k, (sends c.plan)[k]? = some .addr → exec (.admissionTransferEnd g (.nack k)) s = .next ((idle.lostAgain h e).choose g)))

/-- 02 R25, R29, R33: the SIZE read of an admission ends OK. SIZE 2 to 18 is kept and plans the body read; SIZE 1 ends the admission at once with every default, DSRC PARTIAL;
SIZE 0 and 19 to 255 end it with every default, DSRC DEFAULTED.

02 R26, R28, R29: a SIZE or body read with a byte that is not acknowledged, whichever it is, ends the admission with every default, DSRC DEFAULTED. (The reads that end
CLOCK_TIMEOUT, ARB_LOST or BUS_BUSY, and those that are planned again, are in BusFaultsEndBackgroundWork.)

02 R33, R37, R40, R41: a first admission ends so with its entry PRESENT and its result given to the SOURCE; a re-admission with REAPPEARED or REPLACED, by the identity that
the defaults give. The segment is IDLE with a stop sent, and the arbiter chooses. (A byte that the event does not give reads FFH: PRESUMED, log entry
6.) -/
def Obligations.DescriptorReadsGoOnOrDefault : Prop :=
  ∀ (s : State) (g : Seg) (c : Current) (h : Handle) (pl : Place) (a : AdmRec), OnBus s g c → c.kind = .admission → c.entry = some h →
    (s.seg g).pendcmd = none → (s.entry h).state = .probing → (s.entry h).place = some pl → pl.dmode = .fetch → (s.entry h).adm = some a →
    a.planned = .active → (∀ w ∈ (s.entry h).watch, w.probe = .none) →
    let e := s.entry h
    let idle := s.setSeg g { s.seg g with state := .idle, current := none, lines := .stop }
    let ends (src : DSrc) : State := match a.kind with
      | .first => idle.firstPresent h e a {} src
      | .re => idle.readmitted h e {} src
    (a.step = .sizeRead → recvs c.plan = 1 → ∀ rx,
      let size := (receivedAll c.plan rx).getD 0 0
      (2 ≤ size.toNat → size.toNat ≤ 18 → 1 ≤ e.inflight → exec (.admissionTransferEnd g (.done rx)) s = .next ((idle.setEntry h { e with
        adm := some { a with step := .bodyRead, size := some size, planned := .waiting } }).choose g)) ∧
      (size.toNat = 1 → exec (.admissionTransferEnd g (.done rx)) s = .next ((ends .short).choose g)) ∧
      (size.toNat = 0 ∨ 19 ≤ size.toNat → exec (.admissionTransferEnd g (.done rx)) s = .next ((ends .defaulted).choose g))) ∧
    (a.step ≠ .probe → ∀ k, k < (sends c.plan).length →
      exec (.admissionTransferEnd g (.nack k)) s = .next ((ends .defaulted).choose g))

/-- 02 R27 to R29, R33, R37: the body read of a first admission ends OK: the entry is PRESENT, DESC takes the fields that lie below SIZE, multi-byte ones least
significant byte first, with defaults for the others and for an OFFSETW, MAXBURST or ATTNMASK out of its values; DSRC is FETCHED for a
whole descriptor with nothing replaced, else PARTIAL. The SOURCE has its result: an ADMIT is answered OK, with DESC_DEFAULTED for PARTIAL; a survey's requester is
posted ADMITTED. The arbiter chooses. (MAKER at SIZE 6 is the model's choice: log entry 24. A byte that the event does not give reads FFH:
PRESUMED, log entry 6.) -/
def Obligations.DescriptorRead : Prop :=
  ∀ (s : State) (g : Seg) (c : Current) (h : Handle) (pl : Place) (source : AdmSource) (body : Option (List Byte)) (size : Byte) (rx : List Byte),
    OnBus s g c → c.kind = .admission → c.entry = some h → (s.seg g).pendcmd = none → (s.entry h).state = .probing →
    (s.entry h).place = some pl → 2 ≤ size.toNat → size.toNat ≤ 18 →
    let a : AdmRec := ⟨.first, .bodyRead, source, some size, body, .active⟩
    (s.entry h).adm = some a →
    let n := size.toNat
    let b (i : Nat) : Byte := (receivedAll c.plan rx).getD (i - 1) 0
    ∃ (d : Desc) (src : DSrc),
      exec (.admissionTransferEnd g (.done rx)) s = .next (((s.setSeg g { s.seg g with
        state := .idle, current := none, lines := .stop }).firstPresent h (s.entry h) a d src).choose g) ∧
      d.layout = b 1 ∧ d.cls = (if 3 ≤ n then b 2 else 0) ∧ d.maker = (if 5 ≤ n then b 4 ++ b 3 else 0) ∧
      d.model = (if 7 ≤ n then b 6 ++ b 5 else 0) ∧ d.serial = (if 11 ≤ n then (b 10 ++ b 9) ++ (b 8 ++ b 7) else 0) ∧
      d.offsetw = (if 12 ≤ n ∧ (b 11).toNat ≤ 2 then (b 11).toNat else 1) ∧
      d.maxburst = (if 13 ≤ n ∧ 1 ≤ (b 12).toNat ∧ (b 12).toNat ≤ 32 then (b 12).toNat else 8) ∧
      d.caps = (if 14 ≤ n then b 13 &&& 0x03 else 0) ∧ d.statusoff = (if 15 ≤ n then b 14 else 0) ∧
      d.attnmask = (if 16 ≤ n ∧ b 15 ≠ 0 then b 15 else 0xFF) ∧
      d.settletime = (if 18 ≤ n then (b 17).toNat * 256 + (b 16).toNat else 0) ∧
      src = (if n = 18 ∧ (b 11).toNat ≤ 2 ∧ 1 ≤ (b 12).toNat ∧ (b 12).toNat ≤ 32 ∧ b 15 ≠ 0 then .fetched else .short)

/-- 02 R30, R40, R41, 06 R126: the body read of a re-admission ends OK: where the new identity equals the old one the entry is PRESENT again with the new DESC, and REAPPEARED is
posted; where it differs GEN is one higher, the claims are gone with CLAIM_DROPPED under the old reference, the WAITER is answered GONE, and REPLACED is
posted under the new reference with the old GEN. A watch is answered then and removed: OK, with HOW REAPPEARED, or REPLACED, with the new
reference and the old GEN. The arbiter chooses. (The two ends are written out in State.readmitted of Safety. At SIZE 6 the identity
compared has the MAKER that was read, which is the model's choice: log entry 24. A byte that the event does not give reads FFH: PRESUMED, log entry
6.) -/
def Obligations.ReadmissionEnds : Prop :=
  ∀ (s : State) (g : Seg) (c : Current) (h : Handle) (pl : Place) (source : AdmSource) (body : Option (List Byte)) (size : Byte) (rx : List Byte),
    OnBus s g c → c.kind = .admission → c.entry = some h → (s.seg g).pendcmd = none → (s.entry h).state = .probing →
    (s.entry h).place = some pl → pl.dmode = .fetch → (∀ w ∈ (s.entry h).watch, w.probe = .none) →
    (s.entry h).adm = some ⟨.re, .bodyRead, source, some size, body, .active⟩ →
    let idle := s.setSeg g { s.seg g with state := .idle, current := none, lines := .stop }
    let new := readDesc size (receivedAll c.plan rx)
    exec (.admissionTransferEnd g (.done rx)) s = .next ((idle.readmitted h (s.entry h) new.1 new.2).choose g)

/-! ## Health and watches -/

/-- 06 R123, R127, R128: WATCH of a PRESENT entry is answered OK at once with HOW PRESENT; of a SUSPECT or LOST one without a WATCH, on a segment not OFF, it leaves a WATCH with a
fresh interval and gives no response; SEGMENT_OFF, BUSY and NOT_READY change nothing.

06 R127, R128: WATCH_CANCEL removes the requester's watch, withdraws its probe if it is DUE, and places the watch's ABORTED answer before its own OK; NOT_FOUND where the
entry has no watch of the requester. Nothing else changes. -/
def Obligations.WatchBeginsAndIsCancelled : Prop :=
  (∀ (s : State) (p : Port) (t : Tag) (h : Handle) (pl : Place) (interval limit : Nat), Ready s p t → (s.entry h).place = some pl →
     1 ≤ interval → interval ≤ 255 → 1 ≤ limit → limit ≤ 255 →
     let e := s.entry h
     let ask : Instr := .watch p (byte t.val) [byte h.val, byte e.gen.val, byte interval, byte limit]
     (e.watch.isSome = true → e.state ≠ .vacant → e.state ≠ .retiring → exec ask s = .next ((s.accepted p t).respond p t .busy [])) ∧
     (e.watch = none →
       (e.state = .probing → exec ask s = .next ((s.accepted p t).respond p t .notReady [])) ∧
       (e.state = .present →
         exec ask s = .next ((s.accepted p t).respond p t .ok [byte h.val, byte e.gen.val, 0x02, 0x00, 0x00])) ∧
       (e.state = .suspect ∨ e.state = .lost →
         ((s.seg pl.seg).state = .off → exec ask s = .next ((s.accepted p t).respond p t .segmentOff [])) ∧
         ((s.seg pl.seg).state ≠ .off → exec ask s = .next ((s.accepted p t).setEntry h
           { e with watch := some ⟨p, t, interval, limit, interval, .none, 0⟩ }))))) ∧
  (∀ (s : State) (p : Port) (t : Tag) (h : Handle), Ready s p t → (s.entry h).state ≠ .vacant → (s.entry h).state ≠ .retiring →
     let e := s.entry h
     let ask : Instr := .watchCancel p (byte t.val) [byte h.val, byte e.gen.val]
     ((∀ w ∈ e.watch, w.port ≠ p) → exec ask s = .next ((s.accepted p t).respond p t .notFound [])) ∧
     (∀ w, e.watch = some w → w.port = p →
       exec ask s = .next ((((s.accepted p t).setEntry h
         { e with watch := none, inflight := if w.probe = .due then e.inflight - 1 else e.inflight }).respond p w.tag .aborted
           [byte h.val, byte e.gen.val, entryStateCode e.state, byte w.probes, 0x00]).respond p t .ok [])))

/-- 06 R124: the probe of a watch whose NEXTDUE stands at 0 becomes due, while PROBE is NONE and the entry is SUSPECT or LOST: PROBE is DUE, INFLIGHT rises by 1, and the
arbiter of the segment chooses. (A NEXTDUE that stands at 0 with PROBE NONE, and WATCH_PROBE_DUE as a command of its own, are the model's: log entry
2; a tick that brings NEXTDUE to 0 is in TicksBringAboutWhatIsDue.)

06 R125, R126, 02 R38: a probe of the watch on a LOST or SUSPECT entry ends on the bus: PROBES rises and REMAINING falls by 1. Acknowledged, it begins a re-admission of a
LOST entry with SOURCE WATCH, and makes a SUSPECT one PRESENT with the watch answered OK, RECOVERED (06 R119; that this probe is counted in
PROBES is DEDUCED: log entry 7). Not acknowledged, it is a failure report, and the watch goes on from a fresh interval, or is answered
WATCH_EXPIRED at its last probe. The arbiter chooses. -/
def Obligations.WatchProbesDueAndEnd : Prop :=
  (∀ (s : State) (h : Handle) (pl : Place) (w : Watch), (s.entry h).watch = some w → w.probe = .none → w.nextdue = 0 →
     (s.entry h).state = .suspect ∨ (s.entry h).state = .lost → (s.entry h).place = some pl →
     exec (.watchProbeDue h) s = .next ((s.setEntry h { s.entry h with
       watch := some { w with probe := .due }, inflight := (s.entry h).inflight + 1 }).choose pl.seg)) ∧
  (∀ (s : State) (g : Seg) (c : Current) (h : Handle) (w : Watch), OnBus s g c → c.kind = .watch → c.entry = some h →
     (s.seg g).pendcmd = none → (s.entry h).watch = some w → w.probe = .active → 1 ≤ (s.entry h).inflight →
     let e := s.entry h
     let idle := s.setSeg g { s.seg g with state := .idle, current := none, lines := .stop }
     let counted := { w with probe := .none, probes := w.probes + 1, remaining := w.remaining - 1 }
     let answer (u : State) (st : Status) (code aux : Byte) : State :=
       u.respond w.port w.tag st [byte h.val, byte e.gen.val, code, byte (w.probes + 1), aux]
     (e.state = .lost → ∀ rx, exec (.watchProbeEnd g (.done rx)) s = .next ((idle.setEntry h { e with
       state := .probing, fails := 0, watch := some counted, adm := some ⟨.re, .probe, .watch, none, none, .waiting⟩ }).choose g)) ∧
     (e.state = .suspect → ∀ rx, exec (.watchProbeEnd g (.done rx)) s = .next ((answer ((idle.setEntry h { e with
       state := .present, fails := 0, watch := none, inflight := e.inflight - 1 }).postWhere (fun q => (e.subs q).health) .health
         (.entry h e.gen) 0x02) .ok 0x02 0x01).choose g)) ∧
     (e.state = .lost ∨ e.state = .suspect → ∀ k, (sends c.plan)[k]? = some .addr →
       let v := idle.failureReport h
       (w.remaining = 1 → exec (.watchProbeEnd g (.nack k)) s = .next ((answer (v.setEntry h { v.entry h with
         watch := none, inflight := e.inflight - 1 }) .watchExpired (entryStateCode (v.entry h).state) 0x00).choose g)) ∧
       (2 ≤ w.remaining → exec (.watchProbeEnd g (.nack k)) s = .next ((v.setEntry h { v.entry h with
         watch := some { counted with nextdue := w.interval }, inflight := e.inflight - 1 }).choose g))))

/-- 06 R118, R119: a failure report counts one more failure of a PRESENT or SUSPECT entry, which is SUSPECT below the threshold and LOST with FAILS 0 at it, with a HEALTH notice
of each new state; a success report makes a SUSPECT entry PRESENT with FAILS 0 and its HEALTH notice, and answers its watch OK, RECOVERED. Other
entries, and the other states, take no notice of reports.

06 R127: so it is where the success is that of other work: a probe of the watch that is DUE is withdrawn, and INFLIGHT falls by 1; one that is ACTIVE is not cut,
and stays counted. -/
def Obligations.ReportsMoveHealth : Prop :=
  ∀ (s : State) (h : Handle),
    let e := s.entry h
    let moved (st : EntryState) (n : Nat) : State := s.setEntry h { e with state := st, fails := n }
    let noticed (u : State) (st : EntryState) : State :=
      u.postWhere (fun q => (e.subs q).health) .health (.entry h e.gen) (entryStateCode st)
    (e.state = .present ∨ e.state = .suspect →
      (s.threshold ≤ e.fails + 1 → s.failureReport h = noticed (moved .lost 0) .lost) ∧
      (e.fails + 1 < s.threshold → e.state = .present → s.failureReport h = noticed (moved .suspect (e.fails + 1)) .suspect) ∧
      (e.fails + 1 < s.threshold → e.state = .suspect → s.failureReport h = moved .suspect (e.fails + 1))) ∧
    (e.state = .suspect → e.watch = none → s.successReport h = noticed (moved .present 0) .present) ∧
    (∀ w, e.state = .suspect → e.watch = some w →
      s.successReport h = ((noticed (moved .present 0) .present).setEntry h
        { e with state := .present, fails := 0, watch := none, inflight := if w.probe = .due then e.inflight - 1 else e.inflight }).respond w.port w.tag .ok
          [byte h.val, byte e.gen.val, 0x02, byte w.probes, 0x01]) ∧
    (e.state ≠ .suspect → s.successReport h = s) ∧
    (e.state ≠ .present → e.state ≠ .suspect → s.failureReport h = s)

/-- 06 R121, R118, R120: SET_LIMITS sets the threshold, makes every SUSPECT entry whose FAILS is at or above it LOST with FAILS 0, with HEALTH, LOST posted for each in
ascending handle order to the ports subscribed to it, and is answered OK with the value before and after. Stated where no sweep runs; nothing else
changes. -/
def Obligations.SetLimitsApplies : Prop :=
  ∀ (s : State) (p : Port) (t : Tag) (n : Nat), Ready s p t → 1 ≤ n → n ≤ 7 → (∀ g, (s.seg g).sweep.state ≠ .sweeping) →
    let falls (h : Handle) : Prop := (s.entry h).state = .suspect ∧ n ≤ (s.entry h).fails
    ∃ u, exec (.setLimits p (byte t.val) [byte n]) s = .next u ∧ u.threshold = n ∧ (∀ g, u.seg g = s.seg g) ∧
      (∀ h, (falls h → u.entry h = { s.entry h with state := .lost, fails := 0 }) ∧ (¬falls h → u.entry h = s.entry h)) ∧
      (∀ q, ∃ l : List Handle, l.Pairwise (· < ·) ∧ (∀ h, h ∈ l ↔ falls h ∧ ((s.entry h).subs q).health = true) ∧
        let noticed := l.foldl (fun r h => r.offer .health (.entry h (s.entry h).gen) 0x04) ((s.accepted p t).port q)
        u.port q = if q = p then { noticed with respq := noticed.respq ++ [⟨t, .ok, false, false, [byte s.threshold, byte n]⟩] } else noticed)

/-! ## Surveys -/

/-- 07 R131, R132: SURVEY of a range on a segment neither OFF nor STUCK, with no survey running there, leaves a cursor at LOW with every count 0, and the arbiter chooses;
BUSY carries the running survey's port and NEXT. A refusal creates no cursor.

07 R138, R139: SURVEY_ABORT, from either port, removes the cursor and answers the survey ABORTED with its segment, range, NEXT and counts, before its own OK; NOT_FOUND where no
survey runs. Nothing else changes. -/
def Obligations.SurveyBeginsAndIsAborted : Prop :=
  (∀ (s : State) (p : Port) (t : Tag) (g : Seg) (low high : Nat), Ready s p t → 8 ≤ low → low ≤ high → high ≤ 119 →
     let ask : Instr := .survey p (byte t.val) [byte g.val, byte low, byte high]
     ((s.seg g).state = .off → exec ask s = .next ((s.accepted p t).respond p t .segmentOff [])) ∧
     ((s.seg g).state = .stuck → exec ask s = .next ((s.accepted p t).respond p t .busStuck [])) ∧
     ((s.seg g).state ≠ .off → (s.seg g).state ≠ .stuck →
       (∀ c, (s.seg g).survey = some c →
         exec ask s = .next ((s.accepted p t).respond p t .busy [portCode c.port, byte c.next])) ∧
       ((s.seg g).survey = none →
         exec ask s = .next (((s.accepted p t).setSeg g { s.seg g with survey := (some
           { port := p, tag := t, low := low, high := high, next := low, probe := .waiting, named := none, found := 0, reappeared := 0,
             missing := 0, full := 0, fullPosted := false }) }).choose g)))) ∧
  (∀ (s : State) (p : Port) (t : Tag) (g : Seg), Ready s p t →
     ((s.seg g).survey = none →
       exec (.surveyAbort p (byte t.val) [byte g.val]) s = .next ((s.accepted p t).respond p t .notFound [])) ∧
     (∀ c, (s.seg g).survey = some c →
       exec (.surveyAbort p (byte t.val) [byte g.val]) s =
         .next ((((s.accepted p t).setSeg g { s.seg g with survey := none }).respond c.port c.tag .aborted
           [byte g.val, byte c.low, byte c.high, byte c.next, byte c.found, byte c.reappeared, byte c.missing, byte c.full]).respond
             p t .ok [])))

/-- 07 R133, R135, 02 R37: a survey's probe of an unlisted address ends: acknowledged, the VACANT entry of lowest handle is taken, with ORIGIN SURVEY and DMODE FETCH, and NEW
rises; with no entry VACANT, FULL rises, and DIRECTORY_FULL is posted to the requester once; not acknowledged, nothing is counted.

07 R133, R136: a probe of a listed address ends: a PRESENT or SUSPECT entry has its report, and MISSING rises where it did not acknowledge; a LOST one that did is
re-admitted with SOURCE survey-reappearance, and REAPPEARED rises; any other listed entry counts nothing. INFLIGHT of NAMED falls by 1, which may complete a retire (01 R15).

07 R134, R135: a probe granted for an unlisted address whose place an ADMIT has taken meanwhile, so that a PROBING or RETIRING entry is listed at its end, counts
nothing and gives no report.

07 R133, R138: the walk goes on at the next address; after the last one the survey is answered OK with its counts and removed. The arbiter chooses. -/
def Obligations.SurveyProbeEnds : Prop :=
  ∀ (s : State) (g : Seg) (c : Current) (cu : Cursor), OnBus s g c → c.kind = .survey → (s.seg g).pendcmd = none →
    (s.seg g).survey = some cu → cu.probe = .active → cu.next ≤ cu.high →
    let r := { s.seg g with state := .idle, current := none, lines := .stop }
    let walked (u : State) (found reappeared missing full : Nat) (posted : Bool) : State :=
      if cu.next < cu.high then u.setSeg g { r with survey := some { cu with
        next := cu.next + 1, named := none, probe := .waiting, found := found, reappeared := reappeared, missing := missing, full := full
        fullPosted := posted } }
      else (u.setSeg g { r with survey := none }).respond cu.port cu.tag .ok [byte g.val, byte cu.low, byte cu.high, byte (cu.next + 1),
        byte found, byte reappeared, byte missing, byte full]
    (c.entry = none → (∀ h, (s.entry h).at g .seven cu.next = false) →
      (∀ rx h, (s.entry h).state = .vacant → (∀ k, k < h → (s.entry k).state ≠ .vacant) →
        exec (.surveyProbeEnd g (.done rx)) s =
          .next (((walked s (cu.found + 1) cu.reappeared cu.missing cu.full cu.fullPosted).setEntry h { Entry.vacant (s.entry h).gen with
            state := .probing, place := some ⟨g, .seven, cu.next, .survey, .fetch⟩, inflight := 1
            adm := some ⟨.first, .probe, .survey (some cu.port), none, none, .waiting⟩ }).choose g)) ∧
      (∀ rx, (∀ h, (s.entry h).state ≠ .vacant) →
        let full := walked s cu.found cu.reappeared cu.missing (cu.full + 1) true
        (cu.fullPosted = false → exec (.surveyProbeEnd g (.done rx)) s =
          .next ((full.post cu.port .directoryFull (.segment g) (byte cu.next)).choose g)) ∧
        (cu.fullPosted = true → exec (.surveyProbeEnd g (.done rx)) s = .next (full.choose g))) ∧
      (∀ k, (sends c.plan)[k]? = some .addr → exec (.surveyProbeEnd g (.nack k)) s =
        .next ((walked s cu.found cu.reappeared cu.missing cu.full cu.fullPosted).choose g))) ∧
    (c.entry = none → (∃ h, (s.entry h).at g .seven cu.next = true) →
      (∀ h, (s.entry h).at g .seven cu.next = true → (s.entry h).state = .probing ∨ (s.entry h).state = .retiring) →
      let plain := walked s cu.found cu.reappeared cu.missing cu.full cu.fullPosted
      (∀ rx, exec (.surveyProbeEnd g (.done rx)) s = .next (plain.choose g)) ∧
      (∀ k, (sends c.plan)[k]? = some .addr → exec (.surveyProbeEnd g (.nack k)) s = .next (plain.choose g))) ∧
    (∀ h, c.entry = some h → (s.entry h).at g .seven cu.next = true → s.IndexOk → (s.entry h).EndsOk →
      let e := s.entry h
      let plain := walked (s.workEnds h) cu.found cu.reappeared cu.missing cu.full cu.fullPosted
      (e.state = .present ∨ e.state = .suspect →
        (∀ rx, exec (.surveyProbeEnd g (.done rx)) s =
          .next ((walked ((s.successReport h).workEnds h) cu.found cu.reappeared cu.missing cu.full cu.fullPosted).choose g)) ∧
        (∀ k, (sends c.plan)[k]? = some .addr → exec (.surveyProbeEnd g (.nack k)) s =
          .next ((walked ((s.failureReport h).workEnds h) cu.found cu.reappeared (cu.missing + 1) cu.full cu.fullPosted).choose g))) ∧
      (e.state = .lost →
        (∀ rx, exec (.surveyProbeEnd g (.done rx)) s =
          .next (((walked s cu.found (cu.reappeared + 1) cu.missing cu.full cu.fullPosted).setEntry h { e with
            state := .probing, fails := 0, adm := some ⟨.re, .probe, .surveyReappear, none, none, .waiting⟩
            watch := e.watch.map (fun w => if w.probe = .due then { w with probe := .none } else w)
            inflight := if e.watchDue then e.inflight - 1 else e.inflight }).choose g)) ∧
        (∀ k, (sends c.plan)[k]? = some .addr → exec (.surveyProbeEnd g (.nack k)) s = .next (plain.choose g))) ∧
      (e.state = .probing ∨ e.state = .retiring →
        (∀ rx, exec (.surveyProbeEnd g (.done rx)) s = .next (plain.choose g)) ∧
        (∀ k, (sends c.plan)[k]? = some .addr → exec (.surveyProbeEnd g (.nack k)) s = .next (plain.choose g))))

/-- 01 R14, 06 R127, R129, 07 R139, R140: a transfer on the bus whose admission a RETIRE has ended, whose watch is gone, or whose survey is gone ends with its report
alone, stated by ReportsMoveHealth: success for OK and DATA_NACK, failure for ADDR_NACK and CLOCK_TIMEOUT, none for ARB_LOST and BUS_BUSY. No re-admission begins,
no entry is taken, nothing is counted, and a watch or a survey begun since stays as it is, but for the report. A survey probe with no NAMED ends so without a
report.

01 R11, R12, R15: INFLIGHT falls by 1, and the last work of a RETIRING entry completes its retire: the entry is VACANT with GEN one higher, and the RETIRE is answered
OK (log entry 15). After a CLOCK_TIMEOUT the segment is RECOVERING; else the arbiter chooses.

04 R75, R89: a SEGMENT_RESET that cuts such a transfer, or a failed recovery within it, plans nothing again: the work ends in the same way, without a report.
Stated for entries without host transactions there, and not under first admission where the segment goes STUCK. -/
def Obligations.TransfersOfEndedWorkReportAlone : Prop :=
  (∀ (s : State) (g : Seg) (c : Current) (h : Handle), OnBus s g c → c.entry = some h → (s.seg g).pendcmd = none →
     (s.entry h).EndsOk → WorkGone s g c (s.entry h) →
     let idle := s.setSeg g { s.seg g with state := .idle, current := none, lines := .stop }
     let ends (e : TransferEnd) (u : State) : Prop := exec (c.kind.ends g e) s = .next ((u.workEnds h).choose g)
     (∀ rx, ends (.done rx) (idle.successReport h)) ∧
     (∀ k, (sends c.plan)[k]? = some .offset ∨ (sends c.plan)[k]? = some .data → ends (.nack k) (idle.successReport h)) ∧
     (∀ k, (sends c.plan)[k]? = some .addr → ends (.nack k) (idle.failureReport h)) ∧
     FaultsEnd s g c (fun st u => (if st = .clockTimeout then u.failureReport h else u).workEnds h)) ∧
  (∀ (s : State) (g : Seg) (c : Current), OnBus s g c → c.entry = none → c.kind = .survey → (s.seg g).pendcmd = none →
     (∀ cu ∈ (s.seg g).survey, cu.probe ≠ .active) →
     let idle := s.setSeg g { s.seg g with state := .idle, current := none, lines := .stop }
     (∀ rx, exec (.surveyProbeEnd g (.done rx)) s = .next (idle.choose g)) ∧
     (∀ k, k < (sends c.plan).length → exec (.surveyProbeEnd g (.nack k)) s = .next (idle.choose g)) ∧
     FaultsEnd s g c (fun _ u => u)) ∧
  (∀ (s : State) (g : Seg) (c : Current) (h : Handle), (s.seg g).state = .active → (s.seg g).current = some c → (s.seg g).hold = none →
     c.entry = some h → (s.seg g).pendcmd = none → (s.entry h).EndsOk → WorkGone s g c (s.entry h) → (∀ t ∈ (s.seg g).hostq, t.handle ≠ h) →
     let gone (u : State) : Prop := u.entry h = (s.workEnds h).entry h ∧
       ((s.entry h).state = .retiring → (s.entry h).inflight ≤ 1 → ∀ q, ∀ x ∈ ownerAnswers q .ok [] (s.entry h).retire, x ∈ u.answers q)
     (∀ p t pr, Ready s p t → ∃ u, exec (.segmentReset p (byte t.val) [byte g.val] pr) s = .next u ∧ gone u) ∧
     (c.recovering = true → ¬(s.entry h).firstOn g → ∃ u, exec (.recoveryEnd g (List.replicate 10 .dataLow)) s = .next u ∧ gone u))

/-! ## Segments -/

/-- 04 R71, 11 R180: SEGMENT_SETUP replaces all eight settings of an OFF segment at once and is answered OK with them; in any other state it is BUSY, and a segment
above 5 or a setting outside its range is BAD_PARAM: then no setting changes.

04 R72, 08 R142: SEGMENT_ENABLE makes an OFF segment IDLE with NEXTCLASS HOST, starts a sweep if its input is asserted and followed and the unit IDLE, and is answered OK; then
the arbiter chooses. In any other state it is answered OK and changes nothing.

04 R77, 11 R179, R181: SEGMENT_STATUS is answered OK in every state with the report of 28 bytes: STATE, PENDING, the number of transactions in HOSTQ, CURKIND and its entry;
HOLDPORT, HOLDENTRY, HOLDLEFT; the admission transfers and watch probes that wait; PORT, NEXT, HIGH and the four counts of the survey; SWSTATE and
CURSOR; NEXTCLASS and the eight settings. Nothing else changes. -/
def Obligations.SegmentCommandsAnswered : Prop :=
  (∀ (s : State) (p : Port) (t : Tag) (g : Seg) (c : Settings), Ready s p t → 1 ≤ c.clklow → c.clklow ≤ 255 → 1 ≤ c.busywait →
     c.busywait ≤ 255 → c.arbretry ≤ 3 → 1 ≤ c.holdlimit → c.holdlimit ≤ 255 → c.rearm ≤ 255 →
     let settings : List Byte := [speedCode c.speed, byte c.clklow, byte c.busywait, byte c.arbretry, byte c.holdlimit, c.descoff,
       byte (bit c.attnen), byte c.rearm]
     (∀ params : List Byte, params.length ≤ 40 → (Instr.segmentSetup p (byte t.val) params).wf = false →
       exec (.segmentSetup p (byte t.val) params) s = .next ((s.accepted p t).respond p t .badParam [])) ∧
     ((s.seg g).state = .off → exec (.segmentSetup p (byte t.val) (byte g.val :: settings)) s =
       .next (((s.accepted p t).setSeg g { s.seg g with config := c }).respond p t .ok settings)) ∧
     ((s.seg g).state ≠ .off → exec (.segmentSetup p (byte t.val) (byte g.val :: settings)) s =
       .next ((s.accepted p t).respond p t .busy []))) ∧
  (∀ (s : State) (p : Port) (t : Tag) (g : Seg), Ready s p t →
     ((s.seg g).state = .off → exec (.segmentEnable p (byte t.val) [byte g.val]) s =
       .next ((((s.accepted p t).setSeg g { s.seg g with
         state := .idle, nextclass := .host
         sweep := if (s.seg g).config.attnen = true ∧ (s.seg g).sattn = true ∧ (s.seg g).sweep.state = .idle
           then ⟨.sweeping, some 0, 0, 0, 0⟩ else (s.seg g).sweep }).respond p t .ok []).choose g)) ∧
     ((s.seg g).state ≠ .off → exec (.segmentEnable p (byte t.val) [byte g.val]) s = .next ((s.accepted p t).respond p t .ok []))) ∧
  (∀ (s : State) (p : Port) (t : Tag) (g : Seg), Ready s p t →
     let r := s.seg g
     ∃ bytes, exec (.segmentStatus p (byte t.val) [byte g.val]) s = .next ((s.accepted p t).respond p t .ok bytes) ∧ bytes.length = 28 ∧
       bytes.take 3 = [segStateCode r.state, pendingCode r.pendcmd, byte r.hostq.length] ∧
       (bytes.drop 3).take 2 = [curKindCode (r.current.map Current.kind), (r.current.bind Current.entry).elim 0xFF (fun h => byte h.val)] ∧
       (bytes.drop 5).take 3 = r.hold.elim [0xFF, 0xFF, 0x00] (fun ho => [portCode ho.port, byte ho.entry.val, byte ho.left]) ∧
       (bytes.drop 8).take 2 = [byte ((List.finRange 48).countP (fun h => (s.entry h).onSeg g && (s.entry h).admWaiting)),
         byte ((List.finRange 48).countP (fun h => (s.entry h).onSeg g && (s.entry h).watchDue))] ∧
       (bytes.drop 10).take 7 = r.survey.elim [0xFF, 0, 0, 0, 0, 0, 0] (fun c => [portCode c.port, byte c.next, byte c.high, byte c.found,
         byte c.reappeared, byte c.missing, byte c.full]) ∧
       (bytes.drop 17).take 2 = [swStateCode r.sweep.state, r.sweep.cursor.elim 0xFF byte] ∧
       bytes.drop 19 = [nextClassCode r.nextclass, speedCode r.config.speed, byte r.config.clklow, byte r.config.busywait,
         byte r.config.arbretry, byte r.config.holdlimit, r.config.descoff, byte (bit r.config.attnen), byte r.config.rearm])

/-- 04 R73, 05 R112: SEGMENT_DISABLE is BUSY while a command is pending, OK on an OFF segment, and waits as PENDCMD while a transfer is on the bus. Any other segment goes OFF at
once with its sweep ended, and then the DISABLE is answered OK: with nothing to end, nothing else changes; a hold ends with CHAINBRK.

04 R73, 02 R35, R42, 05 R112, 06 R127, 07 R138: going OFF, whatever the segment has: its queued transactions, its survey and its watches are answered SEGMENT_OFF; first
admissions end with their entries VACANT and their SOURCE told, an ADMIT by SEGMENT_OFF, a survey's requester by ADMIT_FAILED; re-admissions end with their
entries LOST; due probes and planned transfers are withdrawn; a hold sets CHAINBRK; the requester's OK is the last answer. Every entry not RETIRING keeps the
rest. (Where no watch and no first admission is on the segment and no entry is RETIRING, the answers' order is stated too. The order of effects on
several entries is open: log entry 5. How a hold leaves the lines is the operand of log entry 13.) -/
def Obligations.DisableTurnsOffAtOnceOrLater : Prop :=
  (∀ (s : State) (p : Port) (t : Tag) (g : Seg) (clockHigh : Bool), Ready s p t →
     let ask : Instr := .segmentDisable p (byte t.val) [byte g.val] clockHigh
     let off : Segment := { s.seg g with
       state := .off, current := none, hold := none, hostq := [], survey := none
       sweep := { (s.seg g).sweep with state := .idle, cursor := none, rearmleft := 0 } }
     ((s.seg g).pendcmd.isSome = true → exec ask s = .next ((s.accepted p t).respond p t .busy [])) ∧
     ((s.seg g).pendcmd = none →
       ((s.seg g).state = .off → exec ask s = .next ((s.accepted p t).respond p t .ok [])) ∧
       ((s.seg g).state = .active →
         exec ask s = .next ((s.accepted p t).setSeg g { s.seg g with pendcmd := some ⟨.disable, some (p, t)⟩ })) ∧
       ((s.seg g).state ≠ .off → (s.seg g).state ≠ .active →
         exec ask s = .next ((s.accepted p t).goOff g clockHigh (some (p, t)))) ∧
       ((s.seg g).hostq = [] → (s.seg g).survey = none → s.calmOn g →
         ((s.seg g).state = .idle ∨ (s.seg g).state = .stuck → (s.seg g).hold = none →
           exec ask s = .next (((s.accepted p t).setSeg g off).respond p t .ok [])) ∧
         (∀ q h left, (s.seg g).state = .held → (s.seg g).hold = some ⟨q, h, left⟩ →
           exec ask s = .next ((((s.accepted p t).setSeg g { off with lines := if clockHigh then .stop else .released }).setEntry h
             ((s.entry h).setChain q true)).respond p t .ok []))))) ∧
  (∀ (s : State) (g : Seg) (clockHigh : Bool) (owner : Option (Port × Tag)),
     let u := s.goOff g clockHigh owner
     OffAs s u g clockHigh ∧ (∀ q, ∀ x ∈ ownerAnswers q .ok [] owner, (u.answers q).getLast? = some x) ∧
     ((∀ h, (s.entry h).state ≠ .retiring ∧ ¬(s.entry h).firstOn g) → (∀ h, (s.entry h).onSeg g = true → (s.entry h).watch = none) →
       ∀ q, u.answers q = s.answers q ++ queueAnswers q .segmentOff (s.seg g).hostq ++ surveyAnswers q .segmentOff g (s.seg g).survey ++
         ownerAnswers q .ok [] owner))

/-- 04 R74: a transfer that ends while a DISABLE is pending is applied first; then the segment goes OFF and the DISABLE is answered, as DisableTurnsOffAtOnceOrLater states for
State.goOff. A host transaction ends with its report, its counts and its settle load as usual: OK, where a chained one does not hold but sends a stop and sets
CHAINBRK; DATA_NACK or ADDR_NACK; CLOCK_TIMEOUT, with the lines released and no recovery; BUS_STUCK, after a failed recovery within the transfer, with no
SEGMENT_STUCK. The acknowledged address probe of an admission of DMODE FETCH plans its SIZE read, and the admission is then ended with the segment.

The plain events do the same as DISABLE_COMPLETE while a DISABLE is pending (log entry 2). (05 R108: a chained transaction whose port has been reset sets no CHAINBRK here either,
which is the model's choice: log entry 25. The last work of a RETIRING entry completes its retire first: 01 R15, log entry 15. A byte that the event does not
give reads FFH: PRESUMED, log entry 6.) -/
def Obligations.TransfersEndBeforeDisable : Prop :=
  (∀ (s : State) (g : Seg) (c : Current) (pre : List HostTx) (t : HostTx) (post : List HostTx) (owner : Option (Port × Tag)),
     HostOnBus s g c pre t post → (s.seg g).pendcmd = some ⟨.disable, owner⟩ → (s.entry t.handle).EndsOk →
     let e := s.entry t.handle
     let n := (sends c.plan).length
     let left (lines : LineEnd) : State := s.setSeg g { s.seg g with current := none, hostq := pre ++ post, lines := lines }
     let off (v : State) (k : Nat) (chained : Bool) (st : Status) (br : Bool) (result : List Byte) : State :=
       (((v.setEntry t.handle { (v.entry t.handle).setChain t.port chained with
         settle := if writePhaseDone c.plan k then e.desc.settletime else e.settle }).give t
           ⟨t.tag, st, e.chain t.port || br, false, result⟩).workEnds t.handle).goOff g true owner
     let good : State := (left .stop).successReport t.handle
     let bad (lines : LineEnd) : State := (left lines).failureReport t.handle
     (∀ rx, exec (.disableComplete g (.ended (.done rx))) s = .next (off good n (t.chain && !t.orphan) .ok (c.followOn && 0 < c.lost)
       (txResult t.kind (writtenOf c.plan n) (receivedAll c.plan rx)))) ∧
     (∀ k, (sends c.plan)[k]? = some .offset ∨ (sends c.plan)[k]? = some .data → exec (.disableComplete g (.ended (.nack k))) s =
       .next (off good k false .dataNack false (txResult t.kind (writtenOf c.plan k) []))) ∧
     (∀ k, (sends c.plan)[k]? = some .addr → exec (.disableComplete g (.ended (.nack k))) s =
       .next (off (bad .stop) k false .addrNack false (txResult t.kind (writtenOf c.plan k) []))) ∧
     (∀ k (rx : List Byte), k ≤ n → rx.length ≤ recvs c.plan → (rx = [] ∨ k = n) →
       exec (.disableComplete g (.clockTimeout ⟨k, rx⟩)) s =
         .next (off (bad .released) k false .clockTimeout false (txResult t.kind (writtenOf c.plan k) rx))) ∧
     (c.acked = 0 → ∀ obs : List LineObs,
       obs = List.replicate 10 .dataLow ∨ (∃ k rest, k ≤ 9 ∧ obs = List.replicate k .dataLow ++ .clockLow :: rest) →
       exec (.disableComplete g (.recovery obs)) (s.setSeg g { s.seg g with current := some { c with recovering := true } }) =
         .next (off (left .released) 0 false .busStuck false (txResult t.kind 0 [])))) ∧
  (∀ (s : State) (g : Seg) (c : Current) (h : Handle) (pl : Place) (a : AdmRec) (owner : Option (Port × Tag)) (rx : List Byte),
     OnBus s g c → c.kind = .admission → c.entry = some h → (s.seg g).pendcmd = some ⟨.disable, owner⟩ → (s.entry h).state = .probing →
     (s.entry h).place = some pl → pl.dmode = .fetch → (s.entry h).adm = some a → a.step = .probe → a.planned = .active →
     1 ≤ (s.entry h).inflight →
     exec (.disableComplete g (.ended (.done rx))) s = .next (((s.setSeg g { s.seg g with current := none, lines := .stop }).setEntry h
       { s.entry h with adm := some { a with step := .sizeRead, planned := .waiting } }).goOff g true owner)) ∧
  (∀ (s : State) (g : Seg) (c : Current) (owner : Option (Port × Tag)), (s.seg g).state = .active → (s.seg g).current = some c →
     (s.seg g).pendcmd = some ⟨.disable, owner⟩ →
     (c.kind = .host → ∀ e, exec (.hostTransactionEnd g e) s = exec (.disableComplete g (.ended e)) s) ∧
     (∀ pr, exec (.clockTimeout g pr) s = exec (.disableComplete g (.clockTimeout pr)) s ∧
       exec (.arbLost g pr) s = exec (.disableComplete g (.arbLost pr)) s) ∧
     (∀ obs, exec (.recoveryEnd g obs) s = exec (.disableComplete g (.recovery obs)) s) ∧
     exec (.busBusy g false) s = exec (.disableComplete g .busBusy) s)

/-- 04 R75, 08 R150: SEGMENT_RESET is SEGMENT_OFF on an OFF segment and BUSY while a command is pending. Else the segment is RECOVERING with the reset pending: no transfer on
the bus, an empty HOSTQ, no survey, no hold, NEXTCLASS HOST, and a sweep only where its input is asserted and followed. The settings and the other
segments stay.

04 R75, 05 R102, R112, 07 R139: a host transaction cut on the bus is answered ABORTED with its counts, then those that wait SEGMENT_RESET, then the survey ABORTED, stated where no
entry is RETIRING; a hold that ends sets CHAINBRK. (How far the transfer had come is the command's operand: log entry 6.) -/
def Obligations.ResetEmptiesSegment : Prop :=
  ∀ (s : State) (p : Port) (t : Tag) (g : Seg) (pr : Progress), Ready s p t →
    let ask : Instr := .segmentReset p (byte t.val) [byte g.val] pr
    ((s.seg g).state = .off → exec ask s = .next ((s.accepted p t).respond p t .segmentOff [])) ∧
    ((s.seg g).state ≠ .off → (s.seg g).pendcmd.isSome = true → exec ask s = .next ((s.accepted p t).respond p t .busy [])) ∧
    ((s.seg g).state ≠ .off → (s.seg g).pendcmd = none →
      ∃ u, exec ask s = .next u ∧
        (u.seg g).state = .recovering ∧ (u.seg g).pendcmd = some ⟨.reset, some (p, t)⟩ ∧ (u.seg g).current = none ∧
        (u.seg g).hostq = [] ∧ (u.seg g).survey = none ∧ (u.seg g).hold = none ∧ (u.seg g).nextclass = .host ∧
        (u.seg g).config = (s.seg g).config ∧ (u.seg g).lines = .released ∧
        ((u.seg g).sweep.state = .sweeping ↔ (s.seg g).config.attnen = true ∧ (s.seg g).sattn = true) ∧
        (∀ k, k ≠ g → u.seg k = s.seg k) ∧
        (∀ ho ∈ (s.seg g).hold, (u.entry ho.entry).chain ho.port = true) ∧
        ((∀ h, (s.entry h).state ≠ .retiring) → ∀ q,
          ((∀ c ∈ (s.seg g).current, c.kind ≠ .host) → u.answers q = s.answers q ++ queueAnswers q .segmentReset (s.seg g).hostq ++
            surveyAnswers q .aborted g (s.seg g).survey) ∧
          (∀ c pre x post, HostOnBus s g c pre x post → pr.acked ≤ (sends c.plan).length → pr.rx.length ≤ recvs c.plan →
            (pr.rx = [] ∨ pr.acked = (sends c.plan).length) →
            u.answers q = s.answers q ++
              (if x.port = q ∧ x.orphan = false then [(x.tag, .aborted, txResult x.kind (writtenOf c.plan pr.acked) pr.rx)] else []) ++
              queueAnswers q .segmentReset (pre ++ post) ++ surveyAnswers q .aborted g (s.seg g).survey)))

/-- 04 R76, R89: a RECOVERING segment looks at its lines: where the data line is high, at once or after at most nine pulses, the segment is IDLE with a stop sent, a pending reset is
answered OK with the state IDLE, and the arbiter chooses; where the clock line is held low, or the data line is still low after nine pulses, the
segment is STUCK, with all that StuckEndsTheWork states. -/
def Obligations.RecoveryEnds : Prop :=
  ∀ (s : State) (g : Seg), (s.seg g).state = .recovering →
    (∀ k rest, k ≤ 9 →
      ((s.seg g).pendcmd = none → exec (.recoveryEnd g (List.replicate k .dataLow ++ .dataHigh :: rest)) s =
        .next ((s.setSeg g { s.seg g with state := .idle, lines := .stop }).choose g)) ∧
      (∀ owner, (s.seg g).pendcmd = some ⟨.reset, owner⟩ →
        exec (.recoveryEnd g (List.replicate k .dataLow ++ .dataHigh :: rest)) s =
          .next (((s.setSeg g { s.seg g with state := .idle, pendcmd := none, lines := .stop }).respondTo owner .ok [0x01]).choose g))) ∧
    (∀ obs, obs = List.replicate 10 .dataLow ∨ (∃ k rest, k ≤ 9 ∧ obs = List.replicate k .dataLow ++ .clockLow :: rest) →
      ∃ u, exec (.recoveryEnd g obs) s = .next u ∧ (u.seg g).state = .stuck ∧ (u.seg g).hostq = [] ∧ (u.seg g).survey = none ∧
        (∀ k, k ≠ g → u.seg k = s.seg k))

/-- 04 R76, R89, R91, 02 R35, R42: a recovery that fails leaves its segment STUCK. After a CLOCK_TIMEOUT (DETAIL 0) or a SEGMENT_RESET (1): every queued transaction is answered
BUS_STUCK, oldest first, then the survey, then the pending reset, with the state STUCK; first admissions end and tell their SOURCE; SEGMENT_STUCK is
posted. Every other entry keeps what it had, re-admissions and watches among them, but for the work that has ended. The order and what is kept are stated
where no entry is RETIRING and none is under first admission there.

04 R85, R89: a recovery within a transfer that succeeds sends a stop and lets the transfer go on; one that fails ends the transfer BUS_STUCK first, whatever its kind, and then leaves the segment
STUCK in the same way (DETAIL 2); a host transaction is then the first to be answered. -/
def Obligations.StuckEndsTheWork : Prop :=
  ∀ (s : State) (g : Seg) (obs : List LineObs),
    obs = List.replicate 10 .dataLow ∨ (∃ k rest, k ≤ 9 ∧ obs = List.replicate k .dataLow ++ .clockLow :: rest) →
    let r := s.seg g
    let alone : Prop := ∀ h, (s.entry h).state ≠ .retiring ∧ ¬(s.entry h).firstOn g
    (∀ owner, r.state = .recovering → r.current = none → r.pendcmd = none ∨ r.pendcmd = some ⟨.reset, owner⟩ →
      ∃ u, exec (.recoveryEnd g obs) s = .next u ∧ StuckAs s u g (if r.pendcmd = none then 0x00 else 0x01) ∧
        (r.pendcmd ≠ none → ∀ q, ∀ x ∈ ownerAnswers q .busStuck [0x05] owner, (u.answers q).getLast? = some x) ∧
        (alone →
          (∀ q, u.answers q = s.answers q ++ queueAnswers q .busStuck r.hostq ++ surveyAnswers q .busStuck g r.survey ++
            (if r.pendcmd = none then [] else ownerAnswers q .busStuck [0x05] owner)) ∧
          ∀ h, u.entry h = (s.entry h).without h r.hostq)) ∧
    (∀ c, r.state = .active → r.current = some c → c.recovering = true → r.hold = none → c.acked = 0 → c.rx = [] →
      (∀ k rest, k ≤ 9 → exec (.recoveryEnd g (List.replicate k .dataLow ++ .dataHigh :: rest)) s =
        .next (s.setSeg g { r with current := some { c with recovering := false }, lines := .stop })) ∧
      (r.pendcmd = none →
        ∃ u, exec (.recoveryEnd g obs) s = .next u ∧ StuckAs s u g 0x02 ∧
          (alone → ∀ pre t post, c.kind = .host → r.hostq = pre ++ t :: post → (∀ x ∈ pre, x.active = false) → t.active = true →
            (∀ q, u.answers q = s.answers q ++ queueAnswers q .busStuck (t :: (pre ++ post)) ++ surveyAnswers q .busStuck g r.survey) ∧
            ∀ h, u.entry h = (s.entry h).without h r.hostq)))

/-! ## Attention inputs -/

/-- 08 R142, R148, R149: an asserted input starts a sweep of an IDLE unit that follows it, on a segment neither OFF nor STUCK, with CURSOR, HITS, READS and REARMLEFT 0, and the arbiter
chooses; a deasserted one re-arms a DISARMED unit, and leaves a sweep to run on.

08 R142, R148: when the re-arm interval of a DISARMED unit has run out the unit re-arms; where its input is still asserted and followed, and the segment is not STUCK, a new sweep
starts in the same step, and the arbiter chooses. (A REARMLEFT that stands at 0 there, and REARM_EXPIRY as a command of its own, are the model's:
log entry 2; a tick that brings it to 0 is in TicksBringAboutWhatIsDue.) -/
def Obligations.InputStartsSweepsAndUnitsRearm : Prop :=
  (∀ (s : State) (g : Seg),
     ((s.seg g).config.attnen = true → (s.seg g).state ≠ .off → (s.seg g).state ≠ .stuck → (s.seg g).sweep.state = .idle →
       exec (.attentionAsserted g) s =
         .next ((s.setSeg g { s.seg g with sattn := true, sweep := ⟨.sweeping, some 0, 0, 0, 0⟩ }).choose g)) ∧
     (((s.seg g).config.attnen = false ∨ (s.seg g).state = .off ∨ (s.seg g).state = .stuck ∨ (s.seg g).sweep.state ≠ .idle) →
       exec (.attentionAsserted g) s = .next ((s.setSeg g { s.seg g with sattn := true }).choose g)) ∧
     exec (.attentionDeasserted g) s = .next (s.setSeg g { s.seg g with
       sattn := false
       sweep := if (s.seg g).sweep.state = .disarmed then { (s.seg g).sweep with state := .idle, rearmleft := 0 } else (s.seg g).sweep })) ∧
  (∀ (s : State) (g : Seg), (s.seg g).sweep.state = .disarmed → (s.seg g).sweep.rearmleft = 0 → 1 ≤ (s.seg g).config.rearm →
     exec (.rearmExpiry g) s = .next ((s.setSeg g { s.seg g with sweep :=
       if (s.seg g).config.attnen = true ∧ (s.seg g).state ≠ .off ∧ (s.seg g).state ≠ .stuck ∧ (s.seg g).sattn = true
       then ⟨.sweeping, some 0, 0, 0, 0⟩ else { (s.seg g).sweep with state := .idle, rearmleft := 0 } }).choose g))

/-- 08 R145, R146: a sweep read ends, whatever its entry has become: READS rises, CURSOR moves past the entry, INFLIGHT falls, and the entry has its report, stated by
ReportsMoveHealth: success for OK and DATA_NACK, failure for ADDR_NACK and CLOCK_TIMEOUT, none for ARB_LOST and BUS_BUSY. Only a byte read OK that
has a bit in common with ATTNMASK, of an entry not RETIRING, makes HITS rise, with ATTENTION, and the byte, posted to the ports subscribed to it.
The last work of a RETIRING entry completes its retire (01 R15, 08 8.8; log entry 15). After a CLOCK_TIMEOUT the segment is RECOVERING; else the arbiter
chooses.

08 R143, R147: a sweep on an IDLE segment with no candidate left reaches its end: ORPHAN_ATTENTION, with READS, where HITS is 0, to the ports with ATTENTION in their mask for the
segment; CURSOR is absent, and the unit is DISARMED with REARMLEFT at REARM where the input is asserted, else IDLE. Then the arbiter chooses. (A
SWEEPING unit that stands with no candidate on an IDLE segment, and ARBITER_GRANT as a command on it, are the model's: log entry 2.) -/
def Obligations.SweepReadJudged : Prop :=
  (∀ (s : State) (g : Seg) (c : Current) (h : Handle), OnBus s g c → c.kind = .sweep → c.entry = some h →
     (s.seg g).pendcmd = none → (s.seg g).sweep.state = .sweeping → (s.entry h).EndsOk → recvs c.plan = 1 →
     let e := s.entry h
     let left (st : SegState) (lines : LineEnd) (hits : Nat) : State := s.setSeg g { s.seg g with
       state := st, current := none, lines := lines
       sweep := { (s.seg g).sweep with hits := hits, reads := (s.seg g).sweep.reads + 1, cursor := some (h.val + 1) } }
     let hits := (s.seg g).sweep.hits
     (∀ b : Byte,
       (b &&& e.desc.attnmask = 0 ∨ e.state = .retiring → exec (.sweepReadEnd g (.done [b])) s =
         .next ((((left .idle .stop hits).successReport h).workEnds h).choose g)) ∧
       (b &&& e.desc.attnmask ≠ 0 → e.state ≠ .retiring → exec (.sweepReadEnd g (.done [b])) s =
         .next (((((left .idle .stop (hits + 1)).successReport h).postWhere (fun q => (e.subs q).attention) .attention
           (.entry h e.gen) b).workEnds h).choose g))) ∧
     (∀ k, (sends c.plan)[k]? = some .offset ∨ (sends c.plan)[k]? = some .data → exec (.sweepReadEnd g (.nack k)) s =
       .next ((((left .idle .stop hits).successReport h).workEnds h).choose g)) ∧
     (∀ k, (sends c.plan)[k]? = some .addr → exec (.sweepReadEnd g (.nack k)) s =
       .next ((((left .idle .stop hits).failureReport h).workEnds h).choose g)) ∧
     (∀ pr, exec (.clockTimeout g pr) s = .next (((left .recovering .released hits).failureReport h).workEnds h)) ∧
     (∀ pr, pr.acked < (sends c.plan).length → (s.seg g).config.arbretry ≤ c.lost →
       exec (.arbLost g pr) s = .next (((left .idle .released hits).workEnds h).choose g)) ∧
     (c.restart = false → exec (.busBusy g false) s = .next (((left .idle .released hits).workEnds h).choose g))) ∧
  (∀ (s : State) (g : Seg), (s.seg g).state = .idle → (s.seg g).sweep.state = .sweeping → s.candidate g = none →
     let sw := (s.seg g).sweep
     let finished := s.setSeg g { s.seg g with sweep :=
       if (s.seg g).sattn = true then { sw with state := .disarmed, cursor := none, rearmleft := (s.seg g).config.rearm }
       else { sw with state := .idle, cursor := none, rearmleft := 0 } }
     (sw.hits = 0 → exec (.arbiterGrant g) s = .next ((finished.postWhere (fun q => (s.port q).segMasks[g.val].attention) .orphanAttention
       (.segment g) (byte sw.reads)).choose g)) ∧
     (sw.hits ≠ 0 → exec (.arbiterGrant g) s = .next (finished.choose g)))

end
end

