-- ==== Sys2Proof/Laws/Choice.lean ====
section
/-! SUPPORT. What the two choices from a list can give: the order in which the events of a tick are taken, and the oldest transaction of a queue
that may go. -/

namespace Sys2Proof.Machine

/-! ## The events of a tick (log entry 4) -/

theorem preferring_perm (first due : List Event) : (preferring first due).Perm due := List.perm_insertionSort _ _

theorem preferring_of_perm {first due : List Event} (hn : first.Nodup) (hp : due.Perm first) : preferring first due = first := by
  refine List.Perm.eq_of_pairwise (le := fun a b => first.idxOf a ≤ first.idxOf b) (fun a b ha hb h₁ h₂ => ?_)
    (List.pairwise_insertionSort _ _) ?_ ((preferring_perm first due).trans hp)
  · exact ((List.idxOf_inj hb).1 (Nat.le_antisymm h₂ h₁)).symm
  · rw [List.pairwise_iff_getElem]
    intro i j hi hj hij
    rw [hn.idxOf_getElem i hi, hn.idxOf_getElem j hj]
    exact hij.le

/-! ## The oldest transaction that a test picks out (04 R83, R84) -/

theorem firstTx_eq_none {f : HostTx → Bool} {i : Nat} {l : List HostTx} : firstTx f i l = none ↔ ∀ t ∈ l, f t = false := by
  induction l generalizing i with
  | nil => simp [firstTx]
  | cons t rest ih => cases h : f t <;> simp [firstTx, h, ih]

theorem firstTx_eq_some {f : HostTx → Bool} {i j : Nat} {l : List HostTx} {t : HostTx} : firstTx f i l = some (j, t) ↔
    ∃ pre post, l = pre ++ t :: post ∧ j = i + pre.length ∧ f t = true ∧ ∀ u ∈ pre, f u = false := by
  induction l generalizing i with
  | nil => simp [firstTx]
  | cons x rest ih =>
    cases h : f x with
    | true =>
      simp only [firstTx, h, if_true, Option.some.injEq, Prod.mk.injEq]
      constructor
      · rintro ⟨rfl, rfl⟩; exact ⟨[], rest, rfl, rfl, h, nofun⟩
      · rintro ⟨pre, post, hl, hj, -, hp⟩
        cases pre with
        | nil => cases hl; exact ⟨hj.symm, rfl⟩
        | cons y pre => cases hl; simp [h] at hp
    | false =>
      simp only [firstTx, h, Bool.false_eq_true, if_false, ih]
      constructor
      · rintro ⟨pre, post, rfl, rfl, ht, hp⟩
        exact ⟨x :: pre, post, rfl, by simp; omega, ht, by simpa [h] using hp⟩
      · rintro ⟨pre, post, hl, hj, ht, hp⟩
        cases pre with
        | nil => cases hl; simp [h] at ht
        | cons y pre =>
          cases hl
          exact ⟨pre, post, rfl, by simp at hj; omega, ht, fun u hu => hp u (.tail _ hu)⟩

end Sys2Proof.Machine
end

