-- ==== Sys2Proof/Laws/State.lean ====
section
/-! SUPPORT. One lemma for each field of State and each update of it: what reading an entry, a segment, a port or another field gives after
an entry, a segment, a port, every entry or every segment has been replaced. -/

namespace Sys2Proof.Machine

/-! ## After an entry is replaced -/

@[simp] theorem State.entry_setEntry_same (s : State) (h : Handle) (e : Entry) : (s.setEntry h e).entry h = e := by
  simp [State.entry, State.setEntry]

theorem State.entry_setEntry_ne (s : State) {h k : Handle} (e : Entry) (hk : k ≠ h) : (s.setEntry h e).entry k = s.entry k := by
  have : h.val ≠ k.val := fun hv => hk (Fin.ext hv.symm)
  simp [State.entry, State.setEntry, this]

theorem State.entry_setEntry (s : State) (h k : Handle) (e : Entry) :
    (s.setEntry h e).entry k = if k = h then e else s.entry k := by
  split
  · next hk => subst hk; simp
  · next hk => exact s.entry_setEntry_ne e hk

@[simp] theorem State.segs_setEntry (s : State) (h : Handle) (e : Entry) : (s.setEntry h e).segs = s.segs := rfl
@[simp] theorem State.portA_setEntry (s : State) (h : Handle) (e : Entry) : (s.setEntry h e).portA = s.portA := rfl
@[simp] theorem State.portB_setEntry (s : State) (h : Handle) (e : Entry) : (s.setEntry h e).portB = s.portB := rfl
@[simp] theorem State.threshold_setEntry (s : State) (h : Handle) (e : Entry) : (s.setEntry h e).threshold = s.threshold := rfl
@[simp] theorem State.races_setEntry (s : State) (h : Handle) (e : Entry) : (s.setEntry h e).races = s.races := rfl
@[simp] theorem State.pending_setEntry (s : State) (h : Handle) (e : Entry) : (s.setEntry h e).pending = s.pending := rfl
@[simp] theorem State.seg_setEntry (s : State) (h : Handle) (e : Entry) (g : Seg) : (s.setEntry h e).seg g = s.seg g := rfl
@[simp] theorem State.port_setEntry (s : State) (h : Handle) (e : Entry) (p : Port) : (s.setEntry h e).port p = s.port p := by
  cases p <;> rfl

/-! ## After an entry is changed -/

@[simp] theorem State.entry_modEntry_same (s : State) (h : Handle) (f : Entry → Entry) :
    (s.modEntry h f).entry h = f (s.entry h) := s.entry_setEntry_same h _

theorem State.entry_modEntry_ne (s : State) {h k : Handle} (f : Entry → Entry) (hk : k ≠ h) :
    (s.modEntry h f).entry k = s.entry k := s.entry_setEntry_ne _ hk

theorem State.entry_modEntry (s : State) (h k : Handle) (f : Entry → Entry) :
    (s.modEntry h f).entry k = if k = h then f (s.entry h) else s.entry k := s.entry_setEntry h k _

@[simp] theorem State.segs_modEntry (s : State) (h : Handle) (f : Entry → Entry) : (s.modEntry h f).segs = s.segs := rfl
@[simp] theorem State.portA_modEntry (s : State) (h : Handle) (f : Entry → Entry) : (s.modEntry h f).portA = s.portA := rfl
@[simp] theorem State.portB_modEntry (s : State) (h : Handle) (f : Entry → Entry) : (s.modEntry h f).portB = s.portB := rfl
@[simp] theorem State.threshold_modEntry (s : State) (h : Handle) (f : Entry → Entry) : (s.modEntry h f).threshold = s.threshold := rfl
@[simp] theorem State.races_modEntry (s : State) (h : Handle) (f : Entry → Entry) : (s.modEntry h f).races = s.races := rfl
@[simp] theorem State.pending_modEntry (s : State) (h : Handle) (f : Entry → Entry) : (s.modEntry h f).pending = s.pending := rfl
@[simp] theorem State.seg_modEntry (s : State) (h : Handle) (f : Entry → Entry) (g : Seg) : (s.modEntry h f).seg g = s.seg g := rfl
@[simp] theorem State.port_modEntry (s : State) (h : Handle) (f : Entry → Entry) (p : Port) : (s.modEntry h f).port p = s.port p := by
  cases p <;> rfl

/-! ## After every entry is changed -/

@[simp] theorem State.entry_mapEntries (s : State) (f : Entry → Entry) (h : Handle) : (s.mapEntries f).entry h = f (s.entry h) := by
  simp [State.entry, State.mapEntries]

@[simp] theorem State.segs_mapEntries (s : State) (f : Entry → Entry) : (s.mapEntries f).segs = s.segs := rfl
@[simp] theorem State.portA_mapEntries (s : State) (f : Entry → Entry) : (s.mapEntries f).portA = s.portA := rfl
@[simp] theorem State.portB_mapEntries (s : State) (f : Entry → Entry) : (s.mapEntries f).portB = s.portB := rfl
@[simp] theorem State.threshold_mapEntries (s : State) (f : Entry → Entry) : (s.mapEntries f).threshold = s.threshold := rfl
@[simp] theorem State.races_mapEntries (s : State) (f : Entry → Entry) : (s.mapEntries f).races = s.races := rfl
@[simp] theorem State.pending_mapEntries (s : State) (f : Entry → Entry) : (s.mapEntries f).pending = s.pending := rfl
@[simp] theorem State.seg_mapEntries (s : State) (f : Entry → Entry) (g : Seg) : (s.mapEntries f).seg g = s.seg g := rfl
@[simp] theorem State.port_mapEntries (s : State) (f : Entry → Entry) (p : Port) : (s.mapEntries f).port p = s.port p := by
  cases p <;> rfl

/-! ## After a segment is replaced -/

@[simp] theorem State.seg_setSeg_same (s : State) (g : Seg) (r : Segment) : (s.setSeg g r).seg g = r := by
  simp [State.seg, State.setSeg]

theorem State.seg_setSeg_ne (s : State) {g k : Seg} (r : Segment) (hk : k ≠ g) : (s.setSeg g r).seg k = s.seg k := by
  have : g.val ≠ k.val := fun hv => hk (Fin.ext hv.symm)
  simp [State.seg, State.setSeg, this]

theorem State.seg_setSeg (s : State) (g k : Seg) (r : Segment) : (s.setSeg g r).seg k = if k = g then r else s.seg k := by
  split
  · next hk => subst hk; simp
  · next hk => exact s.seg_setSeg_ne r hk

@[simp] theorem State.entries_setSeg (s : State) (g : Seg) (r : Segment) : (s.setSeg g r).entries = s.entries := rfl
@[simp] theorem State.portA_setSeg (s : State) (g : Seg) (r : Segment) : (s.setSeg g r).portA = s.portA := rfl
@[simp] theorem State.portB_setSeg (s : State) (g : Seg) (r : Segment) : (s.setSeg g r).portB = s.portB := rfl
@[simp] theorem State.threshold_setSeg (s : State) (g : Seg) (r : Segment) : (s.setSeg g r).threshold = s.threshold := rfl
@[simp] theorem State.races_setSeg (s : State) (g : Seg) (r : Segment) : (s.setSeg g r).races = s.races := rfl
@[simp] theorem State.pending_setSeg (s : State) (g : Seg) (r : Segment) : (s.setSeg g r).pending = s.pending := rfl
@[simp] theorem State.entry_setSeg (s : State) (g : Seg) (r : Segment) (h : Handle) : (s.setSeg g r).entry h = s.entry h := rfl
@[simp] theorem State.port_setSeg (s : State) (g : Seg) (r : Segment) (p : Port) : (s.setSeg g r).port p = s.port p := by
  cases p <;> rfl

/-! ## After a segment is changed -/

@[simp] theorem State.seg_modSeg_same (s : State) (g : Seg) (f : Segment → Segment) : (s.modSeg g f).seg g = f (s.seg g) :=
  s.seg_setSeg_same g _

theorem State.seg_modSeg_ne (s : State) {g k : Seg} (f : Segment → Segment) (hk : k ≠ g) : (s.modSeg g f).seg k = s.seg k :=
  s.seg_setSeg_ne _ hk

theorem State.seg_modSeg (s : State) (g k : Seg) (f : Segment → Segment) :
    (s.modSeg g f).seg k = if k = g then f (s.seg g) else s.seg k := s.seg_setSeg g k _

@[simp] theorem State.entries_modSeg (s : State) (g : Seg) (f : Segment → Segment) : (s.modSeg g f).entries = s.entries := rfl
@[simp] theorem State.portA_modSeg (s : State) (g : Seg) (f : Segment → Segment) : (s.modSeg g f).portA = s.portA := rfl
@[simp] theorem State.portB_modSeg (s : State) (g : Seg) (f : Segment → Segment) : (s.modSeg g f).portB = s.portB := rfl
@[simp] theorem State.threshold_modSeg (s : State) (g : Seg) (f : Segment → Segment) : (s.modSeg g f).threshold = s.threshold := rfl
@[simp] theorem State.races_modSeg (s : State) (g : Seg) (f : Segment → Segment) : (s.modSeg g f).races = s.races := rfl
@[simp] theorem State.pending_modSeg (s : State) (g : Seg) (f : Segment → Segment) : (s.modSeg g f).pending = s.pending := rfl
@[simp] theorem State.entry_modSeg (s : State) (g : Seg) (f : Segment → Segment) (h : Handle) : (s.modSeg g f).entry h = s.entry h := rfl
@[simp] theorem State.port_modSeg (s : State) (g : Seg) (f : Segment → Segment) (p : Port) : (s.modSeg g f).port p = s.port p := by
  cases p <;> rfl

/-! ## After every segment is changed -/

@[simp] theorem State.seg_mapSegs (s : State) (f : Segment → Segment) (g : Seg) : (s.mapSegs f).seg g = f (s.seg g) := by
  simp [State.seg, State.mapSegs]

@[simp] theorem State.entries_mapSegs (s : State) (f : Segment → Segment) : (s.mapSegs f).entries = s.entries := rfl
@[simp] theorem State.portA_mapSegs (s : State) (f : Segment → Segment) : (s.mapSegs f).portA = s.portA := rfl
@[simp] theorem State.portB_mapSegs (s : State) (f : Segment → Segment) : (s.mapSegs f).portB = s.portB := rfl
@[simp] theorem State.threshold_mapSegs (s : State) (f : Segment → Segment) : (s.mapSegs f).threshold = s.threshold := rfl
@[simp] theorem State.races_mapSegs (s : State) (f : Segment → Segment) : (s.mapSegs f).races = s.races := rfl
@[simp] theorem State.pending_mapSegs (s : State) (f : Segment → Segment) : (s.mapSegs f).pending = s.pending := rfl
@[simp] theorem State.entry_mapSegs (s : State) (f : Segment → Segment) (h : Handle) : (s.mapSegs f).entry h = s.entry h := rfl
@[simp] theorem State.port_mapSegs (s : State) (f : Segment → Segment) (p : Port) : (s.mapSegs f).port p = s.port p := by
  cases p <;> rfl

/-! ## After a port is replaced -/

@[simp] theorem State.port_setPort_same (s : State) (p : Port) (r : PortRec) : (s.setPort p r).port p = r := by
  cases p <;> rfl

theorem State.port_setPort_ne (s : State) {p q : Port} (r : PortRec) (h : q ≠ p) : (s.setPort p r).port q = s.port q := by
  cases p <;> cases q <;> first | rfl | exact absurd rfl h

@[simp] theorem State.port_setPort_other (s : State) (p : Port) (r : PortRec) : (s.setPort p r).port p.other = s.port p.other := by
  cases p <;> rfl

theorem State.port_setPort (s : State) (p q : Port) (r : PortRec) : (s.setPort p r).port q = if q = p then r else s.port q := by
  cases p <;> cases q <;> rfl

@[simp] theorem State.entries_setPort (s : State) (p : Port) (r : PortRec) : (s.setPort p r).entries = s.entries := by cases p <;> rfl
@[simp] theorem State.segs_setPort (s : State) (p : Port) (r : PortRec) : (s.setPort p r).segs = s.segs := by cases p <;> rfl
@[simp] theorem State.threshold_setPort (s : State) (p : Port) (r : PortRec) : (s.setPort p r).threshold = s.threshold := by
  cases p <;> rfl
@[simp] theorem State.races_setPort (s : State) (p : Port) (r : PortRec) : (s.setPort p r).races = s.races := by cases p <;> rfl
@[simp] theorem State.pending_setPort (s : State) (p : Port) (r : PortRec) : (s.setPort p r).pending = s.pending := by cases p <;> rfl
@[simp] theorem State.entry_setPort (s : State) (p : Port) (r : PortRec) (h : Handle) : (s.setPort p r).entry h = s.entry h := by
  cases p <;> rfl
@[simp] theorem State.seg_setPort (s : State) (p : Port) (r : PortRec) (g : Seg) : (s.setPort p r).seg g = s.seg g := by
  cases p <;> rfl

/-! ## After a port is changed -/

@[simp] theorem State.port_modPort_same (s : State) (p : Port) (f : PortRec → PortRec) : (s.modPort p f).port p = f (s.port p) :=
  s.port_setPort_same p _

@[simp] theorem State.port_modPort_other (s : State) (p : Port) (f : PortRec → PortRec) :
    (s.modPort p f).port p.other = s.port p.other := s.port_setPort_other p _

theorem State.port_modPort_ne (s : State) {p q : Port} (f : PortRec → PortRec) (h : q ≠ p) : (s.modPort p f).port q = s.port q :=
  s.port_setPort_ne _ h

theorem State.port_modPort (s : State) (p q : Port) (f : PortRec → PortRec) :
    (s.modPort p f).port q = if q = p then f (s.port p) else s.port q := s.port_setPort p q _

@[simp] theorem State.entries_modPort (s : State) (p : Port) (f : PortRec → PortRec) : (s.modPort p f).entries = s.entries :=
  s.entries_setPort p _
@[simp] theorem State.segs_modPort (s : State) (p : Port) (f : PortRec → PortRec) : (s.modPort p f).segs = s.segs := s.segs_setPort p _
@[simp] theorem State.threshold_modPort (s : State) (p : Port) (f : PortRec → PortRec) : (s.modPort p f).threshold = s.threshold :=
  s.threshold_setPort p _
@[simp] theorem State.races_modPort (s : State) (p : Port) (f : PortRec → PortRec) : (s.modPort p f).races = s.races :=
  s.races_setPort p _
@[simp] theorem State.pending_modPort (s : State) (p : Port) (f : PortRec → PortRec) : (s.modPort p f).pending = s.pending :=
  s.pending_setPort p _
@[simp] theorem State.entry_modPort (s : State) (p : Port) (f : PortRec → PortRec) (h : Handle) : (s.modPort p f).entry h = s.entry h :=
  s.entry_setPort p _ h
@[simp] theorem State.seg_modPort (s : State) (p : Port) (f : PortRec → PortRec) (g : Seg) : (s.modPort p f).seg g = s.seg g :=
  s.seg_setPort p _ g

/-! ## The fields of an entry that stand once for each port -/

@[simp] theorem Entry.holder_setHolder_same (e : Entry) (p : Port) (o : Option Holder) : (e.setHolder p o).holder p = o := by
  cases p <;> rfl
@[simp] theorem Entry.holder_setHolder_other (e : Entry) (p : Port) (o : Option Holder) :
    (e.setHolder p o).holder p.other = e.holder p.other := by
  cases p <;> rfl
@[simp] theorem Entry.subs_setSubs_same (e : Entry) (p : Port) (m : EntryMask) : (e.setSubs p m).subs p = m := by cases p <;> rfl
@[simp] theorem Entry.subs_setSubs_other (e : Entry) (p : Port) (m : EntryMask) : (e.setSubs p m).subs p.other = e.subs p.other := by
  cases p <;> rfl
@[simp] theorem Entry.chain_setChain_same (e : Entry) (p : Port) (b : Bool) : (e.setChain p b).chain p = b := by cases p <;> rfl
@[simp] theorem Entry.chain_setChain_other (e : Entry) (p : Port) (b : Bool) : (e.setChain p b).chain p.other = e.chain p.other := by
  cases p <;> rfl

@[simp] theorem Entry.gen_setHolder (e : Entry) (p : Port) (o : Option Holder) : (e.setHolder p o).gen = e.gen := by cases p <;> rfl
@[simp] theorem Entry.state_setHolder (e : Entry) (p : Port) (o : Option Holder) : (e.setHolder p o).state = e.state := by cases p <;> rfl
@[simp] theorem Entry.place_setHolder (e : Entry) (p : Port) (o : Option Holder) : (e.setHolder p o).place = e.place := by cases p <;> rfl
@[simp] theorem Entry.desc_setHolder (e : Entry) (p : Port) (o : Option Holder) : (e.setHolder p o).desc = e.desc := by cases p <;> rfl
@[simp] theorem Entry.dsrc_setHolder (e : Entry) (p : Port) (o : Option Holder) : (e.setHolder p o).dsrc = e.dsrc := by cases p <;> rfl
@[simp] theorem Entry.fails_setHolder (e : Entry) (p : Port) (o : Option Holder) : (e.setHolder p o).fails = e.fails := by cases p <;> rfl
@[simp] theorem Entry.claim_setHolder (e : Entry) (p : Port) (o : Option Holder) : (e.setHolder p o).claim = e.claim := by cases p <;> rfl
@[simp] theorem Entry.waiter_setHolder (e : Entry) (p : Port) (o : Option Holder) : (e.setHolder p o).waiter = e.waiter := by cases p <;> rfl
@[simp] theorem Entry.subs_setHolder (e : Entry) (p q : Port) (o : Option Holder) : (e.setHolder p o).subs q = e.subs q := by
  cases p <;> cases q <;> rfl
@[simp] theorem Entry.inflight_setHolder (e : Entry) (p : Port) (o : Option Holder) : (e.setHolder p o).inflight = e.inflight := by cases p <;> rfl
@[simp] theorem Entry.settle_setHolder (e : Entry) (p : Port) (o : Option Holder) : (e.setHolder p o).settle = e.settle := by cases p <;> rfl
@[simp] theorem Entry.watch_setHolder (e : Entry) (p : Port) (o : Option Holder) : (e.setHolder p o).watch = e.watch := by cases p <;> rfl
@[simp] theorem Entry.chain_setHolder (e : Entry) (p q : Port) (o : Option Holder) : (e.setHolder p o).chain q = e.chain q := by
  cases p <;> cases q <;> rfl
@[simp] theorem Entry.adm_setHolder (e : Entry) (p : Port) (o : Option Holder) : (e.setHolder p o).adm = e.adm := by cases p <;> rfl
@[simp] theorem Entry.retire_setHolder (e : Entry) (p : Port) (o : Option Holder) : (e.setHolder p o).retire = e.retire := by cases p <;> rfl
@[simp] theorem Entry.gen_setSubs (e : Entry) (p : Port) (m : EntryMask) : (e.setSubs p m).gen = e.gen := by cases p <;> rfl
@[simp] theorem Entry.state_setSubs (e : Entry) (p : Port) (m : EntryMask) : (e.setSubs p m).state = e.state := by cases p <;> rfl
@[simp] theorem Entry.place_setSubs (e : Entry) (p : Port) (m : EntryMask) : (e.setSubs p m).place = e.place := by cases p <;> rfl
@[simp] theorem Entry.desc_setSubs (e : Entry) (p : Port) (m : EntryMask) : (e.setSubs p m).desc = e.desc := by cases p <;> rfl
@[simp] theorem Entry.dsrc_setSubs (e : Entry) (p : Port) (m : EntryMask) : (e.setSubs p m).dsrc = e.dsrc := by cases p <;> rfl
@[simp] theorem Entry.fails_setSubs (e : Entry) (p : Port) (m : EntryMask) : (e.setSubs p m).fails = e.fails := by cases p <;> rfl
@[simp] theorem Entry.claim_setSubs (e : Entry) (p : Port) (m : EntryMask) : (e.setSubs p m).claim = e.claim := by cases p <;> rfl
@[simp] theorem Entry.holder_setSubs (e : Entry) (p q : Port) (m : EntryMask) : (e.setSubs p m).holder q = e.holder q := by
  cases p <;> cases q <;> rfl
@[simp] theorem Entry.waiter_setSubs (e : Entry) (p : Port) (m : EntryMask) : (e.setSubs p m).waiter = e.waiter := by cases p <;> rfl
@[simp] theorem Entry.inflight_setSubs (e : Entry) (p : Port) (m : EntryMask) : (e.setSubs p m).inflight = e.inflight := by cases p <;> rfl
@[simp] theorem Entry.settle_setSubs (e : Entry) (p : Port) (m : EntryMask) : (e.setSubs p m).settle = e.settle := by cases p <;> rfl
@[simp] theorem Entry.watch_setSubs (e : Entry) (p : Port) (m : EntryMask) : (e.setSubs p m).watch = e.watch := by cases p <;> rfl
@[simp] theorem Entry.chain_setSubs (e : Entry) (p q : Port) (m : EntryMask) : (e.setSubs p m).chain q = e.chain q := by
  cases p <;> cases q <;> rfl
@[simp] theorem Entry.adm_setSubs (e : Entry) (p : Port) (m : EntryMask) : (e.setSubs p m).adm = e.adm := by cases p <;> rfl
@[simp] theorem Entry.retire_setSubs (e : Entry) (p : Port) (m : EntryMask) : (e.setSubs p m).retire = e.retire := by cases p <;> rfl
@[simp] theorem Entry.gen_setChain (e : Entry) (p : Port) (b : Bool) : (e.setChain p b).gen = e.gen := by cases p <;> rfl
@[simp] theorem Entry.state_setChain (e : Entry) (p : Port) (b : Bool) : (e.setChain p b).state = e.state := by cases p <;> rfl
@[simp] theorem Entry.place_setChain (e : Entry) (p : Port) (b : Bool) : (e.setChain p b).place = e.place := by cases p <;> rfl
@[simp] theorem Entry.desc_setChain (e : Entry) (p : Port) (b : Bool) : (e.setChain p b).desc = e.desc := by cases p <;> rfl
@[simp] theorem Entry.dsrc_setChain (e : Entry) (p : Port) (b : Bool) : (e.setChain p b).dsrc = e.dsrc := by cases p <;> rfl
@[simp] theorem Entry.fails_setChain (e : Entry) (p : Port) (b : Bool) : (e.setChain p b).fails = e.fails := by cases p <;> rfl
@[simp] theorem Entry.claim_setChain (e : Entry) (p : Port) (b : Bool) : (e.setChain p b).claim = e.claim := by cases p <;> rfl
@[simp] theorem Entry.holder_setChain (e : Entry) (p q : Port) (b : Bool) : (e.setChain p b).holder q = e.holder q := by
  cases p <;> cases q <;> rfl
@[simp] theorem Entry.waiter_setChain (e : Entry) (p : Port) (b : Bool) : (e.setChain p b).waiter = e.waiter := by cases p <;> rfl
@[simp] theorem Entry.subs_setChain (e : Entry) (p q : Port) (b : Bool) : (e.setChain p b).subs q = e.subs q := by
  cases p <;> cases q <;> rfl
@[simp] theorem Entry.inflight_setChain (e : Entry) (p : Port) (b : Bool) : (e.setChain p b).inflight = e.inflight := by cases p <;> rfl
@[simp] theorem Entry.settle_setChain (e : Entry) (p : Port) (b : Bool) : (e.setChain p b).settle = e.settle := by cases p <;> rfl
@[simp] theorem Entry.watch_setChain (e : Entry) (p : Port) (b : Bool) : (e.setChain p b).watch = e.watch := by cases p <;> rfl
@[simp] theorem Entry.adm_setChain (e : Entry) (p : Port) (b : Bool) : (e.setChain p b).adm = e.adm := by cases p <;> rfl
@[simp] theorem Entry.retire_setChain (e : Entry) (p : Port) (b : Bool) : (e.setChain p b).retire = e.retire := by cases p <;> rfl

@[simp] theorem Port.other_other (p : Port) : p.other.other = p := by cases p <;> rfl
theorem Port.other_ne (p : Port) : p.other ≠ p := by cases p <;> decide
theorem Port.eq_or_other (p q : Port) : q = p ∨ q = p.other := by cases p <;> cases q <;> simp [Port.other]

/-! ## Handles and segments -/

@[simp] theorem mem_handles (h : Handle) : h ∈ handles := List.mem_finRange h
@[simp] theorem mem_segments (g : Seg) : g ∈ segments := List.mem_finRange g

end Sys2Proof.Machine
end

