-- ==== Sys2Proof/Laws/Updates.lean ====
section
/-! SUPPORT. One normal form for a state that has been updated: the segments first, then the entries, then the ports, each record replaced once. With these
lemmas two ways of making the same changes become the same term. -/

namespace Sys2Proof.Machine

/-! ## A record replaced twice, or by itself -/

@[simp] theorem State.setEntry_setEntry (s : State) (h : Handle) (e f : Entry) : (s.setEntry h e).setEntry h f = s.setEntry h f := by
  simp [State.setEntry]

@[simp] theorem State.setSeg_setSeg (s : State) (g : Seg) (r u : Segment) : (s.setSeg g r).setSeg g u = s.setSeg g u := by
  simp [State.setSeg]

@[simp] theorem State.setPort_setPort (s : State) (p : Port) (r u : PortRec) : (s.setPort p r).setPort p u = s.setPort p u := by
  cases p <;> rfl

@[simp] theorem State.setEntry_entry (s : State) (h : Handle) : s.setEntry h (s.entry h) = s := by
  simp [State.setEntry, State.entry]

@[simp] theorem State.setSeg_seg (s : State) (g : Seg) : s.setSeg g (s.seg g) = s := by
  simp [State.setSeg, State.seg]

@[simp] theorem State.setPort_port (s : State) (p : Port) : s.setPort p (s.port p) = s := by
  cases p <;> rfl

/-! ## Records of different kinds -/

@[simp] theorem State.setSeg_setEntry (s : State) (h : Handle) (e : Entry) (g : Seg) (r : Segment) :
    (s.setEntry h e).setSeg g r = (s.setSeg g r).setEntry h e := rfl

@[simp] theorem State.setSeg_setPort (s : State) (p : Port) (u : PortRec) (g : Seg) (r : Segment) :
    (s.setPort p u).setSeg g r = (s.setSeg g r).setPort p u := by
  cases p <;> rfl

@[simp] theorem State.setEntry_setPort (s : State) (p : Port) (u : PortRec) (h : Handle) (e : Entry) :
    (s.setPort p u).setEntry h e = (s.setEntry h e).setPort p u := by
  cases p <;> rfl

/-! ## The changing operations as replacements -/

theorem State.modEntry_eq (s : State) (h : Handle) (f : Entry → Entry) : s.modEntry h f = s.setEntry h (f (s.entry h)) := rfl
theorem State.modSeg_eq (s : State) (g : Seg) (f : Segment → Segment) : s.modSeg g f = s.setSeg g (f (s.seg g)) := rfl
theorem State.modPort_eq (s : State) (p : Port) (f : PortRec → PortRec) : s.modPort p f = s.setPort p (f (s.port p)) := rfl
theorem State.enqueue_eq (s : State) (p : Port) (r : Response) :
    s.enqueue p r = s.setPort p { s.port p with respq := (s.port p).respq ++ [r] } := rfl
theorem State.respond_eq (s : State) (p : Port) (t : Tag) (st : Status) (l : List Byte) :
    s.respond p t st l = s.setPort p { s.port p with respq := (s.port p).respq ++ [⟨t, st, false, false, l⟩] } := rfl

/-- Two states are equal when their entries, segments, ports and other fields are. -/
theorem State.ext_of {s t : State} (he : ∀ h, s.entry h = t.entry h) (hg : ∀ g, s.seg g = t.seg g) (hp : ∀ p, s.port p = t.port p)
    (hn : s.threshold = t.threshold) (hr : s.races = t.races) (hq : s.pending = t.pending) : s = t := by
  obtain ⟨e, g, a, b, n, r, q⟩ := s
  obtain ⟨e', g', a', b', n', r', q'⟩ := t
  have h₁ : e = e' := Vector.ext fun i hi => he ⟨i, hi⟩
  have h₂ : g = g' := Vector.ext fun i hi => hg ⟨i, hi⟩
  have h₃ : a = a' := hp .A
  have h₄ : b = b' := hp .B
  cases h₁; cases h₂; cases h₃; cases h₄; cases hn; cases hr; cases hq
  rfl

/-- A notice posted nowhere changes nothing. -/
theorem State.postWhere_none (s : State) {who : Port → Bool} (k : NoticeKind) (sub : Subject) (d : Byte) (h : ∀ p, who p = false) :
    s.postWhere who k sub d = s := by
  simp [State.postWhere, h]

/-! ## Posting -/

@[simp] theorem State.entry_post (s : State) (p : Port) (k : NoticeKind) (sub : Subject) (d : Byte) (h : Handle) :
    (s.post p k sub d).entry h = s.entry h := by
  simp [State.post]
@[simp] theorem State.seg_post (s : State) (p : Port) (k : NoticeKind) (sub : Subject) (d : Byte) (g : Seg) :
    (s.post p k sub d).seg g = s.seg g := by
  simp [State.post]
@[simp] theorem State.threshold_post (s : State) (p : Port) (k : NoticeKind) (sub : Subject) (d : Byte) :
    (s.post p k sub d).threshold = s.threshold := by
  simp [State.post]
@[simp] theorem State.entry_postWhere (s : State) (who : Port → Bool) (k : NoticeKind) (sub : Subject) (d : Byte) (h : Handle) :
    (s.postWhere who k sub d).entry h = s.entry h := by
  unfold State.postWhere; cases who .A <;> cases who .B <;> simp
@[simp] theorem State.seg_postWhere (s : State) (who : Port → Bool) (k : NoticeKind) (sub : Subject) (d : Byte) (g : Seg) :
    (s.postWhere who k sub d).seg g = s.seg g := by
  unfold State.postWhere; cases who .A <;> cases who .B <;> simp
@[simp] theorem State.threshold_postWhere (s : State) (who : Port → Bool) (k : NoticeKind) (sub : Subject) (d : Byte) :
    (s.postWhere who k sub d).threshold = s.threshold := by
  unfold State.postWhere; cases who .A <;> cases who .B <;> simp
@[simp] theorem State.setEntry_post (s : State) (p : Port) (k : NoticeKind) (sub : Subject) (d : Byte) (h : Handle) (e : Entry) :
    (s.post p k sub d).setEntry h e = (s.setEntry h e).post p k sub d := by
  simp [State.post, State.modPort_eq]
@[simp] theorem State.setSeg_post (s : State) (p : Port) (k : NoticeKind) (sub : Subject) (d : Byte) (g : Seg) (r : Segment) :
    (s.post p k sub d).setSeg g r = (s.setSeg g r).post p k sub d := by
  simp [State.post, State.modPort_eq]
@[simp] theorem State.setEntry_postWhere (s : State) (who : Port → Bool) (k : NoticeKind) (sub : Subject) (d : Byte) (h : Handle)
    (e : Entry) : (s.postWhere who k sub d).setEntry h e = (s.setEntry h e).postWhere who k sub d := by
  unfold State.postWhere; cases who .A <;> cases who .B <;> simp
@[simp] theorem State.setSeg_postWhere (s : State) (who : Port → Bool) (k : NoticeKind) (sub : Subject) (d : Byte) (g : Seg)
    (r : Segment) : (s.postWhere who k sub d).setSeg g r = (s.setSeg g r).postWhere who k sub d := by
  unfold State.postWhere; cases who .A <;> cases who .B <;> simp

end Sys2Proof.Machine
end

