-- ==== Sys2Proof/Laws/Ends.lean ====
section
/-! SUPPORT. The answers in which the ends of works are stated leave entries and segments alone, and go with their updates; how they stand to
the operations that give them. -/

namespace Sys2Proof.Machine

/-! ## Responses -/

@[simp] theorem State.entry_respondTo (s : State) (o : Option (Port × Tag)) (st : Status) (l : List Byte) (h : Handle) :
    (s.respondTo o st l).entry h = s.entry h := by
  rcases o with _ | ⟨p, t⟩ <;> simp [State.respondTo, State.respond_eq]

@[simp] theorem State.seg_respondTo (s : State) (o : Option (Port × Tag)) (st : Status) (l : List Byte) (g : Seg) :
    (s.respondTo o st l).seg g = s.seg g := by
  rcases o with _ | ⟨p, t⟩ <;> simp [State.respondTo, State.respond_eq]

@[simp] theorem State.setEntry_respondTo (s : State) (o : Option (Port × Tag)) (st : Status) (l : List Byte) (h : Handle) (e : Entry) :
    (s.respondTo o st l).setEntry h e = (s.setEntry h e).respondTo o st l := by
  rcases o with _ | ⟨p, t⟩ <;> simp [State.respondTo, State.respond_eq]

@[simp] theorem State.setSeg_respondTo (s : State) (o : Option (Port × Tag)) (st : Status) (l : List Byte) (g : Seg) (r : Segment) :
    (s.respondTo o st l).setSeg g r = (s.setSeg g r).respondTo o st l := by
  rcases o with _ | ⟨p, t⟩ <;> simp [State.respondTo, State.respond_eq]

/-! ## The response of a host transaction -/

@[simp] theorem State.entry_give (s : State) (t : HostTx) (r : Response) (h : Handle) : (s.give t r).entry h = s.entry h := by
  unfold State.give; split <;> simp [State.enqueue_eq]

@[simp] theorem State.seg_give (s : State) (t : HostTx) (r : Response) (g : Seg) : (s.give t r).seg g = s.seg g := by
  unfold State.give; split <;> simp [State.enqueue_eq]

@[simp] theorem State.setEntry_give (s : State) (t : HostTx) (r : Response) (h : Handle) (e : Entry) :
    (s.give t r).setEntry h e = (s.setEntry h e).give t r := by
  unfold State.give; split <;> simp [State.enqueue_eq]

@[simp] theorem State.setSeg_give (s : State) (t : HostTx) (r : Response) (g : Seg) (u : Segment) :
    (s.give t r).setSeg g u = (s.setSeg g u).give t r := by
  unfold State.give; split <;> simp [State.enqueue_eq]

/-- What the answer of a host transaction does: CHAINBRK is given and cleared, and the response placed or discarded (05 R102, R113). -/
theorem State.answerTx_eq (s : State) (t : HostTx) (st : Status) (n : Nat) (rx : List Byte) (b : Bool) :
    s.answerTx t st n rx b = (s.setEntry t.handle ((s.entry t.handle).setChain t.port false)).give t
      ⟨t.tag, st, (s.entry t.handle).chain t.port || b, false, txResult t.kind n rx⟩ := by
  unfold State.answerTx State.give
  split <;> simp [State.enqueue_eq, State.modEntry_eq]

/-! ## The SOURCE of a failed admission -/

/-- The SOURCE of an entry that has an admission and a place is told as the statements say (02 R34). -/
theorem State.tellFailure_eq (s : State) (a : AdmRec) (pl : Place) (st : Status) :
    s.tellFailure (some a) (some pl) st = s.sourceTold a pl st := by
  rcases a with ⟨_, _, source, _, _, _⟩
  rcases source with (_ | ⟨_, _⟩) | (_ | _) | _ | _ <;> rfl

@[simp] theorem State.entry_sourceTold (s : State) (a : AdmRec) (pl : Place) (st : Status) (h : Handle) :
    (s.sourceTold a pl st).entry h = s.entry h := by
  unfold State.sourceTold; split <;> simp [State.respond_eq]

@[simp] theorem State.seg_sourceTold (s : State) (a : AdmRec) (pl : Place) (st : Status) (g : Seg) :
    (s.sourceTold a pl st).seg g = s.seg g := by
  unfold State.sourceTold; split <;> simp [State.respond_eq]

/-! ## The watch of an entry -/

@[simp] theorem State.entry_watchTold (s : State) (h : Handle) (e : Entry) (gen : Gen) (st : Status) (code aux : Byte) (k : Handle) :
    (s.watchTold h e gen st code aux).entry k = s.entry k := by
  unfold State.watchTold; split <;> simp [State.respond_eq]

@[simp] theorem State.seg_watchTold (s : State) (h : Handle) (e : Entry) (gen : Gen) (st : Status) (code aux : Byte) (g : Seg) :
    (s.watchTold h e gen st code aux).seg g = s.seg g := by
  unfold State.watchTold; split <;> simp [State.respond_eq]

/-! ## The end of a work -/

/-- What the fall of INFLIGHT does, where the entry meets `Entry.EndsOk`: it is the end of a work in the statements' terms (01 R11, R15). -/
theorem State.fall_eq (s : State) (h : Handle) (ok : (s.entry h).EndsOk) : s.fall h = s.workEnds h := by
  by_cases hc : (s.entry h).state = .retiring ∧ (s.entry h).inflight ≤ 1
  · obtain ⟨h1, h2, h3, h4⟩ := ok hc.1 hc.2
    simp [State.fall, State.workEnds, Entry.lower, Entry.drained, State.modEntry_eq, State.completeRetire, State.enterVacant, State.dropClaims,
      State.postWhere, Entry.holder, h2, h3, h4, hc, Nat.sub_eq_zero_of_le hc.2]
  · have stays : (s.entry h).state = .retiring → ¬ (s.entry h).inflight - 1 = 0 := fun r z => hc ⟨r, by omega⟩
    have low : ((s.modEntry h Entry.lower).entry h).drained = false := by
      simpa [State.modEntry_eq, Entry.lower, Entry.drained] using stays
    simp only [State.workEnds, if_neg hc, State.fall, low]
    simp [State.modEntry_eq, Entry.lower]

/-- The entry that the end of a work leaves. -/
@[simp] theorem State.entry_workEnds_self (s : State) (h : Handle) : (s.workEnds h).entry h =
    if (s.entry h).state = .retiring ∧ (s.entry h).inflight ≤ 1 then Entry.vacant ((s.entry h).gen + 1)
    else { s.entry h with inflight := (s.entry h).inflight - 1 } := by
  by_cases hc : (s.entry h).state = .retiring ∧ (s.entry h).inflight ≤ 1 <;> simp [State.workEnds, hc]

@[simp] theorem State.entry_workEnds_of_ne (s : State) (h k : Handle) (ne : k ≠ h) : (s.workEnds h).entry k = s.entry k := by
  by_cases hc : (s.entry h).state = .retiring ∧ (s.entry h).inflight ≤ 1 <;> simp [State.workEnds, hc, State.entry_setEntry_ne, ne]

@[simp] theorem State.seg_workEnds (s : State) (h : Handle) (g : Seg) : (s.workEnds h).seg g = s.seg g := by
  by_cases hc : (s.entry h).state = .retiring ∧ (s.entry h).inflight ≤ 1 <;> simp [State.workEnds, hc]

@[simp] theorem State.setSeg_workEnds (s : State) (h : Handle) (g : Seg) (r : Segment) :
    (s.workEnds h).setSeg g r = (s.setSeg g r).workEnds h := by
  by_cases hc : (s.entry h).state = .retiring ∧ (s.entry h).inflight ≤ 1 <;> simp [State.workEnds, hc]

end Sys2Proof.Machine
end

