-- ==== Sys2Proof/Laws/Frames.lean ====
section
/-! SUPPORT. The check byte, request frames, and what a port makes of a request whose tag is FREE. -/

namespace Sys2Proof.Machine

/-! ## The check byte -/

theorem crcByte_self (c : Byte) : crcByte c c = 0 := by
  simp only [crcByte, BitVec.xor_self]
  decide

theorem crc8_append (l m : List Byte) : crc8 (l ++ m) = m.foldl crcByte (crc8 l) := by simp [crc8, List.foldl_append]

@[simp] theorem length_withCheck (l : List Byte) : (withCheck l).length = l.length + 1 := by simp [withCheck]

/-! ## Request frames -/

theorem length_requestFrame (tag code : Byte) (params : List Byte) : (requestFrame tag code params).length = 4 + params.length := by
  simp [requestFrame]; omega

@[simp] theorem toNat_byte (n : Nat) : (byte n).toNat = n % 256 := by simp [byte]

theorem freeTags_pos {pr : PortRec} {t : Tag} (h : pr.tags[t.val] = false) : pr.freeTags ≠ 0 := by
  have hm : false ∈ pr.tags.toList.filter (fun b => !b) := by
    rw [List.mem_filter]
    refine ⟨?_, rfl⟩
    rw [← h]
    simp
  exact fun h0 => List.ne_nil_of_mem hm (List.eq_nil_of_length_eq_zero h0)

/-- A whole frame of at most 40 parameter bytes that names a FREE tag passes every test (10 R165). -/
theorem judge_requestFrame (pr : PortRec) (t : Tag) (code : Byte) (params : List Byte) (hl : params.length ≤ 40)
    (hf : pr.tags[t.val] = false) :
    (pr.receive (requestFrame (byte t.val) code params)).judge = .ok t := by
  have ht : t.val % 256 = t.val := Nat.mod_eq_of_lt (by have := t.isLt; omega)
  have hlen : (4 + params.length) % 256 = 4 + params.length := Nat.mod_eq_of_lt (by omega)
  have hcut : (requestFrame (byte t.val) code params).take Config.frameBytes = requestFrame (byte t.val) code params :=
    List.take_of_length_le (by rw [length_requestFrame]; simp [Config.frameBytes]; omega)
  have hrec : min 255 (requestFrame (byte t.val) code params).length = 4 + params.length := by
    rw [length_requestFrame]; omega
  have hf' : pr.freeTags ≠ 0 := freeTags_pos hf
  simp only [PortRec.receive, hcut, hrec]
  unfold PortRec.judge
  simp only [requestFrame, withCheck, List.cons_append, toNat_byte, hlen, Config.frameBytes, List.getD_cons_zero, ht]
  have h1 : ¬(4 + params.length < 4 ∨ 44 < 4 + params.length) := by omega
  have hn : 4 + params.length - 1 = params.length + 1 + 1 + 1 := by omega
  have htag : t.val < 8 := t.isLt
  simp only [h1, if_false, Nat.lt_irrefl, htag, dif_pos]
  have hcrc : crc8 (List.take (4 + params.length - 1)
        (byte (4 + params.length) :: byte t.val :: code :: (params ++ [crc8 (byte (4 + params.length) :: byte t.val :: code :: params)]))) =
      (byte (4 + params.length) :: byte t.val :: code ::
        (params ++ [crc8 (byte (4 + params.length) :: byte t.val :: code :: params)])).getD (4 + params.length - 1) 0 := by
    rw [hn]
    simp
  have hfree : PortRec.isFree { pr with frame := byte (4 + params.length) :: byte t.val :: code ::
      (params ++ [crc8 (byte (4 + params.length) :: byte t.val :: code :: params)]), received := 4 + params.length } t = true := by
    simp [PortRec.isFree, hf]
  have hft : PortRec.freeTags { pr with frame := byte (4 + params.length) :: byte t.val :: code ::
      (params ++ [crc8 (byte (4 + params.length) :: byte t.val :: code :: params)]), received := 4 + params.length } ≠ 0 := by
    simpa [PortRec.freeTags] using hf'
  simp only [ne_eq, hcrc, not_true_eq_false, if_false, hft, hfree, if_true]

/-- A request whose tag is FREE reaches its block (10 R166). -/
theorem State.submit_ready {s : State} {p : Port} {t : Tag} {code : Byte} {params : List Byte} {body : Tag → State → State}
    (hr : Ready s p t) (hl : params.length ≤ 40) :
    s.submit p (byte t.val) code params body = body t (s.accepted p t) := by
  have hj := judge_requestFrame (s.port p) t code params hl hr.free
  simp only [State.submit, hr.submit, if_true, hj, State.accepted]
  congr 2

@[simp] theorem State.entry_accepted (s : State) (p : Port) (t : Tag) (h : Handle) : (s.accepted p t).entry h = s.entry h := by
  simp [State.accepted]
@[simp] theorem State.entries_accepted (s : State) (p : Port) (t : Tag) : (s.accepted p t).entries = s.entries := by
  simp [State.accepted]
@[simp] theorem State.seg_accepted (s : State) (p : Port) (t : Tag) (g : Seg) : (s.accepted p t).seg g = s.seg g := by
  simp [State.accepted]
@[simp] theorem State.segs_accepted (s : State) (p : Port) (t : Tag) : (s.accepted p t).segs = s.segs := by simp [State.accepted]
@[simp] theorem State.port_accepted_same (s : State) (p : Port) (t : Tag) : (s.accepted p t).port p = (s.port p).accept t := by
  simp [State.accepted]
@[simp] theorem State.port_accepted_other (s : State) (p : Port) (t : Tag) : (s.accepted p t).port p.other = s.port p.other := by
  simp [State.accepted]
@[simp] theorem State.threshold_accepted (s : State) (p : Port) (t : Tag) : (s.accepted p t).threshold = s.threshold := by
  simp [State.accepted]
@[simp] theorem State.races_accepted (s : State) (p : Port) (t : Tag) : (s.accepted p t).races = s.races := by
  simp [State.accepted]
@[simp] theorem State.pending_accepted (s : State) (p : Port) (t : Tag) : (s.accepted p t).pending = s.pending := by
  simp [State.accepted]

end Sys2Proof.Machine
end

