-- ==== Sys2Proof/Laws/Operands.lean ====
section
/-! SUPPORT. The parameter bytes that name a value are read back as that value. -/

namespace Sys2Proof.Machine

@[simp] theorem parseHandle_byte (h : Handle) : parseHandle (byte h.val) = some h := by revert h; decide
@[simp] theorem parseGen_byte (g : Gen) : parseGen (byte g.val) = some g := by revert g; decide
@[simp] theorem parseSeg_byte (g : Seg) : parseSeg (byte g.val) = some g := by revert g; decide
@[simp] theorem parseRef_byte (h : Handle) (g : Gen) : parseRef (byte h.val) (byte g.val) = some (h, g) := by simp [parseRef]
@[simp] theorem parseRefOnly_byte (h : Handle) (g : Gen) : parseRefOnly [byte h.val, byte g.val] = some (h, g) := by simp [parseRefOnly]
@[simp] theorem parseSegOnly_byte (g : Seg) : parseSegOnly [byte g.val] = some g := by simp [parseSegOnly]
@[simp] theorem parseAMode_code (m : AMode) : parseAMode (amodeCode m) = some m := by cases m <;> decide
@[simp] theorem parseDMode_code (d : DMode) : parseDMode (dmodeCode d) = some d := by cases d <;> decide
@[simp] theorem parseClaimMode_code (m : ClaimMode) : parseClaimMode (claimCode m.claim) = some m := by cases m <;> decide
@[simp] theorem parseSpeed_code (v : Speed) : parseSpeed (speedCode v) = some v := by cases v <;> decide
@[simp] theorem parseOnOff_bit (b : Bool) : parseOnOff (byte (bit b)) = some b := by cases b <;> decide
@[simp] theorem parseFlags_bit (b : Bool) : parseFlags (byte (bit b)) = some b := by cases b <;> decide
@[simp] theorem parseEntryMask_code (m : EntryMask) : parseEntryMask (entryMaskCode m) = some m := by
  obtain ⟨a, b, c⟩ := m; cases a <;> cases b <;> cases c <;> decide
@[simp] theorem parseSegMask_code (m : SegMask) : parseSegMask (segMaskCode m) = some m := by
  obtain ⟨a, b⟩ := m; cases a <;> cases b <;> decide
@[simp] theorem parseAttnMask_code (m : AttnMask) : parseAttnMask (attnMaskCode m) = some m := by
  obtain ⟨a, b⟩ := m; cases a <;> cases b <;> decide

theorem toNat_byte_of_le {n : Nat} (h : n ≤ 255) : (byte n).toNat = n := by simp [byte]; omega

theorem parsePos_byte {n : Nat} (h₁ : 1 ≤ n) (h₂ : n ≤ 255) : parsePos (byte n) = some n := by
  simp [parsePos, toNat_byte_of_le h₂, h₁]

theorem parseLen_byte {n : Nat} (h₁ : 1 ≤ n) (h₂ : n ≤ 32) : parseLen (byte n) = some n := by
  have h := toNat_byte_of_le (n := n) (by omega)
  simp [parseLen, h, h₁, h₂]

/-- A place in the range of its mode is read back from its bytes. -/
theorem parsePlace_bytes (g : Seg) (m : AMode) {a : Nat} (h : addrInRange m a = true) :
    parsePlace (byte g.val) (amodeCode m) (byte (a / 256)) (byte a) = some (g, m, a) := by
  have ha : a ≤ 0x3FF := by cases m <;> simp [addrInRange] at h <;> omega
  have hb : ofBe16 (byte (a / 256)) (byte a) = a := by simp [ofBe16, byte]; omega
  simp [parsePlace, hb, h]

end Sys2Proof.Machine
end

