-- ==== Sys2Proof/Laws/Told.lean ====
section
/-! SUPPORT. What the blocks behind the ports do to a port: they place responses and post notices, and nothing else. `Quiet s t` says so of the two ports,
and that the threshold and the queue of commands stay; there is one lemma for each shared operation. -/

namespace Sys2Proof.Machine

/-- A port's record after responses have been placed and notices offered, in some order. -/
inductive Told : PortRec → PortRec → Prop
  | refl (pr : PortRec) : Told pr pr
  | response {pr pr' : PortRec} (r : Response) : Told pr pr' → Told pr { pr' with respq := pr'.respq ++ [r] }
  | notice {pr pr' : PortRec} (k : NoticeKind) (sub : Subject) (d : Byte) : Told pr pr' → Told pr (pr'.offer k sub d)

theorem Told.trans {a b c : PortRec} (h₁ : Told a b) (h₂ : Told b c) : Told a c := by
  induction h₂ with
  | refl => exact h₁
  | response r _ ih => exact .response r ih
  | notice k sub d _ ih => exact .notice k sub d ih

/-- From `s` to `t` the ports are told of things, and the threshold and the queue of commands stay. -/
structure Quiet (s t : State) : Prop where
  told : ∀ p, Told (s.port p) (t.port p)
  threshold : t.threshold = s.threshold
  pending : t.pending = s.pending

theorem Quiet.refl (s : State) : Quiet s s := ⟨fun _ => .refl _, rfl, rfl⟩

theorem Quiet.trans {s t u : State} (h₁ : Quiet s t) (h₂ : Quiet t u) : Quiet s u :=
  ⟨fun p => (h₁.told p).trans (h₂.told p), h₂.threshold.trans h₁.threshold, h₂.pending.trans h₁.pending⟩

theorem Quiet.ite {s t u : State} {c : Prop} [Decidable c] (h₁ : Quiet s t) (h₂ : Quiet s u) : Quiet s (if c then t else u) := by
  split <;> assumption

theorem Quiet.thenIf {s t u : State} {c : Prop} [Decidable c] (h₁ : Quiet s t) (h₂ : Quiet t u) : Quiet s (if c then u else t) := by
  split
  · exact h₁.trans h₂
  · exact h₁

theorem Quiet.foldl {α : Type} {f : State → α → State} (hf : ∀ s a, Quiet s (f s a)) (l : List α) (s : State) :
    Quiet s (l.foldl f s) := by
  induction l generalizing s with
  | nil => exact .refl s
  | cons a l ih => exact (hf s a).trans (ih _)

/-! ## The named operations -/

theorem Quiet.modEntry (s : State) (h : Handle) (f : Entry → Entry) : Quiet s (s.modEntry h f) :=
  ⟨fun p => by simpa using .refl _, rfl, rfl⟩

theorem Quiet.setEntry (s : State) (h : Handle) (e : Entry) : Quiet s (s.setEntry h e) := ⟨fun p => by simpa using .refl _, rfl, rfl⟩

theorem Quiet.modSeg (s : State) (g : Seg) (f : Segment → Segment) : Quiet s (s.modSeg g f) :=
  ⟨fun p => by simpa using .refl _, rfl, rfl⟩

theorem Quiet.mapEntries (s : State) (f : Entry → Entry) : Quiet s (s.mapEntries f) := ⟨fun p => by simpa using .refl _, rfl, rfl⟩

theorem Quiet.mapSegs (s : State) (f : Segment → Segment) : Quiet s (s.mapSegs f) := ⟨fun p => by simpa using .refl _, rfl, rfl⟩

theorem Quiet.modPort {s : State} {p : Port} {f : PortRec → PortRec} (hf : Told (s.port p) (f (s.port p))) : Quiet s (s.modPort p f) := by
  refine ⟨fun q => ?_, by simp, by simp⟩
  rw [State.port_modPort]
  split
  · next h => subst h; exact hf
  · exact .refl _

theorem Quiet.enqueue (s : State) (p : Port) (r : Response) : Quiet s (s.enqueue p r) := .modPort (.response r (.refl _))

theorem Quiet.respond (s : State) (p : Port) (t : Tag) (st : Status) (l : List Byte) : Quiet s (s.respond p t st l) := .enqueue _ _ _

theorem Quiet.respondTo (s : State) (o : Option (Port × Tag)) (st : Status) (l : List Byte) : Quiet s (s.respondTo o st l) := by
  unfold State.respondTo
  split
  · exact .respond ..
  · exact .refl _

theorem Quiet.post (s : State) (p : Port) (k : NoticeKind) (sub : Subject) (d : Byte) : Quiet s (s.post p k sub d) :=
  .modPort (.notice k sub d (.refl _))

theorem Quiet.postWhere (s : State) (who : Port → Bool) (k : NoticeKind) (sub : Subject) (d : Byte) :
    Quiet s (s.postWhere who k sub d) := by
  unfold State.postWhere
  have h₁ : Quiet s (if who .A then s.post .A k sub d else s) := .ite (.post ..) (.refl _)
  exact .ite (h₁.trans (.post ..)) h₁

theorem Quiet.postHealth (s : State) (h : Handle) (st : EntryState) : Quiet s (s.postHealth h st) := .postWhere ..

theorem Quiet.anyOrder {α : Type} (s : State) (l : List α) : Quiet s (s.anyOrder l).2 := by
  unfold State.anyOrder
  split
  · exact .refl _
  · exact ⟨fun p => by cases p <;> exact .refl _, rfl, rfl⟩

theorem Quiet.forAnyOrder {α : Type} {f : State → α → State} (hf : ∀ s a, Quiet s (f s a)) (s : State) (l : List α) :
    Quiet s (s.forAnyOrder l f) := (Quiet.anyOrder s l).trans (.foldl hf _ _)

theorem Quiet.atSegOf {f : State → Seg → State} (hf : ∀ s g, Quiet s (f s g)) (s : State) (h : Handle) : Quiet s (s.atSegOf h f) := by
  unfold State.atSegOf
  split
  · exact hf _ _
  · exact .refl _

/-! ## The claim unit and the directory -/

theorem Quiet.reevaluate (s : State) (h : Handle) : Quiet s (s.reevaluate h) := by
  unfold State.reevaluate
  split
  · exact .refl _
  · exact .ite ((Quiet.modEntry ..).trans (.respond ..)) (.refl _)

theorem Quiet.dropClaims (s : State) (h : Handle) (o : Option Port) : Quiet s (s.dropClaims h o) := by
  unfold State.dropClaims
  dsimp only
  split
  · exact ((Quiet.postWhere ..).trans (.modEntry ..)).trans (.respond ..)
  · exact (Quiet.postWhere ..).trans (.modEntry ..)

theorem Quiet.enterVacant (s : State) (h : Handle) : Quiet s (s.enterVacant h) := (Quiet.dropClaims ..).trans (.setEntry ..)

theorem Quiet.completeRetire (s : State) (h : Handle) : Quiet s (s.completeRetire h) := (Quiet.enterVacant ..).trans (.respondTo ..)

theorem Quiet.fall (s : State) (h : Handle) : Quiet s (s.fall h) :=
  .ite ((Quiet.modEntry ..).trans (.completeRetire ..)) (.modEntry ..)

/-! ## The health monitor -/

theorem Quiet.answerWatch (s : State) (h : Handle) (st : Status) (aux : Byte) : Quiet s (s.answerWatch h st aux) := by
  unfold State.answerWatch
  split
  · exact (Quiet.modEntry ..).trans (.respond ..)
  · exact .refl _

theorem Quiet.becomeLost (s : State) (h : Handle) : Quiet s (s.becomeLost h) := (Quiet.modEntry ..).trans (.postHealth ..)

theorem Quiet.failureReport (s : State) (h : Handle) : Quiet s (s.failureReport h) := by
  unfold State.failureReport
  refine .ite (.ite (.becomeLost ..) ?_) (.refl _)
  exact .ite ((Quiet.modEntry ..).trans (.postHealth ..)) (.modEntry ..)

theorem Quiet.successReport (s : State) (h : Handle) : Quiet s (s.successReport h) :=
  .ite (((Quiet.modEntry ..).trans (.postHealth ..)).trans (.answerWatch ..)) (.refl _)

theorem Quiet.report (s : State) (h : Handle) (o : Outcome) : Quiet s (s.report h o) :=
  .ite (.successReport ..) (.ite (.failureReport ..) (.refl _))

/-! ## The admission unit -/

theorem Quiet.beginReadmission (s : State) (h : Handle) (src : AdmSource) : Quiet s (s.beginReadmission h src) := .modEntry ..

theorem Quiet.tellFailure (s : State) (a : Option AdmRec) (pl : Option Place) (st : Status) : Quiet s (s.tellFailure a pl st) := by
  unfold State.tellFailure
  split
  · exact .respondTo ..
  · exact .post ..
  · exact .refl _

theorem Quiet.failFirst (s : State) (h : Handle) (st : Status) : Quiet s (s.failFirst h st) := (Quiet.enterVacant ..).trans (.tellFailure ..)

theorem Quiet.endFirst (s : State) (h : Handle) (a : AdmRec) (d : Desc) (src : DSrc) : Quiet s (s.endFirst h a d src) := by
  unfold State.endFirst
  dsimp only
  split
  · exact (Quiet.modEntry ..).trans (.enqueue ..)
  · exact (Quiet.modEntry ..).trans (.post ..)
  all_goals exact .modEntry ..

theorem Quiet.endReappeared (s : State) (h : Handle) (d : Desc) (src : DSrc) : Quiet s (s.endReappeared h d src) :=
  ((Quiet.modEntry ..).trans (.postWhere ..)).trans (.answerWatch ..)

theorem Quiet.endReplaced (s : State) (h : Handle) (d : Desc) (src : DSrc) : Quiet s (s.endReplaced h d src) :=
  (((Quiet.dropClaims ..).trans (.modEntry ..)).trans (.postWhere ..)).trans (.answerWatch ..)

theorem Quiet.failRe (s : State) (h : Handle) : Quiet s (s.failRe h) := by
  unfold State.failRe
  dsimp only
  split
  · exact (Quiet.modEntry ..).trans (.ite (.answerWatch ..) (.modEntry ..))
  · exact .modEntry ..

theorem Quiet.endAdmission (s : State) (h : Handle) (a : AdmRec) (d : Desc) (src : DSrc) : Quiet s (s.endAdmission h a d src) := by
  unfold State.endAdmission
  dsimp only
  split
  · exact .endFirst ..
  · exact .ite (.endReappeared ..) (.ite (.endReappeared ..) (.endReplaced ..))

theorem Quiet.failAdmission (s : State) (h : Handle) (a : AdmRec) (st : Status) : Quiet s (s.failAdmission h a st) := by
  unfold State.failAdmission
  split
  · exact .failFirst ..
  · exact .failRe ..

theorem Quiet.admissionNext (s : State) (h : Handle) (a : AdmRec) (o : Outcome) (rx : List Byte) :
    Quiet s (s.admissionNext h a o rx) := by
  unfold State.admissionNext
  dsimp only
  split
  · split
    · exact .ite (.endAdmission ..) (.modEntry ..)
    · exact .ite (.modEntry ..) (.endAdmission ..)
    · exact .endAdmission ..
  · exact .modEntry ..
  · split
    · exact .failFirst ..
    · exact .modEntry ..
  all_goals
    split
    · exact .failAdmission ..
    all_goals exact .endAdmission ..

/-! ## The segment controllers -/

theorem Quiet.answerSurvey (s : State) (g : Seg) (st : Status) : Quiet s (s.answerSurvey g st) := by
  unfold State.answerSurvey
  split
  · exact (Quiet.modSeg ..).trans (.respond ..)
  · exact .refl _

theorem Quiet.answerTx (s : State) (t : HostTx) (st : Status) (n : Nat) (rx : List Byte) (b : Bool) :
    Quiet s (s.answerTx t st n rx b) := by
  unfold State.answerTx
  exact (Quiet.ite (.refl _) (.enqueue ..)).trans (.modEntry ..)

theorem Quiet.completeAt (s : State) (g : Seg) (i : Nat) (t : HostTx) (st : Status) : Quiet s (s.completeAt g i t st) :=
  ((Quiet.modSeg ..).trans (.answerTx ..)).trans (.fall ..)

theorem Quiet.completeAll (s : State) (g : Seg) (st : Status) : Quiet s (s.completeAll g st) :=
  (Quiet.modSeg ..).trans (.foldl (fun _ _ => (Quiet.answerTx ..).trans (.fall ..)) _ _)

theorem Quiet.dropHold (s : State) (g : Seg) (l : LineEnd) (b : Bool) : Quiet s (s.dropHold g l b) := by
  unfold State.dropHold
  split
  · exact .ite ((Quiet.modSeg ..).trans (.modEntry ..)) (.modSeg ..)
  · exact .refl _

theorem Quiet.endHold (s : State) (g : Seg) (b : Bool) : Quiet s (s.endHold g b) := (Quiet.modSeg ..).trans (.dropHold ..)

theorem Quiet.endSweep (s : State) (g : Seg) : Quiet s (s.endSweep g) := by
  unfold State.endSweep
  refine Quiet.trans ?_ (.modSeg ..)
  exact .ite (.postWhere ..) (.refl _)

theorem Quiet.becomeStuck (s : State) (g : Seg) (c : Byte) : Quiet s (s.becomeStuck g c) := by
  unfold State.becomeStuck
  refine Quiet.trans ?_ (.postWhere ..)
  refine Quiet.trans ?_ (.forAnyOrder (fun _ _ => .failFirst ..) _ _)
  exact (((Quiet.modSeg ..).trans (.completeAll ..)).trans (.answerSurvey ..)).trans (.modSeg ..)

theorem Quiet.goOff (s : State) (g : Seg) (b : Bool) (o : Option (Port × Tag)) : Quiet s (s.goOff g b o) := by
  unfold State.goOff
  refine Quiet.trans ?_ (.respondTo ..)
  refine Quiet.trans ?_ (.foldl (fun _ _ => .modEntry ..) _ _)
  refine Quiet.trans ?_ (.forAnyOrder (fun _ _ => .failFirst ..) _ _)
  refine Quiet.trans ?_ (.forAnyOrder (fun _ _ => .answerWatch ..) _ _)
  refine Quiet.trans ?_ (.dropHold ..)
  exact (((Quiet.modSeg ..).trans (.completeAll ..)).trans (.answerSurvey ..)).trans (.modSeg ..)

/-! ## The arbiter -/

theorem Quiet.grantHost (s : State) (g : Seg) (i : Nat) (t : HostTx) (b : Bool) : Quiet s (s.grantHost g i t b) := by
  unfold State.grantHost
  exact .modSeg ..

theorem Quiet.grantAdmission (s : State) (g : Seg) (h : Handle) : Quiet s (s.grantAdmission g h) := by
  unfold State.grantAdmission
  split
  · exact (Quiet.modEntry ..).trans (.modSeg ..)
  · exact .refl _

theorem Quiet.grantWatch (s : State) (g : Seg) (h : Handle) : Quiet s (s.grantWatch g h) := (Quiet.modEntry ..).trans (.modSeg ..)

theorem Quiet.grantSurvey (s : State) (g : Seg) (c : Cursor) : Quiet s (s.grantSurvey g c) := by
  unfold State.grantSurvey
  dsimp only
  split
  · exact (Quiet.modEntry ..).trans (.modSeg ..)
  · exact .modSeg ..

theorem Quiet.grantSweep (s : State) (g : Seg) (h : Handle) : Quiet s (s.grantSweep g h) := (Quiet.modEntry ..).trans (.modSeg ..)

theorem Quiet.offerSurvey (s : State) (g : Seg) : Quiet s (s.offerSurvey g).1 := by
  unfold State.offerSurvey
  dsimp only
  split
  · exact .refl _
  · split
    · exact .refl _
    · split
      · exact (Quiet.modSeg ..).trans (.answerSurvey ..)
      · exact (Quiet.modSeg ..).trans (.grantSurvey ..)

theorem Quiet.tryBackground (s : State) (g : Seg) : Quiet s (s.tryBackground g).1 := by
  unfold State.tryBackground
  split
  · exact .grantAdmission ..
  · split
    · exact .grantWatch ..
    · exact .offerSurvey ..

theorem Quiet.lookSweep (s : State) (g : Seg) : Quiet s (s.lookSweep g) := .ite (.endSweep ..) (.refl _)

theorem Quiet.arbitrate (n : Nat) (s : State) (g : Seg) : Quiet s (s.arbitrate n g) := by
  induction n generalizing s with
  | zero => exact .refl _
  | succ n ih =>
    have pick : ∀ (u : State), Quiet s u → ∀ i t b, Quiet s (match u.recheck t with
        | some st => State.arbitrate n (u.completeAt g i t st) g
        | none => u.grantHost g i t b) := by
      intro u hu i t b
      split
      · exact (hu.trans (.completeAt ..)).trans (ih _)
      · exact hu.trans (.grantHost ..)
    unfold State.arbitrate
    split
    · split
      · exact .refl _
      · exact pick s (.refl _) _ _ _
    · dsimp only
      split
      · exact (Quiet.lookSweep ..).trans (.grantSweep ..)
      · split
        · split
          · exact (Quiet.lookSweep ..).trans (.tryBackground ..)
          · exact pick _ (.lookSweep ..) _ _ _
        · have hb := (Quiet.lookSweep s g).trans (.tryBackground _ g)
          split
          · exact hb
          · split
            · exact hb
            · exact pick _ hb _ _ _
    all_goals exact .refl _

/-- The arbiter's choice tells the ports of things and leaves the threshold and the queue of commands. -/
theorem Quiet.choose (s : State) (g : Seg) : Quiet s (s.choose g) := .arbitrate ..

/-! ## The bus engine -/

theorem Quiet.loadSettle (s : State) (h : Handle) (c : Current) : Quiet s (s.loadSettle h c) := .ite (.modEntry ..) (.refl _)

theorem Quiet.tryHold (s : State) (g : Seg) (t : HostTx) (c : Current) : Quiet s (s.tryHold g t c) :=
  .ite (.refl _) (.ite (.modEntry ..) (.modSeg ..))

theorem Quiet.endHost (s : State) (g : Seg) (c : Current) (o : Outcome) : Quiet s (s.endHost g c o) := by
  unfold State.endHost
  dsimp only
  split
  · exact .refl _
  · refine Quiet.trans ?_ (.fall ..)
    refine .thenIf ?_ (.tryHold ..)
    exact (((Quiet.report ..).trans (.loadSettle ..)).trans (.modSeg ..)).trans (.answerTx ..)

theorem Quiet.endAdmissionTransfer (s : State) (h : Handle) (c : Current) (o : Outcome) : Quiet s (s.endAdmissionTransfer h c o) := by
  unfold State.endAdmissionTransfer
  dsimp only
  split
  · exact .ite (((Quiet.report ..).trans (.modEntry ..)).trans (.admissionNext ..)) ((Quiet.report ..).trans (.fall ..))
  · exact (Quiet.report ..).trans (.fall ..)

theorem Quiet.watchOutcome (s : State) (h : Handle) (o : Outcome) : Quiet s (s.watchOutcome h o) := by
  unfold State.watchOutcome
  split
  · exact .refl _
  · exact .ite (.modEntry ..) (.ite (.beginReadmission ..) (.ite (.answerWatch ..) (.modEntry ..)))

theorem Quiet.endWatchProbe (s : State) (h : Handle) (o : Outcome) : Quiet s (s.endWatchProbe h o) := by
  unfold State.endWatchProbe
  split
  · exact .ite ((((Quiet.modEntry ..).trans (.report ..)).trans (.watchOutcome ..)).trans (.fall ..)) ((Quiet.report ..).trans (.fall ..))
  · exact (Quiet.report ..).trans (.fall ..)

theorem Quiet.judge (s : State) (g : Seg) (c : Cursor) (l : Option (Handle × EntryState)) (o : Outcome) :
    Quiet s (s.judge g c l o).1 := by
  unfold State.judge
  split
  · split
    · split
      · dsimp only
        exact .modEntry ..
      · dsimp only
        exact .ite (.refl _) (.post ..)
    · exact Quiet.refl _
  · split
    · exact Quiet.refl _
    · exact Quiet.refl _
    · split
      · dsimp only
        exact .beginReadmission ..
      · exact .refl _
    all_goals exact .refl _

theorem Quiet.fallNamed (s : State) (o : Option Handle) : Quiet s (s.fallNamed o) := by
  unfold State.fallNamed
  split
  · exact .fall ..
  · exact .refl _

theorem Quiet.endSurveyProbe (s : State) (g : Seg) (n : Option Handle) (o : Outcome) : Quiet s (s.endSurveyProbe g n o) := by
  have h₁ : Quiet s (match n with
      | some h => s.report h o
      | none => s) := by
    split
    · exact .report ..
    · exact .refl _
  unfold State.endSurveyProbe
  dsimp only
  split
  · refine .ite (.ite ((h₁.trans (.answerSurvey ..)).trans (.fallNamed ..)) ?_) (h₁.trans (.fallNamed ..))
    refine .thenIf ?_ (.answerSurvey ..)
    exact ((h₁.trans (.judge ..)).trans (.modSeg ..)).trans (.fallNamed ..)
  · exact h₁.trans (.fallNamed ..)

theorem Quiet.judgeByte (s : State) (g : Seg) (h : Handle) (b : Byte) : Quiet s (s.judgeByte g h b) :=
  .ite ((Quiet.postWhere ..).trans (.modSeg ..)) (.refl _)

theorem Quiet.endSweepRead (s : State) (g : Seg) (h : Handle) (c : Current) (o : Outcome) : Quiet s (s.endSweepRead g h c o) := by
  unfold State.endSweepRead
  dsimp only
  refine Quiet.trans (t := if ((s.report h o).seg g).sweep.state = .sweeping then _ else _) (.ite ?_ (.report ..)) (.fall ..)
  split
  · exact ((Quiet.report ..).trans (.judgeByte ..)).trans (.modSeg ..)
  all_goals first | exact (Quiet.report ..).trans (.modSeg ..) | exact .report ..

theorem Quiet.deliver (s : State) (g : Seg) (c : Current) (o : Outcome) : Quiet s (s.deliver g c o) := by
  unfold State.deliver
  split
  · exact .endHost ..
  · exact .endSurveyProbe ..
  all_goals
    split
    · first | exact .endAdmissionTransfer .. | exact .endWatchProbe .. | exact .endSweepRead ..
    · exact .refl _

theorem Quiet.afterTransfer (s : State) (g : Seg) (o : Outcome) : Quiet s (s.afterTransfer g o) := by
  unfold State.afterTransfer
  split
  · exact .goOff ..
  all_goals
    split
    · exact .modSeg ..
    · exact .becomeStuck ..
    all_goals exact (Quiet.modSeg ..).trans (.choose ..)

theorem Quiet.endTransfer (s : State) (g : Seg) (c : Current) (o : Outcome) : Quiet s (s.endTransfer g c o) :=
  ((Quiet.modSeg ..).trans (.deliver ..)).trans (.afterTransfer ..)

theorem Quiet.transferEnds (s : State) (g : Seg) (c : Current) (e : TransferEnd) : Quiet s (s.transferEnds g c e) := by
  unfold State.transferEnds
  split
  · exact .endTransfer ..
  · exact .refl _

theorem Quiet.losesArbitration (s : State) (g : Seg) (c : Current) (pr : Progress) : Quiet s (s.losesArbitration g c pr) :=
  .ite (.refl _) (.ite (.modSeg ..) (.endTransfer ..))

theorem Quiet.waitsTooLong (s : State) (g : Seg) (c : Current) (b : Bool) : Quiet s (s.waitsTooLong g c b) :=
  .ite (.refl _) (.ite (.modSeg ..) (.endTransfer ..))

theorem Quiet.innerRecovery (s : State) (g : Seg) (c : Current) (l : List LineObs) : Quiet s (s.innerRecovery g c l) := by
  unfold State.innerRecovery
  split
  · exact .refl _
  · exact .modSeg ..
  · exact .endTransfer ..

theorem Quiet.busEvent (s : State) (g : Seg) (ev : BusEvent) : Quiet s (s.busEvent g ev) := by
  unfold State.busEvent
  split
  · refine .ite ?_ ?_
    · split
      · exact .innerRecovery ..
      all_goals exact .refl _
    · split
      · exact .transferEnds ..
      · exact .endTransfer ..
      · exact .losesArbitration ..
      · exact .waitsTooLong ..
      · exact .refl _
  · exact .refl _

theorem Quiet.endOfKind (s : State) (g : Seg) (k : CurKind) (e : TransferEnd) : Quiet s (s.endOfKind g k e) :=
  .ite (.busEvent ..) (.refl _)

theorem Quiet.outerRecovery (s : State) (g : Seg) (b : Bool) : Quiet s (s.outerRecovery g b) := by
  unfold State.outerRecovery
  split
  · exact .ite (((Quiet.modSeg ..).trans (.respondTo ..)).trans (.choose ..))
      (((Quiet.becomeStuck ..).trans (.modSeg ..)).trans (.respondTo ..))
  all_goals exact .ite ((Quiet.modSeg ..).trans (.choose ..)) (.becomeStuck ..)

theorem Quiet.claimEnds (s : State) (h : Handle) (p : Port) : Quiet s (s.claimEnds h p) := by
  refine .atSegOf (fun s g => ?_) _ _
  dsimp only
  refine .ite (.endHold ..) ?_
  split
  · exact .ite (.modSeg ..) (.refl _)
  · exact .refl _

/-! ## Events inside a step -/

theorem Quiet.lapse (s : State) (p : Port) (h : Handle) : Quiet s (s.lapse p h) :=
  (((Quiet.modEntry ..).trans (.post ..)).trans (.claimEnds ..)).trans (.reevaluate ..)

theorem Quiet.release (s : State) (p : Port) (h : Handle) : Quiet s (s.release p h) :=
  ((Quiet.modEntry ..).trans (.claimEnds ..)).trans (.reevaluate ..)

theorem Quiet.leaseLapse (s : State) (h : Handle) (p : Port) : Quiet s (s.leaseLapse h p) :=
  .ite ((Quiet.lapse ..).trans (.atSegOf .choose _ _)) (.refl _)

theorem Quiet.waitExpiry (s : State) (h : Handle) : Quiet s (s.waitExpiry h) := by
  unfold State.waitExpiry
  split
  · exact .ite ((Quiet.modEntry ..).trans (.respond ..)) (.refl _)
  · exact .refl _

theorem Quiet.watchProbeDue (s : State) (h : Handle) : Quiet s (s.watchProbeDue h) :=
  .ite ((Quiet.modEntry ..).trans (.atSegOf .choose _ _)) (.refl _)

theorem Quiet.rearmExpiry (s : State) (g : Seg) : Quiet s (s.rearmExpiry g) := .ite ((Quiet.modSeg ..).trans (.choose ..)) (.refl _)

theorem Quiet.settleEnd (s : State) (h : Handle) : Quiet s (s.settleEnd h) := (Quiet.modEntry ..).trans (.atSegOf .choose _ _)

theorem Quiet.holdExpiry (s : State) (g : Seg) : Quiet s (s.holdExpiry g) :=
  .ite ((Quiet.endHold ..).trans (.choose ..)) (.refl _)

theorem Quiet.happen (s : State) (ev : Event) : Quiet s (s.happen ev) := by
  cases ev <;> unfold State.happen
  · exact .leaseLapse ..
  · exact .waitExpiry ..
  · exact .watchProbeDue ..
  · exact .rearmExpiry ..
  · exact .settleEnd ..
  · exact .holdExpiry ..
  · exact .reevaluate ..
  · exact .ite (.completeRetire ..) (.refl _)
  · exact .choose ..

theorem Quiet.tick10ms (s : State) (l : List Event) : Quiet s (s.tick10ms l) :=
  ((Quiet.mapEntries ..).trans (.mapSegs ..)).trans (.foldl .happen _ _)

theorem Quiet.tick100us (s : State) (l : List Event) : Quiet s (s.tick100us l) :=
  ((Quiet.mapEntries ..).trans (.mapSegs ..)).trans (.foldl .happen _ _)

end Sys2Proof.Machine
end

