-- ==== Sys2Proof/Tests/Slice0.lean ====
section
/-! SUPPORT. Tests of the model: what is ill formed, the spec's worked examples, and for each statement a state and operands that meet its hypotheses. -/

-- One proof after the other: many kernel evaluations at once would each take a thread and its stack.
set_option Elab.async false

namespace Sys2Proof.Tests

open Sys2Proof.Machine

/-! ## Scenes -/

/-- Port A is in a SUBMIT exchange; the rest is as after reset. -/
def submitting : State := State.reset.setPort .A { cs := true, exchange := .submit }

/-- The scene of most tests: entry 3 and segment 0 as given, Port A in a SUBMIT exchange. -/
def scene (e : Entry) (r : Segment) : State := (submitting.setEntry 3 e).setSeg 0 r

theorem scene_entry (e : Entry) (r : Segment) (h : Handle) : (scene e r).entry h = if h = 3 then e else Entry.vacant 0 := by
  simp only [scene, State.entry_setSeg, State.entry_setEntry]
  split
  · rfl
  · revert h; decide

theorem scene_port (e : Entry) (r : Segment) : (scene e r).port .A = { cs := true, exchange := .submit } := rfl

/-- In the scene Port A accepts every tag. -/
theorem scene_ready (e : Entry) (r : Segment) (t : Tag) : Ready (scene e r) .A t := ⟨rfl, by rw [scene_port]; revert t; decide⟩

/-- An entry with a place exactly when in use, and a record exactly when PROBING, makes a scene with a sound index. -/
theorem scene_index (e : Entry) (r : Segment) (hp : e.place = none ↔ e.state = .vacant) (ha : e.adm = none ↔ e.state ≠ .probing) :
    (scene e r).IndexOk := by
  refine ⟨fun h => ?_, fun h => ?_, fun h k pl pl' h₁ h₂ _ _ _ => ?_⟩
  · rw [scene_entry]; split <;> simp_all [Entry.vacant]
  · rw [scene_entry]; split <;> simp_all [Entry.vacant]
  · rw [scene_entry] at h₁ h₂
    split at h₁ <;> split at h₂ <;> simp_all [Entry.vacant]

/-- 20H on segment 0, asked for by ADMIT without a descriptor. -/
def spot : Place := ⟨0, .seven, 0x20, .byAdmit, .none⟩

/-- A PRESENT device at that place, of generation 5. -/
def device : Entry := { Entry.vacant 5 with state := .present, place := some spot }

def idleSeg : Segment := { state := .idle }

/-- A transfer that has just begun. -/
def begun (k : CurKind) (h : Option Handle) (plan : List WireOp) : Current :=
  { kind := k, entry := h, plan := .start :: plan, acked := 0, rx := [], lost := 0, followOn := false, restart := false,
    recovering := false, claimEnded := false }

/-- A host transaction of Port B on the device. -/
def work (k : TxKind) (active chain : Bool) : HostTx := ⟨.B, 6, 3, 5, k, 0x0044, [1, 2], 2, chain, active, false⟩

/-- Segment 0 with a transfer on the bus. -/
def running (c : Current) : Segment := { state := .active, current := some c }

/-- The WRITE of Port B on the bus, with another waiting before it and one after it. -/
def writing (chain : Bool) : Segment :=
  { running (begun .host (some 3) (txPlan spot {} (work .write true chain))) with
    hostq := [work .read false false, work .write true chain, work .ping false false] }

/-- Every entry in use, each at a place of its own. -/
def crowd (h : Handle) : Entry := { Entry.vacant 0 with state := .present, place := some ⟨0, .ten, 0x100 + h.val, .byAdmit, .none⟩ }

def crowded : State := { submitting with entries := Vector.ofFn crowd }

theorem crowded_entry (h : Handle) : crowded.entry h = crowd h := by simp [State.entry, crowded]

theorem crowded_index : crowded.IndexOk := by
  refine ⟨fun h => ?_, fun h => ?_, fun h k pl pl' h₁ h₂ _ _ ha => ?_⟩
  · simp [crowded_entry, crowd]
  · simp [crowded_entry, crowd, Entry.vacant]
  · simp only [crowded_entry, crowd, Option.some.injEq] at h₁ h₂
    subst h₁ h₂
    simp only at ha
    exact Fin.ext (by omega)

/-- What a next state satisfies, if the command has one. -/
def after (c : Instr) (s : State) (f : State → Bool) : Bool :=
  match exec c s with
  | .next t => f t
  | .fault _ | .refused _ => false

/-! ## Well-formedness: each check refuses a command -/

theorem test_wf_refuses_tag : (Instr.retire .A 8 [0, 0]).wf = false := by decide
theorem test_wf_refuses_handle : (Instr.retire .A 0 [48, 0]).wf = false := by decide
theorem test_wf_refuses_generation : (Instr.readEntry .A 0 [0, 16]).wf = false := by decide
theorem test_wf_refuses_missing_byte : (Instr.renew .A 0 [0]).wf = false := by decide
theorem test_wf_refuses_extra_byte : (Instr.release .A 0 [0, 0, 0]).wf = false := by decide
theorem test_wf_refuses_segment : (Instr.segmentEnable .A 0 [6]).wf = false := by decide
theorem test_wf_refuses_low_address : (Instr.lookup .A 0 [0, 0, 0, 0x07]).wf = false := by decide
theorem test_wf_refuses_high_address : (Instr.lookup .A 0 [0, 0, 0, 0x78]).wf = false := by decide
theorem test_wf_refuses_ten_bit_address : (Instr.lookup .A 0 [0, 1, 4, 0]).wf = false := by decide
theorem test_wf_refuses_address_mode : (Instr.lookup .A 0 [0, 2, 0, 0x20]).wf = false := by decide
theorem test_wf_refuses_descriptor_mode : (Instr.admitDevice .A 0 [0, 0, 0, 0x20, 2, 0]).wf = false := by decide
theorem test_wf_refuses_entry_mask : (Instr.subscribe .A 0 [0, 0, 8]).wf = false := by decide
theorem test_wf_refuses_segment_mask : (Instr.segmentSubscribe .A 0 [0, 4]).wf = false := by decide
theorem test_wf_refuses_list_count : (Instr.list .A 0 [0, 7]).wf = false := by decide
theorem test_wf_refuses_claim_mode : (Instr.claim .A 0 [0, 0, 0, 1, 0]).wf = false := by decide
theorem test_wf_refuses_lease : (Instr.claim .A 0 [0, 0, 1, 0, 0]).wf = false := by decide
theorem test_wf_refuses_write_length : (Instr.write .A 0 [0, 0, 0, 0, 0, 0]).wf = false := by decide
theorem test_wf_refuses_write_data : (Instr.write .A 0 [0, 0, 0, 0, 0, 2, 0xAA]).wf = false := by decide
theorem test_wf_refuses_read_length : (Instr.read .A 0 [0, 0, 0, 0, 0, 33]).wf = false := by decide
theorem test_wf_refuses_flags : (Instr.read .A 0 [0, 0, 0, 0, 2, 1]).wf = false := by decide
theorem test_wf_refuses_write_read_length : (Instr.writeRead .A 0 [0, 0, 0, 0, 0, 1, 0, 0xAA]).wf = false := by decide
theorem test_wf_refuses_chained_ping : (Instr.ping .A 0 [0, 0, 1]).wf = false := by decide
theorem test_wf_refuses_interval : (Instr.watch .A 0 [0, 0, 0, 1]).wf = false := by decide
theorem test_wf_refuses_limit : (Instr.watch .A 0 [0, 0, 1, 0]).wf = false := by decide
theorem test_wf_refuses_threshold : (Instr.setLimits .A 0 [8]).wf = false := by decide
theorem test_wf_refuses_range : (Instr.survey .A 0 [0, 0x20, 0x1F]).wf = false := by decide
theorem test_wf_refuses_setting : (Instr.segmentSetup .A 0 [0, 3, 1, 1, 0, 1, 0, 0, 0]).wf = false := by decide
theorem test_wf_refuses_output_mask : (Instr.portSetup .A 0 [4]).wf = false := by decide
theorem test_wf_refuses_known_code : (Instr.badCommand .A 0 0x10 []).wf = false := by decide
theorem test_wf_refuses_progress : (Instr.segmentReset .A 0 [0] ⟨38, []⟩).wf = false := by decide
theorem test_wf_refuses_end : (Instr.hostTransactionEnd 0 (.nack 37)).wf = false := by decide
theorem test_wf_refuses_event : (Instr.disableComplete 0 (.arbLost ⟨38, []⟩)).wf = false := by decide
theorem test_wf_refuses_observations : (Instr.recoveryEnd 0 []).wf = false := by decide
theorem test_wf_refuses_other_tick : (Instr.timebaseTick100us [.waitExpiry 0]).wf = false := by decide
theorem test_wf_refuses_other_slow_tick : (Instr.timebaseTick10ms [.settleEnd 0]).wf = false := by decide
theorem test_wf_refuses_flood : (Instr.submitRejected .A (List.replicate 256 0)).wf = false := by decide +kernel
theorem test_wf_admits_boundaries : (Instr.writeRead .B 7 ([47, 15, 0xFF, 0xFF, 1, 32, 32] ++ List.replicate 32 0)).wf = true := by decide

/-! ## The check byte and frames (11 R178 and its examples) -/

theorem test_check_byte_of_digits : crc8 [0x31, 0x32, 0x33, 0x34, 0x35, 0x36, 0x37, 0x38, 0x39] = 0xF4 := by decide +kernel

theorem test_frame_of_segment_enable : requestFrame 0x00 0x61 [0x02] = [0x05, 0x00, 0x61, 0x02, 0xA0] := by decide +kernel

/-! ## 12.1: bringing up a segment and surveying it -/

/-- The first lead byte after a pin reset brings out REJECTED and FREETAGS 8. -/
theorem test_first_summary_byte :
    after (.exchangeBegin .A) State.reset (fun t => (t.port .A).leadOut == some 0x28) = true := by decide +kernel

/-- The first SUMMARY shows REASON RESTART, and clears REJECTED. -/
theorem test_first_summary :
    after (.leadByte .A 0x04) (State.reset.setPort .A { State.reset.portA with cs := true, exchange := .lead }) (fun t =>
      (t.port .A).shiftOut 1 == 0x08 && after (.summary .A 4) t (fun u => !(u.port .A).rejected)) = true := by decide +kernel

/-- SEGMENT_SETUP 0 with SPEED 400 and ATTNEN ON is answered OK with the settings. -/
theorem test_setup_echoes :
    after (.segmentSetup .A 0 [0, 1, 25, 50, 2, 20, 0xF0, 1, 0]) submitting (fun t =>
      (t.port .A).respq == [⟨0, .ok, false, false, [1, 25, 50, 2, 20, 0xF0, 1, 0]⟩] && (t.seg 0).config.speed == .k400) = true := by
  decide +kernel

/-- SURVEY 0, 40H..57H puts the probe of 40H on the bus, and gives no response yet. -/
theorem test_survey_probes_first_address :
    after (.survey .A 3 [0, 0x40, 0x57]) (scene device idleSeg) (fun t =>
      (t.seg 0).current.map (fun c => c.plan) == some [.start, .send .addr 0x80] && (t.port .A).respq == []) = true := by
  decide +kernel

/-- The survey of 12.1 while a probe is on the bus. -/
def surveying (next : Nat) : State :=
  scene (Entry.vacant 0) { running (begun .survey none (probePlan ⟨0, .seven, next, .survey, .fetch⟩)) with
    survey := some ⟨.A, 3, 0x40, 0x57, next, .active, none, 0, 0, 0, 0, false⟩ }

/-- The probe of 48H ends OK: entry 0 is PROBING there, and its address probe is on the bus. -/
theorem test_survey_takes_entry :
    after (.surveyProbeEnd 0 (.done [])) (surveying 0x48) (fun t =>
      (t.entry 0).state == .probing && (t.entry 0).place == some ⟨0, .seven, 0x48, .survey, .fetch⟩ && (t.entry 0).inflight == 1 &&
        (t.seg 0).current.any (fun c => c.kind == .admission) && (t.seg 0).survey.any (fun c => c.found == 1)) = true := by
  decide +kernel

/-- The last probe, of 57H, ends ADDR_NACK: tag 3 is answered OK with NEXT 58H. -/
theorem test_survey_ends :
    after (.surveyProbeEnd 0 (.nack 0)) (surveying 0x57) (fun t =>
      (t.port .A).respq == [⟨3, .ok, false, false, [0, 0x40, 0x57, 0x58, 0, 0, 0, 0]⟩] && (t.seg 0).survey == none) = true := by
  decide +kernel

/-- The entry that a survey took at 48H, in the course of its admission. -/
def admitting (step : AdmStep) (size : Option Byte) : State :=
  let a : AdmRec := ⟨.first, step, .survey (some .A), size, none, .active⟩
  let pl : Place := ⟨0, .seven, 0x48, .survey, .fetch⟩
  scene { Entry.vacant 0 with state := .probing, place := some pl, inflight := 1, adm := some a }
    (running (begun .admission (some 3) (admPlan pl 0xF0 a)))

/-- The SIZE read returns FFH: PRESENT with DSRC DEFAULTED, and the notice ADMITTED with DETAIL DEFAULTED. -/
theorem test_size_out_of_range :
    after (.admissionTransferEnd 0 (.done [0xFF])) (admitting .sizeRead none) (fun t =>
      (t.entry 3).state == .present && (t.entry 3).dsrc == .defaulted && (t.entry 3).desc == {} &&
        (t.port .A).notices == [⟨.admitted, .entry 3 0, 0x03, 1⟩]) = true := by decide +kernel

/-- The 17-byte body read of the identity of 12.4, least significant bytes first: FETCHED. -/
theorem test_descriptor_fetched :
    after (.admissionTransferEnd 0 (.done [1, 0x10, 0x23, 0x01, 0x04, 0x00, 0x01, 0x10, 0, 0, 2, 16, 2, 0, 0xFF, 0x32, 0]))
      (admitting .bodyRead (some 0x12)) (fun t =>
        (t.entry 3).desc == ⟨1, 0x10, 0x0123, 0x0004, 0x00001001, 2, 16, 2, 0, 0xFF, 50⟩ && (t.entry 3).dsrc == .fetched) = true := by
  decide +kernel

/-! ## 12.2: a waiting claim and a lease lapse -/

/-- Port B holds EXCLUSIVE with LEASE 1 of 20; Port A waits with WAIT 48 left. -/
def contended : Entry :=
  { device with claim := .exclusive, holderB := some ⟨20, 1⟩, waiter := some ⟨.A, .exclusive, 100, 48, 2⟩ }

/-- On the next 10 ms tick B's lease lapses, and A is granted in the same step. -/
theorem test_lapse_grants_waiter :
    after (.timebaseTick10ms []) (scene contended idleSeg) (fun t =>
      (t.entry 3).holderA == some ⟨100, 100⟩ && (t.entry 3).holderB == none && (t.entry 3).waiter == none &&
        (t.port .A).respq == [⟨2, .ok, false, false, [1, 100]⟩] && (t.port .B).notices == [⟨.claimLapsed, .entry 3 5, 1, 1⟩]) = true := by
  decide +kernel

/-- With a wait that falls to 0 on that tick and is taken first, A is answered TIMED_OUT, and the lapse leaves CLAIM NONE. -/
theorem test_expiry_before_lapse :
    after (.timebaseTick10ms [.waitExpiry 3]) (scene { contended with waiter := some ⟨.A, .exclusive, 100, 1, 2⟩ } idleSeg) (fun t =>
      (t.entry 3).claim == .none && (t.port .A).respq == [⟨2, .timedOut, false, false, [1, 2]⟩]) = true := by decide +kernel

/-- When the settling ends, B's queued WRITE completes CLAIM_LOST without the bus. -/
theorem test_stale_write_stopped :
    after (.timebaseTick100us []) (scene { device with claim := .exclusive, holderA := some ⟨100, 100⟩, settle := 1, inflight := 1 }
      { idleSeg with hostq := [work .write false false] }) (fun t =>
        (t.port .B).respq == [⟨6, .claimLost, false, false, [0]⟩] && (t.seg 0).hostq == [] && (t.seg 0).state == .idle) = true := by
  decide +kernel

/-! ## 12.3: a chained write and the read that follows on -/

/-- 54H on segment 0, OFFSETW 2, CHAIN_CAPABLE, SETTLETIME 50. -/
def memory : Entry :=
  { Entry.vacant 5 with
    state := .present, place := some ⟨0, .seven, 0x54, .byAdmit, .fetch⟩, claim := .exclusive, holderA := some ⟨9, 9⟩
    desc := { offsetw := 2, maxburst := 16, caps := 2, settletime := 50 } }

/-- The WRITE at 0120H begins with the address and both offset bytes. -/
theorem test_write_on_the_wire :
    after (.write .A 1 [3, 5, 0x01, 0x20, 1, 1, 0xAB]) (scene memory idleSeg) (fun t =>
      (t.seg 0).current.map (fun c => c.plan) ==
        some [.start, .send .addr 0xA8, .send .offset 0x01, .send .offset 0x20, .send .data 0xAB]) = true := by decide +kernel

/-- It ends OK: SETTLE is loaded, the segment is HELD for HOLDLIMIT, and the follow-on is passed over. -/
theorem test_chained_write_holds :
    let w : HostTx := ⟨.A, 1, 3, 5, .write, 0x0120, [0xAB], 0, true, true, false⟩
    let r : HostTx := ⟨.A, 2, 3, 5, .read, 0x0120, [], 8, false, false, false⟩
    after (.hostTransactionEnd 0 (.done [])) (scene { memory with inflight := 2 }
      { running (begun .host (some 3) (txPlan ⟨0, .seven, 0x54, .byAdmit, .fetch⟩ memory.desc w)) with
        hostq := [w, r], config := { holdlimit := 60 } }) (fun t =>
          (t.seg 0).state == .held && (t.seg 0).hold == some ⟨.A, 3, 60⟩ && (t.entry 3).settle == 50 && (t.seg 0).hostq == [r] &&
            (t.port .A).respq == [⟨1, .ok, false, false, [1]⟩]) = true := by decide +kernel

/-- When SETTLE reaches 0 the follow-on begins with a repeated start, and HOLD is absent. -/
theorem test_follow_on_granted :
    after (.timebaseTick100us []) (scene { memory with settle := 1, inflight := 1 } { idleSeg with
      state := .held, hold := some ⟨.A, 3, 11⟩
      hostq := [⟨.A, 2, 3, 5, .read, 0x0120, [], 1, false, false, false⟩] }) (fun t =>
        (t.seg 0).hold == none && (t.seg 0).current.map (fun c => c.plan) ==
          some [.restart, .send .addr 0xA8, .send .offset 0x01, .send .offset 0x20, .restart, .send .addr 0xA9, .recv false]) = true := by
  decide +kernel

/-! ## 12.4: a hot swap -/

/-- The third failure makes the entry LOST, and its HEALTH notice merges. -/
theorem test_third_failure :
    after (.hostTransactionEnd 0 (.nack 0)) (({ scene { device with state := .suspect, fails := 2, inflight := 1, subsA := ⟨false, true, true⟩ }
      (writing false) with portA := { notices := [⟨.health, .entry 3 5, 0x03, 1⟩] } })) (fun t =>
        (t.entry 3).state == .lost && (t.entry 3).fails == 0 && (t.port .A).notices == [⟨.health, .entry 3 5, 0x04, 2⟩]) = true := by
  decide +kernel

/-- The re-admission finds another SERIAL: GEN moves, the claim is dropped, and the watch is answered REPLACED. -/
theorem test_replaced :
    let a : AdmRec := ⟨.re, .bodyRead, .watch, some 11, none, .active⟩
    let pl : Place := ⟨0, .seven, 0x50, .survey, .fetch⟩
    after (.admissionTransferEnd 0 (.done [1, 0x10, 0x23, 0x01, 0x04, 0x00, 0x02, 0x20, 0, 0]))
      (scene { Entry.vacant 0 with
        state := .probing, place := some pl, adm := some a, inflight := 1, subsA := ⟨false, true, true⟩
        desc := { cls := 0x10, maker := 0x0123, model := 4, serial := 0x1001 }
        claim := .shared, holderB := some ⟨200, 9⟩, watch := some ⟨.A, 6, 20, 7, 20, .none, 3⟩ }
        (running (begun .admission (some 3) (admPlan pl 0xF0 a)))) (fun t =>
          (t.entry 3).gen == 1 && (t.entry 3).claim == .none && (t.entry 3).watch == none &&
            (t.port .A).notices == [⟨.replaced, .entry 3 1, 0, 1⟩] && (t.port .B).notices == [⟨.claimDropped, .entry 3 0, 2, 1⟩] &&
              (t.port .A).respq == [⟨6, .replaced, false, false, [3, 1, 2, 3, 0]⟩]) = true := by decide +kernel

/-! ## 12.5: an orphan attention -/

/-- The last read finds nobody: DISARMED with the re-arm interval, and ORPHAN_ATTENTION with the two reads. -/
theorem test_orphan_attention :
    let e := { device with desc := { caps := 1 }, inflight := 1 }
    after (.sweepReadEnd 0 (.done [0x00])) { scene e { running (begun .sweep (some 3) (sweepPlan spot e.desc)) with
      sattn := true, config := { attnen := true, rearm := 30 }, sweep := ⟨.sweeping, some 0, 0, 1, 0⟩ } with
        portB := { segMasks := Vector.replicate 6 ⟨true, false⟩ } } (fun t =>
          (t.seg 0).sweep == ⟨.disarmed, none, 0, 2, 30⟩ && (t.port .B).notices == [⟨.orphanAttention, .segment 0, 2, 1⟩]) = true := by
  decide +kernel

/-- 08 8.8: the read of an entry that has been retired meanwhile: the byte is discarded, and the last work in flight answers the RETIRE. -/
theorem test_sweep_read_of_retired_entry :
    let e := { device with state := .retiring, inflight := 1, retire := some (.B, 4), desc := { caps := 1, attnmask := 0x80 } }
    after (.sweepReadEnd 0 (.done [0x80])) (scene e { running (begun .sweep (some 3) (sweepPlan spot e.desc)) with
      sattn := true, config := { attnen := true, rearm := 20 }, sweep := ⟨.sweeping, some 3, 0, 1, 0⟩ }) (fun t =>
        t.entry 3 == Entry.vacant 6 && (t.port .B).respq == [⟨4, .ok, false, false, []⟩] && (t.seg 0).sweep.hits == 0 &&
          (t.seg 0).sweep.reads == 2) = true := by decide +kernel

/-- REARMLEFT reaches 0 with the line still asserted: a new sweep in the same step, and its first read on the bus. -/
theorem test_rearm_sweeps_again :
    after (.timebaseTick10ms []) (scene { device with desc := { caps := 1 } } { idleSeg with
      sattn := true, config := { attnen := true, rearm := 30 }, sweep := ⟨.disarmed, none, 0, 2, 1⟩ }) (fun t =>
        (t.seg 0).sweep == ⟨.sweeping, some 0, 0, 0, 0⟩ && (t.seg 0).current.any (fun c => c.kind == .sweep)) = true := by
  decide +kernel

/-! ## States and operands that meet the hypotheses of the statements -/

/-! ### Request ports -/

def portA (r : PortRec) : State := { State.reset with portA := r }

theorem witness_ExchangesBeginAndAreDecided :
    ((State.reset.port .A).cs = false ∧ (State.reset.port .B).cs = false) ∧
    (let s := portA { cs := true, exchange := .lead, latch := some (.summaryByte 0x48 1) }
     (s.port .A).exchange = .lead ∧ (s.port .A).latch = some (.summaryByte 0x48 1)) ∧
    (∀ b ∈ [(0x00 : Byte), 0x05, 0x09, 0x0B, 0xFF], b ∉ [(0x01 : Byte), 0x02, 0x03, 0x04, 0x0A]) ∧
    (∀ x ∈ [Exchange.none, .lead, .ignored],
      ((portA { cs := true, exchange := x }).port .A).exchange ∈ [Exchange.none, .lead, .ignored]) := by decide

/-- A response of five bytes and one of its tag outstanding. -/
def answer : Response := ⟨7, .ok, false, false, []⟩

theorem witness_TakesDeliverWholeOrNotAtAll :
    (let s := portA { exchange := .takeResponse, latch := some (.response answer), respq := [answer] }
     (s.port .A).exchange = .takeResponse ∧ (s.port .A).latch = some (.response answer) ∧ (s.port .A).respq = answer :: [] ∧
       (responseFrame answer).length ≤ 5 ∧ 4 < (responseFrame answer).length) ∧
    ((portA { exchange := .takeResponse, latch := some .marker }).port .A).latch = some .marker ∧
    (let n : Notice := ⟨.health, .entry 3 5, 3, 1⟩
     let s := portA { exchange := .takeNotice, latch := some (.notice n 0), notices := [n] }
     (s.port .A).exchange = .takeNotice ∧ (s.port .A).latch = some (.notice n 0) ∧ (s.port .A).notices = n :: [] ∧ n.kind = .health ∧
       n.subject = .entry 3 5) ∧
    (let s := portA { exchange := .lead, latch := some (.summaryByte 0x48 0), notices := [⟨.health, .entry 3 5, 3, 1⟩] }
     (s.port .A).notices = ⟨.health, .entry 3 5, 3, 1⟩ :: [] ∧ (s.port .A).latch = some (.summaryByte 0x48 0)) ∧
    ((portA { exchange := .takeNotice, latch := some .marker }).port .A).latch = some .marker ∧
    (let s := portA { exchange := .summary, latch := some (.report [0x38, 1, 0, 16] true true false) }
     (s.port .A).exchange = .summary ∧ (s.port .A).latch = some (.report [0x38, 1, 0, 16] true true false)) := by decide +kernel

/-- 10 R170, R163: a posting that merges into the head after chip select has fallen, and before the lead byte is complete, is in the frame and keeps the
notice at the head with MERGE 1. -/
theorem test_merge_before_lead_byte_counts :
    let n : Notice := ⟨.health, .entry 3 5, 3, 1⟩
    let begins := (portA { notices := [n] }).modPort .A PortRec.beginExchange
    let merged := begins.post .A .health (.entry 3 5) 4
    after (.leadByte .A 0x03) merged (fun t => (t.port .A).latch == some (.notice ⟨.health, .entry 3 5, 4, 2⟩ 1) &&
      after (.takeNotice .A 8) t (fun u => (u.port .A).notices == [⟨.health, .entry 3 5, 4, 1⟩])) = true := by decide +kernel

/-- Some tags FREE, none, or all. -/
def noTags : Vector Bool 8 := Vector.replicate 8 true
def someTags : Vector Bool 8 := (Vector.replicate 8 false).set 2 true

/-- Every one of the seven tests is failed by some bytes; then bytes that are changed. -/
theorem witness_BadFramesRejected :
    (submitting.port .A).exchange = .submit ∧ frameReason someTags [] = some .cut ∧
    frameReason someTags [3, 0, 0] = some .length ∧ frameReason someTags (45 :: List.replicate 44 0) = some .length ∧
    frameReason someTags [5, 0, 0x61, 2] = some .cut ∧ frameReason someTags [5, 0, 0x61, 2, 0xA0, 0] = some .length ∧
    frameReason someTags [5, 0, 0x61, 2, 0xA1] = some .check ∧ frameReason someTags (requestFrame 8 0x61 [2]) = some .badTag ∧
    frameReason noTags (requestFrame 7 0x61 [2]) = some .noTag ∧ frameReason someTags (requestFrame 2 0x61 [2]) = some .tagInUse ∧
    frameReason someTags (requestFrame 0 0x61 [2]) = none ∧
    (∀ i ∈ [1, 4], 1 ≤ i ∧ i < [(2 : Byte)].length + 4 ∧ (0xFF : Byte) ≠ (requestFrame 0 0x61 [2]).getD i 0) ∧
    (let longest : List Byte := List.replicate 40 0
     longest.length ≤ 40 ∧ 43 < longest.length + 4 ∧ (requestFrame 0 0x30 longest).getD 43 0 + 1 ≠ (requestFrame 0 0x30 longest).getD 43 0) := by
  decide +kernel

theorem witness_RequestTakesItsTag :
    requestOf (.segmentEnable .A 8 [2]) = some (.A, 8, [2]) ∧ 8 ≤ (8 : Byte).toNat ∧
    (requestOf (.write .A (byte 7) (List.replicate 40 0))).any (fun r => r.2.2.length ≤ 40) = true ∧
    (submitting.port .A).exchange = .submit ∧ (submitting.port .A).tags[7] = false ∧
    (let s := portA { exchange := .submit, tags := noTags }
     (s.port .A).exchange = .submit ∧ ∀ u : Tag, (s.port .A).tags[u.val] = true) ∧
    (let s := portA { exchange := .submit, tags := someTags }
     (s.port .A).exchange = .submit ∧ (s.port .A).tags[0] = false ∧ (s.port .A).tags[2] = true) := by decide +kernel

theorem witness_PortAnswersBadRequestsItself :
    Ready submitting .A 2 ∧ requestOf (.ping .A (byte 2) [48, 0, 0]) = some (.A, byte 2, [48, 0, 0]) ∧
    (Instr.ping .A (byte 2) [48, 0, 0]).wf = false ∧ (Instr.ping .A (byte 2) []).wf = false ∧
    (Instr.segmentReset .A (byte 2) [6] ⟨37, []⟩).wf = false ∧ (⟨37, []⟩ : Progress).wf = true ∧
    (0x00 : Byte) ∉ commandCodes ∧ (0x0F : Byte) ∉ commandCodes ∧ (0x71 : Byte) ∉ commandCodes :=
  ⟨⟨rfl, by decide⟩, rfl, by decide, by decide, by decide, by decide, by decide, by decide, by decide⟩

theorem witness_PortSetupReplacesMask : Ready submitting .A 7 ∧ (3 : Byte).toNat < 4 ∧ 4 ≤ (4 : Byte).toNat :=
  ⟨⟨rfl, by decide⟩, by decide, by decide⟩

/-! ### Notices and what is kept -/

def health (h : Handle) (merge : Nat) : Notice := ⟨.health, .entry h 0, 3, merge⟩

theorem witness_PostingMergesAppendsOrDrops :
    ((portA { notices := [health 0 1, health 1 255] }).port .A).notices = [health 0 1] ++ health 1 255 :: [] ∧
    (health 1 255).kind = .health ∧ (health 1 255).subject = .entry 1 0 ∧ distinctNotices [health 0 1, health 1 255] ∧
    (let few := (List.finRange 48).take 15 |>.map (fun h => health h 1)
     few.length < 16 ∧ ∀ n ∈ few, ¬(n.kind = .health ∧ n.subject = .entry 47 0)) ∧
    (let full := (List.finRange 48).take 16 |>.map (fun h => health h 1)
     16 ≤ full.length ∧ ∀ n ∈ full, ¬(n.kind = .health ∧ n.subject = .entry 47 0)) := by
  refine ⟨rfl, rfl, rfl, ?_, by decide +kernel, by decide +kernel⟩
  simp [distinctNotices, health]

/-- A part in use: two notices wait, the second latched, while a SUBMIT has come in. -/
def noticed : State :=
  { scene device idleSeg with
    portB := { notices := [health 0 1, health 1 255], exchange := .takeNotice, latch := some (.notice (health 0 1) 3) }
    pending := [.segmentEnable .A 0 [0], .takeNotice .B 8] }

theorem witness_NoticeListsKept : (∀ p, (noticed.port p).NoticesOk) ∧ ∃ t, step noticed = .next t := by
  refine ⟨fun p => ?_, _, rfl⟩
  cases p
  · exact ⟨⟨by decide, .nil, by intro n hn; cases hn⟩, by intro l hl; cases hl⟩
  · refine ⟨⟨by decide, by simp [noticed, State.port, distinctNotices, health], by decide⟩, ?_⟩
    intro l hl
    cases hl
    simp [Latch.mergesOk]

/-- Port B holds SHARED, Port A waits for EXCLUSIVE; a tick is due. -/
def shared : Entry := { device with claim := .shared, holderB := some ⟨255, 1⟩, waiter := some ⟨.A, .exclusive, 100, 1, 2⟩ }

def sharing : State := { scene shared idleSeg with pending := [.timebaseTick10ms []] }

theorem sharing_entry (h : Handle) : sharing.entry h = if h = 3 then shared else Entry.vacant 0 :=
  scene_entry shared idleSeg h

theorem vacant_claims (g : Gen) : (Entry.vacant g).ClaimsOk := ⟨fun _ => ⟨rfl, rfl⟩, nofun, nofun, fun _ => ⟨rfl, rfl⟩⟩

theorem witness_ClaimsKept :
    (∀ h, (sharing.entry h).ClaimsOk) ∧ (∀ h, (sharing.entry h).WaiterOk) ∧ ∃ t, step sharing = .next t := by
  refine ⟨fun h => ?_, fun h => ?_, _, rfl⟩ <;> rw [sharing_entry] <;> split
  · exact ⟨nofun, nofun, fun _ => .inr rfl, by decide⟩
  · exact vacant_claims 0
  · intro w hw
    cases hw
    exact ⟨rfl, .inl rfl⟩
  · intro w hw
    cases hw

theorem witness_LeasesKept : (∀ h, (sharing.entry h).LeasesOk) ∧ ∃ t, step sharing = .next t := by
  refine ⟨fun h => ?_, _, rfl⟩
  rw [sharing_entry]
  split
  · refine ⟨fun p hr hh => ?_, by decide⟩
    cases p
    · cases hh
    · cases hh; decide
  · refine ⟨fun p hr hh => ?_, nofun⟩
    cases p <;> cases hh

/-- A SUSPECT entry with FAILS 2 of 3. -/
def doubtful : Entry := { device with state := .suspect, fails := 2 }

/-- It, and a limit of 1 asked for. -/
def failing : State := { scene doubtful idleSeg with pending := [.setLimits .A 0 [1]] }

theorem failing_entry (h : Handle) : failing.entry h = if h = 3 then doubtful else Entry.vacant 0 :=
  scene_entry doubtful idleSeg h

theorem witness_HealthKept : failing.HealthOk ∧ ∃ t, step failing = .next t := by
  refine ⟨⟨by decide, by decide, fun h => ?_⟩, _, rfl⟩
  rw [failing_entry]
  split
  · show Entry.FailsOk 3 doubtful
    simp [Entry.FailsOk, doubtful]
  · simp [Entry.FailsOk, Entry.vacant]

theorem witness_IndexKept :
    let s : State := { scene device idleSeg with pending := [.admitDevice .A 0 [0, 0, 0, 0x21, 1, 7]] }
    s.IndexOk ∧ ∃ t, step s = .next t := by
  have h := scene_index device idleSeg (by decide) (by decide)
  exact ⟨⟨h.place, h.record, h.single⟩, _, rfl⟩

/-- Six transactions wait, and a seventh is asked for. -/
theorem witness_SegmentsKept :
    let s : State := { scene { device with inflight := 6 } { writing true with hostq := List.replicate 6 (work .read false false) } with
      pending := [.ping .A 0 [3, 5, 0]] }
    (∀ g, (s.seg g).Ok) ∧ (s.seg 0).state = .active ∧ ∃ t, step s = .next t := by
  refine ⟨fun g => ⟨?_, ?_, ?_⟩, rfl, _, rfl⟩ <;> revert g <;> decide +kernel

/-- Port B's WRITE is on the bus, its PING waits, and a response of its waits in RESPQ; the WRITE ends. -/
def busy : State :=
  { scene { device with inflight := 2 } { running (begun .host (some 3) (txPlan spot {} (work .write true true))) with
      hostq := [work .write true true, { work .ping false false with tag := 5 }] } with
    portB := { tags := (((Vector.replicate 8 false).set 5 true).set 6 true).set 7 true, respq := [⟨7, .ok, false, false, []⟩] }
    pending := [.hostTransactionEnd 0 (.done [])] }

theorem busy_entry (h : Handle) : busy.entry h = if h = 3 then { device with inflight := 2 } else Entry.vacant 0 :=
  scene_entry { device with inflight := 2 } (busy.seg 0) h

theorem busy_hold : ∀ g, (busy.seg g).hold = none := by decide +kernel

theorem busy_works : busy.WorkOk where
  segs g := by refine ⟨?_, ?_, ?_⟩ <;> revert g <;> decide +kernel
  vacant h := by rw [busy_entry]; split <;> simp [device, Entry.vacant]
  record h := by rw [busy_entry]; split <;> simp [device, Entry.vacant]
  first h a ha := by rw [busy_entry] at ha; split at ha <;> cases ha
  planned h a ha := by rw [busy_entry] at ha; split at ha <;> cases ha
  bus := by decide +kernel
  queue := by decide +kernel
  hold g ho hh := by rw [busy_hold] at hh; cases hh
  count := by decide +kernel

theorem witness_InflightKept : busy.WorkOk ∧ (busy.entry 3).inflight = 2 ∧ ∃ t, step busy = .next t := ⟨busy_works, rfl, _, rfl⟩

theorem witness_TagsKept : busy.WorkOk ∧ busy.TagsOk ∧ ∃ t, step busy = .next t := by
  refine ⟨busy_works, ⟨by intro p; cases p <;> decide +kernel, fun h hr => ?_, fun h hr => ?_, fun h a ha => ?_, fun p r hr => ?_⟩, _, rfl⟩
  · rw [busy_entry] at hr ⊢; split at hr <;> cases hr
  · rw [busy_entry] at hr; split at hr <;> cases hr
  · rw [busy_entry] at ha; split at ha <;> cases ha
  · cases p <;> cases hr

/-! ### The directory -/

def asked : AdmitArgs := ⟨5, .ten, 0x3FF, .fetch, ⟨true, true, true⟩⟩

/-- Only the last entry is VACANT; a segment that is OFF, STUCK, or on. -/
def almostCrowded (st : SegState) : State := (crowded.setEntry 47 (Entry.vacant 0)).setSeg 5 { state := st }

theorem almostCrowded_entry (st : SegState) (h : Handle) :
    (almostCrowded st).entry h = if h = 47 then Entry.vacant 0 else crowd h := by
  simp only [almostCrowded, State.entry_setSeg, State.entry_setEntry, crowded_entry]

theorem almostCrowded_index (st : SegState) : (almostCrowded st).IndexOk := by
  refine ⟨fun h => ?_, fun h => ?_, fun h k pl pl' h₁ h₂ _ _ ha => ?_⟩
  · rw [almostCrowded_entry]; split <;> simp [crowd, Entry.vacant]
  · rw [almostCrowded_entry]; split <;> simp [crowd, Entry.vacant]
  · rw [almostCrowded_entry] at h₁ h₂
    split at h₁ <;> split at h₂ <;> simp_all only [crowd, Entry.vacant, Option.some.injEq, reduceCtorEq]
    subst h₁ h₂
    simp only at ha
    exact Fin.ext (by omega)

theorem witness_AdmitTakesAnEntryOrIsRefused :
    addrInRange asked.amode asked.addr = true ∧
    (Ready (almostCrowded .idle) .A 7 ∧ (∀ k, ((almostCrowded .idle).entry k).at asked.seg asked.amode asked.addr = false) ∧
      ((almostCrowded .idle).entry 47).state = .vacant ∧ (∀ k, k < 47 → ((almostCrowded .idle).entry k).state ≠ .vacant) ∧
      ((almostCrowded .idle).seg asked.seg).state ≠ .off ∧ ((almostCrowded .idle).seg asked.seg).state ≠ .stuck) ∧
    (Ready crowded .A 0 ∧ crowded.IndexOk ∧ (crowded.entry 47).at 0 .ten 0x12F = true ∧ addrInRange .ten 0x12F = true ∧
      (∀ k, (crowded.entry k).at asked.seg asked.amode asked.addr = false) ∧ ∀ k, (crowded.entry k).state ≠ .vacant) ∧
    ((almostCrowded .off).IndexOk ∧ ((almostCrowded .off).seg asked.seg).state = .off) ∧
    ((almostCrowded .stuck).IndexOk ∧ ((almostCrowded .stuck).seg asked.seg).state = .stuck) := by
  refine ⟨by decide, ⟨⟨rfl, by decide⟩, ?_, ?_, ?_, by decide +kernel, by decide +kernel⟩,
    ⟨⟨rfl, by decide⟩, crowded_index, ?_, by decide, ?_, ?_⟩, ⟨almostCrowded_index _, by decide +kernel⟩,
    ⟨almostCrowded_index _, by decide +kernel⟩⟩ <;>
    simp only [almostCrowded_entry, crowded_entry] <;> decide +kernel

/-- The device, being retired or with a claim. -/
def retiring : Entry := { Entry.vacant 15 with state := .retiring, place := some spot, inflight := 0, retire := some (.A, 7) }

/-- The entry has a holder, a WAITER and a watch, is under a first admission, or holds the bus; or it is being retired. -/
theorem witness_RetireRefusedOrEndsEverything :
    ¬(((scene device idleSeg).entry 3).gen = 6 ∧ ((scene device idleSeg).entry 3).state ≠ .vacant) ∧
    (((scene retiring idleSeg).entry 3).gen = 15 ∧ ((scene retiring idleSeg).entry 3).state = .retiring) ∧
    (let e := { device with claim := .exclusive, holderB := some ⟨1, 1⟩ }
     ((scene e idleSeg).entry 3).claim = .exclusive ∧ (((scene e idleSeg).entry 3).holder Port.A.other).isSome = true) ∧
    (∀ w ∈ [none, some ⟨.A, .exclusive, 9, 9, 1⟩], ∀ o ∈ [none, some ⟨.B, 1, 5, 5, 0, .due, 0⟩],
      ∀ a ∈ [none, some ⟨.first, .probe, .byAdmit (some (.B, 4)), none, none, .waiting⟩],
      ∀ r ∈ [idleSeg, { idleSeg with state := .held, hold := some ⟨.B, 3, 20⟩ }],
        let e := { shared with state := if a.isSome then .probing else .suspect, waiter := w, watch := o, adm := a }
        Ready (scene e r) .A 2 ∧ (scene e r).IndexOk ∧ (scene e r).entry 3 = e ∧ e.place = some spot ∧ e.state ≠ .vacant ∧
          e.state ≠ .retiring ∧ ¬(e.claim = .exclusive ∧ (e.holder Port.A.other).isSome = true)) ∧
    ¬(((scene shared idleSeg).seg spot.seg).state = .held ∧ ∃ ho ∈ ((scene shared idleSeg).seg spot.seg).hold, ho.entry = 3) ∧
    (let s := scene shared { idleSeg with state := .held, hold := some ⟨.B, 3, 20⟩ }
     (s.seg spot.seg).state = .held ∧ (s.seg spot.seg).hold = some ⟨.B, 3, 20⟩) ∧
    ((scene retiring idleSeg).entry 3).ClaimsOk ∧ ((scene retiring idleSeg).entry 3).state = .retiring ∧
    ((scene retiring idleSeg).entry 3).inflight = 0 := by
  refine ⟨by decide, by decide, by decide, fun w _ o _ a ha r _ => ⟨scene_ready _ _ _, scene_index _ _ ?_ ?_, rfl, rfl, ?_, ?_, nofun⟩, nofun, ⟨rfl, rfl⟩,
    ⟨fun _ => ⟨rfl, rfl⟩, nofun, nofun, fun _ => ⟨rfl, rfl⟩⟩, by decide, by decide⟩ <;>
    simp only [List.mem_cons, List.not_mem_nil, or_false] at ha <;> rcases ha with rfl | rfl <;> simp [shared, device, spot]

theorem witness_LookupAnswers :
    Ready (scene device idleSeg) .A 0 ∧ (scene device idleSeg).IndexOk ∧ addrInRange .seven 0x20 = true ∧
    addrInRange .seven 0x08 = true ∧ addrInRange .seven 0x77 = true ∧ addrInRange .ten 0 = true ∧ addrInRange .ten 0x3FF = true ∧
    ((scene device idleSeg).entry 3).at 0 .seven 0x20 = true ∧ (∀ h, ((scene device idleSeg).entry h).at 0 .seven 0x77 = false) ∧
    wfPlace 6 0 0 0x20 = false ∧ wfPlace 0 2 0 0x20 = false ∧ wfPlace 0 0 0 0x78 = false ∧ wfPlace 0 1 4 0 = false :=
  ⟨scene_ready _ _ _, scene_index _ _ (by decide) (by decide), by decide, by decide, by decide, by decide, by decide, by decide,
    by decide +kernel, by decide, by decide, by decide, by decide⟩

theorem witness_ListAndReadEntryAnswer :
    Ready (scene device idleSeg) .A 0 ∧ 1 ≤ 1 ∧ 6 ≤ 6 ∧
    (((scene device idleSeg).entry 3).gen = 5 ∧ ((scene device idleSeg).entry 3).state ≠ .vacant) ∧
    ¬(((scene device idleSeg).entry 47).gen = 0 ∧ ((scene device idleSeg).entry 47).state ≠ .vacant) ∧
    ¬(((scene device idleSeg).entry 3).gen = 4 ∧ ((scene device idleSeg).entry 3).state ≠ .vacant) :=
  ⟨scene_ready _ _ _, by decide, by decide, by decide, by decide, by decide⟩

theorem witness_SubscriptionsReplaceMasks :
    Ready (scene device idleSeg) .A 0 ∧
    (((scene device idleSeg).entry 3).gen = 5 ∧ ((scene device idleSeg).entry 3).state ≠ .vacant ∧
      ((scene device idleSeg).entry 3).state ≠ .retiring) ∧
    ¬(((scene device idleSeg).entry 3).gen = 15 ∧ ((scene device idleSeg).entry 3).state ≠ .vacant) ∧
    (((scene retiring idleSeg).entry 3).gen = 15 ∧ ((scene retiring idleSeg).entry 3).state = .retiring) :=
  ⟨scene_ready _ _ _, by decide, by decide, by decide⟩

/-! ### Claims -/

/-- The entry held EXCLUSIVE by one port or the other. -/
def heldA : Entry := { device with claim := .exclusive, holderA := some ⟨20, 20⟩ }
def heldB : Entry := { device with claim := .exclusive, holderB := some ⟨20, 20⟩ }

theorem heldA_claims : heldA.ClaimsOk := ⟨nofun, fun _ => by decide, nofun, by decide⟩
theorem heldB_claims : heldB.ClaimsOk := ⟨nofun, fun _ => by decide, nofun, by decide⟩
theorem shared_claims : shared.ClaimsOk := ⟨nofun, nofun, fun _ => .inr rfl, by decide⟩
theorem device_claims : device.ClaimsOk := ⟨fun _ => ⟨rfl, rfl⟩, nofun, nofun, fun _ => ⟨rfl, rfl⟩⟩

/-- Nobody holds, the requester holds, the other port holds, the other port holds and waits, or the requester waits. -/
theorem witness_ClaimDecided :
    (∀ e ∈ [device, heldA, heldB, shared],
      Ready (scene e idleSeg) .A 2 ∧ ((scene e idleSeg).entry 3).ClaimsOk ∧ ((scene e idleSeg).entry 3).state ≠ .vacant ∧
        ((scene e idleSeg).entry 3).state ≠ .retiring) ∧
    (∃ w, shared.waiter = some w ∧ w.port = .A) ∧ (∀ w ∈ device.waiter, w.port ≠ .A) ∧ (∀ w ∈ heldB.waiter, w.port ≠ .A) ∧
    device.holder Port.A.other = none ∧
    (heldA.claim = .exclusive ∧ (heldA.holder .A).isSome = true ∧ heldA.holder Port.A.other = none) ∧
    ¬(heldB.holder Port.A.other = none ∨ (heldB.claim = .shared ∧ ClaimMode.shared = .shared)) ∧
    (let e := { heldA with waiter := some ⟨.B, .shared, 9, 9, 1⟩ }
     e.waiter.isSome = true ∧ (∀ w ∈ e.waiter, w.port ≠ .A)) ∧
    (let e := { heldB with waiter := some ⟨.B, .shared, 9, 9, 1⟩ }
     e.waiter.isSome = true ∧ (∀ w ∈ e.waiter, w.port ≠ .A) ∧
       ¬(e.holder Port.A.other = none ∨ (e.claim = .shared ∧ ClaimMode.shared = .shared))) := by
  refine ⟨fun e he => ⟨scene_ready _ _ _, ?_⟩, ⟨_, rfl, rfl⟩, by decide, by decide, by decide, by decide, by decide, by decide, by decide⟩
  rw [scene_entry, if_pos rfl]
  simp only [List.mem_cons, List.not_mem_nil, or_false] at he
  rcases he with rfl | rfl | rfl | rfl
  · exact ⟨device_claims, by decide, by decide⟩
  · exact ⟨heldA_claims, by decide, by decide⟩
  · exact ⟨heldB_claims, by decide, by decide⟩
  · exact ⟨shared_claims, by decide, by decide⟩

theorem witness_RenewRestoresLease :
    Ready (scene heldA idleSeg) .A 2 ∧ 48 ≤ (48 : Byte).toNat ∧ 16 ≤ (16 : Byte).toNat ∧
    ¬(((scene heldA idleSeg).entry 3).gen = 4 ∧ ((scene heldA idleSeg).entry 3).state ≠ .vacant) ∧
    (((scene retiring idleSeg).entry 3).gen = 15 ∧ ((scene retiring idleSeg).entry 3).state = .retiring) ∧
    (((scene heldA idleSeg).entry 3).gen = 5 ∧ ((scene heldA idleSeg).entry 3).state ≠ .vacant ∧
      ((scene heldA idleSeg).entry 3).state ≠ .retiring ∧ ((scene heldA idleSeg).entry 3).holder .A = some ⟨20, 20⟩) ∧
    ((scene heldB idleSeg).entry 3).holder .A = none :=
  ⟨scene_ready _ _ _, by decide, by decide, by decide, by decide, by decide, by decide⟩

theorem witness_StaleAndGoneRefused :
    Ready (scene device idleSeg) .A 2 ∧ Ready (scene retiring idleSeg) .A 2 ∧
    ¬(((scene device idleSeg).entry 3).gen = 6 ∧ ((scene device idleSeg).entry 3).state ≠ .vacant) ∧
    ¬(((scene device idleSeg).entry 47).gen = 0 ∧ ((scene device idleSeg).entry 47).state ≠ .vacant) ∧
    (((scene retiring idleSeg).entry 3).gen = 15 ∧ ((scene retiring idleSeg).entry 3).state = .retiring) ∧
    (1 ≤ 1 ∧ 255 ≤ 255) :=
  ⟨scene_ready _ _ _, scene_ready _ _ _, by decide, by decide, by decide, by decide⟩

/-- A WRITE of Port A to the entry is on the bus. -/
def ownWork : HostTx := ⟨.A, 6, 3, 5, .write, 0x0044, [1, 2], 0, true, true, false⟩
def ownWriting : Segment := { running (begun .host (some 3) (txPlan spot {} ownWork)) with hostq := [ownWork] }

theorem own_on_bus : HostOnBus (scene heldA ownWriting) 0 (begun .host (some 3) (txPlan spot {} ownWork)) [] ownWork [] :=
  ⟨⟨rfl, rfl, rfl, rfl⟩, rfl, rfl, nofun, rfl⟩

theorem witness_ReleaseEndsClaim :
    (∀ e ∈ [heldA, { heldA with waiter := some ⟨.B, .exclusive, 9, 9, 1⟩ }],
      ∀ r ∈ [idleSeg, { idleSeg with state := .held, hold := some ⟨.A, 3, 20⟩ }, ownWriting],
        Ready (scene e r) .A 2 ∧ ((scene e r).entry 3).place = some spot ∧ ((scene e r).entry 3).state ≠ .vacant ∧
          ((scene e r).entry 3).state ≠ .retiring ∧ (((scene e r).entry 3).holder .A).isSome = true) ∧
    ((scene heldB idleSeg).entry 3).holder .A = none ∧
    (∀ left, ((scene heldA idleSeg).seg 0).state = .held → ((scene heldA idleSeg).seg 0).hold ≠ some ⟨.A, 3, left⟩) ∧
    (∀ u ∈ ((scene heldA idleSeg).seg 0).hostq, u.active = true → ¬(u.port = .A ∧ u.handle = 3)) ∧
    HostOnBus (scene heldA ownWriting) 0 (begun .host (some 3) (txPlan spot {} ownWork)) [] ownWork [] := by
  refine ⟨fun e he r _ => ⟨scene_ready _ _ _, ?_⟩, by decide, nofun, by decide, own_on_bus⟩
  simp only [List.mem_cons, List.not_mem_nil, or_false] at he
  rcases he with rfl | rfl <;> exact ⟨rfl, nofun, nofun, rfl⟩

theorem witness_WaiterGranted :
    (∀ m ∈ [ClaimMode.exclusive, .shared],
      let e := { device with waiter := some ⟨.A, m, 1, 1, 0⟩ }
      ((scene e idleSeg).entry 3).waiter = some ⟨.A, m, 1, 1, 0⟩ ∧ ((scene e idleSeg).entry 3).holder Port.A.other = none) ∧
    (((scene shared idleSeg).entry 3).waiter = some ⟨.A, .exclusive, 100, 1, 2⟩ ∧
      (((scene shared idleSeg).entry 3).holder Port.A.other).isSome = true) := by decide

/-- Port A is reset, as the only holder with Port B waiting, or beside Port B; it may hold the segment. -/
theorem witness_PortResetLeavesNothing :
    ∀ e ∈ [heldA, { heldA with waiter := some ⟨.B, .exclusive, 9, 9, 1⟩ }, shared],
      ∀ r ∈ [idleSeg, { idleSeg with state := .held, hold := some ⟨.A, 3, 20⟩ }],
        let s := (scene e r).setPort .A { cs := true, exchange := .portReset }
        (s.port .A).exchange = .portReset ∧ (s.entry 3).state ≠ .retiring ∧ s.entry 3 = e ∧ ∀ h, (s.entry h).ClaimsOk := by
  intro e he r _
  simp only [List.mem_cons, List.not_mem_nil, or_false] at he
  refine ⟨rfl, ?_, rfl, fun h => ?_⟩
  · rcases he with rfl | rfl | rfl <;> nofun
  · rw [State.entry_setPort, scene_entry]
    split
    · rcases he with rfl | rfl | rfl
      · exact heldA_claims
      · exact ⟨nofun, fun _ => by decide, nofun, by decide⟩
      · exact shared_claims
    · exact ⟨fun _ => ⟨rfl, rfl⟩, nofun, nofun, fun _ => ⟨rfl, rfl⟩⟩

/-- 03 R65: the waiting port is granted SHARED before the freed segment's arbiter chooses, so its queued WRITE meets CLAIM_LOST. -/
theorem test_port_reset_grants_before_choosing :
    after (.portReset .A) ((scene { heldA with waiter := some ⟨.B, .shared, 9, 9, 1⟩, inflight := 1 }
      { state := .held, hold := some ⟨.A, 4, 20⟩, hostq := [work .write false false] }).setPort .A { cs := true, exchange := .portReset }) (fun t =>
        (t.port .B).respq == [⟨1, .ok, false, false, [2, 9]⟩, ⟨6, .claimLost, false, false, [0]⟩] && (t.seg 0).state == .idle) = true := by
  decide +kernel

/-- Port A's lease has run out, with Port B waiting; its claim may go with a hold of the segment or with a transaction on the bus. -/
def lapsing : Entry := { heldA with holderA := some ⟨20, 0⟩, waiter := some ⟨.B, .exclusive, 9, 9, 1⟩ }

theorem witness_CountersAtZeroTakeEffect :
    ((scene { shared with waiter := some ⟨.A, .exclusive, 100, 0, 2⟩ } idleSeg).entry 3).waiter = some ⟨.A, .exclusive, 100, 0, 2⟩ ∧
    (∀ r ∈ [idleSeg, { idleSeg with state := .held, hold := some ⟨.A, 3, 20⟩ }, ownWriting],
      ((scene lapsing r).entry 3).place = some spot ∧ ((scene lapsing r).entry 3).holder .A = some ⟨20, 0⟩) ∧
    (∀ left, ((scene lapsing idleSeg).seg 0).state = .held → ((scene lapsing idleSeg).seg 0).hold ≠ some ⟨.A, 3, left⟩) ∧
    (∀ u ∈ ((scene lapsing idleSeg).seg 0).hostq, u.active = true → ¬(u.port = .A ∧ u.handle = 3)) ∧
    (((scene device idleSeg).entry 3).settle = 0 ∧ ((scene device idleSeg).entry 3).place = some spot) ∧
    (let s := scene device { idleSeg with state := .held, hold := some ⟨.A, 3, 0⟩ }
     (s.seg 0).state = .held ∧ (s.seg 0).hold = some ⟨.A, 3, 0⟩) ∧
    HostOnBus (scene lapsing ownWriting) 0 (begun .host (some 3) (txPlan spot {} ownWork)) [] ownWork [] :=
  ⟨by decide, by decide, nofun, by decide, by decide, by decide, ⟨⟨rfl, rfl, rfl, rfl⟩, rfl, rfl, nofun, rfl⟩⟩

/-! ### The timebase -/

/-- Everything that a tick counts stands at `n`. -/
def counting (n : Nat) : State :=
  scene { heldA with
      state := .suspect, fails := 1, holderA := some ⟨20, n⟩, waiter := some ⟨.B, .shared, 1, n, 1⟩
      watch := some ⟨.A, 1, 5, 5, n, .none, 0⟩, settle := n }
    { idleSeg with config := { rearm := 30 }, sweep := ⟨.disarmed, none, 0, 0, n⟩, state := .held, hold := some ⟨.A, 3, n⟩ }

theorem witness_TicksCount :
    let s := counting 2
    (∀ h p, ∀ hr ∈ (s.entry h).holder p, 2 ≤ hr.lease) ∧ (∀ h, ∀ w ∈ (s.entry h).waiter, 2 ≤ w.wait) ∧
    (∀ h, ∀ w ∈ (s.entry h).watch, w.probe = .none → ((s.entry h).state = .suspect ∨ (s.entry h).state = .lost) → 2 ≤ w.nextdue) ∧
    (∀ g, (s.seg g).sweep.state = .disarmed → 1 ≤ (s.seg g).config.rearm → 2 ≤ (s.seg g).sweep.rearmleft) ∧
    (∀ h, (s.entry h).settle ≠ 1) ∧ (∀ g, (s.seg g).state = .held → ∀ ho ∈ (s.seg g).hold, 2 ≤ ho.left) := by
  refine ⟨fun h p => ?_, by decide +kernel, by decide +kernel, by decide +kernel, by decide +kernel, by decide +kernel⟩
  cases p <;> revert h <;> decide +kernel

/-- One of each event of a 10 ms tick is due, a SETTLE reaches 0, or a HOLDLEFT does. -/
theorem witness_TicksBringAboutWhatIsDue :
    (let due : List Event := [.leaseLapse 3 .A, .waitExpiry 3, .watchProbeDue 3, .rearmExpiry 0]
     due.Nodup ∧ (∀ e, e ∈ due ↔ (counting 1).slowLeft 1 e) ∧ ∀ e, ¬(counting 1).slowLeft 0 e) ∧
    (let s := scene { device with settle := 1 } { idleSeg with state := .held, hold := some ⟨.A, 3, 2⟩ }
     (∀ k, (s.entry k).settle = 1 ↔ k = 3) ∧ ∀ g, (s.seg g).state = .held → ∀ ho ∈ (s.seg g).hold, 2 ≤ ho.left) ∧
    (let s := scene device { idleSeg with state := .held, hold := some ⟨.A, 3, 1⟩ }
     (∀ h, (s.entry h).settle ≠ 1) ∧
       (∀ k, (s.seg k).state = .held → ∀ ho ∈ (s.seg k).hold, 1 ≤ ho.left ∧ (ho.left = 1 ↔ k = 0)) ∧
       (s.seg 0).state = .held ∧ (s.seg 0).hold.isSome = true) ∧
    (let due : List Event := [.settleEnd 3, .holdExpiry 0]
     let s := scene { device with settle := 1 } { idleSeg with state := .held, hold := some ⟨.A, 3, 1⟩ }
     due.Nodup ∧ (∀ e, e ∈ due ↔ s.fastDue e) ∧ ∀ g, (s.seg g).state = .held → ∀ ho ∈ (s.seg g).hold, 1 ≤ ho.left) := by
  refine ⟨⟨by decide, fun e => ?_, fun e => ?_⟩, by decide +kernel, by decide +kernel, by decide, fun e => ?_, by decide +kernel⟩
  · cases e with
    | leaseLapse h p =>
      simp only [counting, State.slowLeft, scene_entry]
      split <;> cases p <;> simp_all [Entry.holder, heldA, device, Entry.vacant]
    | waitExpiry h => simp only [counting, State.slowLeft, scene_entry]; split <;> simp_all [Entry.vacant]
    | watchProbeDue h => simp only [counting, State.slowLeft, scene_entry]; split <;> simp_all [Entry.vacant]
    | rearmExpiry g => revert g; simp only [State.slowLeft]; decide +kernel
    | settleEnd _ | holdExpiry _ | waiterGranted _ | retireComplete _ | arbiterGrant _ => simp [State.slowLeft]
  · cases e with
    | leaseLapse h p =>
      simp only [counting, State.slowLeft, scene_entry]
      split <;> cases p <;> simp_all [Entry.holder, heldA, device, Entry.vacant]
    | waitExpiry h => simp only [counting, State.slowLeft, scene_entry]; split <;> simp_all [Entry.vacant]
    | watchProbeDue h => simp only [counting, State.slowLeft, scene_entry]; split <;> simp_all [Entry.vacant]
    | rearmExpiry g => revert g; simp only [State.slowLeft]; decide +kernel
    | settleEnd _ | holdExpiry _ | waiterGranted _ | retireComplete _ | arbiterGrant _ => simp [State.slowLeft]
  · cases e with
    | settleEnd h => simp only [State.fastDue]; revert h; decide +kernel
    | holdExpiry g => simp only [State.fastDue]; revert g; decide +kernel
    | leaseLapse _ _ | waitExpiry _ | watchProbeDue _ | rearmExpiry _ | waiterGranted _ | retireComplete _ | arbiterGrant _ =>
      simp [State.fastDue]

/-- 05 R111: the SETTLE of HOLDENTRY and HOLDLEFT reach 0 together. Taken first, the SETTLE's end grants the follow-on with a repeated start; the expiry breaks
the chain, and the follow-on begins with a start condition. -/
theorem test_settle_and_hold_race :
    let s := scene { memory with settle := 1, inflight := 1 } { idleSeg with
      state := .held, hold := some ⟨.A, 3, 1⟩, hostq := [⟨.A, 2, 3, 5, .read, 0x0120, [], 1, false, false, false⟩] }
    (after (.timebaseTick100us [.settleEnd 3]) s (fun t => !(t.entry 3).chainA && (t.seg 0).current.any (fun c => c.followOn)) &&
      after (.timebaseTick100us [.holdExpiry 0]) s (fun t => (t.entry 3).chainA && (t.seg 0).current.any (fun c => !c.followOn))) = true := by
  decide +kernel

/-! ### Transfers and the arbiter -/

/-- The longest data a device of MAXBURST 32 takes. -/
def wide : Entry := { device with desc := { maxburst := 32, caps := 3 } }

theorem witness_TransferAccepted :
    Ready (scene wide idleSeg) .A 2 ∧ ((scene wide idleSeg).entry 3).place = some spot ∧ ((scene wide idleSeg).entry 3).state = .present ∧
    ((scene wide idleSeg).seg 0).state ≠ .off ∧ ((scene wide idleSeg).seg 0).state ≠ .stuck ∧
    ((scene wide { idleSeg with hostq := List.replicate 5 (work .read false false) }).seg 0).hostq.length < 6 ∧
    (List.replicate 32 (0 : Byte)).length ≤ ((scene wide idleSeg).entry 3).desc.maxburst ∧
    ((scene wide idleSeg).entry 3).desc.chainCapable = true ∧ device.claim = .none ∧
    (heldA.claim = .exclusive ∧ (heldA.holder .A).isSome = true) ∧ shared.claim = .shared :=
  ⟨scene_ready _ _ _, by decide, by decide, by decide, by decide, by decide, by decide, by decide, by decide, by decide, by decide⟩

/-- Each check of acceptance is the first to fail somewhere. -/
theorem witness_TransferRefused :
    Ready (scene device idleSeg) .A 2 ∧ ¬(((scene device idleSeg).entry 3).gen = 6 ∧ ((scene device idleSeg).entry 3).state ≠ .vacant) ∧
    (∀ st ∈ [EntryState.probing, .lost, .retiring, .present, .suspect],
      let e := { device with state := st }
      ((scene e idleSeg).entry 3).gen = 5 ∧ ((scene e idleSeg).entry 3).place = some spot ∧ ((scene e idleSeg).entry 3).state = st) ∧
    ((scene device { state := .off }).seg 0).state = .off ∧ ((scene device { state := .stuck }).seg 0).state = .stuck ∧
    (heldB.claim = .exclusive ∧ heldB.holder .A = none) ∧ shared.claim = .shared ∧ (1 ≤ 1 ∧ 32 ≤ 32) ∧
    (device.desc.maxburst < (List.replicate 9 (0 : Byte)).length ∧ device.desc.maxburst < 9) ∧
    (¬device.desc.maxburst < (List.replicate 8 (0 : Byte)).length ∧ ¬device.desc.maxburst < 8 ∧ device.desc.chainCapable = false) ∧
    6 ≤ ((scene device { idleSeg with hostq := List.replicate 6 (work .read false false) }).seg 0).hostq.length :=
  ⟨scene_ready _ _ _, by decide, by decide, by decide, by decide, by decide, by decide, by decide, by decide, by decide, by decide⟩

/-- The oldest transaction's entry, 4, is settling; the second may run. -/
def queued (r : Segment) : State :=
  (scene device { r with hostq := [{ work .read false false with handle := 4 }, work .read false false, work .ping false false] }).setEntry 4
    { device with settle := 1, place := some { spot with addr := 0x21 } }

theorem queued_picks (hold : Option Hold) (st : SegState)
    (h : st = .idle ∨ (st = .held ∧ hold = some ⟨.B, 3, 20⟩)) :
    Picks (queued { idleSeg with state := st, hold := hold }) 0 [{ work .read false false with handle := 4 }] (work .read false false)
      [work .ping false false] := by
  refine ⟨rfl, rfl, ?_⟩
  rcases h with rfl | ⟨rfl, rfl⟩
  · exact .inl ⟨rfl, .inl nofun, .inl rfl, by rintro u hu; cases hu with | head => exact nofun | tail _ h => cases h⟩
  · exact .inr ⟨rfl, ⟨20, rfl⟩, by decide⟩

theorem witness_HostTransactionsGranted :
    (let s := queued idleSeg
     (s.seg 0).state = .idle ∧ s.recheck (work .read false false) = none ∧ (s.entry 3).place = some spot ∧
       Picks s 0 [{ work .read false false with handle := 4 }] (work .read false false) [work .ping false false]) ∧
    (let s := queued { idleSeg with state := .held, hold := some ⟨.B, 3, 20⟩ }
     (s.seg 0).state = .held ∧ (s.seg 0).hold = some ⟨.B, 3, 20⟩ ∧ s.recheck (work .read false false) = none ∧
       Picks s 0 [{ work .read false false with handle := 4 }] (work .read false false) [work .ping false false]) ∧
    (let s := queued { idleSeg with state := .held, hold := some ⟨.A, 3, 20⟩ }
     (s.seg 0).hold = some ⟨.A, 3, 20⟩ ∧ ∀ u ∈ (s.seg 0).hostq, ¬(u.port = .A ∧ u.handle = 3)) ∧
    (let s := queued { idleSeg with state := .held, hold := some ⟨.B, 4, 20⟩ }
     (s.seg 0).hold = some ⟨.B, 4, 20⟩ ∧ (s.entry 4).settle ≠ 0) :=
  ⟨⟨rfl, by decide +kernel, rfl, queued_picks none .idle (.inl rfl)⟩,
    ⟨rfl, rfl, by decide +kernel, queued_picks _ .held (.inr ⟨rfl, rfl⟩)⟩, by decide +kernel, by decide +kernel⟩

/-- An entry that a WRITE_READ and a READ of Port B meet, on an IDLE segment or, following on, on a HELD one. -/
theorem witness_RecheckCompletes :
    let t : HostTx := { work .writeRead false true with wdata := List.replicate 9 0, rlen := 9 }
    (∀ (e : Entry) (q : HostTx), e.settle = 0 → q.handle = 3 → q.port = .B →
      Picks (scene e { idleSeg with hostq := [q] }) 0 [] q [] ∧
      Picks (scene e { idleSeg with hostq := [q], state := .held, hold := some ⟨.B, 3, 20⟩ }) 0 [] q []) ∧
    (t.handle = 3 ∧ t.port = .B ∧ (work .read false true).handle = 3) ∧
    (device.gen ≠ { t with gen := 4 }.gen ∧ device.state ≠ .retiring ∧ retiring.gen ≠ { t with gen := 4 }.gen) ∧ device.gen = t.gen ∧
    ({ retiring with inflight := 1 }.state = .retiring ∧ { retiring with inflight := 1 }.EndsOk ∧ 2 ≤ { retiring with inflight := 2 }.inflight) ∧
    (device.state = .present ∧ device.right t.port t.kind = none ∧ device.desc.maxburst < t.wdata.length) ∧
    ((work .read false true).wdata.length ≤ device.desc.maxburst ∧ (work .read false true).rlen ≤ device.desc.maxburst ∧
      (work .read false true).chain = true ∧ device.desc.chainCapable = false) ∧
    heldA.right t.port t.kind ≠ none := by
  refine ⟨fun e q he hq hp => ?_, by decide, by decide, rfl, ⟨rfl, fun _ _ => ⟨rfl, rfl, rfl, rfl⟩, by decide⟩, by decide, by decide, by decide⟩
  exact ⟨⟨rfl, by rw [scene_entry, if_pos hq]; exact he, .inl ⟨rfl, .inl nofun, .inl rfl, nofun⟩⟩,
    ⟨rfl, by rw [scene_entry, if_pos hq]; exact he, .inr ⟨rfl, ⟨20, by rw [hq, hp]; rfl⟩, nofun⟩⟩⟩

/-- The entry has an admission transfer waiting, a watch probe due, or is a sweep's candidate. -/
def waitingAdmission : AdmRec := ⟨.first, .probe, .survey none, none, none, .waiting⟩

theorem witness_BackgroundGranted :
    (let s := scene { device with desc := { caps := 1 } } { idleSeg with sweep := ⟨.sweeping, some 3, 0, 0, 0⟩ }
     (s.seg 0).state = .idle ∧ (s.entry 3).place = some spot ∧ spot.seg = 0 ∧ (s.entry 3).settle = 0 ∧
       (s.seg 0).sweep.state = .sweeping ∧ s.candidate 0 = some 3) ∧
    (let s := scene { device with state := .probing, adm := some waitingAdmission } { idleSeg with nextclass := .background }
     s.noSweepRead 0 ∧ (s.seg 0).nextclass = .background ∧ (s.entry 3).adm = some waitingAdmission ∧
       ∀ k, k < 3 → (s.entry k).onSeg 0 = true → (s.entry k).admWaiting = true → (s.entry k).settle ≠ 0) ∧
    (let s := scene { device with state := .lost, watch := some ⟨.A, 1, 5, 5, 0, .due, 0⟩ } idleSeg
     s.noSweepRead 0 ∧ s.noHost 0 ∧ (s.entry 3).watch = some ⟨.A, 1, 5, 5, 0, .due, 0⟩ ∧ s.noAdmission 0 ∧
       ∀ k, k < 3 → (s.entry k).onSeg 0 = true → (s.entry k).watchDue = true → (s.entry k).settle ≠ 0) ∧
    (∀ st ∈ [EntryState.present, .probing],
      let s := scene { device with state := st, adm := if st = .probing then some { waitingAdmission with planned := .active } else none }
        { idleSeg with survey := some ⟨.A, 1, 0x20, 0x20, 0x20, .waiting, none, 0, 0, 0, 0, false⟩ }
      s.noSweepRead 0 ∧ s.noHost 0 ∧ s.noAdmission 0 ∧ s.noWatchProbe 0 ∧ s.IndexOk ∧ (s.entry 3).at 0 .seven 0x20 = true ∧
        (s.skips 0 0x20 ↔ st = .probing)) ∧
    (∀ h, ((scene device idleSeg).entry h).at 0 .seven 0x77 = false) := by
  refine ⟨by decide +kernel, ⟨.inl nofun, by decide +kernel⟩,
    ⟨.inl nofun, nofun, rfl, by unfold State.noAdmission; decide +kernel, by decide +kernel⟩, fun st hst => ?_, by decide +kernel⟩
  refine ⟨.inl nofun, nofun, ?_, ?_, scene_index _ _ ?_ ?_, ?_, ?_⟩
  · unfold State.noAdmission; revert st; decide +kernel
  · unfold State.noWatchProbe; revert st; decide +kernel
  · revert st; decide +kernel
  · revert st; decide +kernel
  · revert st; decide +kernel
  · unfold State.skips; revert st; decide +kernel

/-- The choice grants the bus, or leaves an IDLE segment with a settling entry's work, and a HELD one with no follow-on. -/
theorem witness_ChoiceGrantsWhatMayRunAndLeavesNothing :
    (let s := queued idleSeg
     (s.seg 0).current = none ∧ ((s.choose 0).seg 0).current = some (begun .host (some 3) (txPlan spot {} (work .read false false)))) ∧
    (let s := (queued { idleSeg with hostq := [] }).setSeg 0 { idleSeg with hostq := [{ work .read false false with handle := 4 }] }
     ((s.choose 0).seg 0).state = .idle ∧ ((s.choose 0).seg 0).hostq ≠ []) ∧
    (let s := queued { idleSeg with state := .held, hold := some ⟨.A, 3, 20⟩ }
     ((s.choose 0).seg 0).state = .held ∧ ((s.choose 0).seg 0).hold = some ⟨.A, 3, 20⟩) := by decide +kernel

/-! ### The bus engine -/

/-- The WRITE of the scene on the bus. -/
def onWire (chain : Bool) : Current := begun .host (some 3) (txPlan spot {} (work .write true chain))

theorem write_on_bus (e : Entry) (chain : Bool) :
    HostOnBus (scene e (writing chain)) 0 (onWire chain) [work .read false false] (work .write true chain) [work .ping false false] :=
  ⟨⟨rfl, rfl, rfl, rfl⟩, rfl, rfl, by decide, rfl⟩

/-- A WRITE_READ on the bus, with its write phase acknowledged and one byte received. -/
def readingBack : HostTx := { work .writeRead true false with wdata := [1], rlen := 2 }

theorem witness_BusFaultsEndHostTransactions :
    let s := scene device (writing false)
    HostOnBus s 0 (onWire false) [work .read false false] (work .write true false) [work .ping false false] ∧
    (sends (onWire false).plan).length = 4 ∧ (onWire false).lost < (s.seg 0).config.arbretry ∧
    writePhaseDone (onWire false).plan 3 = false ∧ (s.seg 0).pendcmd = none ∧ (s.entry 3).EndsOk ∧
    (onWire false).restart = false ∧ (onWire false).acked = 0 ∧ { retiring with inflight := 1 }.EndsOk ∧
    (let s := scene device { writing false with config := { arbretry := 0 } }
     HostOnBus s 0 (onWire false) [work .read false false] (work .write true false) [work .ping false false] ∧
       (s.seg 0).config.arbretry ≤ (onWire false).lost) ∧
    (3 ≤ (sends (onWire false).plan).length ∧ writePhaseDone (onWire false).plan 4 = true) ∧
    (let c := begun .host (some 3) (txPlan spot {} readingBack)
     let s := scene { retiring with inflight := 1 } { running c with hostq := [readingBack] }
     HostOnBus s 0 c [] readingBack [] ∧ (s.entry 3).EndsOk ∧ 4 = (sends c.plan).length ∧ [(7 : Byte)].length ≤ recvs c.plan ∧
       writePhaseDone c.plan 4 = true) :=
  ⟨write_on_bus _ _, by decide, by decide, by decide, rfl, fun _ _ => ⟨rfl, rfl, rfl, rfl⟩, rfl, rfl, fun _ _ => ⟨rfl, rfl, rfl, rfl⟩,
    ⟨⟨⟨rfl, rfl, rfl, rfl⟩, rfl, rfl, by decide, rfl⟩, by decide⟩, by decide,
    ⟨⟨⟨rfl, rfl, rfl, rfl⟩, rfl, rfl, nofun, rfl⟩, fun _ _ => ⟨rfl, rfl, rfl, rfl⟩, by decide, by decide, by decide⟩⟩

theorem witness_HostTransactionEnds :
    (∀ e ∈ [device, { device with state := .suspect, fails := 1 }, { retiring with inflight := 1 }], ∀ chain ∈ [false, true],
      let s := scene e (writing chain)
      HostOnBus s 0 (onWire chain) [work .read false false] (work .write true chain) [work .ping false false] ∧
        (s.seg 0).pendcmd = none ∧ (s.entry 3).EndsOk ∧ (work .write true chain).chain = chain ∧ (onWire chain).claimEnded = false) ∧
    (let c := { onWire true with claimEnded := true }
     let s := scene device { writing true with current := some c }
     HostOnBus s 0 c [work .read false false] (work .write true true) [work .ping false false] ∧ c.claimEnded = true) ∧
    (let t := { work .write true true with orphan := true }
     HostOnBus (scene device { running (onWire true) with hostq := [t] }) 0 (onWire true) [] t [] ∧ t.orphan = true) ∧
    (sends (onWire false).plan)[0]? = some .addr ∧ (sends (onWire false).plan)[1]? = some .offset ∧
    (sends (onWire false).plan)[3]? = some .data := by
  refine ⟨fun e he chain _ => ⟨write_on_bus _ _, rfl, ?_, rfl, rfl⟩, ⟨⟨⟨rfl, rfl, rfl, rfl⟩, rfl, rfl, by decide, rfl⟩, rfl⟩,
    ⟨⟨⟨rfl, rfl, rfl, rfl⟩, rfl, rfl, nofun, rfl⟩, rfl⟩, by decide, by decide, by decide⟩
  rw [scene_entry, if_pos rfl]
  simp only [List.mem_cons, List.not_mem_nil, or_false] at he
  rcases he with rfl | rfl | rfl <;> exact fun _ _ => ⟨rfl, rfl, rfl, rfl⟩

/-- An entry under admission whose transfer is on the bus. -/
def probing (a : AdmRec) (d : DMode) : Entry :=
  { Entry.vacant 5 with state := .probing, place := some { spot with dmode := d }, inflight := 1, adm := some a }

def admitWire (a : AdmRec) : Current := begun .admission (some 3) (admPlan spot 0xF0 a)

/-- The owners an admission may have, and what an entry may have got while PROBING. -/
def sources : List AdmSource := [.byAdmit (some (.A, 2)), .byAdmit none, .survey (some .B), .survey none]

theorem witness_AdmissionProbeEnds :
    (∀ d ∈ [DMode.none, .fetch], ∀ x ∈ sources, ∀ w ∈ [none, some ⟨.A, .exclusive, 9, 9, 2⟩],
      let a : AdmRec := ⟨.first, .probe, x, none, none, .active⟩
      let s := scene { probing a d with claim := .exclusive, holderB := some ⟨9, 9⟩, waiter := w } (running (admitWire a))
      OnBus s 0 (admitWire a) ∧ (s.seg 0).pendcmd = none ∧ (s.entry 3).state = .probing ∧
        (s.entry 3).place = some { spot with dmode := d } ∧ (s.entry 3).adm = some a ∧ (s.entry 3).waiter = w ∧ 1 ≤ (s.entry 3).inflight ∧
        (sends (admitWire a).plan)[0]? = some .addr) ∧
    (let b : AdmRec := ⟨.re, .probe, .watch, none, none, .active⟩
     ∀ d ∈ [DMode.none, .fetch], ∀ o ∈ [none, some ⟨.A, 1, 5, 0, 0, .none, 5⟩, some ⟨.A, 1, 5, 1, 0, .none, 4⟩],
      let s := scene { probing b d with watch := o } (running (admitWire b))
      OnBus s 0 (admitWire b) ∧ (s.seg 0).pendcmd = none ∧ (s.entry 3).state = .probing ∧ (s.entry 3).adm = some b ∧
        (s.entry 3).place = some { spot with dmode := d } ∧ (s.entry 3).watch = o ∧ (∀ w ∈ (s.entry 3).watch, w.probe = .none) ∧
        (sends (admitWire b).plan)[0]? = some .addr) := by
  refine ⟨fun _ _ _ _ _ _ => ⟨⟨rfl, rfl, rfl, rfl⟩, rfl, rfl, rfl, rfl, rfl, Nat.le_refl 1, rfl⟩,
    fun _ _ o ho => ⟨⟨rfl, rfl, rfl, rfl⟩, rfl, rfl, rfl, rfl, rfl, ?_, rfl⟩⟩
  show ∀ w ∈ o, w.probe = .none
  revert o
  decide

/-- The SIZE read, of either kind of admission, gives each SIZE at a boundary; it and the body read meet a byte that is not acknowledged. -/
theorem witness_DescriptorReadsGoOnOrDefault :
    (∀ k ∈ [AdmKind.first, .re], ∀ st ∈ [AdmStep.sizeRead, .bodyRead],
      let a : AdmRec := ⟨k, st, if k = .first then .survey (some .A) else .watch, if st = .bodyRead then some 3 else none, none, .active⟩
      let o : Option Watch := if k = .re then some ⟨.A, 1, 5, 4, 0, .none, 1⟩ else none
      let s := scene { probing a .fetch with watch := o } (running (admitWire a))
      OnBus s 0 (admitWire a) ∧ (s.seg 0).pendcmd = none ∧ (s.entry 3).state = .probing ∧
        (s.entry 3).place = some { spot with dmode := .fetch } ∧ (s.entry 3).adm = some a ∧ a.step = st ∧ a.kind = k ∧ a.step ≠ .probe ∧
        (∀ w ∈ (s.entry 3).watch, w.probe = .none) ∧ 1 ≤ (s.entry 3).inflight ∧ 0 < (sends (admitWire a).plan).length ∧
        (st = .sizeRead → recvs (admitWire a).plan = 1 ∧ ∀ size ∈ [(0 : Byte), 1, 2, 18, 19, 255],
          (receivedAll (admitWire a).plan [size]).getD 0 0 = size)) := by
  intro k hk st hst
  refine ⟨⟨rfl, rfl, rfl, rfl⟩, rfl, rfl, rfl, rfl, rfl, rfl, ?_, ?_, Nat.le_refl 1, ?_, ?_⟩
  · revert k st; decide
  · show ∀ w ∈ (if k = .re then some ⟨.A, 1, 5, 4, 0, .none, 1⟩ else none : Option Watch), w.probe = .none
    revert k; decide
  · revert k st; decide
  · revert k st; decide +kernel

theorem witness_DescriptorRead :
    ∀ size ∈ [(2 : Byte), 18], ∀ x ∈ sources,
      let a : AdmRec := ⟨.first, .bodyRead, x, some size, none, .active⟩
      let s := scene (probing a .fetch) (running (admitWire a))
      OnBus s 0 (admitWire a) ∧ (s.seg 0).pendcmd = none ∧ (s.entry 3).state = .probing ∧
        (s.entry 3).place = some { spot with dmode := .fetch } ∧ (s.entry 3).adm = some a ∧ 2 ≤ size.toNat ∧ size.toNat ≤ 18 := by
  intro size hs _ _
  refine ⟨⟨rfl, rfl, rfl, rfl⟩, rfl, rfl, rfl, rfl, ?_, ?_⟩ <;> revert size <;> decide

theorem witness_ReadmissionEnds :
    let a : AdmRec := ⟨.re, .bodyRead, .watch, some 3, none, .active⟩
    (∀ o ∈ [none, some ⟨.A, 1, 5, 4, 0, .none, 1⟩], ∀ w ∈ [none, some ⟨.A, .exclusive, 9, 9, 2⟩],
      let s := scene { probing a .fetch with watch := o, claim := .exclusive, holderB := some ⟨9, 9⟩, waiter := w } (running (admitWire a))
      OnBus s 0 (admitWire a) ∧ (s.seg 0).pendcmd = none ∧ (s.entry 3).state = .probing ∧
        (s.entry 3).place = some { spot with dmode := .fetch } ∧ (s.entry 3).adm = some a ∧ (s.entry 3).watch = o ∧
        (s.entry 3).waiter = w ∧ ∀ x ∈ (s.entry 3).watch, x.probe = .none) ∧
    (let d := (readDesc 3 (receivedAll (admitWire a).plan [1, 0])).1
     let e := probing a .fetch
     e.desc.cls = d.cls ∧ e.desc.maker = d.maker ∧ e.desc.model = d.model ∧ e.desc.serial = d.serial) ∧
    (probing a .fetch).desc.cls ≠ (readDesc 3 (receivedAll (admitWire a).plan [1, 7])).1.cls := by
  refine ⟨fun o ho w _ => ⟨⟨rfl, rfl, rfl, rfl⟩, rfl, rfl, rfl, rfl, rfl, rfl, ?_⟩, by decide +kernel, by decide +kernel⟩
  show ∀ w ∈ o, w.probe = .none
  revert o
  decide

/-! ### Health and watches -/

def watching (probe : WatchProbe) (remaining nextdue : Nat) : Watch := ⟨.A, 1, 5, remaining, nextdue, probe, 0⟩

theorem witness_WatchBeginsAndIsCancelled :
    Ready (scene device idleSeg) .A 2 ∧ ((scene device idleSeg).entry 3).place = some spot ∧
    (∀ st ∈ [EntryState.probing, .present, .suspect, .lost],
      let e := { device with state := st }
      ((scene e idleSeg).entry 3).watch = none ∧ ((scene e idleSeg).entry 3).state = st) ∧
    ((scene device {}).seg 0).state = .off ∧ ((scene device idleSeg).seg 0).state ≠ .off ∧
    (∀ x ∈ [WatchProbe.none, .due, .active],
      let e := { device with state := .lost, watch := some (watching x 1 1) }
      ((scene e idleSeg).entry 3).watch = some (watching x 1 1) ∧ (watching x 1 1).port = .A ∧ ((scene e idleSeg).entry 3).state ≠ .vacant ∧
        ((scene e idleSeg).entry 3).state ≠ .retiring) :=
  ⟨scene_ready _ _ _, by decide, by decide, by decide, by decide, by decide⟩

def watchWire : Current := begun .watch (some 3) (probePlan spot)

theorem witness_WatchProbesDueAndEnd :
    (∀ st ∈ [EntryState.suspect, .lost],
      let s := scene { device with state := st, watch := some (watching .none 1 0) } idleSeg
      (s.entry 3).watch = some (watching .none 1 0) ∧ (s.entry 3).state = st ∧ (s.entry 3).place = some spot) ∧
    (∀ st ∈ [EntryState.suspect, .lost], ∀ n ∈ [1, 2],
      let s := scene { device with state := st, inflight := 1, watch := some (watching .active n 0) } (running watchWire)
      OnBus s 0 watchWire ∧ (s.seg 0).pendcmd = none ∧ (s.entry 3).state = st ∧ (watching .active n 0).probe = .active ∧
        (s.entry 3).watch = some (watching .active n 0) ∧ 1 ≤ (s.entry 3).inflight) ∧
    (sends watchWire.plan)[0]? = some .addr :=
  ⟨by decide, fun _ _ _ _ => ⟨⟨rfl, rfl, rfl, rfl⟩, rfl, rfl, rfl, rfl, Nat.le_refl 1⟩, by decide⟩

theorem witness_ReportsMoveHealth :
    (scene device idleSeg).threshold = 3 ∧ (0 + 1 < 3 ∧ 1 + 1 < 3 ∧ 3 ≤ 2 + 1) ∧
    (∀ n ∈ [1, 2], let s := scene { device with state := .suspect, fails := n } idleSeg; (s.entry 3).state = .suspect ∧ (s.entry 3).fails = n) ∧
    ((scene device idleSeg).entry 3).state = .present ∧
    (∀ x ∈ [WatchProbe.none, .due, .active],
      let e := { device with state := .suspect, inflight := 1, watch := some (watching x 1 1) }
      e.state = .suspect ∧ e.watch = some (watching x 1 1)) ∧
    (Entry.vacant 0).state ≠ .suspect ∧ (Entry.vacant 0).state ≠ .present := by decide

theorem witness_SetLimitsApplies :
    Ready (scene doubtful idleSeg) .A 2 ∧ (∀ g, ((scene doubtful idleSeg).seg g).sweep.state ≠ .sweeping) ∧
    ((scene doubtful idleSeg).entry 3).fails = 2 ∧ 1 ≤ 1 ∧ 7 ≤ 7 :=
  ⟨scene_ready _ _ _, by decide +kernel, by decide, by decide, by decide⟩

/-! ### Surveys, segments and attention inputs -/

def cursor (probe : Planned) : Cursor := ⟨.A, 1, 8, 119, 118, probe, none, 0, 0, 0, 0, false⟩

theorem witness_SurveyBeginsAndIsAborted :
    Ready (scene device idleSeg) .A 2 ∧ 8 ≤ 8 ∧ 119 ≤ 119 ∧ ((scene device {}).seg 0).state = .off ∧
    ((scene device { state := .stuck }).seg 0).state = .stuck ∧
    (((scene device idleSeg).seg 0).state ≠ .off ∧ ((scene device idleSeg).seg 0).state ≠ .stuck ∧ ((scene device idleSeg).seg 0).survey = none) ∧
    ((scene device { idleSeg with survey := some (cursor .waiting) }).seg 0).survey = some (cursor .waiting) :=
  ⟨scene_ready _ _ _, by decide, by decide, by decide, by decide, by decide, by decide⟩

def surveyWire : Current := begun .survey none (probePlan ⟨0, .seven, 118, .survey, .fetch⟩)

theorem witness_SurveyProbeEnds :
    (∀ last ∈ [118, 119],
      let cu := { cursor .active with next := last }
      let s := scene device { running surveyWire with survey := some cu }
      OnBus s 0 surveyWire ∧ (s.seg 0).pendcmd = none ∧ (s.seg 0).survey = some cu ∧ cu.next ≤ cu.high ∧
        surveyWire.entry = none ∧ (∀ h, (s.entry h).at 0 .seven cu.next = false) ∧
        (s.entry 0).state = .vacant ∧ ∀ k, k < 0 → (s.entry k).state ≠ .vacant) ∧
    (let s := crowded.setSeg 0 { running surveyWire with survey := some (cursor .active) }
     OnBus s 0 surveyWire ∧ ∀ h, (s.entry h).at 0 .seven (cursor .active).next = false ∧ (s.entry h).state ≠ .vacant) ∧
    (∀ st ∈ [EntryState.retiring, .probing],
      let c := begun .survey none (probePlan spot)
      let cu : Cursor := ⟨.A, 1, 8, 0x20, 0x20, .active, none, 0, 0, 0, 0, false⟩
      let s := scene { device with state := st } { running c with survey := some cu }
      OnBus s 0 c ∧ (s.seg 0).survey = some cu ∧ c.entry = none ∧ (∃ h, (s.entry h).at 0 .seven cu.next = true) ∧
        ∀ h, (s.entry h).at 0 .seven cu.next = true → (s.entry h).state = .probing ∨ (s.entry h).state = .retiring) ∧
    (∀ st ∈ [EntryState.present, .suspect, .lost, .retiring, .probing],
      let c := begun .survey (some 3) (probePlan spot)
      let cu : Cursor := ⟨.A, 1, 8, 0x20, 0x20, .active, some 3, 0, 0, 0, 0, false⟩
      let s := scene { device with state := st, inflight := 1, adm := if st = .probing then some waitingAdmission else none }
        { running c with survey := some cu }
      OnBus s 0 c ∧ c.entry = some 3 ∧ (s.entry 3).at 0 .seven cu.next = true ∧ s.IndexOk ∧ (s.entry 3).EndsOk ∧
        (s.entry 3).state = st ∧ (sends c.plan)[0]? = some .addr) ∧
    (sends surveyWire.plan)[0]? = some .addr := by
  refine ⟨fun last hl => ⟨⟨rfl, rfl, rfl, rfl⟩, rfl, rfl, ?_, rfl, ?_, rfl, nofun⟩,
    ⟨⟨rfl, rfl, rfl, rfl⟩, fun h => ?_⟩,
    fun st hst => ⟨⟨rfl, rfl, rfl, rfl⟩, rfl, rfl, ⟨3, ?_⟩, ?_⟩,
    fun st hst => ⟨⟨rfl, rfl, rfl, rfl⟩, rfl, ?_, scene_index _ _ ?_ ?_, fun _ _ => ⟨rfl, rfl, rfl, rfl⟩, rfl, rfl⟩, by decide⟩
  · revert last; decide
  · revert last; decide +kernel
  · rw [State.entry_setSeg, crowded_entry]
    exact ⟨by simp [Entry.at, crowd], by simp [crowd]⟩
  · revert st; decide +kernel
  · revert st; decide +kernel
  · revert st; decide +kernel
  · revert st; decide +kernel
  · revert st; decide +kernel

/-- A RETIRE has ended the admission, or the watch or the survey is gone, with nothing or a new one in its place; the transfer is on the bus, in recovery or
not. -/
theorem witness_TransfersOfEndedWorkReportAlone :
    (∀ k ∈ [CurKind.admission, .watch, .survey], ∀ st ∈ [EntryState.retiring, .suspect, .lost], ∀ o ∈ [none, some (watching .due 2 0)],
      ∀ cu ∈ [none, some (cursor .waiting)], ∀ rec ∈ [false, true],
      let e := { device with state := st, inflight := 1, watch := o, retire := if st = .retiring then some (.B, 4) else none }
      let c := { begun k (some 3) (probePlan spot) with recovering := rec }
      let s := scene e { running c with survey := cu, config := { arbretry := 0 } }
      Ready s .A 2 ∧ (s.seg 0).state = .active ∧ (s.seg 0).current = some c ∧ (s.seg 0).hold = none ∧ c.entry = some 3 ∧
        (s.seg 0).pendcmd = none ∧ (s.entry 3).EndsOk ∧ WorkGone s 0 c (s.entry 3) ∧ (∀ t ∈ (s.seg 0).hostq, t.handle ≠ 3) ∧
        c.recovering = rec ∧ ¬(s.entry 3).firstOn 0 ∧ (sends c.plan)[0]? = some .addr ∧ (s.seg 0).config.arbretry ≤ c.lost ∧
        c.restart = false) ∧
    (∀ cu ∈ [none, some (cursor .waiting)],
      let s := scene device { running surveyWire with survey := cu, config := { arbretry := 0 } }
      OnBus s 0 surveyWire ∧ surveyWire.entry = none ∧ surveyWire.kind = .survey ∧ (s.seg 0).pendcmd = none ∧
        (∀ x ∈ (s.seg 0).survey, x.probe ≠ .active) ∧ 0 < (sends surveyWire.plan).length) ∧
    (sends (begun .admission (some 3) (sweepPlan spot {})).plan)[1]? = some .offset := by
  refine ⟨fun k hk st hst o ho cu hcu rec _ => ⟨scene_ready _ _ _, rfl, rfl, rfl, rfl, rfl, fun _ _ => ⟨rfl, rfl, rfl, rfl⟩, ?_, nofun, rfl, ?_, rfl,
    Nat.le_refl 0, rfl⟩, fun cu hcu => ⟨⟨rfl, rfl, rfl, rfl⟩, rfl, rfl, rfl, ?_, by decide⟩, by decide⟩
  · simp only [List.mem_cons, List.not_mem_nil, or_false] at hk ho hcu
    rcases hk with rfl | rfl | rfl
    · exact .inl ⟨rfl, rfl⟩
    · refine .inr (.inl ⟨rfl, ?_⟩)
      show ∀ w ∈ o, w.probe ≠ .active
      rcases ho with rfl | rfl <;> decide
    · refine .inr (.inr ⟨rfl, ?_⟩)
      show ∀ x ∈ cu, x.probe ≠ .active
      rcases hcu with rfl | rfl <;> decide
  · intro hf
    obtain ⟨_, _, a, ha, _⟩ := hf
    cases ha
  · show ∀ x ∈ cu, x.probe ≠ .active
    revert cu; decide

/-- Each kind of background transfer on the bus, with no attempt of its arbitration left, at its last probe or address or before it. -/
theorem witness_BusFaultsEndBackgroundWork :
    (∀ k ∈ [AdmKind.first, .re], ∀ st ∈ [AdmStep.probe, .sizeRead, .bodyRead], ∀ o ∈ [none, some (watching .none 0 0), some (watching .none 1 0)],
      let a : AdmRec := ⟨k, st, if k = .first then .survey (some .A) else .watch, if st = .bodyRead then some 3 else none, none, .active⟩
      let s := scene { probing a .fetch with watch := o } { running (admitWire a) with config := { arbretry := 0 } }
      OnBus s 0 (admitWire a) ∧ (s.seg 0).pendcmd = none ∧ (s.entry 3).state = .probing ∧ (s.entry 3).place = some { spot with dmode := .fetch } ∧
        (s.entry 3).adm = some a ∧ (∀ w ∈ (s.entry 3).watch, w.probe = .none) ∧ 0 < (sends (admitWire a).plan).length ∧
        (s.seg 0).config.arbretry ≤ (admitWire a).lost ∧ (admitWire a).restart = false) ∧
    (∀ st ∈ [EntryState.suspect, .lost], ∀ n ∈ [1, 2],
      let s := scene { device with state := st, inflight := 1, watch := some (watching .active n 0) } { running watchWire with config := { arbretry := 0 } }
      OnBus s 0 watchWire ∧ (s.seg 0).pendcmd = none ∧ (s.entry 3).watch = some (watching .active n 0) ∧ 1 ≤ n ∧ (s.entry 3).state = st ∧
        0 < (sends watchWire.plan).length ∧ (s.seg 0).config.arbretry ≤ watchWire.lost ∧ watchWire.restart = false) ∧
    (∀ last ∈ [118, 119],
      let cu := { cursor .active with next := last }
      let s := scene device { running surveyWire with survey := some cu }
      OnBus s 0 surveyWire ∧ (s.seg 0).pendcmd = none ∧ (s.seg 0).survey = some cu ∧ cu.next ≤ cu.high ∧ surveyWire.entry = none ∧
        ∀ h, (s.entry h).at 0 .seven cu.next = false) ∧
    (∀ st ∈ [EntryState.present, .suspect, .lost, .retiring], ∀ high ∈ [0x20, 0x21],
      let c := begun .survey (some 3) (probePlan spot)
      let cu : Cursor := ⟨.A, 1, 8, high, 0x20, .active, some 3, 0, 0, 0, 0, false⟩
      let s := scene { device with state := st, inflight := 1 } { running c with survey := some cu, config := { arbretry := 0 } }
      OnBus s 0 c ∧ c.entry = some 3 ∧ (s.entry 3).at 0 .seven cu.next = true ∧ s.IndexOk ∧ (s.entry 3).EndsOk ∧ cu.next ≤ cu.high ∧
        (s.entry 3).state = st ∧ 0 < (sends c.plan).length ∧ (s.seg 0).config.arbretry ≤ c.lost) ∧
    (∀ k ∈ [CurKind.admission, .watch], ∀ rec ∈ [false, true],
      let a : AdmRec := ⟨.re, .sizeRead, .watch, none, none, .active⟩
      let e := if k = .admission then probing a .fetch else { device with state := .lost, inflight := 1, watch := some (watching .active 2 0) }
      let c := { begun k (some 3) (probePlan spot) with recovering := rec }
      let s := scene e (running c)
      Ready s .A 2 ∧ (s.seg 0).state = .active ∧ (s.seg 0).current = some c ∧ (s.seg 0).hold = none ∧ c.entry = some 3 ∧ c.kind = k ∧
        (s.seg 0).pendcmd = none ∧ s.entry 3 = e ∧ 1 ≤ e.inflight ∧ (∀ t ∈ (s.seg 0).hostq, t.handle ≠ 3) ∧ c.recovering = rec ∧
        (k = .admission → e.state = .probing ∧ e.adm = some a) ∧
        (k = .watch → e.state = .lost ∧ e.watch = some (watching .active 2 0))) := by
  refine ⟨fun k _ st _ o ho => ⟨⟨rfl, rfl, rfl, rfl⟩, rfl, rfl, rfl, rfl, ?_, ?_, Nat.le_refl 0, rfl⟩,
    fun st _ n hn => ⟨⟨rfl, rfl, rfl, rfl⟩, rfl, rfl, ?_, rfl, by decide, Nat.le_refl 0, rfl⟩,
    fun last hl => ⟨⟨rfl, rfl, rfl, rfl⟩, rfl, rfl, ?_, rfl, ?_⟩,
    fun st hst high hh => ⟨⟨rfl, rfl, rfl, rfl⟩, rfl, ?_, scene_index _ _ ?_ ?_, fun _ _ => ⟨rfl, rfl, rfl, rfl⟩, ?_, rfl, by decide, Nat.le_refl 0⟩,
    fun k hk rec _ => ⟨scene_ready _ _ _, rfl, rfl, rfl, rfl, rfl, rfl, rfl, ?_, nofun, rfl, ?_, ?_⟩⟩
  · show ∀ w ∈ o, w.probe = .none
    revert o; decide
  · revert k st; decide
  · revert n; decide
  · revert last; decide
  · revert last; decide +kernel
  · revert st high; decide +kernel
  · revert st; decide +kernel
  · revert st; decide +kernel
  · revert high; decide
  · revert k; decide
  · revert k; decide
  · revert k; decide

theorem witness_SegmentCommandsAnswered :
    Ready (scene device {}) .A 2 ∧ ((scene device {}).seg 0).state = .off ∧ ((scene device idleSeg).seg 0).state ≠ .off ∧
    (∀ params ∈ [[(6 : Byte), 0, 1, 1, 0, 1, 0, 0, 0], [0, 3, 1, 1, 0, 1, 0, 0, 0], [0, 0, 0, 1, 0, 1, 0, 0, 0], [0, 0, 1, 0, 0, 1, 0, 0, 0],
        [0, 0, 1, 1, 4, 1, 0, 0, 0], [0, 0, 1, 1, 0, 0, 0, 0, 0], [0, 0, 1, 1, 0, 1, 0, 2, 0]],
      params.length ≤ 40 ∧ (Instr.segmentSetup .A (byte 2) params).wf = false) ∧
    (1 ≤ 1 ∧ 255 ≤ 255 ∧ 0 ≤ 3 ∧ 3 ≤ 3) ∧ Ready (scene device (writing true)) .A 2 :=
  ⟨scene_ready _ _ _, by decide, by decide, by decide, by decide, scene_ready _ _ _⟩

/-- The device has no watch and no admission, so nothing of the segment's entries ends with it. -/
theorem device_calm (r : Segment) : (scene device r).calmOn 0 := by
  intro h _
  rw [scene_entry]
  split <;> exact ⟨rfl, rfl⟩

theorem witness_DisableTurnsOffAtOnceOrLater :
    Ready (scene device idleSeg) .A 2 ∧ ((scene device { idleSeg with pendcmd := some ⟨.disable, none⟩ }).seg 0).pendcmd.isSome = true ∧
    (((scene device {}).seg 0).pendcmd = none ∧ ((scene device {}).seg 0).state = .off) ∧ ((scene device (writing false)).seg 0).state = .active ∧
    (∀ st ∈ [SegState.idle, .held, .recovering, .stuck],
      let s := scene device { state := st, hostq := [work .read false false, ownWork], survey := some (cursor .waiting)
                              hold := if st = .held then some ⟨.A, 3, 20⟩ else none }
      (s.seg 0).pendcmd = none ∧ (s.seg 0).state ≠ .off ∧ (s.seg 0).state ≠ .active ∧ s.calmOn 0 ∧
        ∀ h, (s.entry h).state ≠ .retiring) ∧
    (∀ r ∈ [idleSeg, { idleSeg with state := .stuck }, { idleSeg with state := .held, hold := some ⟨.A, 3, 20⟩ }],
      ((scene device r).seg 0).hostq = [] ∧ ((scene device r).seg 0).survey = none ∧ (scene device r).calmOn 0) ∧
    ((∀ h, ((scene device idleSeg).entry h).state ≠ .retiring ∧ ¬((scene device idleSeg).entry h).firstOn 0) ∧
      ∀ h, ((scene device idleSeg).entry h).onSeg 0 = true → ((scene device idleSeg).entry h).watch = none) ∧
    (∀ k ∈ [AdmKind.first, .re], ∀ r ∈ [idleSeg, { state := .recovering }],
      let a : AdmRec := ⟨k, .probe, if k = .first then .byAdmit (some (.A, 4)) else .surveyReappear, none, none, .waiting⟩
      let o : Option Watch := if k = .re then some ⟨.A, 1, 5, 4, 0, .none, 1⟩ else none
      let s := scene { probing a .fetch with watch := o } r
      (s.entry 3).onSeg 0 = true ∧ (s.entry 3).state ≠ .retiring ∧ (s.entry 3).watch = o ∧ (s.entry 3).adm = some a ∧
        ((s.entry 3).firstOn 0 ↔ k = .first)) :=
  ⟨scene_ready _ _ _, by decide, by decide, by decide,
    fun st hst => ⟨rfl, by revert st; decide, by revert st; decide, device_calm _, fun h => by rw [scene_entry]; split <;> nofun⟩,
    fun r hr => ⟨by revert r; decide, by revert r; decide, device_calm r⟩,
    ⟨fun h => ⟨by rw [scene_entry]; split <;> nofun, fun hf => by have := hf.1; rw [scene_entry] at this; split at this <;> cases this⟩,
      fun h hh => (device_calm _ h hh).1⟩,
    fun k hk r _ => ⟨rfl, nofun, rfl, rfl, ⟨fun ⟨_, _, _, h, hf⟩ => by cases h; exact hf, fun h => by subst h; exact ⟨rfl, rfl, _, rfl, rfl⟩⟩⟩⟩

/-- A DISABLE waits for the WRITE of Port B, chained or not, in recovery or not, or for the address probe of an admission. -/
theorem witness_TransfersEndBeforeDisable :
    (∀ chain ∈ [false, true], ∀ e ∈ [device, { retiring with inflight := 1 }],
      let s := scene e { writing chain with pendcmd := some ⟨.disable, some (.A, 7)⟩ }
      HostOnBus s 0 (onWire chain) [work .read false false] (work .write true chain) [work .ping false false] ∧
        (s.seg 0).pendcmd = some ⟨.disable, some (.A, 7)⟩ ∧ (s.entry 3).EndsOk ∧ (s.seg 0).state = .active ∧
        (s.seg 0).current = some (onWire chain) ∧ (onWire chain).kind = .host ∧ (onWire chain).acked = 0 ∧
        (sends (onWire chain).plan)[0]? = some .addr ∧ (sends (onWire chain).plan)[1]? = some .offset ∧
        (sends (onWire chain).plan)[3]? = some .data ∧ 4 ≤ (sends (onWire chain).plan).length) ∧
    (let a : AdmRec := ⟨.first, .probe, .byAdmit (some (.A, 2)), none, none, .active⟩
     let s := scene (probing a .fetch) { running (admitWire a) with pendcmd := some ⟨.disable, none⟩ }
     OnBus s 0 (admitWire a) ∧ (s.seg 0).pendcmd = some ⟨.disable, none⟩ ∧ (s.entry 3).state = .probing ∧
       (s.entry 3).place = some { spot with dmode := .fetch } ∧ (s.entry 3).adm = some a ∧ 1 ≤ (s.entry 3).inflight) := by
  refine ⟨fun chain _ e he => ⟨⟨⟨rfl, rfl, rfl, rfl⟩, rfl, rfl, by decide, rfl⟩, rfl, ?_, rfl, rfl, rfl, rfl, ?_, ?_, ?_, ?_⟩,
    ⟨⟨rfl, rfl, rfl, rfl⟩, rfl, rfl, rfl, rfl, Nat.le_refl 1⟩⟩
  · simp only [List.mem_cons, List.not_mem_nil, or_false] at he
    rcases he with rfl | rfl <;> exact fun _ _ => ⟨rfl, rfl, rfl, rfl⟩
  all_goals revert chain; decide

theorem witness_ResetEmptiesSegment :
    Ready (scene device (writing true)) .A 2 ∧ ((scene device (writing true)).seg 0).state ≠ .off ∧
    ((scene device (writing true)).seg 0).pendcmd = none ∧
    ((scene device { writing true with pendcmd := some ⟨.disable, none⟩ }).seg 0).pendcmd.isSome = true ∧
    ((scene device {}).seg 0).state = .off ∧ (∀ h, ((scene device (writing true)).entry h).state ≠ .retiring) ∧
    HostOnBus (scene device (writing true)) 0 (onWire true) [work .read false false] (work .write true true) [work .ping false false] ∧
    (4 ≤ (sends (onWire true).plan).length ∧ ([] : List Byte).length ≤ recvs (onWire true).plan) ∧
    (∀ c ∈ ((scene device { state := .held, hold := some ⟨.A, 3, 20⟩, hostq := [ownWork] }).seg 0).current, c.kind ≠ .host) :=
  ⟨scene_ready _ _ _, by decide, by decide, by decide, by decide, by decide +kernel, write_on_bus _ _, by decide, nofun⟩

theorem witness_RecoveryEnds :
    (∀ pend ∈ [none, some ⟨.reset, some (.A, 2)⟩],
      let s := scene device { state := .recovering, pendcmd := pend }
      (s.seg 0).state = .recovering ∧ (s.seg 0).pendcmd = pend) ∧ 9 ≤ 9 := by decide

/-- A recovery fails after a timeout, after a SEGMENT_RESET, or within a transfer of Port B; another of its transactions and a survey wait. -/
theorem witness_StuckEndsTheWork :
    (∀ pend ∈ [none, some ⟨.reset, some (.A, 2)⟩],
      let s := scene { device with inflight := 1 } { state := .recovering, pendcmd := pend, hostq := [work .read false false]
                                                     survey := some (cursor .waiting) }
      (s.seg 0).state = .recovering ∧ (s.seg 0).current = none ∧ (s.seg 0).pendcmd = pend) ∧
    (let c := { onWire false with recovering := true }
     let s := scene device { writing false with current := some c }
     (s.seg 0).state = .active ∧ (s.seg 0).current = some c ∧ c.recovering = true ∧ (s.seg 0).hold = none ∧ c.acked = 0 ∧ c.rx = [] ∧
       (s.seg 0).pendcmd = none ∧ c.kind = .host ∧
       (s.seg 0).hostq = [work .read false false] ++ work .write true false :: [work .ping false false] ∧
       (∀ x ∈ [work .read false false], x.active = false) ∧ (work .write true false).active = true ∧
       ∀ h, (s.entry h).state ≠ .retiring ∧ ¬(s.entry h).firstOn 0) ∧
    (let a : AdmRec := ⟨.first, .probe, .byAdmit (some (.A, 2)), none, none, .waiting⟩
     (scene (probing a .none) { state := .recovering }).entry 3 |>.firstOn 0) ∧ 9 ≤ 9 := by
  refine ⟨by decide, ⟨rfl, rfl, rfl, rfl, rfl, rfl, rfl, rfl, rfl, by decide, rfl, fun h => ⟨?_, fun hf => ?_⟩⟩,
    ⟨rfl, rfl, _, rfl, rfl⟩, Nat.le_refl 9⟩
  · rw [scene_entry]; split <;> nofun
  · have := hf.1; rw [scene_entry] at this; split at this <;> cases this

/-- 04 R89 steps 1, 3 and 4: the lines are released as the recovery within a transfer begins, and a stop is sent where it succeeds. -/
theorem test_recovery_within_transfer_leaves_stop :
    after (.busBusy 0 true) (scene device { writing false with lines := .held }) (fun t =>
      (t.seg 0).lines == .released && after (.recoveryEnd 0 [.dataLow, .dataHigh]) t (fun u =>
        (u.seg 0).lines == .stop && (u.seg 0).state == .active)) = true := by decide +kernel

theorem witness_InputStartsSweepsAndUnitsRearm :
    (let s := scene device { idleSeg with config := { attnen := true } }
     (s.seg 0).config.attnen = true ∧ (s.seg 0).state ≠ .off ∧ (s.seg 0).state ≠ .stuck ∧ (s.seg 0).sweep.state = .idle) ∧
    ((scene device idleSeg).seg 0).config.attnen = false ∧
    (let s := scene device { idleSeg with sattn := true, config := { attnen := true, rearm := 1 }, sweep := ⟨.disarmed, none, 0, 1, 0⟩ }
     (s.seg 0).sweep.state = .disarmed ∧ (s.seg 0).sweep.rearmleft = 0 ∧ 1 ≤ (s.seg 0).config.rearm) := by decide

theorem witness_SweepReadJudged :
    let c := begun .sweep (some 3) (sweepPlan spot { caps := 1 })
    (∀ st ∈ [EntryState.present, .suspect, .lost, .retiring],
      let s := scene { device with state := st, inflight := 1, desc := { caps := 1, attnmask := 0x0F } }
        { running c with config := { arbretry := 0 }, sweep := ⟨.sweeping, some 3, 0, 0, 0⟩ }
      OnBus s 0 c ∧ (s.seg 0).pendcmd = none ∧ (s.seg 0).sweep.state = .sweeping ∧ (s.entry 3).EndsOk ∧ recvs c.plan = 1 ∧
        (0xF0 : Byte) &&& (s.entry 3).desc.attnmask = 0 ∧ (0x08 : Byte) &&& (s.entry 3).desc.attnmask ≠ 0 ∧
        (s.seg 0).config.arbretry ≤ c.lost ∧ (s.entry 3).state = st) ∧
    ((sends c.plan)[0]? = some .addr ∧ (sends c.plan)[1]? = some .offset ∧ 2 < (sends c.plan).length ∧ c.restart = false) ∧
    (∀ hits ∈ [0, 1], ∀ level ∈ [false, true],
      let s := scene device { idleSeg with sattn := level, config := { attnen := true, rearm := 30 }, sweep := ⟨.sweeping, some 4, hits, 5, 0⟩ }
      (s.seg 0).state = .idle ∧ (s.seg 0).sweep.state = .sweeping ∧ s.candidate 0 = none ∧ (s.seg 0).sweep.hits = hits) := by
  refine ⟨fun st _ => ⟨⟨rfl, rfl, rfl, rfl⟩, rfl, rfl, fun _ _ => ⟨rfl, rfl, rfl, rfl⟩, by decide,
    by show (0xF0 : Byte) &&& 0x0F = 0; decide, by show (0x08 : Byte) &&& 0x0F ≠ 0; decide, Nat.le_refl 0, rfl⟩,
    by decide, by decide +kernel⟩

end Sys2Proof.Tests
end

