-- ==== Sys2Proof/Proofs/Chosen.lean ====
section
/-! PROOFS. What the shared operations do to the entries of the directory: which leave every entry alone, what the fall of INFLIGHT makes of one, and what
the arbiter's choice may make of one. -/

namespace Sys2Proof.Machine

/-! ## Operations that leave every entry alone -/

@[simp] theorem State.entry_enqueue (s : State) (p : Port) (r : Response) (h : Handle) : (s.enqueue p r).entry h = s.entry h := by
  simp [State.enqueue]

@[simp] theorem State.entry_respond (s : State) (p : Port) (t : Tag) (st : Status) (l : List Byte) (h : Handle) :
    (s.respond p t st l).entry h = s.entry h := by
  simp [State.respond]

@[simp] theorem State.entry_postHealth (s : State) (h k : Handle) (st : EntryState) : (s.postHealth h st).entry k = s.entry k := by
  simp [State.postHealth]

@[simp] theorem State.entry_tellFailure (s : State) (a : Option AdmRec) (pl : Option Place) (st : Status) (h : Handle) :
    (s.tellFailure a pl st).entry h = s.entry h := by
  unfold State.tellFailure; split <;> simp

@[simp] theorem State.entry_answerSurvey (s : State) (g : Seg) (st : Status) (h : Handle) : (s.answerSurvey g st).entry h = s.entry h := by
  unfold State.answerSurvey; split <;> simp

@[simp] theorem State.entry_endSweep (s : State) (g : Seg) (h : Handle) : (s.endSweep g).entry h = s.entry h := by
  unfold State.endSweep; dsimp only; split <;> simp

@[simp] theorem State.entry_lookSweep (s : State) (g : Seg) (h : Handle) : (s.lookSweep g).entry h = s.entry h := by
  unfold State.lookSweep; split <;> simp

@[simp] theorem State.entry_grantHost (s : State) (g : Seg) (i : Nat) (t : HostTx) (b : Bool) (h : Handle) :
    (s.grantHost g i t b).entry h = s.entry h := by
  simp [State.grantHost]

@[simp] theorem State.entry_anyOrder {α : Type} (s : State) (l : List α) (h : Handle) : (s.anyOrder l).2.entry h = s.entry h := by
  unfold State.anyOrder; split <;> rfl

/-! ## Claims, and the return to VACANT -/

@[simp] theorem State.entry_dropClaims (s : State) (h k : Handle) (o : Option Port) :
    (s.dropClaims h o).entry k = if k = h then (s.entry h).noClaims else s.entry k := by
  unfold State.dropClaims; dsimp only; split <;> simp [State.entry_modEntry]

@[simp] theorem State.entry_enterVacant (s : State) (h k : Handle) :
    (s.enterVacant h).entry k = if k = h then Entry.vacant ((s.entry h).gen + 1) else s.entry k := by
  simp only [State.enterVacant, State.entry_setEntry, State.entry_dropClaims]
  split <;> rfl

@[simp] theorem State.entry_completeRetire (s : State) (h k : Handle) :
    (s.completeRetire h).entry k = if k = h then Entry.vacant ((s.entry h).gen + 1) else s.entry k := by
  simp [State.completeRetire]

@[simp] theorem State.entry_failFirst (s : State) (h k : Handle) (st : Status) :
    (s.failFirst h st).entry k = if k = h then Entry.vacant ((s.entry h).gen + 1) else s.entry k := by
  simp [State.failFirst]

/-! ## The fall of INFLIGHT -/

/-- An entry once INFLIGHT has fallen by 1: VACANT where that was the last work of a RETIRING one (01 R11, R15). -/
def Entry.fallen (e : Entry) : Entry := if e.lower.drained then Entry.vacant (e.gen + 1) else e.lower

@[simp] theorem State.entry_fall (s : State) (h k : Handle) :
    (s.fall h).entry k = if k = h then (s.entry h).fallen else s.entry k := by
  simp only [State.fall, Entry.fallen, State.entry_modEntry_same]
  split
  · simp only [State.entry_completeRetire, State.entry_modEntry]
    split <;> rfl
  · exact s.entry_modEntry h k _

@[simp] theorem State.entry_fallNamed (s : State) (n : Option Handle) (k : Handle) :
    (s.fallNamed n).entry k = if n = some k then (s.entry k).fallen else s.entry k := by
  rcases n with _ | h
  · simp [State.fallNamed]
  · simp only [State.fallNamed, State.entry_fall, Option.some.injEq, eq_comm (a := h)]
    split
    · next hk => rw [hk]
    · rfl

@[simp] theorem State.entry_answerTx (s : State) (t : HostTx) (st : Status) (n : Nat) (rx : List Byte) (b : Bool) (k : Handle) :
    (s.answerTx t st n rx b).entry k = if k = t.handle then (s.entry t.handle).setChain t.port false else s.entry k := by
  rw [State.answerTx_eq, State.entry_give, State.entry_setEntry]

@[simp] theorem State.entry_completeAt (s : State) (g : Seg) (i : Nat) (t : HostTx) (st : Status) (k : Handle) :
    (s.completeAt g i t st).entry k = if k = t.handle then ((s.entry t.handle).setChain t.port false).fallen else s.entry k := by
  simp only [State.completeAt, State.entry_fall, State.entry_answerTx, State.entry_modSeg, if_true]
  split <;> rfl

/-! ## Finding an entry -/

theorem State.at_of_find {s : State} {g : Seg} {m : AMode} {a : Nat} {h : Handle} (hf : s.find g m a = some h) :
    (s.entry h).at g m a = true := List.find?_some (p := fun h => (s.entry h).at g m a) hf

theorem State.find_eq_none {s : State} {g : Seg} {m : AMode} {a : Nat} :
    s.find g m a = none ↔ ∀ h, (s.entry h).at g m a = false := by
  simp [State.find, List.find?_eq_none]

theorem Entry.inUse_of_at {e : Entry} {g : Seg} {m : AMode} {a : Nat} (h : e.at g m a = true) : e.state ≠ .vacant := by
  simp only [Entry.at, Bool.and_eq_true, bne_iff_ne] at h
  exact h.1

/-! ## What the arbiter's choice may make of an entry (04 R82 to R84) -/

/-- What an entry may have become in a choice of the arbiter: transactions for it have completed, its planned transfer or its watch's probe was granted, or
a probe or a read of an entry that is neither VACANT nor RETIRING. -/
inductive Entry.Chosen (e : Entry) : Entry → Prop
  | refl : Chosen e e
  | answered {f : Entry} (p : Port) : Chosen e f → Chosen e (f.setChain p false).fallen
  | admission {f : Entry} {a : AdmRec} : Chosen e f → f.adm = some a → Chosen e { f with adm := some { a with planned := .active } }
  | watch {f : Entry} : Chosen e f → f.watchDue = true →
      Chosen e { f with watch := f.watch.map (fun w => { w with probe := .active }) }
  | rise {f : Entry} : Chosen e f → f.state ≠ .vacant → f.state ≠ .retiring → Chosen e f.rise

theorem Entry.Chosen.trans {e f k : Entry} (h₁ : e.Chosen f) (h₂ : f.Chosen k) : e.Chosen k := by
  induction h₂ with
  | refl => exact h₁
  | answered p _ ih => exact .answered p ih
  | admission _ ha ih => exact .admission ih ha
  | watch _ hw ih => exact .watch ih hw
  | rise _ hv hr ih => exact .rise ih hv hr

/-- Every entry has become what a choice may make of it. -/
structure State.Chosen (s t : State) : Prop where
  entry : ∀ h, (s.entry h).Chosen (t.entry h)

theorem State.Chosen.of_entries {s t : State} (h : ∀ k, t.entry k = s.entry k) : s.Chosen t := ⟨fun k => by rw [h]; exact .refl⟩

theorem State.Chosen.refl (s : State) : s.Chosen s := .of_entries fun _ => rfl

theorem State.Chosen.trans {s t u : State} (h₁ : s.Chosen t) (h₂ : t.Chosen u) : s.Chosen u := ⟨fun h => (h₁.entry h).trans (h₂.entry h)⟩

theorem State.Chosen.modEntry {s : State} {h : Handle} {f : Entry → Entry} (hf : (s.entry h).Chosen (f (s.entry h))) :
    s.Chosen (s.modEntry h f) where
  entry k := by
    rw [State.entry_modEntry]
    split
    · next hk => rw [hk]; exact hf
    · exact .refl

theorem State.Chosen.modSeg (s : State) (g : Seg) (f : Segment → Segment) : s.Chosen (s.modSeg g f) := .of_entries fun _ => by simp

theorem State.Chosen.completeAt (s : State) (g : Seg) (i : Nat) (t : HostTx) (st : Status) : s.Chosen (s.completeAt g i t st) where
  entry k := by
    rw [State.entry_completeAt]
    split
    · next hk => rw [hk]; exact .answered _ .refl
    · exact .refl

theorem State.Chosen.grantAdmission (s : State) (g : Seg) (h : Handle) : s.Chosen (s.grantAdmission g h) := by
  unfold State.grantAdmission
  split
  · next a ha => exact (State.Chosen.modEntry (.admission .refl ha)).trans (.modSeg ..)
  · exact .refl s

theorem State.Chosen.grantWatch {s : State} {h : Handle} (g : Seg) (hw : (s.entry h).watchDue = true) : s.Chosen (s.grantWatch g h) :=
  (State.Chosen.modEntry (.watch .refl hw)).trans (.modSeg ..)

theorem State.Chosen.grantSweep {s : State} {h : Handle} (g : Seg) (hr : (s.entry h).reachable = true) : s.Chosen (s.grantSweep g h) := by
  have live : (s.entry h).state ≠ .vacant ∧ (s.entry h).state ≠ .retiring := by
    simp only [Entry.reachable, Bool.or_eq_true, beq_iff_eq] at hr
    rcases hr with hr | hr <;> simp [hr]
  exact (State.Chosen.modEntry (.rise .refl live.1 live.2)).trans (.modSeg ..)

theorem State.Chosen.grantSurvey {s : State} {g : Seg} {c : Cursor} (hp : s.passedOver g c.next = false) : s.Chosen (s.grantSurvey g c) := by
  unfold State.grantSurvey
  dsimp only
  split
  · next h hf =>
    have live : (s.entry h).state ≠ .retiring := by
      simp only [State.passedOver, hf, Bool.or_eq_false_iff, beq_eq_false_iff_ne] at hp
      exact hp.1.2
    exact (State.Chosen.modEntry (.rise .refl (Entry.inUse_of_at (State.at_of_find hf)) live)).trans (.modSeg ..)
  · exact .modSeg ..

/-- The walk of a survey stops at an address that is not passed over, or behind the last one. -/
theorem State.passedOver_walk (s : State) (g : Seg) (n a : Nat) (hw : s.walk g n a < a + n) : s.passedOver g (s.walk g n a) = false := by
  induction n generalizing a with
  | zero => simp [State.walk] at hw
  | succ n ih =>
    unfold State.walk at hw ⊢
    split
    · next hp => rw [if_pos hp] at hw; exact ih (a + 1) (by omega)
    · next hp => simpa using hp

theorem State.le_walk (s : State) (g : Seg) (n a : Nat) : a ≤ s.walk g n a := by
  induction n generalizing a with
  | zero => exact le_rfl
  | succ n ih =>
    unfold State.walk
    split
    · exact (Nat.le_succ a).trans (ih _)
    · exact le_rfl

theorem State.Chosen.offerSurvey (s : State) (g : Seg) : s.Chosen (s.offerSurvey g).1 := by
  unfold State.offerSurvey
  dsimp only
  split
  · exact .refl s
  · next c _ =>
    split
    · exact .refl s
    · split
      · exact .of_entries fun _ => by simp
      · next hn =>
        refine (State.Chosen.modSeg ..).trans (.grantSurvey ?_)
        have first := s.le_walk g (c.high + 1 - c.next) c.next
        exact s.passedOver_walk g _ _ (by omega)

theorem State.Chosen.tryBackground (s : State) (g : Seg) : s.Chosen (s.tryBackground g).1 := by
  unfold State.tryBackground
  split
  · exact .grantAdmission ..
  · split
    · next h hp =>
      have due := List.find?_some hp
      simp only [Bool.and_eq_true] at due
      exact .grantWatch g due.1.2
    · exact .offerSurvey ..

theorem State.reachable_of_sweepOffer {s : State} {g : Seg} {h : Handle} (ho : s.sweepOffer g = some h) : (s.entry h).reachable = true := by
  unfold State.sweepOffer at ho
  split at ho
  · have pick := List.find?_some (Option.eq_some_of_filter_eq_some ho)
    simp only [Entry.sweepable, Bool.and_eq_true] at pick
    exact pick.2.1.1
  · simp at ho

theorem State.Chosen.arbitrate (n : Nat) (s : State) (g : Seg) : s.Chosen (s.arbitrate n g) := by
  induction n generalizing s with
  | zero => exact .refl s
  | succ n ih =>
    have pick : ∀ (u : State), s.Chosen u → ∀ i t b, s.Chosen (match u.recheck t with
        | some st => State.arbitrate n (u.completeAt g i t st) g
        | none => u.grantHost g i t b) := by
      intro u hu i t b
      split
      · exact (hu.trans (.completeAt ..)).trans (ih _)
      · exact hu.trans (.of_entries fun _ => by simp)
    have look : s.Chosen (s.lookSweep g) := .of_entries fun _ => by simp
    have background := look.trans (.tryBackground (s.lookSweep g) g)
    unfold State.arbitrate
    split
    · split
      · exact .refl s
      · exact pick s (.refl s) _ _ _
    · dsimp only
      split
      · next h ho => exact look.trans (.grantSweep g (State.reachable_of_sweepOffer ho))
      · split
        · split
          · exact background
          · exact pick _ look _ _ _
        · split
          · exact background
          · split
            · exact background
            · exact pick _ background _ _ _
    all_goals exact .refl s

/-- What the arbiter's choice may make of an entry, said once. -/
theorem State.Chosen.choose (s : State) (g : Seg) : s.Chosen (s.choose g) := .arbitrate ..

end Sys2Proof.Machine
end

