-- ==== Sys2Proof/Proofs/EntryOps.lean ====
section
/-! PROOFS. What the health monitor's and the admission unit's operations do to the entries. -/

namespace Sys2Proof.Machine

/-! ## The end of a watch and of an admission -/

/-- A watch's end removes it, and withdraws a probe that is DUE (06 R127). -/
theorem Entry.endWatch_eq (e : Entry) : e.endWatch = { e with watch := none, inflight := e.inflight - bit e.watchDue } := by
  unfold Entry.endWatch Entry.watchDue
  rcases hw : e.watch with _ | w
  · cases e; simp_all [bit]
  · by_cases hd : w.probe = .due <;> simp [hd, bit, Entry.lower]

/-- An admission's end removes its record, and withdraws a planned transfer (01 R14). -/
theorem Entry.endAdm_eq (e : Entry) : e.endAdm = { e with adm := none, inflight := e.inflight - bit e.admWaiting } := by
  unfold Entry.endAdm Entry.admWaiting
  by_cases ha : e.adm.any (fun a => a.planned == .waiting) <;> simp [ha, bit, Entry.lower]

@[simp] theorem State.entry_answerWatch (s : State) (h k : Handle) (st : Status) (aux : Byte) :
    (s.answerWatch h st aux).entry k = if k = h then (s.entry h).endWatch else s.entry k := by
  unfold State.answerWatch
  split
  · simp [State.entry_modEntry]
  · next hw =>
    have same : (s.entry h).endWatch = s.entry h := by simp [Entry.endWatch, hw]
    rw [same]
    split
    · next hk => rw [hk]
    · rfl

/-! ## Reports -/

/-- What an entry may have become in a report on it: itself, or, where it was PRESENT or SUSPECT, one of other STATE and FAILS, its watch perhaps answered
(06 R118, R119). -/
inductive Entry.Reported (e : Entry) : Entry → Prop
  | same : Reported e e
  | moved {st : EntryState} {n i : Nat} {w : Option Watch} : e.reachable = true → st = .present ∨ st = .suspect ∨ st = .lost →
      Reported e { e with state := st, fails := n, watch := w, inflight := i }

theorem State.entry_successReport (s : State) (h k : Handle) : (s.successReport h).entry k =
    if k = h ∧ (s.entry h).state = .suspect then Entry.endWatch { s.entry h with state := .present, fails := 0 } else s.entry k := by
  unfold State.successReport
  by_cases hs : (s.entry h).state = .suspect
  · simp only [hs, if_true, State.entry_answerWatch, State.entry_postHealth, State.entry_modEntry, and_true]
    split <;> rfl
  · simp [hs]

theorem State.entry_becomeLost (s : State) (h k : Handle) : (s.becomeLost h).entry k =
    if k = h then { s.entry h with state := .lost, fails := 0 } else s.entry k := by
  simp [State.becomeLost, State.entry_modEntry]

theorem State.entry_failureReport (s : State) (h k : Handle) : (s.failureReport h).entry k =
    if k = h ∧ (s.entry h).reachable = true then
      if s.threshold ≤ (s.entry h).fails + 1 then { s.entry h with state := .lost, fails := 0 }
      else { s.entry h with state := .suspect, fails := (s.entry h).fails + 1 }
    else s.entry k := by
  unfold State.failureReport
  by_cases hr : (s.entry h).reachable = true
  · by_cases hn : s.threshold ≤ (s.entry h).fails + 1
    · simp [hr, hn, State.entry_becomeLost]
    · by_cases hp : (s.entry h).state = .present <;> simp [hr, hn, hp, State.entry_modEntry]
  · simp [hr]

theorem State.entry_report_of_ne (s : State) {h k : Handle} (o : Outcome) (hk : k ≠ h) : (s.report h o).entry k = s.entry k := by
  cases o <;> simp [State.report, Outcome.isSuccess, Outcome.isFailure, State.entry_successReport, State.entry_failureReport, hk]

theorem State.reported_successReport (s : State) (h : Handle) : (s.entry h).Reported ((s.successReport h).entry h) := by
  rw [State.entry_successReport, Entry.endWatch_eq]
  split
  · next hs => exact .moved (by simp [Entry.reachable, hs.2]) (.inl rfl)
  · exact .same

theorem State.reported_failureReport (s : State) (h : Handle) : (s.entry h).Reported ((s.failureReport h).entry h) := by
  rw [State.entry_failureReport]
  split
  · next hr =>
    split
    · exact .moved (w := (s.entry h).watch) (i := (s.entry h).inflight) hr.2 (.inr (.inr rfl))
    · exact .moved (w := (s.entry h).watch) (i := (s.entry h).inflight) hr.2 (.inr (.inl rfl))
  · exact .same

/-- What a report makes of its entry, whatever the outcome. -/
theorem State.reported_report (s : State) (h : Handle) (o : Outcome) : (s.entry h).Reported ((s.report h o).entry h) := by
  unfold State.report
  split
  · exact s.reported_successReport h
  · split
    · exact s.reported_failureReport h
    · exact .same

/-- A report keeps the place of an entry, and that it is in use. -/
theorem Entry.Reported.at_eq {e f : Entry} (r : e.Reported f) (g : Seg) (m : AMode) (a : Nat) : f.at g m a = e.at g m a := by
  cases r with
  | same => rfl
  | moved hr hs =>
    have used : (e.state != .vacant) = true := by
      rw [bne_iff_ne]
      intro hv
      simp [Entry.reachable, hv] at hr
    rcases hs with rfl | rfl | rfl <;> rw [Entry.at, Entry.at, used] <;> rfl

/-- A report does not touch an entry that is neither PRESENT nor SUSPECT. -/
theorem Entry.Reported.eq_of_unreachable {e f : Entry} (r : e.Reported f) (hr : e.reachable = false) : f = e := by
  cases r with
  | same => rfl
  | moved hr' _ => simp [hr] at hr'

@[simp] theorem Entry.Reported.adm_eq {e f : Entry} (r : e.Reported f) : f.adm = e.adm := by cases r <;> rfl

/-! ## The report of a survey probe -/

/-- The report that the end of a survey probe gives on the entry it named, if any (07 R136). -/
def State.reportNamed (s : State) (n : Option Handle) (o : Outcome) : State :=
  match n with
  | some h => s.report h o
  | none => s

/-- The end of a survey probe, with its report named (07 R133 to R137). -/
theorem State.endSurveyProbe_eq (s : State) (g : Seg) (n : Option Handle) (o : Outcome) : s.endSurveyProbe g n o =
    match (s.seg g).survey with
    | some c =>
      if c.probe = .active then
        if o = .busStuck ∨ o = .aborted then
          ((s.reportNamed n o).answerSurvey g (if o = .aborted then .aborted else .busStuck)).fallNamed n
        else
          let judged := (s.reportNamed n o).judge g c (s.listedAt g c.next) o
          let c₂ := { judged.2 with next := c.next + 1, named := none, probe := .waiting }
          let s₃ := (judged.1.modSeg g (fun r => { r with survey := some c₂ })).fallNamed n
          if c.high < c₂.next then s₃.answerSurvey g .ok else s₃
      else (s.reportNamed n o).fallNamed n
    | none => (s.reportNamed n o).fallNamed n := by
  rfl

theorem State.reported_reportNamed (s : State) (n : Option Handle) (o : Outcome) (k : Handle) :
    (s.entry k).Reported ((s.reportNamed n o).entry k) := by
  cases n with
  | none => exact .same
  | some h =>
    by_cases hk : k = h
    · subst hk; exact s.reported_report k o
    · rw [State.reportNamed, s.entry_report_of_ne o hk]; exact .same

theorem State.at_reportNamed (s : State) (n : Option Handle) (o : Outcome) (k : Handle) (g : Seg) (m : AMode) (a : Nat) :
    ((s.reportNamed n o).entry k).at g m a = (s.entry k).at g m a := (s.reported_reportNamed n o k).at_eq g m a

theorem State.entry_reportNamed_of_unreachable {s : State} {n : Option Handle} {o : Outcome} {k : Handle}
    (hr : (s.entry k).reachable = false) : (s.reportNamed n o).entry k = s.entry k := (s.reported_reportNamed n o k).eq_of_unreachable hr

/-! ## Claims dropped and watches answered, as replacements -/

/-- The claims of an entry are dropped: one replacement, the notices, and the answer of the WAITER (03 R64). -/
theorem State.dropClaims_eq (s : State) (h : Handle) (o : Option Port) : s.dropClaims h o =
    ((s.setEntry h (s.entry h).noClaims).postWhere (fun p => ((s.entry h).holder p).isSome && o != some p) .claimDropped
      (.entry h (s.entry h).gen) (claimCode (s.entry h).claim)).respondTo ((s.entry h).waiter.map (fun w => (w.port, w.tag))) .gone [] := by
  unfold State.dropClaims
  cases hw : (s.entry h).waiter <;> simp [hw, State.modEntry_eq, State.subject, State.respondTo]

/-- A watch is answered with a status that carries no result (06 R127, 11 R181). -/
theorem State.answerWatch_bare (s : State) (h : Handle) {st : Status} (aux : Byte) (hc : watchCarries st = false) : s.answerWatch h st aux =
    (s.setEntry h (s.entry h).endWatch).respondTo ((s.entry h).watch.map (fun w => (w.port, w.tag))) st [] := by
  unfold State.answerWatch
  cases hw : (s.entry h).watch with
  | none => simp [State.respondTo, Entry.endWatch, hw]
  | some w => simp [State.respondTo, State.modEntry_eq, hc]

/-- A watch is answered with a status that carries the reference, STATE and PROBES (06 R127, 11 R181). -/
theorem State.answerWatch_told (s : State) (h : Handle) {st : Status} (aux : Byte) (hc : watchCarries st = true) : s.answerWatch h st aux =
    (s.setEntry h (s.entry h).endWatch).watchTold h (s.entry h) (s.entry h).gen st (entryStateCode (s.entry h).state) aux := by
  unfold State.answerWatch State.watchTold
  cases hw : (s.entry h).watch with
  | none => simp [Entry.endWatch, hw]
  | some w => simp [State.modEntry_eq, hc, watchResult, Entry.endWatch_eq]

/-! ## The step into RETIRING (01 R14) -/

/-- An entry that has entered RETIRING: no claim, waiter, watch or admission, and a planned transfer and a due probe withdrawn (01 R14). -/
def Entry.leaving (e : Entry) (owner : Port × Tag) : Entry :=
  { e with
    state := .retiring, fails := 0, claim := .none, holderA := none, holderB := none, waiter := none, watch := none, adm := none
    retire := some owner, inflight := e.inflight - bit e.watchDue - bit e.admWaiting }

/-- The answers of a RETIRE to the WAITER, the watch and the SOURCE of a first admission, after the notices to the holders (01 R14, 02 R36). -/
def State.leaveTold (s : State) (p : Port) (h : Handle) : State :=
  let e := s.entry h
  let gone := ((s.postWhere (fun q => (e.holder q).isSome && q != p) .claimDropped (.entry h e.gen) (claimCode e.claim)).respondTo
    (e.waiter.map (fun w => (w.port, w.tag))) .gone []).respondTo (e.watch.map (fun w => (w.port, w.tag))) .gone []
  if e.adm.any (fun a => a.kind == .first) then gone.tellFailure e.adm e.place .gone else gone

/-- Whether a hold stands for the entry on a segment (05 R112). -/
def State.heldFor (s : State) (g : Seg) (h : Handle) : Prop := (s.seg g).state = .held ∧ ∃ ho ∈ (s.seg g).hold, ho.entry = h

theorem State.heldBy_iff (s : State) (g : Seg) (h : Handle) : (s.seg g).heldBy (fun ho => ho.entry == h) = true ↔ s.heldFor g h := by
  simp [Segment.heldBy, State.heldFor, Option.any_eq_true]

@[simp] theorem State.setEntry_tellFailure (s : State) (a : Option AdmRec) (pl : Option Place) (st : Status) (h : Handle) (e : Entry) :
    (s.tellFailure a pl st).setEntry h e = (s.setEntry h e).tellFailure a pl st := by
  unfold State.tellFailure; split <;> simp

@[simp] theorem State.setSeg_tellFailure (s : State) (a : Option AdmRec) (pl : Option Place) (st : Status) (g : Seg) (r : Segment) :
    (s.tellFailure a pl st).setSeg g r = (s.setSeg g r).tellFailure a pl st := by
  unfold State.tellFailure; split <;> simp

theorem State.retireHold_of_not {s : State} {h : Handle} (hn : ∀ pl, (s.entry h).place = some pl → ¬s.heldFor pl.seg h) :
    s.retireHold h = s := by
  unfold State.retireHold State.atSegOf
  cases hp : (s.entry h).place with
  | none => rfl
  | some pl => simp [State.heldBy_iff, hn pl hp]

theorem State.retireHold_of_held {s : State} {h : Handle} {pl : Place} {ho : Hold} (hp : (s.entry h).place = some pl)
    (hs : (s.seg pl.seg).state = .held) (hh : (s.seg pl.seg).hold = some ho) (he : ho.entry = h) : s.retireHold h =
      (s.setSeg pl.seg { s.seg pl.seg with state := .idle, hold := none, lines := .stop }).setEntry h ((s.entry h).setChain ho.port true) := by
  subst he
  simp [State.retireHold, State.atSegOf, hp, Segment.heldBy, hs, hh, State.endHold, State.dropHold, State.modSeg_eq, State.modEntry_eq]

/-- An entry that has entered RETIRING, while its admission record still stands. -/
def Entry.leavingFirst (e : Entry) (owner : Port × Tag) : Entry :=
  { e with
    state := .retiring, fails := 0, claim := .none, holderA := none, holderB := none, waiter := none, watch := none
    retire := some owner, inflight := e.inflight - bit e.watchDue }

/-- The first part of the step into RETIRING: claims, WAITER and watch (01 R14). -/
theorem State.dropForRetire (s : State) (p : Port) (t : Tag) (h : Handle) :
    ((s.modEntry h (fun e => { e with state := .retiring, fails := 0, retire := some (p, t) })).dropClaims h (some p)).answerWatch h .gone 0 =
      (((s.setEntry h ((s.entry h).leavingFirst (p, t))).postWhere (fun q => ((s.entry h).holder q).isSome && q != p) .claimDropped
        (.entry h (s.entry h).gen) (claimCode (s.entry h).claim)).respondTo ((s.entry h).waiter.map (fun w => (w.port, w.tag))) .gone
          []).respondTo ((s.entry h).watch.map (fun w => (w.port, w.tag))) .gone [] := by
  have spared : ∀ q : Port, (some p != some q) = (q != p) := by intro q; cases p <;> cases q <;> rfl
  have holders : ∀ q, Entry.holder { s.entry h with state := .retiring, fails := 0, retire := some (p, t) } q = (s.entry h).holder q := by
    intro q; cases q <;> rfl
  rw [State.dropClaims_eq, State.answerWatch_bare _ _ _ rfl]
  simp [State.modEntry_eq, spared, holders, Entry.endWatch_eq, Entry.noClaims, Entry.leavingFirst, Entry.watchDue]

/-- The step into RETIRING of an entry for which no hold stands. -/
theorem State.enterRetiring_of_not {s : State} {h : Handle} (p : Port) (t : Tag)
    (hn : ∀ pl, (s.entry h).place = some pl → ¬s.heldFor pl.seg h) :
    s.enterRetiring p t h = (s.leaveTold p h).setEntry h ((s.entry h).leaving (p, t)) := by
  unfold State.enterRetiring State.leaveTold
  dsimp only
  rw [State.dropForRetire, State.retireHold_of_not (by simpa [State.heldFor, Entry.leavingFirst] using hn)]
  by_cases hf : (s.entry h).adm.any (fun a => a.kind == .first) = true <;>
    simp [State.retireAdmission, Entry.leavingFirst, hf, State.modEntry_eq, Entry.endAdm_eq, Entry.leaving, Entry.admWaiting]

/-- The step into RETIRING of an entry for which a hold stands, which ends with a stop and CHAINBRK (05 R112). -/
theorem State.enterRetiring_of_held {s : State} {h : Handle} {pl : Place} {ho : Hold} (p : Port) (t : Tag)
    (hp : (s.entry h).place = some pl) (hs : (s.seg pl.seg).state = .held) (hh : (s.seg pl.seg).hold = some ho) (he : ho.entry = h) :
    s.enterRetiring p t h = ((s.leaveTold p h).setSeg pl.seg { s.seg pl.seg with state := .idle, hold := none, lines := .stop }).setEntry h
      (((s.entry h).leaving (p, t)).setChain ho.port true) := by
  unfold State.enterRetiring State.leaveTold
  dsimp only
  rw [State.dropForRetire, State.retireHold_of_held (pl := pl) (ho := ho) (by simpa [Entry.leavingFirst] using hp) (by simpa using hs)
    (by simpa using hh) he]
  by_cases hf : (s.entry h).adm.any (fun a => a.kind == .first) = true <;> cases ho.port <;>
    simp [State.retireAdmission, Entry.leavingFirst, hf, State.modEntry_eq, Entry.endAdm_eq, Entry.leaving, Entry.admWaiting, Entry.setChain]

@[simp] theorem State.entry_leaveTold (s : State) (p : Port) (h k : Handle) : (s.leaveTold p h).entry k = s.entry k := by
  unfold State.leaveTold; dsimp only; split <;> simp

/-- What the step into RETIRING makes of the directory: the entry leaves, with CHAINBRK of a hold's port, and the others stay. -/
theorem State.enterRetiring_entries (s : State) (p : Port) (t : Tag) (h : Handle) :
    ∃ f, (f = (s.entry h).leaving (p, t) ∨ ∃ q, f = ((s.entry h).leaving (p, t)).setChain q true) ∧
      ∀ k, (s.enterRetiring p t h).entry k = if k = h then f else s.entry k := by
  by_cases held : ∃ pl, (s.entry h).place = some pl ∧ s.heldFor pl.seg h
  · obtain ⟨pl, hp, hs, ho, hh, he⟩ := held
    refine ⟨_, .inr ⟨ho.port, rfl⟩, fun k => ?_⟩
    rw [State.enterRetiring_of_held p t hp hs hh he, State.entry_setEntry]
    simp
  · refine ⟨_, .inl rfl, fun k => ?_⟩
    rw [State.enterRetiring_of_not p t fun pl hp hh => held ⟨pl, hp, hh⟩, State.entry_setEntry]
    simp

end Sys2Proof.Machine
end

