-- ==== Sys2Proof/Proofs/Index.lean ====
section
/-! PROOFS. Every step keeps the index (01 R1, R7, 02 R22): one lemma for each operation. Most operations leave each place where it is or clear it; only ADMIT
and a survey's probe give a place to an entry, and both look for it in the index first. -/

namespace Sys2Proof.Machine

/-! ## One entry -/

/-- An entry has a place exactly when it is in use, and an admission record exactly when it is PROBING (01 R1, 02 R22). -/
structure Entry.Indexed (e : Entry) : Prop where
  place : e.place = none ↔ e.state = .vacant
  record : e.adm = none ↔ e.state ≠ .probing

/-- A change of one entry that keeps the index: the place stays or is given up, and the entry stays indexed. -/
structure Entry.Drifts (e f : Entry) : Prop where
  place : f.place = e.place ∨ f.place = none
  indexed : e.Indexed → f.Indexed

namespace Entry.Drifts

variable {e f k : Entry}

theorem refl (e : Entry) : e.Drifts e := ⟨.inl rfl, id⟩

theorem trans (h₁ : e.Drifts f) (h₂ : f.Drifts k) : e.Drifts k where
  place := by
    rcases h₂.place with hp | hp
    · rw [hp]; exact h₁.place
    · exact .inr hp
  indexed he := h₂.indexed (h₁.indexed he)

theorem vacant (e : Entry) (g : Gen) : e.Drifts (Entry.vacant g) := ⟨.inr rfl, fun _ => by constructor <;> simp [Entry.vacant]⟩

/-- A change of fields that the index does not look at. -/
theorem of_same (hp : f.place = e.place) (hs : f.state = e.state) (ha : f.adm.isSome = e.adm.isSome) : e.Drifts f where
  place := .inl hp
  indexed he := by
    have ha' : f.adm = none ↔ e.adm = none := by rw [← Option.not_isSome_iff_eq_none, ha, Option.not_isSome_iff_eq_none]
    exact ⟨by rw [hp, hs]; exact he.place, by rw [ha', hs]; exact he.record⟩

/-- An entry in use comes into a state in which it has no admission record. -/
theorem settled (hp : f.place = e.place) (hv : f.state ≠ .vacant) (hn : f.state ≠ .probing)
    (he : e.Indexed → e.state ≠ .vacant ∧ f.adm = none) : e.Drifts f where
  place := .inl hp
  indexed hi := by
    have used : f.place ≠ none := by rw [hp]; exact fun h => (he hi).1 (hi.place.1 h)
    exact ⟨by simp [used, hv], by simp [(he hi).2, hn]⟩

/-- An entry in use becomes PROBING, with an admission record. -/
theorem probing (hp : f.place = e.place) (hs : f.state = .probing) (ha : f.adm.isSome = true) (he : e.Indexed → e.state ≠ .vacant) :
    e.Drifts f where
  place := .inl hp
  indexed hi := by
    have used : f.place ≠ none := by rw [hp]; exact fun h => he hi (hi.place.1 h)
    exact ⟨by simp [used, hs], by simp [hs, ← Option.not_isSome_iff_eq_none, ha]⟩

theorem setChain (e : Entry) (p : Port) (b : Bool) : e.Drifts (e.setChain p b) := of_same (by simp) (by simp) (by simp)
theorem setHolder (e : Entry) (p : Port) (o : Option Holder) : e.Drifts (e.setHolder p o) := of_same (by simp) (by simp) (by simp)
theorem setSubs (e : Entry) (p : Port) (m : EntryMask) : e.Drifts (e.setSubs p m) := of_same (by simp) (by simp) (by simp)
theorem lower (e : Entry) : e.Drifts e.lower := of_same rfl rfl rfl
theorem rise (e : Entry) : e.Drifts e.rise := of_same rfl rfl rfl
theorem noClaims (e : Entry) : e.Drifts e.noClaims := of_same rfl rfl rfl
theorem endWatch (e : Entry) : e.Drifts e.endWatch := by rw [Entry.endWatch_eq]; exact of_same rfl rfl rfl
theorem dropHolder (e : Entry) (p : Port) : e.Drifts (e.dropHolder p) := (setHolder e p none).trans (of_same rfl rfl rfl)

theorem grantTo (e : Entry) (w : Waiter) : e.Drifts (e.grantTo w) := by
  unfold Entry.grantTo
  split
  · exact ((setHolder ..).trans (setHolder ..)).trans (of_same rfl rfl rfl)
  · exact (setHolder ..).trans (of_same rfl rfl rfl)

theorem fallen (e : Entry) : e.Drifts e.fallen := by
  unfold Entry.fallen
  split
  · exact vacant ..
  · exact lower e

theorem of_reported (r : e.Reported f) : e.Drifts f := by
  cases r with
  | same => exact refl e
  | moved hr hs =>
    have out : e.state ≠ .probing ∧ e.state ≠ .vacant := by constructor <;> intro h <;> simp [Entry.reachable, h] at hr
    exact settled rfl (by rcases hs with rfl | rfl | rfl <;> simp) (by rcases hs with rfl | rfl | rfl <;> simp)
      fun hi => ⟨out.2, hi.record.2 out.1⟩

theorem of_chosen (c : e.Chosen f) : e.Drifts f := by
  induction c with
  | refl => exact refl e
  | answered p _ ih => exact (ih.trans (setChain ..)).trans (fallen _)
  | admission _ ha ih => exact ih.trans (of_same rfl rfl (by simp [ha]))
  | watch _ _ ih => exact ih.trans (of_same rfl rfl rfl)
  | rise _ _ _ ih => exact ih.trans (rise _)

/-- The end of an admission with its entry PRESENT. -/
theorem present (ha : e.adm.isSome = true) (hp : f.place = e.place) (hs : f.state = .present) (hn : f.adm = none) : e.Drifts f :=
  settled hp (by simp [hs]) (by simp [hs]) fun hi => by
    have prob : e.state = .probing := by
      by_contra hc
      simp [hi.record.2 hc] at ha
    simp [prob, hn]

end Entry.Drifts

/-! ## The whole directory -/

theorem State.indexOk_iff (s : State) : s.IndexOk ↔ (∀ h, (s.entry h).Indexed) ∧
    ∀ h k pl pl', (s.entry h).place = some pl → (s.entry k).place = some pl' →
      pl.seg = pl'.seg → pl.amode = pl'.amode → pl.addr = pl'.addr → h = k :=
  ⟨fun ok => ⟨fun h => ⟨ok.place h, ok.record h⟩, ok.single⟩, fun ⟨hi, hs⟩ => ⟨fun h => (hi h).place, fun h => (hi h).record, hs⟩⟩

theorem State.IndexOk.indexed {s : State} (ok : s.IndexOk) (h : Handle) : (s.entry h).Indexed := ⟨ok.place h, ok.record h⟩

theorem State.placed_of_admitting {s : State} {g : Seg} {k : AdmKind} {h : Handle} (hm : h ∈ s.admitting g k) :
    (s.entry h).place ≠ none := by
  intro hp
  simp [State.admitting, Entry.admits, Entry.onSeg, hp] at hm

/-- A step that keeps the index. -/
structure KeepsIndex (s t : State) : Prop where
  keeps : s.IndexOk → t.IndexOk

namespace KeepsIndex

variable {s t u : State}

theorem refl (s : State) : KeepsIndex s s := ⟨id⟩

theorem trans (h₁ : KeepsIndex s t) (h₂ : KeepsIndex t u) : KeepsIndex s u := ⟨fun ok => h₂.keeps (h₁.keeps ok)⟩

theorem of_drifts (d : ∀ h, (s.entry h).Drifts (t.entry h)) : KeepsIndex s t where
  keeps ok := by
    have same : ∀ h pl, (t.entry h).place = some pl → (s.entry h).place = some pl := by
      intro h pl hp
      rcases (d h).place with hd | hd
      · rw [← hd]; exact hp
      · rw [hd] at hp; cases hp
    exact t.indexOk_iff.2 ⟨fun h => (d h).indexed (ok.indexed h),
      fun h k pl pl' h₁ h₂ => ok.single h k pl pl' (same h pl h₁) (same k pl' h₂)⟩

theorem of_entries (h : ∀ k, t.entry k = s.entry k) : KeepsIndex s t := of_drifts fun k => by rw [h]; exact .refl _

theorem ite {c : Prop} [Decidable c] (h₁ : KeepsIndex s t) (h₂ : KeepsIndex s u) : KeepsIndex s (if c then t else u) := by
  split <;> assumption

theorem thenIf {c : Prop} [Decidable c] (h₁ : KeepsIndex s t) (h₂ : KeepsIndex t u) : KeepsIndex s (if c then u else t) :=
  ite (h₁.trans h₂) h₁

theorem foldl {α : Type} {f : State → α → State} (hf : ∀ s a, KeepsIndex s (f s a)) (l : List α) (s : State) : KeepsIndex s (l.foldl f s) := by
  induction l generalizing s with
  | nil => exact refl s
  | cons a l ih => exact (hf s a).trans (ih _)

theorem forAnyOrder {α : Type} {f : State → α → State} (hf : ∀ s a, KeepsIndex s (f s a)) (s : State) (l : List α) :
    KeepsIndex s (s.forAnyOrder l f) := (of_entries (t := (s.anyOrder l).2) (by simp)).trans (foldl hf _ _)

theorem atSegOf {f : State → Seg → State} (hf : ∀ s g, KeepsIndex s (f s g)) (s : State) (h : Handle) : KeepsIndex s (s.atSegOf h f) := by
  unfold State.atSegOf
  split
  · exact hf _ _
  · exact refl s

theorem modEntry {h : Handle} {f : Entry → Entry} (hf : (s.entry h).Drifts (f (s.entry h))) : KeepsIndex s (s.modEntry h f) :=
  of_drifts fun k => by
    rw [State.entry_modEntry]
    split
    · next hk => rw [hk]; exact hf
    · exact .refl _

/-- A free place is taken by an entry (01 R9). -/
theorem taken {h : Handle} {pl : Place} {a b : EntryMask} {src : AdmSource} (free : ∀ k, (s.entry k).at pl.seg pl.amode pl.addr = false) :
    KeepsIndex s (s.modEntry h (fun e => e.taken pl a b src)) where
  keeps ok := by
    have other : ∀ k pl', (s.entry k).place = some pl' → ¬(pl.seg = pl'.seg ∧ pl.amode = pl'.amode ∧ pl.addr = pl'.addr) := by
      rintro k pl' hk ⟨h₁, h₂, h₃⟩
      have used : (s.entry k).state ≠ .vacant := fun hv => by simp [(ok.place k).2 hv] at hk
      simpa [Entry.at, hk, h₁, h₂, h₃, used] using free k
    have entries : ∀ k, (s.modEntry h (fun e => e.taken pl a b src)).entry k = if k = h then (s.entry h).taken pl a b src else s.entry k :=
      fun k => s.entry_modEntry h k _
    refine (State.indexOk_iff _).2 ⟨fun k => ?_, fun k k' p p' h₁ h₂ hs hm ha => ?_⟩
    · rw [entries]
      split
      · exact ⟨by simp [Entry.taken], by simp [Entry.taken]⟩
      · exact ok.indexed k
    · rw [entries] at h₁ h₂
      split at h₁ <;> split at h₂
      · next hk hk' => rw [hk, hk']
      · cases h₁; exact absurd ⟨hs, hm, ha⟩ (other _ _ h₂)
      · cases h₂; exact absurd ⟨hs.symm, hm.symm, ha.symm⟩ (other _ _ h₁)
      · exact ok.single k k' p p' h₁ h₂ hs hm ha

/-! ## Operations on records other than entries -/

theorem modSeg (s : State) (g : Seg) (f : Segment → Segment) : KeepsIndex s (s.modSeg g f) := of_entries (by simp)
theorem modPort (s : State) (p : Port) (f : PortRec → PortRec) : KeepsIndex s (s.modPort p f) := of_entries (by simp)
theorem setPort (s : State) (p : Port) (r : PortRec) : KeepsIndex s (s.setPort p r) := of_entries (by simp)
theorem respond (s : State) (p : Port) (t : Tag) (st : Status) (l : List Byte) : KeepsIndex s (s.respond p t st l) := of_entries (by simp)
theorem respondTo (s : State) (o : Option (Port × Tag)) (st : Status) (l : List Byte) : KeepsIndex s (s.respondTo o st l) :=
  of_entries (by simp)
theorem post (s : State) (p : Port) (k : NoticeKind) (sub : Subject) (d : Byte) : KeepsIndex s (s.post p k sub d) := of_entries (by simp)
theorem postWhere (s : State) (who : Port → Bool) (k : NoticeKind) (sub : Subject) (d : Byte) : KeepsIndex s (s.postWhere who k sub d) :=
  of_entries (by simp)
theorem answerSurvey (s : State) (g : Seg) (st : Status) : KeepsIndex s (s.answerSurvey g st) := of_entries (by simp)

/-! ## The claim unit, the directory, the health monitor -/

theorem reevaluate (s : State) (h : Handle) : KeepsIndex s (s.reevaluate h) := by
  unfold State.reevaluate
  split
  · exact refl s
  · exact ite ((modEntry (.grantTo ..)).trans (respond ..)) (refl s)

theorem dropClaims (s : State) (h : Handle) (o : Option Port) : KeepsIndex s (s.dropClaims h o) := of_drifts fun k => by
  rw [State.entry_dropClaims]
  split
  · next hk => rw [hk]; exact .noClaims _
  · exact .refl _

theorem failFirst (s : State) (h : Handle) (st : Status) : KeepsIndex s (s.failFirst h st) := of_drifts fun k => by
  rw [State.entry_failFirst]
  split
  · exact .vacant ..
  · exact .refl _

theorem completeRetire (s : State) (h : Handle) : KeepsIndex s (s.completeRetire h) := of_drifts fun k => by
  rw [State.entry_completeRetire]
  split
  · exact .vacant ..
  · exact .refl _

theorem fall (s : State) (h : Handle) : KeepsIndex s (s.fall h) := of_drifts fun k => by
  rw [State.entry_fall]
  split
  · next hk => rw [hk]; exact .fallen _
  · exact .refl _

theorem fallNamed (s : State) (n : Option Handle) : KeepsIndex s (s.fallNamed n) := by
  cases n with
  | none => exact refl s
  | some h => exact fall s h

theorem answerWatch (s : State) (h : Handle) (st : Status) (aux : Byte) : KeepsIndex s (s.answerWatch h st aux) := of_drifts fun k => by
  rw [State.entry_answerWatch]
  split
  · next hk => rw [hk]; exact .endWatch _
  · exact .refl _

theorem becomeLost {h : Handle} (hr : (s.entry h).reachable = true) : KeepsIndex s (s.becomeLost h) := of_drifts fun k => by
  rw [State.entry_becomeLost]
  split
  · next hk => rw [hk]; exact .of_reported (.moved (w := (s.entry h).watch) (i := (s.entry h).inflight) hr (.inr (.inr rfl)))
  · exact .refl _

theorem report (s : State) (h : Handle) (o : Outcome) : KeepsIndex s (s.report h o) := of_drifts fun k => by
  by_cases hk : k = h
  · rw [hk]; exact .of_reported (s.reported_report h o)
  · rw [s.entry_report_of_ne o hk]; exact .refl _

/-! ## The admission unit -/

theorem beginReadmission {h : Handle} {src : AdmSource} (hl : (s.entry h).state = .lost) : KeepsIndex s (s.beginReadmission h src) := by
  refine modEntry (.probing ?_ rfl rfl fun _ => by simp [hl])
  simp only [Entry.plan, Entry.rise]
  split
  · split <;> rfl
  · rfl

theorem plan {h : Handle} {a : AdmRec} (ha : (s.entry h).adm.isSome = true) : KeepsIndex s (s.modEntry h (fun e => e.plan a)) :=
  modEntry (.of_same rfl rfl (by simp [Entry.plan, ha]))

theorem endFirst {h : Handle} (a : AdmRec) (d : Desc) (src : DSrc) (ha : (s.entry h).adm.isSome = true) :
    KeepsIndex s (s.endFirst h a d src) := by
  have first : KeepsIndex s (s.modEntry h (fun e => { e with state := .present, fails := 0, desc := d, dsrc := src, adm := none })) :=
    modEntry (.present ha rfl rfl rfl)
  unfold State.endFirst
  dsimp only
  split
  · exact first.trans (of_entries (by simp))
  · exact first.trans (post ..)
  all_goals exact first

theorem endReappeared {h : Handle} (d : Desc) (src : DSrc) (ha : (s.entry h).adm.isSome = true) : KeepsIndex s (s.endReappeared h d src) :=
  ((modEntry (.present ha rfl rfl rfl)).trans (postWhere ..)).trans (answerWatch ..)

theorem endReplaced {h : Handle} (d : Desc) (src : DSrc) (ha : (s.entry h).adm.isSome = true) : KeepsIndex s (s.endReplaced h d src) :=
  (((dropClaims s h none).trans (modEntry (.present (by simpa [Entry.noClaims] using ha) rfl rfl rfl))).trans (postWhere ..)).trans
    (answerWatch ..)

theorem failRe {h : Handle} (ha : (s.entry h).adm.isSome = true) : KeepsIndex s (s.failRe h) := by
  have lost : KeepsIndex s (s.modEntry h (fun e => { e with state := .lost, fails := 0, adm := none })) :=
    modEntry (.settled rfl nofun nofun fun hi => ⟨fun hv => by simp [hi.record.2 (by simp [hv])] at ha, rfl⟩)
  unfold State.failRe
  dsimp only
  split
  · exact lost.trans (ite (answerWatch ..) (modEntry (.of_same rfl rfl rfl)))
  · exact lost

theorem endAdmission {h : Handle} (a : AdmRec) (d : Desc) (src : DSrc) (ha : (s.entry h).adm.isSome = true) :
    KeepsIndex s (s.endAdmission h a d src) := by
  unfold State.endAdmission
  dsimp only
  split
  · exact endFirst a d src ha
  · exact ite (endReappeared _ _ ha) (ite (endReappeared _ _ ha) (endReplaced _ _ ha))

theorem failAdmission {h : Handle} (a : AdmRec) (st : Status) (ha : (s.entry h).adm.isSome = true) :
    KeepsIndex s (s.failAdmission h a st) := by
  unfold State.failAdmission
  split
  · exact failFirst ..
  · exact failRe ha

theorem admissionNext {h : Handle} (a : AdmRec) (o : Outcome) (rx : List Byte) (ha : (s.entry h).adm.isSome = true) :
    KeepsIndex s (s.admissionNext h a o rx) := by
  unfold State.admissionNext
  dsimp only
  split
  · split
    · exact ite (endAdmission _ _ _ ha) (plan ha)
    · exact ite (plan ha) (endAdmission _ _ _ ha)
    · exact endAdmission _ _ _ ha
  · exact plan ha
  · split
    · exact failFirst ..
    · exact plan ha
  all_goals
    split
    · exact failAdmission _ _ ha
    all_goals exact endAdmission _ _ _ ha

/-! ## The segment controllers and the arbiter -/

theorem answerTx (s : State) (t : HostTx) (st : Status) (n : Nat) (rx : List Byte) (b : Bool) : KeepsIndex s (s.answerTx t st n rx b) :=
  of_drifts fun k => by
    rw [State.entry_answerTx]
    split
    · next hk => rw [hk]; exact .setChain ..
    · exact .refl _

theorem completeAll (s : State) (g : Seg) (st : Status) : KeepsIndex s (s.completeAll g st) :=
  (modSeg ..).trans (foldl (fun _ _ => (answerTx ..).trans (fall ..)) _ _)

theorem dropHold (s : State) (g : Seg) (l : LineEnd) (b : Bool) : KeepsIndex s (s.dropHold g l b) := by
  unfold State.dropHold
  split
  · exact ite ((modSeg ..).trans (modEntry (.setChain ..))) (modSeg ..)
  · exact refl s

theorem endHold (s : State) (g : Seg) (b : Bool) : KeepsIndex s (s.endHold g b) := (modSeg ..).trans (dropHold ..)

theorem becomeStuck (s : State) (g : Seg) (c : Byte) : KeepsIndex s (s.becomeStuck g c) := by
  unfold State.becomeStuck
  refine trans ?_ (postWhere ..)
  refine trans ?_ (forAnyOrder (fun _ _ => failFirst ..) _ _)
  exact (((modSeg ..).trans (completeAll ..)).trans (answerSurvey ..)).trans (modSeg ..)

theorem cancelRe {h : Handle} (hu : (s.entry h).place ≠ none) : KeepsIndex s (s.modEntry h Entry.cancelRe) := by
  refine modEntry (.settled ?_ nofun nofun fun hi => ⟨fun hv => hu (hi.place.2 hv), rfl⟩)
  unfold Entry.cancelRe
  dsimp only
  split <;> rfl

/-- Re-admissions are ended one after the other; each leaves the places of the others. -/
theorem cancelRes (l : List Handle) (s : State) (hu : ∀ h ∈ l, (s.entry h).place ≠ none) :
    KeepsIndex s (l.foldl (fun s h => s.modEntry h Entry.cancelRe) s) := by
  induction l generalizing s with
  | nil => exact refl s
  | cons h l ih =>
    refine (cancelRe (hu h List.mem_cons_self)).trans (ih _ fun k hk => ?_)
    rw [State.entry_modEntry]
    split
    · have stays : (s.entry h).cancelRe.place = (s.entry h).place := by
        unfold Entry.cancelRe
        dsimp only
        split <;> rfl
      rw [stays]
      exact hu h List.mem_cons_self
    · exact hu k (List.mem_cons_of_mem _ hk)

theorem goOff (s : State) (g : Seg) (b : Bool) (o : Option (Port × Tag)) : KeepsIndex s (s.goOff g b o) := by
  unfold State.goOff
  refine trans ?_ (respondTo ..)
  refine trans ?_ (cancelRes _ _ fun h hm => State.placed_of_admitting hm)
  refine trans ?_ (forAnyOrder (fun _ _ => failFirst ..) _ _)
  refine trans ?_ (forAnyOrder (fun _ _ => answerWatch ..) _ _)
  refine trans ?_ (dropHold ..)
  exact (((modSeg ..).trans (completeAll ..)).trans (answerSurvey ..)).trans (modSeg ..)

theorem choose (s : State) (g : Seg) : KeepsIndex s (s.choose g) := of_drifts fun h => .of_chosen ((State.Chosen.choose s g).entry h)

/-! ## The bus engine -/

theorem loadSettle (s : State) (h : Handle) (c : Current) : KeepsIndex s (s.loadSettle h c) := ite (modEntry (.of_same rfl rfl rfl)) (refl s)

theorem tryHold (s : State) (g : Seg) (t : HostTx) (c : Current) : KeepsIndex s (s.tryHold g t c) :=
  ite (refl s) (ite (modEntry (.setChain ..)) (modSeg ..))

theorem endHost (s : State) (g : Seg) (c : Current) (o : Outcome) : KeepsIndex s (s.endHost g c o) := by
  unfold State.endHost
  dsimp only
  split
  · exact refl s
  · refine trans ?_ (fall ..)
    refine thenIf ?_ (tryHold ..)
    exact (((report ..).trans (loadSettle ..)).trans (modSeg ..)).trans (answerTx ..)

theorem endAdmissionTransfer (s : State) (h : Handle) (c : Current) (o : Outcome) : KeepsIndex s (s.endAdmissionTransfer h c o) := by
  unfold State.endAdmissionTransfer
  dsimp only
  split
  · next a ha =>
    refine ite (((report ..).trans (modEntry (.lower _))).trans (admissionNext _ _ _ ?_)) ((report ..).trans (fall ..))
    simp [Entry.lower, ha]
  · exact (report ..).trans (fall ..)

theorem watchOutcome (s : State) (h : Handle) (o : Outcome) : KeepsIndex s (s.watchOutcome h o) := by
  unfold State.watchOutcome
  split
  · exact refl s
  · split
    · exact modEntry (.of_same rfl rfl rfl)
    · split
      · next hl => exact beginReadmission hl.2
      · exact ite (answerWatch ..) (modEntry (.of_same rfl rfl rfl))

theorem endWatchProbe (s : State) (h : Handle) (o : Outcome) : KeepsIndex s (s.endWatchProbe h o) := by
  unfold State.endWatchProbe
  split
  · exact ite ((((modEntry (.of_same rfl rfl rfl)).trans (report ..)).trans (watchOutcome ..)).trans (fall ..))
      ((report ..).trans (fall ..))
  · exact (report ..).trans (fall ..)

/-- A survey's judging keeps the index, where what is listed is what the index has: a place is taken only where none is, and only a LOST entry is
re-admitted (07 R135, R136). -/
theorem judge {g : Seg} {c : Cursor} {listed : Option (Handle × EntryState)} {o : Outcome}
    (free : listed = none → ∀ k, (s.entry k).at g .seven c.next = false)
    (lost : ∀ h, listed = some (h, .lost) → (s.entry h).state = .lost) : KeepsIndex s (s.judge g c listed o).1 := by
  unfold State.judge
  split
  · split
    · split
      · exact taken (free rfl)
      · exact ite (refl s) (post ..)
    · exact refl s
  · split
    · exact refl s
    · exact refl s
    · split
      · exact beginReadmission (lost _ rfl)
      · exact refl s
    all_goals exact refl s

theorem reportNamed (s : State) (n : Option Handle) (o : Outcome) : KeepsIndex s (s.reportNamed n o) := by
  cases n with
  | none => exact refl s
  | some h => exact report s h o

theorem endSurveyProbe (s : State) (g : Seg) (n : Option Handle) (o : Outcome) : KeepsIndex s (s.endSurveyProbe g n o) := by
  rw [State.endSurveyProbe_eq]
  have first := reportNamed s n o
  split
  · next c _ =>
    refine ite (ite ((first.trans (answerSurvey ..)).trans (fallNamed ..)) ?_) (first.trans (fallNamed ..))
    refine thenIf ?_ (answerSurvey ..)
    refine ((first.trans (judge (fun hl k => ?_) fun h hl => ?_)).trans (modSeg ..)).trans (fallNamed ..)
    · rw [State.at_reportNamed]
      exact State.find_eq_none.1 (by simpa [State.listedAt] using hl) k
    · simp only [State.listedAt, Option.map_eq_some_iff, Prod.mk.injEq] at hl
      obtain ⟨k, -, rfl, hs⟩ := hl
      rw [State.entry_reportNamed_of_unreachable (by simp [Entry.reachable, hs]), hs]
  · exact first.trans (fallNamed ..)

theorem judgeByte (s : State) (g : Seg) (h : Handle) (b : Byte) : KeepsIndex s (s.judgeByte g h b) :=
  ite ((postWhere ..).trans (modSeg ..)) (refl s)

theorem endSweepRead (s : State) (g : Seg) (h : Handle) (c : Current) (o : Outcome) : KeepsIndex s (s.endSweepRead g h c o) := by
  have first := report s h o
  unfold State.endSweepRead
  dsimp only
  refine trans ?_ (fall ..)
  refine ite ?_ first
  cases o with
  | ok => exact (first.trans (judgeByte ..)).trans (modSeg ..)
  | busStuck => exact first
  | aborted => exact first
  | addrNack | dataNack | clockTimeout | arbLost | busBusy => exact first.trans (modSeg ..)

theorem deliver (s : State) (g : Seg) (c : Current) (o : Outcome) : KeepsIndex s (s.deliver g c o) := by
  unfold State.deliver
  cases c.kind with
  | host => exact endHost ..
  | survey => exact endSurveyProbe ..
  | admission => cases c.entry with
    | none => exact refl s
    | some h => exact endAdmissionTransfer ..
  | watch => cases c.entry with
    | none => exact refl s
    | some h => exact endWatchProbe ..
  | sweep => cases c.entry with
    | none => exact refl s
    | some h => exact endSweepRead ..

theorem afterTransfer (s : State) (g : Seg) (o : Outcome) : KeepsIndex s (s.afterTransfer g o) := by
  unfold State.afterTransfer
  split
  · exact goOff ..
  all_goals
    split
    · exact modSeg ..
    · exact becomeStuck ..
    all_goals exact (modSeg ..).trans (choose ..)

theorem endTransfer (s : State) (g : Seg) (c : Current) (o : Outcome) : KeepsIndex s (s.endTransfer g c o) :=
  ((modSeg ..).trans (deliver ..)).trans (afterTransfer ..)

theorem transferEnds (s : State) (g : Seg) (c : Current) (e : TransferEnd) : KeepsIndex s (s.transferEnds g c e) := by
  unfold State.transferEnds
  split
  · exact endTransfer ..
  · exact refl s

theorem losesArbitration (s : State) (g : Seg) (c : Current) (pr : Progress) : KeepsIndex s (s.losesArbitration g c pr) :=
  ite (refl s) (ite (modSeg ..) (endTransfer ..))

theorem waitsTooLong (s : State) (g : Seg) (c : Current) (b : Bool) : KeepsIndex s (s.waitsTooLong g c b) :=
  ite (refl s) (ite (modSeg ..) (endTransfer ..))

theorem innerRecovery (s : State) (g : Seg) (c : Current) (l : List LineObs) : KeepsIndex s (s.innerRecovery g c l) := by
  unfold State.innerRecovery
  split
  · exact refl s
  · exact modSeg ..
  · exact endTransfer ..

theorem busEvent (s : State) (g : Seg) (ev : BusEvent) : KeepsIndex s (s.busEvent g ev) := by
  unfold State.busEvent
  split
  · refine ite ?_ ?_
    · cases ev with
      | recovery obs => exact innerRecovery ..
      | ended | clockTimeout | arbLost | busBusy => exact refl s
    · cases ev with
      | ended e => exact transferEnds ..
      | clockTimeout pr => exact endTransfer ..
      | arbLost pr => exact losesArbitration ..
      | busBusy => exact waitsTooLong ..
      | recovery => exact refl s
  · exact refl s

theorem busBusy (s : State) (g : Seg) (b : Bool) : KeepsIndex s (s.busBusy g b) := by
  unfold State.busBusy
  split
  · exact ite (refl s) (waitsTooLong ..)
  · exact refl s

theorem endOfKind (s : State) (g : Seg) (k : CurKind) (e : TransferEnd) : KeepsIndex s (s.endOfKind g k e) := ite (busEvent ..) (refl s)

theorem outerRecovery (s : State) (g : Seg) (b : Bool) : KeepsIndex s (s.outerRecovery g b) := by
  unfold State.outerRecovery
  split
  · exact ite (((modSeg ..).trans (respondTo ..)).trans (choose ..)) (((becomeStuck ..).trans (modSeg ..)).trans (respondTo ..))
  all_goals exact ite ((modSeg ..).trans (choose ..)) (becomeStuck ..)

theorem recoveryEnd (s : State) (g : Seg) (obs : List LineObs) : KeepsIndex s (s.recoveryEnd g obs) := by
  unfold State.recoveryEnd
  split
  · split
    · exact outerRecovery ..
    · exact refl s
  all_goals exact busEvent ..

/-! ## Claims, and the events inside a step -/

theorem claimEnds (s : State) (h : Handle) (p : Port) : KeepsIndex s (s.claimEnds h p) := by
  refine atSegOf (fun s g => ?_) _ _
  dsimp only
  refine ite (endHold ..) ?_
  split
  · exact ite (modSeg ..) (refl s)
  · exact refl s

theorem lapse (s : State) (p : Port) (h : Handle) : KeepsIndex s (s.lapse p h) :=
  (((modEntry (.dropHolder ..)).trans (post ..)).trans (claimEnds ..)).trans (reevaluate ..)

theorem release (s : State) (p : Port) (h : Handle) : KeepsIndex s (s.release p h) :=
  ((modEntry (.dropHolder ..)).trans (claimEnds ..)).trans (reevaluate ..)

theorem leaseLapse (s : State) (h : Handle) (p : Port) : KeepsIndex s (s.leaseLapse h p) :=
  ite ((lapse ..).trans (atSegOf choose _ _)) (refl s)

theorem waitExpiry (s : State) (h : Handle) : KeepsIndex s (s.waitExpiry h) := by
  unfold State.waitExpiry
  split
  · exact ite ((modEntry (.of_same rfl rfl rfl)).trans (respond ..)) (refl s)
  · exact refl s

theorem watchProbeDue (s : State) (h : Handle) : KeepsIndex s (s.watchProbeDue h) :=
  ite ((modEntry (.of_same rfl rfl rfl)).trans (atSegOf choose _ _)) (refl s)

theorem rearmExpiry (s : State) (g : Seg) : KeepsIndex s (s.rearmExpiry g) := ite ((modSeg ..).trans (choose ..)) (refl s)

theorem settleEnd (s : State) (h : Handle) : KeepsIndex s (s.settleEnd h) :=
  (modEntry (.of_same rfl rfl rfl)).trans (atSegOf choose _ _)

theorem holdExpiry (s : State) (g : Seg) : KeepsIndex s (s.holdExpiry g) := ite ((endHold ..).trans (choose ..)) (refl s)

theorem happen (s : State) (ev : Event) : KeepsIndex s (s.happen ev) := by
  cases ev with
  | leaseLapse h p => exact leaseLapse ..
  | waitExpiry h => exact waitExpiry ..
  | watchProbeDue h => exact watchProbeDue ..
  | rearmExpiry g => exact rearmExpiry ..
  | settleEnd h => exact settleEnd ..
  | holdExpiry g => exact holdExpiry ..
  | waiterGranted h => exact reevaluate ..
  | retireComplete h => exact ite (completeRetire ..) (refl s)
  | arbiterGrant g => exact choose ..

theorem mapEntries {f : Entry → Entry} (hf : ∀ e : Entry, e.Drifts (f e)) (s : State) : KeepsIndex s (s.mapEntries f) :=
  of_drifts fun h => by rw [State.entry_mapEntries]; exact hf _

theorem mapSegs (s : State) (f : Segment → Segment) : KeepsIndex s (s.mapSegs f) := of_entries fun _ => rfl

theorem tick10ms (s : State) (l : List Event) : KeepsIndex s (s.tick10ms l) :=
  ((mapEntries (f := Entry.tick10ms) (fun _ => .of_same rfl rfl rfl) s).trans (mapSegs ..)).trans (foldl happen _ _)

theorem tick100us (s : State) (l : List Event) : KeepsIndex s (s.tick100us l) :=
  ((mapEntries (f := Entry.tick100us) (fun _ => .of_same rfl rfl rfl) s).trans (mapSegs ..)).trans (foldl happen _ _)

/-! ## Requests -/

theorem submit {body : Tag → State → State} (hb : ∀ t s, KeepsIndex s (body t s)) (s : State) (p : Port) (tag code : Byte)
    (params : List Byte) : KeepsIndex s (s.submit p tag code params body) := by
  unfold State.submit
  refine ite ?_ (refl s)
  dsimp only
  split
  · exact setPort ..
  · exact (setPort ..).trans (hb _ _)

theorem orBadParam {α : Type} {s : State} {f : α → State} (hf : ∀ a, KeepsIndex s (f a)) (p : Port) (t : Tag) (args : Option α) :
    KeepsIndex s (s.orBadParam p t args f) := by
  cases args with
  | none => exact respond ..
  | some a => exact hf a

theorem answerAdmit (s : State) (p : Port) (t : Tag) (a : AdmitArgs) : KeepsIndex s (s.answerAdmit p t a) := by
  unfold State.answerAdmit
  split
  · exact respond ..
  · next h hd =>
    have free : s.find a.seg a.amode a.addr = none := by
      unfold State.admitDecision at hd
      split at hd
      · cases hd
      · assumption
    exact (taken (State.find_eq_none.1 free)).trans (choose ..)

theorem enterRetiring {h : Handle} (p : Port) (t : Tag) (hu : (s.entry h).state ≠ .vacant) : KeepsIndex s (s.enterRetiring p t h) := by
  obtain ⟨f, hf, entries⟩ := s.enterRetiring_entries p t h
  have left : (s.entry h).Drifts ((s.entry h).leaving (p, t)) := .settled rfl nofun nofun fun _ => ⟨hu, rfl⟩
  refine of_drifts fun k => ?_
  rw [entries]
  split
  · next hk =>
    rw [hk]
    rcases hf with rfl | ⟨q, rfl⟩
    · exact left
    · exact left.trans (.setChain ..)
  · exact .refl _

theorem answerRetire (s : State) (p : Port) (t : Tag) (r : Handle × Gen) : KeepsIndex s (s.answerRetire p t r) := by
  unfold State.answerRetire
  split
  · exact respond ..
  · next hd =>
    have used : (s.entry r.1).state ≠ .vacant := by
      intro hv
      simp [State.retireRefusal, State.refRefusal, State.isCurrent, hv] at hd
    unfold State.retire State.atSegOf
    dsimp only
    split
    · exact trans (thenIf (enterRetiring p t used) (completeRetire ..)) (choose ..)
    · exact refl s

theorem answerSubscribe (s : State) (p : Port) (t : Tag) (a : (Handle × Gen) × EntryMask) : KeepsIndex s (s.answerSubscribe p t a) := by
  unfold State.answerSubscribe
  split
  · exact respond ..
  · exact (modEntry (.setSubs ..)).trans (respond ..)

theorem giveClaim (s : State) (p : Port) (t : Tag) (a : ClaimArgs) : KeepsIndex s (s.giveClaim p t a) :=
  (modEntry (f := fun e => e.takeClaim p a.mode a.lease) ((Entry.Drifts.setHolder ..).trans (.of_same rfl rfl rfl))).trans (respond ..)

theorem answerClaim (s : State) (p : Port) (t : Tag) (a : ClaimArgs) : KeepsIndex s (s.answerClaim p t a) := by
  unfold State.answerClaim
  split
  · exact respond ..
  · dsimp only
    refine ite (respond ..) ?_
    split
    · exact giveClaim ..
    · exact giveClaim ..
    · exact giveClaim ..
    · exact (giveClaim ..).trans (reevaluate ..)
    · exact ite (respond ..) (ite (respond ..) (modEntry (.of_same rfl rfl rfl)))

theorem answerRenew (s : State) (p : Port) (t : Tag) (r : Handle × Gen) : KeepsIndex s (s.answerRenew p t r) := by
  unfold State.answerRenew
  split
  · exact respond ..
  · split
    · exact respond ..
    · exact (modEntry (.setHolder ..)).trans (respond ..)

theorem answerRelease (s : State) (p : Port) (t : Tag) (r : Handle × Gen) : KeepsIndex s (s.answerRelease p t r) := by
  unfold State.answerRelease
  split
  · exact respond ..
  · exact ite (((release ..).trans (respond ..)).trans (atSegOf choose _ _)) (respond ..)

theorem answerTransfer (s : State) (p : Port) (t : Tag) (k : TxKind) (args : Option TransferArgs) :
    KeepsIndex s (s.answerTransfer p t k args) := by
  unfold State.answerTransfer
  split
  · exact respond ..
  · split
    · exact respond ..
    · exact ((modSeg ..).trans (modEntry (.rise _))).trans (choose ..)

theorem answerWatchCommand (s : State) (p : Port) (t : Tag) (a : WatchArgs) : KeepsIndex s (s.answerWatchCommand p t a) := by
  unfold State.answerWatchCommand
  split
  · exact respond ..
  · exact ite (respond ..) (ite (respond ..) (modEntry (.of_same rfl rfl rfl)))

theorem answerWatchCancel (s : State) (p : Port) (t : Tag) (r : Handle × Gen) : KeepsIndex s (s.answerWatchCancel p t r) := by
  unfold State.answerWatchCancel
  split
  · exact respond ..
  · exact ite ((answerWatch ..).trans (respond ..)) (respond ..)

theorem applyLimit (s : State) (h : Handle) : KeepsIndex s (s.applyLimit h) := by
  unfold State.applyLimit
  split
  · next hs => exact becomeLost (by simp [Entry.reachable, hs.1])
  · exact refl s

theorem answerSetLimits (s : State) (p : Port) (t : Tag) (n : Nat) : KeepsIndex s (s.answerSetLimits p t n) := by
  have limits : KeepsIndex s (handles.foldl State.applyLimit { s with threshold := n }) :=
    (of_entries (s := s) (t := { s with threshold := n }) fun _ => rfl).trans (foldl applyLimit _ _)
  exact (limits.trans (respond ..)).trans (forAnyOrder choose _ _)

theorem answerSurveyCommand (s : State) (p : Port) (t : Tag) (a : Seg × Nat × Nat) : KeepsIndex s (s.answerSurveyCommand p t a) := by
  unfold State.answerSurveyCommand
  split
  · exact respond ..
  · split
    · exact respond ..
    · exact (modSeg ..).trans (choose ..)

theorem answerDisable (s : State) (p : Port) (t : Tag) (b : Bool) (g : Seg) : KeepsIndex s (s.answerDisable p t b g) := by
  unfold State.answerDisable
  refine ite (respond ..) ?_
  split
  · exact respond ..
  · exact modSeg ..
  all_goals exact goOff ..

theorem cutTransfer (s : State) (g : Seg) (c : Current) : KeepsIndex s (s.cutTransfer g c) := by
  unfold State.cutTransfer
  split
  · exact deliver ..
  · exact deliver ..
  · exact deliver ..
  all_goals exact refl s

/-- What ends with a transfer that a segment reset has cut, where it is of the kind given. -/
theorem deliverCut (s : State) (g : Seg) (k : CurKind) (cut : Option Current) : KeepsIndex s (match cut with
    | some c => if c.kind = k then s.deliver g c .aborted else s
    | none => s) := by
  split
  · exact ite (deliver ..) (refl s)
  · exact refl s

theorem resetSegment (s : State) (p : Port) (t : Tag) (g : Seg) (pr : Progress) : KeepsIndex s (s.resetSegment p t g pr) := by
  have cut : ∀ (u : State) (o : Option Current), KeepsIndex u (match o with
      | some c => u.cutTransfer g c
      | none => u) := by
    intro u o
    split
    · exact cutTransfer ..
    · exact refl u
  unfold State.resetSegment
  refine trans ?_ (modSeg ..)
  refine trans ?_ (dropHold ..)
  refine trans ?_ ((deliverCut ..).trans (modSeg ..))
  refine trans ?_ ((deliverCut ..).trans (answerSurvey ..))
  exact ((modSeg ..).trans (cut _ _)).trans (completeAll ..)

/-! ## Resets -/

theorem portReset_entry (e : Entry) (p : Port) : e.Drifts (e.portReset p) := by
  unfold Entry.portReset
  extract_lets e₁ e₂ e₃ e₄
  have claim : e.Drifts e₁ := by
    unfold e₁
    split
    · exact .dropHolder ..
    · exact .refl e
  have waiter : e₁.Drifts e₂ := .of_same rfl rfl rfl
  have watch : e₂.Drifts e₃ := by
    unfold e₃
    split
    · exact .endWatch e₂
    · exact .refl e₂
  have masks : e₃.Drifts e₄ := (Entry.Drifts.setSubs ..).trans (.setChain ..)
  exact (((claim.trans waiter).trans watch).trans masks).trans (.of_same rfl rfl (by simp))

theorem withdrawPort (s : State) (p : Port) : KeepsIndex s (s.withdrawPort p) :=
  (((foldl (fun s t => modEntry (.lower (s.entry t.handle))) _ s).trans (mapEntries (fun e => portReset_entry e p) _)).trans (mapSegs ..)).trans
    (setPort ..)

theorem portReset (s : State) (p : Port) : KeepsIndex s (s.portReset p) :=
  ite (((withdrawPort ..).trans (forAnyOrder happen _ _)).trans (forAnyOrder choose _ _)) (refl s)

theorem pinReset (s : State) : KeepsIndex s s.pinReset := of_drifts fun h => by
  have cleared : s.pinReset.entry h = Entry.vacant 0 := by simp [State.pinReset, State.reset, State.entry]
  rw [cleared]
  exact .vacant ..

/-! ## Every command -/

/-- Every command keeps the index. -/
theorem exec {i : Instr} (hx : Machine.exec i s = .next t) : KeepsIndex s t := by
  cases i <;> cases hx
  case exchangeBegin => exact modPort ..
  case leadByte => exact modPort ..
  case submitRejected p bytes =>
    refine ite ?_ (refl s)
    dsimp only
    split
    · exact setPort ..
    · exact refl s
  case badCommand => exact ite (refl s) (submit (fun _ _ => respond ..) ..)
  case takeResponse => exact modPort ..
  case takeNotice => exact modPort ..
  case summary => exact modPort ..
  case portReset => exact portReset ..
  case pinReset => exact pinReset ..
  case admitDevice => exact submit (fun _ _ => orBadParam (answerAdmit _ _ _) ..) ..
  case retire => exact submit (fun _ _ => orBadParam (answerRetire _ _ _) ..) ..
  case retireComplete => exact ite (completeRetire ..) (refl s)
  case lookup =>
    refine submit (fun _ u => orBadParam (fun a => ?_) ..) ..
    unfold State.answerLookup
    split
    · exact respond ..
    · exact respond ..
  case list => exact submit (fun _ _ => orBadParam (fun _ => respond ..) ..) ..
  case readEntry => exact submit (fun _ _ => orBadParam (fun _ => ite (respond ..) (respond ..)) ..) ..
  case subscribe => exact submit (fun _ _ => orBadParam (answerSubscribe _ _ _) ..) ..
  case segmentSubscribe => exact submit (fun _ _ => orBadParam (fun _ => (modPort ..).trans (respond ..)) ..) ..
  case claim => exact submit (fun _ _ => orBadParam (answerClaim _ _ _) ..) ..
  case renew => exact submit (fun _ _ => orBadParam (answerRenew _ _ _) ..) ..
  case release => exact submit (fun _ _ => orBadParam (answerRelease _ _ _) ..) ..
  case waiterGranted => exact reevaluate ..
  case leaseLapse => exact leaseLapse ..
  case waitExpiry => exact waitExpiry ..
  case timebaseTick10ms => exact tick10ms ..
  case timebaseTick100us => exact tick100us ..
  case write => exact submit (fun _ _ => answerTransfer ..) ..
  case read => exact submit (fun _ _ => answerTransfer ..) ..
  case writeRead => exact submit (fun _ _ => answerTransfer ..) ..
  case ping => exact submit (fun _ _ => answerTransfer ..) ..
  case arbiterGrant => exact choose ..
  case arbLost => exact busEvent ..
  case busBusy => exact busBusy ..
  case clockTimeout => exact busEvent ..
  case hostTransactionEnd => exact endOfKind ..
  case holdExpiry => exact holdExpiry ..
  case settleEnd => exact ite (settleEnd ..) (refl s)
  case admissionTransferEnd => exact endOfKind ..
  case watch => exact submit (fun _ _ => orBadParam (answerWatchCommand _ _ _) ..) ..
  case watchCancel => exact submit (fun _ _ => orBadParam (answerWatchCancel _ _ _) ..) ..
  case watchProbeDue => exact watchProbeDue ..
  case watchProbeEnd => exact endOfKind ..
  case setLimits => exact submit (fun _ _ => orBadParam (answerSetLimits _ _ _) ..) ..
  case survey => exact submit (fun _ _ => orBadParam (answerSurveyCommand _ _ _) ..) ..
  case surveyAbort => exact submit (fun _ _ => orBadParam (fun _ => ite ((answerSurvey ..).trans (respond ..)) (respond ..)) ..) ..
  case surveyProbeEnd => exact endOfKind ..
  case segmentSetup => exact submit (fun _ _ => orBadParam (fun _ => ite ((modSeg ..).trans (respond ..)) (respond ..)) ..) ..
  case segmentEnable =>
    exact submit (fun _ _ => orBadParam (fun _ => ite (((modSeg ..).trans (respond ..)).trans (choose ..)) (respond ..)) ..) ..
  case segmentDisable => exact submit (fun _ _ => orBadParam (answerDisable _ _ _ _) ..) ..
  case disableComplete => exact ite (busEvent ..) (refl s)
  case segmentReset =>
    exact submit (fun _ _ => orBadParam (fun _ => ite (respond ..) (ite (respond ..) (resetSegment ..))) ..) ..
  case segmentStatus => exact submit (fun _ _ => orBadParam (fun _ => respond ..) ..) ..
  case recoveryEnd => exact recoveryEnd ..
  case portSetup => exact submit (fun _ _ => orBadParam (fun _ => (modPort ..).trans (respond ..)) ..) ..
  case attentionAsserted => exact (modSeg ..).trans (choose ..)
  case attentionDeasserted => exact modSeg ..
  case rearmExpiry => exact rearmExpiry ..
  case sweepReadEnd => exact endOfKind ..
  case exchangeIgnoredEnd => exact modPort ..

end KeepsIndex

/-- Settles O16: every command keeps the index, and taking it from the queue touches no entry. -/
theorem indexKept : Obligations.IndexKept := by
  intro s t ok hs
  unfold step at hs
  split at hs
  · cases hs; exact ok
  · next c rest _ =>
    have taken : KeepsIndex s { s with pending := rest } := .of_entries fun _ => rfl
    exact (taken.trans (.exec hs)).keeps ok

end Sys2Proof.Machine
end

