-- ==== Sys2Proof/Proofs/Inflight.lean ====
section
/-! PROOFS. Why INFLIGHT can part from the works of an entry (01 R10): a re-admission whose address probe fails forgets a watch probe that is
DUE, without the fall of INFLIGHT that 06 R126 withdraws it with. `State.WorkOk` allows such a probe on a PROBING entry. -/

namespace Sys2Proof.Machine

/-- A re-admission's address probe is on the bus of segment 0, while a probe of the entry's watch is DUE: two works. -/
def dueWhileProbing : Entry :=
  { Entry.vacant 0 with
    state := .probing, place := some ⟨0, .seven, 0x20, .byAdmit, .none⟩, inflight := 2
    watch := some ⟨.A, 0, 1, 1, 1, .due, 0⟩, adm := some ⟨.re, .probe, .watch, none, none, .active⟩ }

/-- Segment 0 with the address probe of entry 0 on the bus. -/
def probingSeg : Segment :=
  { state := .active, current := some (Current.begin .admission (some 0) false (probePlan ⟨0, .seven, 0x20, .byAdmit, .none⟩)) }

/-- The part with that entry and that segment; the device is about to leave its address without acknowledge. -/
def forgottenProbe : State :=
  { (State.reset.setEntry 0 dueWhileProbing).setSeg 0 probingSeg with pending := [.admissionTransferEnd 0 (.nack 0)] }

theorem forgottenProbe_entry (h : Handle) : forgottenProbe.entry h = if h = 0 then dueWhileProbing else Entry.vacant 0 := by
  revert h; decide

theorem forgottenProbe_seg (g : Seg) : forgottenProbe.seg g = if g = 0 then probingSeg else {} := by
  revert g; decide

/-- The address probe and the watch's probe are the works of entry 0; the other entries have none. -/
theorem forgottenProbe_works (h : Handle) : forgottenProbe.works h = if h = 0 then 2 else 0 := by
  revert h; decide

theorem forgottenProbe_workOk : forgottenProbe.WorkOk where
  segs g := by rw [forgottenProbe_seg]; split <;> constructor <;> decide
  vacant h := by rw [forgottenProbe_entry]; split <;> simp [dueWhileProbing, Entry.vacant]
  record h := by rw [forgottenProbe_entry]; split <;> simp [dueWhileProbing, Entry.vacant]
  first h := by rw [forgottenProbe_entry]; split <;> simp [dueWhileProbing, Entry.vacant]
  planned h := by
    intro a ha _
    by_cases hz : h = 0
    · subst hz; exact ⟨0, _, rfl, rfl, rfl⟩
    · simp [forgottenProbe_entry, hz, Entry.vacant] at ha
  bus g h := by
    simp only [forgottenProbe_seg, forgottenProbe_entry]
    split
    · next hg => subst hg; rintro c ⟨⟩ - ⟨⟩; decide
    · simp
  queue g := by rw [forgottenProbe_seg]; split <;> simp [probingSeg]
  hold g := by rw [forgottenProbe_seg]; split <;> simp [probingSeg]
  count h := by rw [forgottenProbe_works, forgottenProbe_entry]; split <;> rfl

/-- The address probe fails: the entry is LOST again with INFLIGHT 1, and no work is left. -/
theorem forgottenProbe_step : ∃ t, step forgottenProbe = .next t ∧ (t.entry 0).state = .lost ∧ (t.entry 0).inflight = 1 ∧ t.works 0 = 0 :=
  ⟨_, rfl, by decide, by decide, by decide⟩

/-- Refutes O18: on `forgottenProbe` the failed address probe of a re-admission leaves INFLIGHT at 1 with no work. -/
theorem not_inflightKept : ¬ Obligations.InflightKept := by
  intro kept
  obtain ⟨t, hstep, -, inflight, works⟩ := forgottenProbe_step
  have count := (kept forgottenProbe t forgottenProbe_workOk hstep).count 0
  rw [inflight, works] at count
  exact absurd count (by decide)

end Sys2Proof.Machine
end

