-- ==== Sys2Proof/Proofs/Directory.lean ====
section
/-! PROOFS. The requests to the directory: ADMIT, LOOKUP, LIST, READ_ENTRY, RETIRE, and the refusals STALE and GONE. Each request of a FREE tag reaches its block
(`State.submit_ready`), and its parameter bytes are read back as the values they name. -/

namespace Sys2Proof.Machine

/-! ## Parameters read or refused -/

@[simp] theorem State.orBadParam_some {α : Type} (s : State) (p : Port) (t : Tag) (a : α) (f : α → State) :
    s.orBadParam p t (some a) f = f a := rfl

@[simp] theorem State.orBadParam_none {α : Type} (s : State) (p : Port) (t : Tag) (f : α → State) :
    s.orBadParam p t none f = s.respond p t .badParam [] := rfl

/-- Bytes that are no well-formed place are read as none (01 R18, 11 R179). -/
theorem parsePlace_eq_none {sg am hi lo : Byte} (h : wfPlace sg am hi lo = false) : parsePlace sg am hi lo = none := by
  unfold wfPlace wfSeg at h
  unfold parsePlace parseSeg parseAMode ofBe16
  by_cases hs : sg.toNat < 6 <;> by_cases h0 : am = 0 <;> by_cases h1 : am = 1 <;>
    simp_all [addrInRange]

theorem parseAdmit_bytes (a : AdmitArgs) (ha : addrInRange a.amode a.addr = true) : parseAdmit
    [byte a.seg.val, amodeCode a.amode, byte (a.addr / 256), byte a.addr, dmodeCode a.dmode, entryMaskCode a.mask] = some a := by
  simp [parseAdmit, parsePlace_bytes _ _ ha]

theorem parseList_bytes (h : Handle) {n : Nat} (h₁ : 1 ≤ n) (h₂ : n ≤ 6) : parseList [byte h.val, byte n] = some (h, n) := by
  have hn := toNat_byte_of_le (n := n) (by omega)
  simp [parseList, hn, h₁, h₂]

theorem parseClaim_bytes (h : Handle) (g : Gen) (m : ClaimMode) {lease wait : Nat} (h₁ : 1 ≤ lease) (h₂ : lease ≤ 255) (h₃ : wait ≤ 255) :
    parseClaim [byte h.val, byte g.val, claimCode m.claim, byte lease, byte wait] = some ⟨h, g, m, lease, wait⟩ := by
  simp [parseClaim, parsePos_byte h₁ h₂, toNat_byte_of_le h₃]

theorem parseWatch_bytes (h : Handle) (g : Gen) {interval limit : Nat} (h₁ : 1 ≤ interval) (h₂ : interval ≤ 255) (h₃ : 1 ≤ limit)
    (h₄ : limit ≤ 255) : parseWatch [byte h.val, byte g.val, byte interval, byte limit] = some ⟨h, g, interval, limit⟩ := by
  simp [parseWatch, parsePos_byte h₁ h₂, parsePos_byte h₃ h₄]

/-! ## The first handle that a test picks out -/

theorem find?_handles {f : Handle → Bool} {h : Handle} (hf : f h = true) (first : ∀ k, k < h → f k = false) : handles.find? f = some h := by
  rw [List.find?_eq_some_iff_getElem]
  refine ⟨hf, h.val, by simp [handles], by simp [handles], fun j hj => ?_⟩
  simpa [handles] using first ⟨j, by omega⟩ hj

theorem State.lowestVacant_eq {s : State} {h : Handle} (hv : (s.entry h).state = .vacant)
    (first : ∀ k, k < h → (s.entry k).state ≠ .vacant) : s.lowestVacant = some h :=
  find?_handles (by simp [hv]) fun k hk => by simpa using first k hk

theorem State.lowestVacant_eq_none {s : State} : s.lowestVacant = none ↔ ∀ h, (s.entry h).state ≠ .vacant := by
  simp [State.lowestVacant, List.find?_eq_none]

theorem Entry.at_iff {e : Entry} {g : Seg} {m : AMode} {a : Nat} : e.at g m a = true ↔
    e.state ≠ .vacant ∧ ∃ pl, e.place = some pl ∧ pl.seg = g ∧ pl.amode = m ∧ pl.addr = a := by
  simp [Entry.at, Option.any_eq_true, and_assoc]

/-- The index has at most one entry at a place (01 R7). -/
theorem State.find_eq {s : State} (ok : s.IndexOk) {g : Seg} {m : AMode} {a : Nat} {h : Handle} (ha : (s.entry h).at g m a = true) :
    s.find g m a = some h := by
  cases hf : s.find g m a with
  | none => simp [State.find_eq_none.1 hf h] at ha
  | some k =>
    obtain ⟨-, pl, hp, h₁, h₂, h₃⟩ := Entry.at_iff.1 ha
    obtain ⟨-, pl', hp', h₁', h₂', h₃'⟩ := Entry.at_iff.1 (State.at_of_find hf)
    rw [ok.single h k pl pl' hp hp' (h₁.trans h₁'.symm) (h₂.trans h₂'.symm) (h₃.trans h₃'.symm)]

@[simp] theorem State.find_accepted (s : State) (p : Port) (t : Tag) (g : Seg) (m : AMode) (a : Nat) :
    (s.accepted p t).find g m a = s.find g m a := by
  simp [State.find]

@[simp] theorem State.lowestVacant_accepted (s : State) (p : Port) (t : Tag) : (s.accepted p t).lowestVacant = s.lowestVacant := by
  simp [State.lowestVacant]

/-! ## ADMIT (02 R31, R32) -/

section Admit

variable {s : State} {p : Port} {t : Tag} {a : AdmitArgs}

/-- The bytes of an ADMIT reach its block. -/
theorem exec_admitDevice (hr : Ready s p t) (ha : addrInRange a.amode a.addr = true) :
    exec (.admitDevice p (byte t.val)
      [byte a.seg.val, amodeCode a.amode, byte (a.addr / 256), byte a.addr, dmodeCode a.dmode, entryMaskCode a.mask]) s =
      .next ((s.accepted p t).answerAdmit p t a) := by
  show Host.Outcome.next _ = _
  rw [State.submit_ready hr (by simp), parseAdmit_bytes a ha, State.orBadParam_some]

theorem State.answerAdmit_taken {h : Handle} (free : s.find a.seg a.amode a.addr = none) (low : s.lowestVacant = some h)
    (hs : (s.seg a.seg).state.refusal = none) :
    s.answerAdmit p t a = (s.setEntry h ((s.entry h).admitted p t a)).choose a.seg := by
  simp [State.answerAdmit, State.admitDecision, free, low, hs, State.modEntry_eq]

theorem State.answerAdmit_duplicate {h : Handle} (found : s.find a.seg a.amode a.addr = some h) :
    s.answerAdmit p t a = s.respond p t .duplicate [byte h.val, byte (s.entry h).gen.val] := by
  simp [State.answerAdmit, State.admitDecision, found]

theorem State.answerAdmit_full (free : s.find a.seg a.amode a.addr = none) (full : s.lowestVacant = none) :
    s.answerAdmit p t a = s.respond p t .directoryFull [] := by
  simp [State.answerAdmit, State.admitDecision, free, full]

theorem State.answerAdmit_refused {h : Handle} {st : Status} (free : s.find a.seg a.amode a.addr = none) (low : s.lowestVacant = some h)
    (hs : (s.seg a.seg).state.refusal = some st) : s.answerAdmit p t a = s.respond p t st [] := by
  simp [State.answerAdmit, State.admitDecision, free, low, hs]

end Admit

/-- Settles O20: the decision of ADMIT, taken apart by the index, the VACANT entries and the state of the segment. -/
theorem admitTakesAnEntryOrIsRefused : Obligations.AdmitTakesAnEntryOrIsRefused := by
  refine ⟨fun s p t a h hr ha free hv first off stuck => ?_, fun s p t a hr ha ok => ⟨fun h hat => ?_, fun free => ⟨fun full => ?_, ?_⟩⟩⟩
  · have works : (s.seg a.seg).state.refusal = none := by
      cases hs : (s.seg a.seg).state <;> simp_all [SegState.refusal]
    rw [exec_admitDevice hr ha, State.answerAdmit_taken (by simpa using State.find_eq_none.2 free)
      (by simpa using State.lowestVacant_eq hv first) (by simpa using works)]
    simp [Entry.admitted, Entry.taken, Entry.vacant]
  · rw [exec_admitDevice hr ha, State.answerAdmit_duplicate (by simpa using State.find_eq ok hat), State.entry_accepted]
  · rw [exec_admitDevice hr ha, State.answerAdmit_full (by simpa using State.find_eq_none.2 free)
      (by simpa using State.lowestVacant_eq_none.2 full)]
  · intro k hv
    obtain ⟨h, low⟩ : ∃ h, s.lowestVacant = some h :=
      Option.ne_none_iff_exists'.1 fun none => State.lowestVacant_eq_none.1 none k hv
    refine ⟨fun off => ?_, fun stuck => ?_⟩
    · rw [exec_admitDevice hr ha, State.answerAdmit_refused (st := .segmentOff) (by simpa using State.find_eq_none.2 free) (by simpa using low)
        (by simp [off, SegState.refusal])]
    · rw [exec_admitDevice hr ha, State.answerAdmit_refused (st := .busStuck) (by simpa using State.find_eq_none.2 free) (by simpa using low)
        (by simp [stuck, SegState.refusal])]

/-! ## LOOKUP (01 R18) -/

theorem exec_lookup {s : State} {p : Port} {t : Tag} (hr : Ready s p t) (sg am hi lo : Byte) : exec (.lookup p (byte t.val) [sg, am, hi, lo]) s =
    .next ((s.accepted p t).orBadParam p t (parsePlace sg am hi lo) ((s.accepted p t).answerLookup p t)) := by
  show Host.Outcome.next _ = _
  rw [State.submit_ready hr (by simp), parseLookup]

/-- Settles O22: what the index has at the place decides the answer. -/
theorem lookupAnswers : Obligations.LookupAnswers := by
  intro s p t g m a hr ha ok
  refine ⟨fun sg am hi lo hw => ?_, fun h hat => ?_, fun free => ?_⟩
  · rw [exec_lookup hr, parsePlace_eq_none hw, State.orBadParam_none]
  · rw [exec_lookup hr, parsePlace_bytes g m ha, State.orBadParam_some]
    simp [State.answerLookup, State.find_eq ok hat]
  · rw [exec_lookup hr, parsePlace_bytes g m ha, State.orBadParam_some]
    simp [State.answerLookup, State.find_eq_none.2 free]

/-! ## LIST and READ_ENTRY (01 R19, R20, 11 R181) -/

@[simp] theorem length_be16 (n : Nat) : (be16 n).length = 2 := rfl
@[simp] theorem length_be32 (n : Nat) : (be32 n).length = 4 := rfl
@[simp] theorem length_placeBytes (pl : Option Place) : (placeBytes pl).length = 4 := by cases pl <;> rfl
@[simp] theorem length_descBytes (d : Desc) : (descBytes d).length = 17 := rfl
@[simp] theorem length_waiterBytes (o : Option Waiter) : (waiterBytes o).length = 3 := by cases o <;> rfl
@[simp] theorem length_watchBytes (o : Option Watch) : (watchBytes o).length = 3 := by cases o <;> rfl
@[simp] theorem length_shortRecord (h : Handle) (e : Entry) : (shortRecord h e).length = 8 := by simp [shortRecord]

theorem length_flatMap_shortRecord (l : List Handle) (f : Handle → Entry) :
    (l.flatMap (fun h => shortRecord h (f h))).length = 8 * l.length := by
  simp [List.length_flatMap, Nat.mul_comm]

theorem exec_list {s : State} {p : Port} {t : Tag} {start : Handle} {n : Nat} (hr : Ready s p t) (h₁ : 1 ≤ n) (h₂ : n ≤ 6) :
    exec (.list p (byte t.val) [byte start.val, byte n]) s = .next ((s.accepted p t).answerList p t (start, n)) := by
  show Host.Outcome.next _ = _
  rw [State.submit_ready hr (by simp), parseList_bytes start h₁ h₂, State.orBadParam_some]

theorem State.listed_eq (s : State) (start : Handle) (n : Nat) : s.listed start n =
    ((List.finRange 48).filter (fun h => start ≤ h ∧ (s.entry h).state ≠ .vacant)).take n := by
  have test : ∀ h, (decide (start.val ≤ h.val) && (s.entry h).state != .vacant) = decide (start ≤ h ∧ (s.entry h).state ≠ .vacant) := by
    intro h
    rw [Bool.decide_and, bne, decide_not]
    rfl
  simp only [State.listed, handles, test]

/-- NEXT of LIST: behind the last handle listed where the count was reached, which is then at least 1, else 48 (01 R19). -/
theorem byte_listNext (l : List Handle) {n : Nat} (h₁ : 1 ≤ n) :
    byte (listNext l n) = if l.length = n then byte ((l.getLastD 0).val + 1) else 0x30 := by
  unfold listNext
  split
  · next hl =>
    obtain ⟨k, hk⟩ : ∃ k, l.getLast? = some k := Option.ne_none_iff_exists'.1 fun none => by
      rw [List.getLast?_eq_none_iff] at none
      simp [none] at hl
      omega
    simp [hk, List.getLastD_eq_getLast?]
  · rfl

theorem exec_readEntry {s : State} {p : Port} {t : Tag} (h : Handle) (g : Gen) (hr : Ready s p t) :
    exec (.readEntry p (byte t.val) [byte h.val, byte g.val]) s = .next ((s.accepted p t).answerReadEntry p t (h, g)) := by
  show Host.Outcome.next _ = _
  rw [State.submit_ready hr (by simp), parseRefOnly_byte, State.orBadParam_some]

theorem State.isCurrent_iff (s : State) (h : Handle) (g : Gen) : s.isCurrent h g = true ↔ (s.entry h).gen = g ∧ (s.entry h).state ≠ .vacant := by
  simp [State.isCurrent, and_comm]

@[simp] theorem State.isCurrent_accepted (s : State) (p : Port) (t : Tag) (h : Handle) (g : Gen) :
    (s.accepted p t).isCurrent h g = s.isCurrent h g := by
  simp [State.isCurrent]

/-- Where the parts of an entry's record stand (11 R181). -/
theorem entryRecord_parts (h : Handle) (e : Entry) :
    (entryRecord h e).take 3 = [byte h.val, byte e.gen.val, entryStateCode e.state] ∧
    ((entryRecord h e).drop 3).take 4 = placeBytes e.place ∧
    ((entryRecord h e).drop 7).take 3 = [e.place.elim 0xFF (fun pl => originCode pl.origin), e.place.elim 0xFF (fun pl => dmodeCode pl.dmode),
      dsrcCode e.dsrc] ∧
    ((entryRecord h e).drop 10).take 17 = descBytes e.desc ∧
    ((entryRecord h e).drop 27).take 4 = [byte e.fails, claimCode e.claim, e.holderA.elim 0 (fun hr => byte hr.lease),
      e.holderB.elim 0 (fun hr => byte hr.lease)] ∧
    ((entryRecord h e).drop 31).take 3 = e.waiter.elim [0xFF, 0xFF, 0x00] (fun w => [portCode w.port, claimCode w.mode.claim, byte w.wait]) ∧
    ((entryRecord h e).drop 34).take 2 = [entryMaskCode e.subsA, entryMaskCode e.subsB] ∧
    ((entryRecord h e).drop 36).take 3 = e.watch.elim [0xFF, 0x00, 0x00] (fun w => [portCode w.port, byte w.interval, byte w.remaining]) ∧
    (entryRecord h e).drop 39 = byte e.inflight :: be16 e.settle ++ [chainCode e] := by
  have origin : (e.place.map (fun pl => originCode pl.origin)).getD absent = e.place.elim 0xFF (fun pl => originCode pl.origin) := by
    cases e.place <;> rfl
  have dmode : (e.place.map (fun pl => dmodeCode pl.dmode)).getD absent = e.place.elim 0xFF (fun pl => dmodeCode pl.dmode) := by
    cases e.place <;> rfl
  have lease : ∀ o : Option Holder, leaseByte o = o.elim 0 (fun hr => byte hr.lease) := by intro o; cases o <;> rfl
  have waiter : waiterBytes e.waiter = e.waiter.elim [0xFF, 0xFF, 0x00] (fun w => [portCode w.port, claimCode w.mode.claim, byte w.wait]) := by
    cases e.waiter <;> rfl
  have watch : watchBytes e.watch = e.watch.elim [0xFF, 0x00, 0x00] (fun w => [portCode w.port, byte w.interval, byte w.remaining]) := by
    cases e.watch <;> rfl
  rw [← origin, ← dmode, ← lease, ← lease, ← waiter, ← watch]
  simp [entryRecord, List.take_append, List.drop_append, List.drop_eq_nil_of_le, List.take_of_length_le]

/-- Settles O23: the records of LIST are eight bytes each, and the parts of the record of READ_ENTRY stand at their places. -/
theorem listAndReadEntryAnswer : Obligations.ListAndReadEntryAnswer := by
  refine ⟨fun s p t start n hr h₁ h₂ => ?_, fun s p t h g hr => ⟨fun hg hv => ?_, fun hn => ?_⟩⟩
  · refine ⟨_, _, rfl, rfl, length_flatMap_shortRecord _ s.entry, ?_⟩
    rw [exec_list hr h₁ h₂]
    simp only [State.answerList, byte_listNext _ h₁]
    simp only [State.listed_eq, State.entry_accepted]
    rfl
  · refine ⟨entryRecord h (s.entry h), ?_, ?_, ?_⟩
    · rw [exec_readEntry h g hr]
      simp [State.answerReadEntry, (s.isCurrent_iff h g).2 ⟨hg, hv⟩]
    · simp [entryRecord]
    · subst hg; exact entryRecord_parts h (s.entry h)
  · rw [exec_readEntry h g hr]
    have stale : s.isCurrent h g = false := by rw [← Bool.not_eq_true, State.isCurrent_iff]; exact hn
    simp [State.answerReadEntry, stale]

/-! ## References that are stale or name a RETIRING entry (01 R5, R17) -/

theorem State.refRefusal_stale {s : State} {h : Handle} {g : Gen} (hn : ¬((s.entry h).gen = g ∧ (s.entry h).state ≠ .vacant)) :
    s.refRefusal h g = some .stale := by
  have stale : s.isCurrent h g = false := by rw [← Bool.not_eq_true, State.isCurrent_iff]; exact hn
  simp [State.refRefusal, stale]

theorem State.refRefusal_gone {s : State} {h : Handle} {g : Gen} (hg : (s.entry h).gen = g) (hs : (s.entry h).state = .retiring) :
    s.refRefusal h g = some .gone := by
  have current : s.isCurrent h g = true := (s.isCurrent_iff h g).2 ⟨hg, by simp [hs]⟩
  simp [State.refRefusal, current, hs]

theorem State.refRefusal_none {s : State} {h : Handle} {g : Gen} (hg : (s.entry h).gen = g) (hv : (s.entry h).state ≠ .vacant)
    (hs : (s.entry h).state ≠ .retiring) : s.refRefusal h g = none := by
  simp [State.refRefusal, (s.isCurrent_iff h g).2 ⟨hg, hv⟩, hs]

@[simp] theorem State.refRefusal_accepted (s : State) (p : Port) (t : Tag) (h : Handle) (g : Gen) :
    (s.accepted p t).refRefusal h g = s.refRefusal h g := by
  simp [State.refRefusal]

/-- CLAIM, RELEASE, WATCH and WATCH_CANCEL of a reference that is refused are answered with the refusal alone. -/
theorem exec_refused {s : State} {p : Port} {t : Tag} {h : Handle} {g : Gen} {m : ClaimMode} {lease wait interval limit : Nat} {st : Status}
    (hr : Ready s p t) (h₁ : 1 ≤ lease) (h₂ : lease ≤ 255) (h₃ : wait ≤ 255) (h₄ : 1 ≤ interval) (h₅ : interval ≤ 255) (h₆ : 1 ≤ limit)
    (h₇ : limit ≤ 255) (refused : s.refRefusal h g = some st) :
    ∀ ask ∈ [Instr.claim p (byte t.val) [byte h.val, byte g.val, claimCode m.claim, byte lease, byte wait],
        .release p (byte t.val) [byte h.val, byte g.val], .watch p (byte t.val) [byte h.val, byte g.val, byte interval, byte limit],
        .watchCancel p (byte t.val) [byte h.val, byte g.val]],
      exec ask s = .next ((s.accepted p t).respond p t st []) := by
  simp only [List.forall_mem_cons, List.not_mem_nil, false_implies, implies_true, and_true]
  refine ⟨?_, ?_, ?_, ?_⟩ <;> show Host.Outcome.next _ = _
  · rw [State.submit_ready hr (by simp), parseClaim_bytes h g m h₁ h₂ h₃]
    simp [State.answerClaim, refused]
  · rw [State.submit_ready hr (by simp), parseRefOnly_byte]
    simp [State.answerRelease, refused]
  · rw [State.submit_ready hr (by simp), parseWatch_bytes h g h₄ h₅ h₆ h₇]
    simp [State.answerWatchCommand, State.watchRefusal, refused]
  · rw [State.submit_ready hr (by simp), parseRefOnly_byte]
    simp [State.answerWatchCancel, refused]

/-- Settles O27: the reference is judged before anything else. -/
theorem staleAndGoneRefused : Obligations.StaleAndGoneRefused := by
  intro s p t h g m lease wait interval limit hr h₁ h₂ h₃ h₄ h₅ h₆ h₇ ask hask
  exact ⟨fun stale => exec_refused hr h₁ h₂ h₃ h₄ h₅ h₆ h₇ (State.refRefusal_stale stale) ask hask,
    fun hg hs => exec_refused hr h₁ h₂ h₃ h₄ h₅ h₆ h₇ (State.refRefusal_gone hg hs) ask hask⟩

/-! ## RETIRE (01 R13 to R15, R17) -/

theorem exec_retire {s : State} {p : Port} {t : Tag} (h : Handle) (g : Gen) (hr : Ready s p t) :
    exec (.retire p (byte t.val) [byte h.val, byte g.val]) s = .next ((s.accepted p t).answerRetire p t (h, g)) := by
  show Host.Outcome.next _ = _
  rw [State.submit_ready hr (by simp), parseRefOnly_byte, State.orBadParam_some]

theorem State.answerRetire_refused {s : State} {p : Port} {h : Handle} {g : Gen} {st : Status} (t : Tag)
    (refused : s.retireRefusal p h g = some st) : s.answerRetire p t (h, g) = s.respond p t st [] := by
  simp [State.answerRetire, refused]

theorem State.answerRetire_accepted {s : State} {p : Port} {h : Handle} (t : Tag) (hv : (s.entry h).state ≠ .vacant)
    (hs : (s.entry h).state ≠ .retiring) (free : ¬((s.entry h).claim = .exclusive ∧ ((s.entry h).holder p.other).isSome = true)) :
    s.answerRetire p t (h, (s.entry h).gen) = s.retire p t h := by
  simp [State.answerRetire, State.retireRefusal, State.refRefusal_none rfl hv hs, free]

/-- The end of a retire of an entry that has given up its claims already (01 R12, R15). -/
theorem State.completeRetire_eq {s : State} {h : Handle} (holders : ∀ p, (s.entry h).holder p = none) (hw : (s.entry h).waiter = none) :
    s.completeRetire h = (s.setEntry h (Entry.vacant ((s.entry h).gen + 1))).respondTo (s.entry h).retire .ok [] := by
  simp [State.completeRetire, State.enterVacant, State.dropClaims_eq, hw, holders, State.respondTo, State.postWhere_none]

/-! ### What becomes of a RETIRING entry -/

/-- What the entry of an accepted RETIRE is from then on: VACANT with GEN one higher, or RETIRING with work in flight and nothing else (01 R14, R15). -/
def Entry.RetiredAs (g : Gen) (owner : Port × Tag) (e : Entry) : Prop :=
  e = Entry.vacant (g + 1) ∨
    (e.state = .retiring ∧ e.gen = g ∧ e.inflight ≠ 0 ∧ e.claim = .none ∧ e.holderA = none ∧ e.holderB = none ∧ e.waiter = none ∧
      e.watch = none ∧ e.adm = none ∧ e.retire = some owner)

/-- A RETIRING entry without work in flight is not left so by the step that brings it there. -/
theorem Entry.retiredAs_fallen {g : Gen} {owner : Port × Tag} {e : Entry} (r : e.RetiredAs g owner) : e.fallen.RetiredAs g owner := by
  rcases r with rfl | ⟨hs, hg, -, rest⟩
  · exact .inl rfl
  · unfold Entry.fallen
    split
    · exact .inl (by rw [hg])
    · next hd => exact .inr ⟨hs, hg, by simpa [Entry.drained, Entry.lower, hs] using hd, rest⟩

theorem Entry.retiredAs_setChain {g : Gen} {owner : Port × Tag} {e : Entry} (p : Port) (r : e.RetiredAs g owner) :
    (e.setChain p false).RetiredAs g owner := by
  rcases r with rfl | r
  · exact .inl (by cases p <;> rfl)
  · exact .inr (by cases p <;> exact r)

/-- The arbiter's choice grants nothing to a RETIRING entry; it may only end its works (04 R83, 05 R101). -/
theorem Entry.retiredAs_chosen {g : Gen} {owner : Port × Tag} {e f : Entry} (r : e.RetiredAs g owner) (c : e.Chosen f) :
    f.RetiredAs g owner := by
  induction c with
  | refl => exact r
  | answered p _ ih => exact Entry.retiredAs_fallen (Entry.retiredAs_setChain p ih)
  | admission _ ha ih =>
    rcases ih with rfl | ⟨-, -, -, -, -, -, -, -, none, -⟩
    · cases ha
    · rw [none] at ha; cases ha
  | watch _ hw ih =>
    rcases ih with rfl | ⟨-, -, -, -, -, -, -, none, -, -⟩
    · cases hw
    · simp [Entry.watchDue, none] at hw
  | rise _ hv hs ih =>
    rcases ih with rfl | ⟨retiring, -⟩
    · exact absurd rfl hv
    · exact absurd retiring hs

/-- The state behind an accepted RETIRE, before the arbiter chooses. -/
def State.retired (s : State) (p : Port) (t : Tag) (h : Handle) : State :=
  if ((s.enterRetiring p t h).entry h).drained then (s.enterRetiring p t h).completeRetire h else s.enterRetiring p t h

theorem State.retire_eq {s : State} {h : Handle} {pl : Place} (p : Port) (t : Tag) (hp : (s.entry h).place = some pl) :
    s.retire p t h = (s.retired p t h).choose pl.seg := by
  simp [State.retire, State.retired, State.atSegOf, hp]

/-- An entry that has left: its INFLIGHT decides whether the retire completes in the same step. -/
theorem State.retiredAs_retired (s : State) (p : Port) (t : Tag) (h : Handle) :
    ((s.retired p t h).entry h).RetiredAs (s.entry h).gen (p, t) := by
  obtain ⟨f, hf, entries⟩ := s.enterRetiring_entries p t h
  have self : (s.enterRetiring p t h).entry h = f := by simpa using entries h
  have fields : f.state = .retiring ∧ f.gen = (s.entry h).gen ∧ f.claim = .none ∧ f.holderA = none ∧ f.holderB = none ∧ f.waiter = none ∧
      f.watch = none ∧ f.adm = none ∧ f.retire = some (p, t) := by
    rcases hf with rfl | ⟨q, rfl⟩
    · exact ⟨rfl, rfl, rfl, rfl, rfl, rfl, rfl, rfl, rfl⟩
    · cases q <;> exact ⟨rfl, rfl, rfl, rfl, rfl, rfl, rfl, rfl, rfl⟩
  obtain ⟨hs, hg, rest⟩ := fields
  unfold State.retired
  rw [self]
  split
  · exact .inl (by simp [self, hg])
  · next hd => exact .inr (by rw [self]; exact ⟨hs, hg, by simpa [Entry.drained, hs] using hd, rest⟩)

/-! ### The whole effect of an accepted RETIRE -/

/-- The entry that has left is VACANT at once where nothing is in flight, and else stays as it is (01 R15). -/
theorem State.retired_eq {s u : State} {p : Port} {t : Tag} {h : Handle} {f : Entry} (he : s.enterRetiring p t h = u.setEntry h f)
    (hs : f.state = .retiring) (holders : ∀ q, f.holder q = none) (hw : f.waiter = none) (ho : f.retire = some (p, t)) :
    s.retired p t h =
      if f.inflight = 0 then (u.setEntry h (Entry.vacant (f.gen + 1))).respond p t .ok [] else u.setEntry h f := by
  have drained : f.drained = true ↔ f.inflight = 0 := by simp [Entry.drained, hs]
  unfold State.retired
  rw [he, State.entry_setEntry_same]
  split
  · next hd => rw [if_pos (drained.1 hd), State.completeRetire_eq] <;> simp [holders, hw, ho, State.respondTo]
  · next hd => rw [if_neg fun hz => hd (drained.2 hz)]

/-- An accepted RETIRE, up to the arbiter's choice. -/
theorem exec_retire_accepted {s : State} {p : Port} {t : Tag} {h : Handle} {pl : Place} (hr : Ready s p t) (hp : (s.entry h).place = some pl)
    (hv : (s.entry h).state ≠ .vacant) (hs : (s.entry h).state ≠ .retiring)
    (free : ¬((s.entry h).claim = .exclusive ∧ ((s.entry h).holder p.other).isSome = true)) :
    exec (.retire p (byte t.val) [byte h.val, byte (s.entry h).gen.val]) s = .next (((s.accepted p t).retired p t h).choose pl.seg) := by
  have accepted := State.answerRetire_accepted (s := s.accepted p t) (p := p) (h := h) t (by simpa using hv) (by simpa using hs)
    (by simpa using free)
  rw [State.entry_accepted] at accepted
  rw [exec_retire h _ hr, accepted, State.retire_eq p t (by simpa using hp)]

/-- Settles O21, by the refusals in their order, what becomes of the entry, and the whole effect with and without a hold. -/
theorem retireRefusedOrEndsEverything : Obligations.RetireRefusedOrEndsEverything := by
  refine ⟨fun s p t h g hr => ⟨fun stale => ?_, fun hg hs => ?_, fun hg hv hs excl held => ?_⟩, fun s p t h hr ok hv hs free => ?_,
    fun s p t h pl hr hp hv hs free => ?_, fun s h ok hs hz => ?_⟩
  · rw [exec_retire h g hr, State.answerRetire_refused]
    simp [State.retireRefusal, State.refRefusal_stale stale]
  · rw [exec_retire h g hr, State.answerRetire_refused]
    simp [State.retireRefusal, State.refRefusal_gone hg hs]
  · rw [exec_retire h g hr, State.answerRetire_refused]
    simp [State.retireRefusal, State.refRefusal_none hg hv hs, excl, held]
  · obtain ⟨pl, hp⟩ : ∃ pl, (s.entry h).place = some pl := Option.ne_none_iff_exists'.1 fun none => hv ((ok.place h).1 none)
    refine ⟨_, exec_retire_accepted hr hp hv hs free, ?_⟩
    have before := (s.accepted p t).retiredAs_retired p t h
    rw [State.entry_accepted] at before
    exact Entry.retiredAs_chosen before ((State.Chosen.choose _ _).entry h)
  · intro e dropped gone told left end_ ask
    have hleave : (s.accepted p t).leaveTold p h = told := by
      unfold told
      cases ha : e.adm with
      | none => simp [State.leaveTold, e, gone, dropped, show (s.entry h).adm = none from ha]
      | some a =>
        by_cases hk : a.kind = .first <;>
          simp [State.leaveTold, e, gone, dropped, show (s.entry h).adm = some a from ha, hk, hp, State.tellFailure_eq]
    have hexec : exec ask s = .next (((s.accepted p t).retired p t h).choose pl.seg) := exec_retire_accepted hr hp hv hs free
    have holders : ∀ q, ((s.entry h).leaving (p, t)).holder q = none := by intro q; cases q <;> rfl
    refine ⟨fun hn => ?_, fun ho hh heq he => ?_⟩
    · have eq := State.enterRetiring_of_not (s := s.accepted p t) (h := h) p t fun pl' hp' hheld => by
        rw [State.entry_accepted, hp] at hp'
        cases hp'
        exact hn (by simpa [State.heldFor] using hheld)
      rw [hleave, State.entry_accepted] at eq
      rw [hexec, State.retired_eq eq rfl holders rfl rfl]
      rfl
    · have eq := State.enterRetiring_of_held (s := s.accepted p t) p t (by simpa using hp) (by simpa using hh) (by simpa using heq) he
      rw [hleave, State.entry_accepted, State.seg_accepted] at eq
      rw [hexec, State.retired_eq eq (by simp [Entry.leaving]) (by simpa using holders) (by simp [Entry.leaving]) (by simp [Entry.leaving]),
        Entry.gen_setChain]
      rfl
  · show Host.Outcome.next _ = _
    obtain ⟨hc, hw⟩ := ok.idle (.inr hs)
    obtain ⟨ha, hb⟩ := ok.none hc
    rw [if_pos (by simp [Entry.drained, hs, hz]), State.completeRetire_eq (by intro q; cases q <;> assumption) hw]

end Sys2Proof.Machine
end

