-- ==== Sys2Proof/Proofs/BusEngine.lean ====
section
/-! PROOFS. The bus engine: how an event reaches the transfer on the bus, how far the transfer had come, and what its end does to its segment once the work's
owner has been told. -/

namespace Sys2Proof.Machine

/-! ## Reports and answers go with an update of a segment -/

@[simp] theorem State.subject_setSeg (s : State) (g : Seg) (r : Segment) (h : Handle) : (s.setSeg g r).subject h = s.subject h := rfl

@[simp] theorem State.setSeg_postHealth (s : State) (h : Handle) (st : EntryState) (g : Seg) (r : Segment) :
    (s.postHealth h st).setSeg g r = (s.setSeg g r).postHealth h st := by
  simp [State.postHealth]

@[simp] theorem State.setSeg_respond (s : State) (p : Port) (t : Tag) (st : Status) (l : List Byte) (g : Seg) (r : Segment) :
    (s.respond p t st l).setSeg g r = (s.setSeg g r).respond p t st l := by
  simp [State.respond_eq]

@[simp] theorem State.seg_respond (s : State) (p : Port) (t : Tag) (st : Status) (l : List Byte) (g : Seg) :
    (s.respond p t st l).seg g = s.seg g := by
  simp [State.respond_eq]

@[simp] theorem State.setSeg_answerWatch (s : State) (h : Handle) (st : Status) (aux : Byte) (g : Seg) (r : Segment) :
    (s.answerWatch h st aux).setSeg g r = (s.setSeg g r).answerWatch h st aux := by
  unfold State.answerWatch
  rw [State.entry_setSeg]
  split <;> simp [State.modEntry_eq]

@[simp] theorem State.setSeg_becomeLost (s : State) (h : Handle) (g : Seg) (r : Segment) :
    (s.becomeLost h).setSeg g r = (s.setSeg g r).becomeLost h := by
  simp [State.becomeLost, State.modEntry_eq]

@[simp] theorem State.setSeg_successReport (s : State) (h : Handle) (g : Seg) (r : Segment) :
    (s.successReport h).setSeg g r = (s.setSeg g r).successReport h := by
  by_cases hs : (s.entry h).state = .suspect <;> simp [State.successReport, hs, State.modEntry_eq]

@[simp] theorem State.setSeg_failureReport (s : State) (h : Handle) (g : Seg) (r : Segment) :
    (s.failureReport h).setSeg g r = (s.setSeg g r).failureReport h := by
  by_cases hr : (s.entry h).reachable = true
  · by_cases hn : s.threshold ≤ (s.entry h).fails + 1
    · simp [State.failureReport, hr, hn]
    · by_cases hp : (s.entry h).state = .present <;> simp [State.failureReport, hr, hn, hp, State.modEntry_eq]
  · simp [State.failureReport, hr]

@[simp] theorem State.setSeg_report (s : State) (h : Handle) (o : Outcome) (g : Seg) (r : Segment) :
    (s.report h o).setSeg g r = (s.setSeg g r).report h o := by
  unfold State.report
  split_ifs <;> simp

@[simp] theorem State.setSeg_sourceTold (s : State) (a : AdmRec) (pl : Place) (st : Status) (g : Seg) (r : Segment) :
    (s.sourceTold a pl st).setSeg g r = (s.setSeg g r).sourceTold a pl st := by
  unfold State.sourceTold; split <;> simp

@[simp] theorem State.setSeg_watchTold (s : State) (h : Handle) (e : Entry) (gen : Gen) (st : Status) (code aux : Byte) (g : Seg)
    (r : Segment) : (s.watchTold h e gen st code aux).setSeg g r = (s.setSeg g r).watchTold h e gen st code aux := by
  unfold State.watchTold; split <;> simp

@[simp] theorem State.seg_answerWatch (s : State) (h : Handle) (st : Status) (aux : Byte) (g : Seg) :
    (s.answerWatch h st aux).seg g = s.seg g := by
  unfold State.answerWatch; split <;> simp

@[simp] theorem State.seg_successReport (s : State) (h : Handle) (g : Seg) : (s.successReport h).seg g = s.seg g := by
  by_cases hs : (s.entry h).state = .suspect <;> simp [State.successReport, hs, State.postHealth]

@[simp] theorem State.seg_failureReport (s : State) (h : Handle) (g : Seg) : (s.failureReport h).seg g = s.seg g := by
  by_cases hr : (s.entry h).reachable = true
  · by_cases hn : s.threshold ≤ (s.entry h).fails + 1
    · simp [State.failureReport, State.becomeLost, State.postHealth, hr, hn]
    · by_cases hp : (s.entry h).state = .present <;> simp [State.failureReport, State.postHealth, hr, hn, hp]
  · simp [State.failureReport, hr]

@[simp] theorem State.seg_report (s : State) (h : Handle) (o : Outcome) (g : Seg) : (s.report h o).seg g = s.seg g := by
  unfold State.report
  split
  · simp
  · split <;> simp

theorem State.report_success {s : State} {h : Handle} {o : Outcome} (ho : o.isSuccess = true) : s.report h o = s.successReport h := by
  simp [State.report, ho]

theorem State.report_failure {s : State} {h : Handle} {o : Outcome} (ho : o.isSuccess = false) (hf : o.isFailure = true) :
    s.report h o = s.failureReport h := by
  simp [State.report, ho, hf]

theorem State.report_none {s : State} {h : Handle} {o : Outcome} (ho : o.isSuccess = false) (hf : o.isFailure = false) : s.report h o = s := by
  simp [State.report, ho, hf]

/-- A report leaves a RETIRING entry alone, so that the condition on its last work stays. -/
theorem Entry.Reported.endsOk {e f : Entry} (r : e.Reported f) (ok : e.EndsOk) : f.EndsOk := by
  cases r with
  | same => exact ok
  | moved _ hs => intro retiring; rcases hs with rfl | rfl | rfl <;> cases retiring

theorem Entry.Reported.retiring_iff {e f : Entry} (r : e.Reported f) : f.state = .retiring ↔ e.state = .retiring := by
  cases r with
  | same => rfl
  | moved hr hs =>
    have out : e.state ≠ .retiring := by intro h; simp [Entry.reachable, h] at hr
    rcases hs with rfl | rfl | rfl <;> simp [out]

theorem Entry.Reported.fields {e f : Entry} (r : e.Reported f) : f.desc = e.desc ∧ f.settle = e.settle ∧ f.gen = e.gen ∧
    (∀ p, f.chain p = e.chain p) ∧ (∀ p, f.subs p = e.subs p) ∧ f.place = e.place := by
  cases r with
  | same => exact ⟨rfl, rfl, rfl, fun _ => rfl, fun _ => rfl, rfl⟩
  | moved => exact ⟨rfl, rfl, rfl, fun p => by cases p <;> rfl, fun p => by cases p <;> rfl, rfl⟩

/-! ## An event reaches the transfer on the bus -/

section Events

variable {s : State} {g : Seg} {c : Current}

theorem OnBus.busEvent_ended (on : OnBus s g c) (e : TransferEnd) : s.busEvent g (.ended e) = s.transferEnds g c e := by
  simp [State.busEvent, on.active, on.current, on.running]

theorem OnBus.busEvent_clockTimeout (on : OnBus s g c) (pr : Progress) :
    s.busEvent g (.clockTimeout pr) = s.endTransfer g (c.advance pr) .clockTimeout := by
  simp [State.busEvent, on.active, on.current, on.running]

theorem OnBus.busEvent_arbLost (on : OnBus s g c) (pr : Progress) : s.busEvent g (.arbLost pr) = s.losesArbitration g c pr := by
  simp [State.busEvent, on.active, on.current, on.running]

/-- A transfer reaches its end by the command of its kind. -/
theorem OnBus.exec_ends (on : OnBus s g c) (e : TransferEnd) : exec (c.kind.ends g e) s = .next (s.transferEnds g c e) := by
  have reach : ∀ k, c.kind = k → s.endOfKind g k e = s.transferEnds g c e := by
    intro k hk
    simp [State.endOfKind, on.current, hk, on.busEvent_ended]
  cases hk : c.kind <;> exact congrArg _ (reach _ hk)

theorem OnBus.exec_clockTimeout (on : OnBus s g c) (pr : Progress) :
    exec (.clockTimeout g pr) s = .next (s.endTransfer g (c.advance pr) .clockTimeout) := congrArg _ (on.busEvent_clockTimeout pr)

theorem OnBus.exec_arbLost (on : OnBus s g c) (pr : Progress) : exec (.arbLost g pr) s = .next (s.losesArbitration g c pr) :=
  congrArg _ (on.busEvent_arbLost pr)

theorem OnBus.exec_busBusy (on : OnBus s g c) (b : Bool) : exec (.busBusy g b) s = .next (s.waitsTooLong g c b) := by
  show Host.Outcome.next _ = _
  simp [State.busBusy, on.active, on.current, on.running]

/-- The last attempt is lost to arbitration: the transfer ends (04 R86). -/
theorem State.losesArbitration_last (s : State) (g : Seg) {c : Current} {pr : Progress} (hk : pr.acked < (sends c.plan).length)
    (last : (s.seg g).config.arbretry ≤ c.lost) : s.losesArbitration g c pr = s.endTransfer g (c.advance pr) .arbLost := by
  simp [State.losesArbitration, Nat.not_le.2 hk, Nat.not_lt.2 last]

/-- Attempts are left: the whole transfer begins again (04 R86). -/
theorem State.losesArbitration_retry (s : State) (g : Seg) {c : Current} {pr : Progress} (hk : pr.acked < (sends c.plan).length)
    (left : c.lost < (s.seg g).config.arbretry) :
    s.losesArbitration g c pr = s.setSeg g { s.seg g with current := some c.retry, lines := .released } := by
  simp [State.losesArbitration, Nat.not_le.2 hk, left, State.modSeg_eq]

theorem State.waitsTooLong_ends (s : State) (g : Seg) {c : Current} (hr : c.restart = false) :
    s.waitsTooLong g c false = s.endTransfer g c .busBusy := by
  simp [State.waitsTooLong, hr]

end Events

/-! ## How far the transfer had come -/

/-- The transfer with its progress given: so many bytes acknowledged, these received. -/
def Current.at (c : Current) (k : Nat) (rx : List Byte) : Current := { c with acked := k, rx := rx }

/-- Before every byte sent is acknowledged, nothing is received. -/
theorem Current.advance_of_lt {c : Current} {pr : Progress} (hk : pr.acked < (sends c.plan).length) : c.advance pr = c.at pr.acked [] := by
  simp [Current.advance, Current.at, Nat.not_le.2 hk, Nat.min_eq_left hk.le]

/-- A progress that the transfer can have made is taken as it is (log entry 6). -/
theorem Current.advance_eq {c : Current} {k : Nat} {rx : List Byte} (hk : k ≤ (sends c.plan).length) (hl : rx.length ≤ recvs c.plan)
    (hrx : rx = [] ∨ k = (sends c.plan).length) : c.advance ⟨k, rx⟩ = c.at k rx := by
  rcases hrx with rfl | rfl
  · simp [Current.advance, Current.at, hk]
  · simp [Current.advance, Current.at, List.take_of_length_le hl]

@[simp] theorem length_receivedAll (plan : List WireOp) (rx : List Byte) : (receivedAll plan rx).length = recvs plan := by
  simp [receivedAll]

section Reached

variable (s : State) (g : Seg) {c : Current}

theorem State.transferEnds_done (rx : List Byte) :
    s.transferEnds g c (.done rx) = s.endTransfer g (c.at (sends c.plan).length (receivedAll c.plan rx)) .ok := by
  have full : c.advance ⟨(sends c.plan).length, receivedAll c.plan rx⟩ = c.at (sends c.plan).length (receivedAll c.plan rx) :=
    Current.advance_eq le_rfl (by simp) (.inr rfl)
  simp [State.transferEnds, Current.ended, full]

theorem State.transferEnds_addr {k : Nat} (hk : (sends c.plan)[k]? = some .addr) :
    s.transferEnds g c (.nack k) = s.endTransfer g (c.at k []) .addrNack := by
  have lt : k < (sends c.plan).length := (List.getElem?_eq_some_iff.1 hk).1
  simp [State.transferEnds, Current.ended, hk, Current.advance_of_lt (pr := ⟨k, []⟩) lt]

theorem State.transferEnds_data {k : Nat} (hk : (sends c.plan)[k]? = some .offset ∨ (sends c.plan)[k]? = some .data) :
    s.transferEnds g c (.nack k) = s.endTransfer g (c.at k []) .dataNack := by
  have lt : k < (sends c.plan).length := by rcases hk with hk | hk <;> exact (List.getElem?_eq_some_iff.1 hk).1
  rcases hk with hk | hk <;> simp [State.transferEnds, Current.ended, hk, Current.advance_of_lt (pr := ⟨k, []⟩) lt]

end Reached

/-! ## What the end of a transfer does to its segment (04 R88) -/

/-- What is done to the directory and the ports alone: it leaves the segments, and goes with every update of one. -/
structure SegBlind (D : State → State) : Prop where
  seg : ∀ u g, (D u).seg g = u.seg g
  setSeg : ∀ u g r, (D u).setSeg g r = D (u.setSeg g r)

theorem SegBlind.id : SegBlind (fun u => u) := ⟨fun _ _ => rfl, fun _ _ _ => rfl⟩

theorem SegBlind.comp {D E : State → State} (hD : SegBlind D) (hE : SegBlind E) : SegBlind (fun u => E (D u)) :=
  ⟨fun u g => (hE.seg _ g).trans (hD.seg u g), fun u g r => (hE.setSeg _ g r).trans (congrArg E (hD.setSeg u g r))⟩

theorem SegBlind.report (h : Handle) (o : Outcome) : SegBlind (fun u => u.report h o) := ⟨by simp, by simp⟩
theorem SegBlind.workEnds (h : Handle) : SegBlind (fun u => u.workEnds h) := ⟨by simp, by simp⟩

section AfterTransfer

variable {s : State} {g : Seg} {c : Current} {o : Outcome} {D : State → State} {r : Segment}

/-- The segment of a transfer that has just left the bus, before the work's owner is told. -/
def State.freed (s : State) (g : Seg) (o : Outcome) : State := s.setSeg g { s.seg g with current := none, lines := o.lines }

theorem State.endTransfer_eq (s : State) (g : Seg) (c : Current) (o : Outcome) :
    s.endTransfer g c o = ((s.freed g o).deliver g c o).afterTransfer g o := rfl

/-- The segment is IDLE after a transfer that holds nothing, and the arbiter chooses (04 R82, R88). -/
theorem State.endTransfer_idle (blind : SegBlind D) (told : (s.freed g o).deliver g c o = D (s.setSeg g r)) (pend : r.pendcmd = none)
    (free : r.hold = none) (ho : o ≠ .clockTimeout ∧ o ≠ .busStuck) :
    s.endTransfer g c o = (D (s.setSeg g { r with state := .idle })).choose g := by
  rw [State.endTransfer_eq, told]
  cases o <;>
    simp_all [State.afterTransfer, blind.seg, State.modSeg_eq, blind.setSeg]

/-- The segment is HELD after a transfer that holds the bus (05 R108). -/
theorem State.endTransfer_held (blind : SegBlind D) (told : (s.freed g o).deliver g c o = D (s.setSeg g r)) (pend : r.pendcmd = none)
    (held : r.hold.isSome = true) (ho : o ≠ .clockTimeout ∧ o ≠ .busStuck) :
    s.endTransfer g c o = (D (s.setSeg g { r with state := .held })).choose g := by
  rw [State.endTransfer_eq, told]
  cases o <;>
    simp_all [State.afterTransfer, blind.seg, State.modSeg_eq, blind.setSeg]

/-- The segment is RECOVERING after a CLOCK_TIMEOUT (04 R87). -/
theorem State.endTransfer_clockTimeout (blind : SegBlind D) (told : (s.freed g .clockTimeout).deliver g c .clockTimeout = D (s.setSeg g r))
    (pend : r.pendcmd = none) : s.endTransfer g c .clockTimeout = D (s.setSeg g { r with state := .recovering }) := by
  rw [State.endTransfer_eq, told]
  simp [State.afterTransfer, blind.seg, pend, State.modSeg_eq, blind.setSeg]

/-- The segment goes OFF where a DISABLE is pending (04 R74). -/
theorem State.endTransfer_disable {owner : Option (Port × Tag)} (blind : SegBlind D) (told : (s.freed g o).deliver g c o = D (s.setSeg g r))
    (pend : r.pendcmd = some ⟨.disable, owner⟩) : s.endTransfer g c o = (D (s.setSeg g r)).goOff g true owner := by
  rw [State.endTransfer_eq, told]
  simp [State.afterTransfer, blind.seg, pend]

end AfterTransfer

/-! ## The end of a host transaction (05 R102, R103, R105, R108) -/

/-- What a port and an entry learn of a host transaction that has left the bus: SETTLE is loaded where the write phase was acknowledged in full, CHAINBRK is
given and becomes `chained`, and the response is placed. -/
def State.txAnswered (u : State) (t : HostTx) (c : Current) (chained : Bool) (st : Status) (broken : Bool) (result : List Byte) : State :=
  let e := u.entry t.handle
  (u.setEntry t.handle { e.setChain t.port chained with
    settle := if writePhaseDone c.plan c.acked then e.desc.settletime else e.settle }).give t
      ⟨t.tag, st, e.chain t.port || broken, false, result⟩

/-- The transaction is answered, and its work ends. -/
def State.txEnds (u : State) (t : HostTx) (c : Current) (chained : Bool) (st : Status) (broken : Bool) (result : List Byte) : State :=
  (u.txAnswered t c chained st broken result).workEnds t.handle

theorem Entry.setChain_settle (e : Entry) (p : Port) (b : Bool) (n : Nat) :
    ({ e with settle := n }).setChain p b = { e.setChain p b with settle := n } := by
  cases p <;> rfl

theorem Entry.chain_settle (e : Entry) (p : Port) (n : Nat) : ({ e with settle := n }).chain p = e.chain p := by cases p <;> rfl

@[simp] theorem Entry.setChain_setChain (e : Entry) (p : Port) (a b : Bool) : (e.setChain p a).setChain p b = e.setChain p b := by
  cases p <;> rfl

section Answered

variable (u : State) (t : HostTx) (c : Current) (chained : Bool) (st : Status) (broken : Bool) (result : List Byte)

@[simp] theorem State.seg_txAnswered (g : Seg) : (u.txAnswered t c chained st broken result).seg g = u.seg g := by
  simp [State.txAnswered]

@[simp] theorem State.setSeg_txAnswered (g : Seg) (r : Segment) :
    (u.txAnswered t c chained st broken result).setSeg g r = (u.setSeg g r).txAnswered t c chained st broken result := by
  simp [State.txAnswered]

theorem State.entry_txAnswered : (u.txAnswered t c chained st broken result).entry t.handle =
    { (u.entry t.handle).setChain t.port chained with
      settle := if writePhaseDone c.plan c.acked then (u.entry t.handle).desc.settletime else (u.entry t.handle).settle } := by
  rw [State.txAnswered, State.entry_give, State.entry_setEntry_same]

/-- CHAINBRK set after the answer is CHAINBRK set with it. -/
theorem State.txAnswered_chained : (u.txAnswered t c chained st broken result).modEntry t.handle (fun e => e.setChain t.port true) =
    u.txAnswered t c true st broken result := by
  rw [State.modEntry_eq, State.entry_txAnswered, Entry.setChain_settle, Entry.setChain_setChain, State.txAnswered, State.setEntry_give,
    State.setEntry_setEntry]
  rfl

theorem SegBlind.txEnds : SegBlind (fun u => u.txEnds t c chained st broken result) :=
  ⟨by simp [State.txEnds], by simp [State.txEnds]⟩

end Answered

theorem Entry.EndsOk.of_same {e f : Entry} (ok : e.EndsOk) (hs : f.state = e.state) (hi : f.inflight = e.inflight) (hc : f.claim = e.claim)
    (ha : f.holderA = e.holderA) (hb : f.holderB = e.holderB) (hw : f.waiter = e.waiter) : f.EndsOk := by
  unfold Entry.EndsOk
  rw [hs, hi, hc, ha, hb, hw]
  exact ok

/-- After the answer of a host transaction the fall of INFLIGHT is the end of its work: nothing that the condition on the last work looks at has changed. -/
theorem State.fall_txAnswered {u : State} {t : HostTx} (ok : (u.entry t.handle).EndsOk) (c : Current) (chained : Bool) (st : Status)
    (broken : Bool) (result : List Byte) :
    (u.txAnswered t c chained st broken result).fall t.handle = u.txEnds t c chained st broken result := by
  refine State.fall_eq _ _ ?_
  rw [State.entry_txAnswered]
  refine ok.of_same ?_ ?_ ?_ ?_ ?_ ?_ <;> cases t.port <;> rfl

section EndHost

variable {u : State} {g : Seg} {c : Current} {pre post : List HostTx} {t : HostTx} {o : Outcome}

theorem Segment.activeTx_eq {r : Segment} (queue : r.hostq = pre ++ t :: post) (waiting : ∀ v ∈ pre, v.active = false)
    (mark : t.active = true) : r.activeTx = some (pre.length, t) := by
  rw [Segment.activeTx, queue, firstTx_eq_some]
  exact ⟨pre, post, rfl, by simp, mark, waiting⟩

theorem eraseIdx_length_append (pre post : List HostTx) (t : HostTx) : (pre ++ t :: post).eraseIdx pre.length = pre ++ post := by
  simp [List.eraseIdx_append_of_length_le]

/-- The chained transaction that ends OK and is neither barred nor orphaned holds the bus in its place (05 R108). -/
def Segment.holding (r : Segment) (t : HostTx) : Segment :=
  { r with hold := some ⟨t.port, t.handle, r.config.holdlimit⟩, lines := .held }

theorem State.loadSettle_eq (u : State) (h : Handle) (c : Current) : u.loadSettle h c =
    u.setEntry h { u.entry h with settle := if writePhaseDone c.plan c.acked then (u.entry h).desc.settletime else (u.entry h).settle } := by
  by_cases hd : writePhaseDone c.plan c.acked = true
  · simp [State.loadSettle, hd, State.modEntry_eq]
  · simp only [State.loadSettle, hd]
    exact (u.setEntry_entry h).symm

/-- The settle load and the answer of a host transaction. -/
theorem State.answerTx_loadSettle (u : State) (t : HostTx) (c : Current) (st : Status) (k : Nat) (rx : List Byte) (b : Bool) :
    (u.loadSettle t.handle c).answerTx t st k rx b = u.txAnswered t c false st b (txResult t.kind k rx) := by
  rw [State.answerTx_eq, State.loadSettle_eq, State.entry_setEntry_same, State.setEntry_setEntry, Entry.setChain_settle, Entry.chain_settle]
  rfl

/-- The part with a host transaction out of HOSTQ and the report of its outcome given (05 R103). -/
def State.txOut (u : State) (g : Seg) (queue : List HostTx) (h : Handle) (o : Outcome) : State :=
  (u.setSeg g { u.seg g with hostq := queue }).report h o

theorem State.reported_txOut (u : State) (g : Seg) (queue : List HostTx) (h : Handle) (o : Outcome) :
    (u.entry h).Reported ((u.txOut g queue h o).entry h) := (u.setSeg g { u.seg g with hostq := queue }).reported_report h o

@[simp] theorem State.seg_txOut (u : State) (g : Seg) (queue : List HostTx) (h : Handle) (o : Outcome) :
    (u.txOut g queue h o).seg g = { u.seg g with hostq := queue } := by
  simp [State.txOut]

/-- The end of a host transaction, with the choice whether it holds the bus still to be made. -/
theorem State.endHost_eq (queue : (u.seg g).hostq = pre ++ t :: post) (waiting : ∀ v ∈ pre, v.active = false) (mark : t.active = true) :
    u.endHost g c o =
      let w := (u.txOut g (pre ++ post) t.handle o).txAnswered t c false o.status (o == .ok && c.followOn && 0 < c.lost)
        (txResult t.kind (c.reportedWritten o) (c.reportedRead o))
      (if t.chain ∧ o = .ok then w.tryHold g t c else w).fall t.handle := by
  have out : ((u.report t.handle o).loadSettle t.handle c).modSeg g (fun r => { r with hostq := r.hostq.eraseIdx pre.length }) =
      (u.txOut g (pre ++ post) t.handle o).loadSettle t.handle c := by
    simp only [State.loadSettle_eq, State.modSeg_eq, State.seg_setEntry, State.setSeg_setEntry, State.seg_report, queue,
      eraseIdx_length_append, State.txOut, ← State.setSeg_report, State.entry_setSeg]
  unfold State.endHost
  rw [Segment.activeTx_eq queue waiting mark]
  simp only [out, State.answerTx_loadSettle]

/-- The transaction does not hold: it is not chained, did not end OK, or its port has been reset (05 R108). -/
theorem State.endHost_plain (queue : (u.seg g).hostq = pre ++ t :: post) (waiting : ∀ v ∈ pre, v.active = false) (mark : t.active = true)
    (ok : (u.entry t.handle).EndsOk) (plain : t.chain = true → o = .ok → t.orphan = true) :
    u.endHost g c o = (u.txOut g (pre ++ post) t.handle o).txEnds t c false o.status (o == .ok && c.followOn && 0 < c.lost)
      (txResult t.kind (c.reportedWritten o) (c.reportedRead o)) := by
  have stays : ∀ w : State, (if t.chain = true ∧ o = .ok then w.tryHold g t c else w) = w := by
    intro w
    split
    · next hc => simp [State.tryHold, plain hc.1 hc.2]
    · rfl
  rw [State.endHost_eq queue waiting mark]
  dsimp only
  rw [stays, State.fall_txAnswered (Entry.Reported.endsOk (u.reported_txOut ..) ok)]

/-- Why a chained transaction that ended OK may not hold (05 R108). -/
theorem State.holdBarred_iff (u : State) (g : Seg) (t : HostTx) (c : Current) : u.holdBarred g t c = true ↔
    (∃ p ∈ (u.seg g).pendcmd, p.kind = .disable) ∨ c.claimEnded = true ∨ (u.entry t.handle).state = .retiring := by
  simp [State.holdBarred, Option.any_eq_true, or_assoc]

/-- Neither the report nor the answer changes what bars a hold. -/
theorem State.holdBarred_txAnswered (chained : Bool) (st : Status) (broken : Bool) (result : List Byte) :
    ((u.txOut g (pre ++ post) t.handle o).txAnswered t c chained st broken result).holdBarred g t c = u.holdBarred g t c := by
  rw [Bool.eq_iff_iff, State.holdBarred_iff, State.holdBarred_iff, State.seg_txAnswered, State.seg_txOut, State.entry_txAnswered,
    Entry.state_setChain, (u.reported_txOut ..).retiring_iff]

/-- The transaction is chained and ended OK, but is barred from holding: CHAINBRK is set (05 R108). -/
theorem State.endHost_barred (queue : (u.seg g).hostq = pre ++ t :: post) (waiting : ∀ v ∈ pre, v.active = false) (mark : t.active = true)
    (ok : (u.entry t.handle).EndsOk) (chained : t.chain = true) (owned : t.orphan = false) (barred : u.holdBarred g t c = true) :
    u.endHost g c .ok = (u.txOut g (pre ++ post) t.handle .ok).txEnds t c true .ok (c.followOn && 0 < c.lost)
      (txResult t.kind (writtenOf c.plan c.acked) c.rx) := by
  rw [State.endHost_eq queue waiting mark]
  dsimp only
  simp only [chained, State.tryHold, owned, State.holdBarred_txAnswered, barred, State.txAnswered_chained, Bool.false_eq_true, and_true, if_true,
    if_false]
  rw [State.fall_txAnswered (Entry.Reported.endsOk (u.reported_txOut ..) ok)]
  rfl

/-- The transaction is chained, ended OK and is not barred: it holds the bus in its place (05 R108). -/
theorem State.endHost_holds (queue : (u.seg g).hostq = pre ++ t :: post) (waiting : ∀ v ∈ pre, v.active = false) (mark : t.active = true)
    (ok : (u.entry t.handle).EndsOk) (chained : t.chain = true) (owned : t.orphan = false) (free : u.holdBarred g t c = false) :
    u.endHost g c .ok = ((u.setSeg g ((u.seg g).holding t)).txOut g (pre ++ post) t.handle .ok).txEnds t c false .ok
      (c.followOn && 0 < c.lost) (txResult t.kind (writtenOf c.plan c.acked) c.rx) := by
  have held : (u.txOut g (pre ++ post) t.handle .ok).setSeg g (({ u.seg g with hostq := pre ++ post } : Segment).holding t) =
      (u.setSeg g ((u.seg g).holding t)).txOut g (pre ++ post) t.handle .ok := by
    simp [State.txOut, Segment.holding]
  rw [State.endHost_eq queue waiting mark]
  dsimp only
  simp only [chained, State.tryHold, owned, State.holdBarred_txAnswered, free, Bool.false_eq_true, and_true, if_true, if_false,
    State.modSeg_eq, State.seg_txAnswered, State.seg_txOut, State.setSeg_txAnswered]
  rw [← held, State.fall_txAnswered (by rw [State.entry_setSeg]; exact Entry.Reported.endsOk (u.reported_txOut ..) ok)]
  rfl

end EndHost

end Sys2Proof.Machine
end

