-- ==== Sys2Proof/Proofs/HostEnds.lean ====
section
/-! PROOFS. How host transactions end on the bus (04 R85 to R89, 05 R102 to R108): OK, DATA_NACK, ADDR_NACK, the faults of the bus, and each of them while a
DISABLE is pending. -/

namespace Sys2Proof.Machine

section HostEnds

variable {s : State} {g : Seg} {c d : Current} {pre post : List HostTx} {t : HostTx} {o : Outcome}

/-- The segment of a host transaction that has left the bus and HOSTQ. -/
def Segment.without (r : Segment) (queue : List HostTx) (lines : LineEnd) : Segment :=
  { r with current := none, hostq := queue, lines := lines }

theorem State.txOut_freed (s : State) (g : Seg) (queue : List HostTx) (h : Handle) (o o' : Outcome) :
    (s.freed g o).txOut g queue h o' = (s.setSeg g ((s.seg g).without queue o.lines)).report h o' := by
  simp [State.txOut, State.freed, Segment.without]

/-- What the owner of a host transaction is told where it does not hold. -/
theorem HostOnBus.deliver_plain (hb : HostOnBus s g c pre t post) (hk : d.kind = .host) (ok : (s.entry t.handle).EndsOk)
    (plain : t.chain = true → o = .ok → t.orphan = true) : (s.freed g o).deliver g d o =
      ((s.setSeg g ((s.seg g).without (pre ++ post) o.lines)).report t.handle o).txEnds t d false o.status
        (o == .ok && d.followOn && 0 < d.lost) (txResult t.kind (d.reportedWritten o) (d.reportedRead o)) := by
  rw [State.deliver, hk]
  dsimp only
  rw [State.endHost_plain (by simpa [State.freed] using hb.queue) hb.waiting hb.mark (by simpa [State.freed] using ok) plain,
    State.txOut_freed]

/-- What the owner of a chained transaction that ended OK is told where it is barred from holding. -/
theorem HostOnBus.deliver_barred (hb : HostOnBus s g c pre t post) (hk : d.kind = .host) (ok : (s.entry t.handle).EndsOk)
    (chained : t.chain = true) (owned : t.orphan = false) (barred : s.holdBarred g t d = true) : (s.freed g .ok).deliver g d .ok =
      ((s.setSeg g ((s.seg g).without (pre ++ post) .stop)).report t.handle .ok).txEnds t d true .ok (d.followOn && 0 < d.lost)
        (txResult t.kind (writtenOf d.plan d.acked) d.rx) := by
  rw [State.deliver, hk]
  dsimp only
  rw [State.endHost_barred (by simpa [State.freed] using hb.queue) hb.waiting hb.mark (by simpa [State.freed] using ok) chained owned
    (by simpa [State.holdBarred, State.freed] using barred), State.txOut_freed]
  rfl

/-- What the owner of a chained transaction that ended OK is told where it holds the bus. -/
theorem HostOnBus.deliver_holds (hb : HostOnBus s g c pre t post) (hk : d.kind = .host) (ok : (s.entry t.handle).EndsOk)
    (chained : t.chain = true) (owned : t.orphan = false) (free : s.holdBarred g t d = false) : (s.freed g .ok).deliver g d .ok =
      ((s.setSeg g (((s.seg g).without (pre ++ post) .stop).holding t)).report t.handle .ok).txEnds t d false .ok (d.followOn && 0 < d.lost)
        (txResult t.kind (writtenOf d.plan d.acked) d.rx) := by
  rw [State.deliver, hk]
  dsimp only
  rw [State.endHost_holds (by simpa [State.freed] using hb.queue) hb.waiting hb.mark (by simpa [State.freed] using ok) chained owned
    (by simpa [State.holdBarred, State.freed] using free)]
  simp [State.txOut, State.freed, Segment.without, Segment.holding]

/-- A host transaction that does not hold ends, and its segment is IDLE. -/
theorem HostOnBus.endTransfer_plain (hb : HostOnBus s g c pre t post) (hk : d.kind = .host) (pend : (s.seg g).pendcmd = none)
    (ok : (s.entry t.handle).EndsOk) (plain : t.chain = true → o = .ok → t.orphan = true) (ho : o ≠ .clockTimeout ∧ o ≠ .busStuck) :
    s.endTransfer g d o =
      (((s.setSeg g { (s.seg g).without (pre ++ post) o.lines with state := .idle }).report t.handle o).txEnds t d false o.status
        (o == .ok && d.followOn && 0 < d.lost) (txResult t.kind (d.reportedWritten o) (d.reportedRead o))).choose g :=
  State.endTransfer_idle ((SegBlind.report t.handle o).comp (SegBlind.txEnds ..)) (hb.deliver_plain hk ok plain) pend hb.bus.hold ho

/-- A chained transaction that is barred from holding ends, and its segment is IDLE. -/
theorem HostOnBus.endTransfer_barred (hb : HostOnBus s g c pre t post) (hk : d.kind = .host) (pend : (s.seg g).pendcmd = none)
    (ok : (s.entry t.handle).EndsOk) (chained : t.chain = true) (owned : t.orphan = false) (barred : s.holdBarred g t d = true) :
    s.endTransfer g d .ok = (((s.setSeg g { (s.seg g).without (pre ++ post) .stop with state := .idle }).report t.handle .ok).txEnds t d true .ok
      (d.followOn && 0 < d.lost) (txResult t.kind (writtenOf d.plan d.acked) d.rx)).choose g :=
  State.endTransfer_idle ((SegBlind.report t.handle .ok).comp (SegBlind.txEnds ..)) (hb.deliver_barred hk ok chained owned barred) pend
    hb.bus.hold (by decide)

/-- A chained transaction that is not barred ends, and its segment is HELD. -/
theorem HostOnBus.endTransfer_holds (hb : HostOnBus s g c pre t post) (hk : d.kind = .host) (pend : (s.seg g).pendcmd = none)
    (ok : (s.entry t.handle).EndsOk) (chained : t.chain = true) (owned : t.orphan = false) (free : s.holdBarred g t d = false) :
    s.endTransfer g d .ok = (((s.setSeg g { ((s.seg g).without (pre ++ post) .stop).holding t with state := .held }).report t.handle .ok).txEnds
      t d false .ok (d.followOn && 0 < d.lost) (txResult t.kind (writtenOf d.plan d.acked) d.rx)).choose g :=
  State.endTransfer_held ((SegBlind.report t.handle .ok).comp (SegBlind.txEnds ..)) (hb.deliver_holds hk ok chained owned free) pend
    rfl (by decide)

/-- The clock has been held low: the segment of the host transaction is RECOVERING (04 R87). -/
theorem HostOnBus.endTransfer_clockTimeout (hb : HostOnBus s g c pre t post) (hk : d.kind = .host) (pend : (s.seg g).pendcmd = none)
    (ok : (s.entry t.handle).EndsOk) : s.endTransfer g d .clockTimeout =
      ((s.setSeg g { (s.seg g).without (pre ++ post) .released with state := .recovering }).failureReport t.handle).txEnds t d false
        .clockTimeout false (txResult t.kind (writtenOf d.plan d.acked) d.rx) := by
  have told := hb.deliver_plain (o := .clockTimeout) hk ok (by simp)
  rw [State.endTransfer_clockTimeout ((SegBlind.report t.handle .clockTimeout).comp (SegBlind.txEnds ..)) told pend,
    State.report_failure rfl rfl]
  rfl

/-- A host transaction ends while a DISABLE is pending; it does not hold (04 R74). -/
theorem HostOnBus.endTransfer_disable {owner : Option (Port × Tag)} (hb : HostOnBus s g c pre t post) (hk : d.kind = .host)
    (pend : (s.seg g).pendcmd = some ⟨.disable, owner⟩) (ok : (s.entry t.handle).EndsOk)
    (plain : t.chain = true → o = .ok → t.orphan = true) : s.endTransfer g d o =
      (((s.setSeg g ((s.seg g).without (pre ++ post) o.lines)).report t.handle o).txEnds t d false o.status
        (o == .ok && d.followOn && 0 < d.lost) (txResult t.kind (d.reportedWritten o) (d.reportedRead o))).goOff g true owner := by
  rw [State.endTransfer_disable ((SegBlind.report t.handle o).comp (SegBlind.txEnds ..)) (hb.deliver_plain hk ok plain) pend]

/-- The answer in the terms of the entry before the report: a report changes neither DESC nor SETTLE nor CHAINBRK. -/
theorem State.txEnds_reported {v : State} {e : Entry} (r : e.Reported (v.entry t.handle)) (chained : Bool) (st : Status) (broken : Bool)
    (result : List Byte) : v.txEnds t d chained st broken result =
      ((v.setEntry t.handle { (v.entry t.handle).setChain t.port chained with
        settle := if writePhaseDone d.plan d.acked then e.desc.settletime else e.settle }).give t
          ⟨t.tag, st, e.chain t.port || broken, false, result⟩).workEnds t.handle := by
  obtain ⟨desc, settle, -, chain, -⟩ := r.fields
  rw [State.txEnds, State.txAnswered, ← desc, ← settle, ← chain]

theorem HostOnBus.exec_end (hb : HostOnBus s g c pre t post) (e : TransferEnd) :
    exec (.hostTransactionEnd g e) s = .next (s.transferEnds g c e) := by
  have ends := hb.bus.exec_ends e
  rw [hb.kind] at ends
  exact ends

end HostEnds

/-- Settles O39: each fault ends the transfer with its outcome, which is told without a hold; a lost arbitration with attempts left and a data line held low
end nothing. -/
theorem busFaultsEndHostTransactions : Obligations.BusFaultsEndHostTransactions := by
  refine ⟨fun s g c on => ⟨fun pr hk left => ?_, fun hr => ?_⟩, fun s g c pre t post hb pend ok => ?_⟩
  · rw [on.exec_arbLost, State.losesArbitration_retry s g hk left]
    simp [Current.retry]
  · rw [on.exec_busBusy]
    simp [State.waitsTooLong, hr, State.modSeg_eq]
  · intro ended left
    have told : ∀ (u : State) (d : Current) (st : Status) (result : List Byte), d.plan = c.plan →
        u.txEnds t d false st false result = ended u d.acked st result := by
      intro u d st result hd
      simp only [State.txEnds, State.txAnswered, hd, Bool.or_false, ended]
    refine ⟨fun pr hk last => ?_, fun hr hz => ?_, fun k rx hk hl hrx => ?_⟩
    · rw [hb.bus.exec_arbLost, State.losesArbitration_last s g hk last, Current.advance_of_lt hk,
        hb.endTransfer_plain (o := .arbLost) (d := c.at pr.acked []) hb.kind pend ok (by simp) (by decide), State.report_none rfl rfl]
      exact congrArg (fun u => Host.Outcome.next (State.choose u g)) (told _ _ _ _ rfl)
    · rw [hb.bus.exec_busBusy, State.waitsTooLong_ends s g hr, hb.endTransfer_plain (o := .busBusy) hb.kind pend ok (by simp) (by decide),
        State.report_none rfl rfl]
      have := told (left .idle) c .busBusy (txResult t.kind 0 []) rfl
      rw [hz] at this
      exact congrArg (fun u => Host.Outcome.next (State.choose u g)) this
    · rw [hb.bus.exec_clockTimeout, Current.advance_eq hk hl hrx, hb.endTransfer_clockTimeout (d := c.at k rx) hb.kind pend ok]
      exact congrArg Host.Outcome.next (told _ _ _ _ rfl)

/-- Settles O41: the outcome and the progress decide the report and the answer, and the hold is taken or barred. -/
theorem hostTransactionEnds : Obligations.HostTransactionEnds := by
  intro s g c pre t post hb pend ok e n idle broken ended good bad holding
  have told : ∀ (r : Segment) (o : Outcome) (d : Current) (barred : Bool) (st : Status) (rx : List Byte) (br : Bool), d.plan = c.plan →
      ((s.setSeg g r).report t.handle o).txEnds t d barred st br (txResult t.kind (writtenOf d.plan d.acked) rx) =
        ended ((s.setSeg g r).report t.handle o) d.acked barred st rx br := by
    intro r o d barred st rx br hd
    rw [State.txEnds_reported ((s.setSeg g r).reported_report t.handle o), hd]
    rfl
  have free : c.claimEnded = false → e.state ≠ .retiring → ∀ k rx, s.holdBarred g t (c.at k rx) = false := by
    intro hc hs k rx
    rw [← Bool.not_eq_true, State.holdBarred_iff]
    rintro (⟨_, hp, -⟩ | hc' | hs')
    · rw [pend] at hp; cases hp
    · exact absurd hc' (by simpa [Current.at] using hc)
    · exact hs hs'
  refine ⟨fun rx plain => ?_, fun rx chained owned hc hs => ?_, fun rx chained owned hc => ?_, fun k hk => ?_, fun k hk => ?_⟩
  · rw [hb.exec_end, State.transferEnds_done, hb.endTransfer_plain (o := .ok) (d := c.at n (receivedAll c.plan rx)) hb.kind pend ok
      (fun hc _ => by simpa [hc] using plain) (by decide)]
    exact congrArg (fun u => Host.Outcome.next (State.choose u g)) (told _ .ok (c.at n (receivedAll c.plan rx)) _ _ _ _ rfl)
  · rw [hb.exec_end, State.transferEnds_done, hb.endTransfer_holds (d := c.at n (receivedAll c.plan rx)) hb.kind pend ok chained owned
      (free hc hs _ _)]
    exact congrArg (fun u => Host.Outcome.next (State.choose u g)) (told _ .ok (c.at n (receivedAll c.plan rx)) _ _ _ _ rfl)
  · rw [hb.exec_end, State.transferEnds_done, hb.endTransfer_barred (d := c.at n (receivedAll c.plan rx)) hb.kind pend ok chained owned
      ((s.holdBarred_iff ..).2 (.inr hc))]
    exact congrArg (fun u => Host.Outcome.next (State.choose u g)) (told _ .ok (c.at n (receivedAll c.plan rx)) _ _ _ _ rfl)
  · rw [hb.exec_end, State.transferEnds_data s g hk, hb.endTransfer_plain (o := .dataNack) (d := c.at k []) hb.kind pend ok (by simp)
      (by decide)]
    exact congrArg (fun u => Host.Outcome.next (State.choose u g)) (told _ .dataNack (c.at k []) _ _ _ _ rfl)
  · rw [hb.exec_end, State.transferEnds_addr s g hk, hb.endTransfer_plain (o := .addrNack) (d := c.at k []) hb.kind pend ok (by simp)
      (by decide)]
    exact congrArg (fun u => Host.Outcome.next (State.choose u g)) (told _ .addrNack (c.at k []) _ _ _ _ rfl)

end Sys2Proof.Machine
end

