-- ==== Sys2Proof/Proofs/AdmissionEnds.lean ====
section
/-! PROOFS. How the address probe of an admission ends (02 R24 to R26, R33, R34, R39, R40): the operations of the admission unit give the ends that the
statements name. -/

namespace Sys2Proof.Machine

/-! ## The ends named by the statements leave the segments -/

@[simp] theorem State.seg_enqueue (s : State) (p : Port) (r : Response) (g : Seg) : (s.enqueue p r).seg g = s.seg g := by
  simp [State.enqueue]

@[simp] theorem State.setSeg_enqueue (s : State) (p : Port) (x : Response) (g : Seg) (r : Segment) :
    (s.enqueue p x).setSeg g r = (s.setSeg g r).enqueue p x := by
  simp [State.enqueue_eq]

theorem SegBlind.setEntry (h : Handle) (e : Entry) : SegBlind (fun u => u.setEntry h e) := ⟨by simp, by simp⟩

theorem SegBlind.firstPresent (h : Handle) (e : Entry) (a : AdmRec) (d : Desc) (src : DSrc) :
    SegBlind (fun u => u.firstPresent h e a d src) := by
  constructor <;> (intros; unfold State.firstPresent; dsimp only; split <;> simp)

theorem SegBlind.firstFailed (h : Handle) (e : Entry) (a : AdmRec) (pl : Place) (st : Status) :
    SegBlind (fun u => u.firstFailed h e a pl st) := ⟨by simp [State.firstFailed], by simp [State.firstFailed]⟩

theorem SegBlind.readmitted (h : Handle) (e : Entry) (d : Desc) (src : DSrc) : SegBlind (fun u => u.readmitted h e d src) := by
  constructor <;> (intros; unfold State.readmitted; dsimp only; split <;> simp)

theorem SegBlind.lostAgain (h : Handle) (e : Entry) : SegBlind (fun u => u.lostAgain h e) := by
  constructor <;> intros <;> unfold State.lostAgain <;> cases e.watch with
  | none => simp
  | some w => by_cases hz : w.remaining = 0 <;> simp [hz]

/-! ## The ends of an admission, in the statements' terms -/

section Ends

variable {u : State} {h : Handle}

/-- A first admission ends PRESENT, its transfer no longer counted (02 R33, R37). -/
theorem State.endFirst_lower (u : State) (h : Handle) (a : AdmRec) (d : Desc) (src : DSrc) :
    (u.modEntry h Entry.lower).endFirst h a d src = u.firstPresent h (u.entry h) a d src := by
  unfold State.endFirst State.firstPresent
  rcases a with ⟨_, _, source, _, _, _⟩
  rcases source with (_ | ⟨_, _⟩) | (_ | _) | _ | _ <;> simp [State.modEntry_eq, Entry.lower, State.subject]

/-- A first admission fails, its transfer no longer counted (02 R34). -/
theorem State.failFirst_lower {a : AdmRec} {pl : Place} (ha : (u.entry h).adm = some a) (hp : (u.entry h).place = some pl) (st : Status) :
    (u.modEntry h Entry.lower).failFirst h st = u.firstFailed h (u.entry h) a pl st := by
  have nobody : ∀ p : Port, ((none : Option Port) != some p) = true := fun _ => rfl
  unfold State.failFirst State.enterVacant State.firstFailed
  rw [State.dropClaims_eq]
  simp [State.modEntry_eq, Entry.lower, Entry.holder, ha, hp, State.tellFailure_eq, nobody]

/-- A re-admission ends with the identity unchanged, its transfer no longer counted and no probe of the watch due (02 R40, 06 R126). -/
theorem State.endReappeared_lower {d : Desc} (same : (u.entry h).desc.sameIdentity d = true) (src : DSrc)
    (calm : ∀ w ∈ (u.entry h).watch, w.probe = .none) :
    (u.modEntry h Entry.lower).endReappeared h d src = u.readmitted h (u.entry h) d src := by
  simp only [Desc.sameIdentity, Bool.and_eq_true, beq_iff_eq, and_assoc] at same
  unfold State.endReappeared State.readmitted
  rw [State.answerWatch_told _ _ _ rfl, if_pos same]
  cases hw : (u.entry h).watch with
  | none => simp [State.modEntry_eq, Entry.endWatch_eq, Entry.lower, Entry.watchDue, Entry.subs, State.subject, State.watchTold, hw, bit]
  | some w =>
    simp [State.modEntry_eq, Entry.endWatch_eq, Entry.lower, Entry.watchDue, Entry.subs, State.subject, State.watchTold, hw, calm w hw, bit,
      entryStateCode, howReappeared]

/-- A re-admission's address probe has failed, its transfer no longer counted and no probe of the watch due (02 R39, 06 R126). -/
theorem State.failRe_lower (calm : ∀ w ∈ (u.entry h).watch, w.probe = .none) :
    (u.modEntry h Entry.lower).failRe h = u.lostAgain h (u.entry h) := by
  unfold State.failRe State.lostAgain
  cases hw : (u.entry h).watch with
  | none => simp [State.modEntry_eq, Entry.lower, hw]
  | some w =>
    by_cases hz : w.remaining = 0
    · have told : ∀ (v : State) (d : Byte), v.answerWatch h .watchExpired d = _ := fun v d => State.answerWatch_told v h d rfl
      simp [State.modEntry_eq, Entry.endWatch_eq, Entry.lower, Entry.watchDue, State.watchTold, hw, hz, calm w hw, bit, entryStateCode, told]
    · simp [State.modEntry_eq, Entry.lower, hw, hz, calm w hw]

/-- The address probe of an entry of DMODE FETCH is acknowledged: the SIZE read is planned in the probe's place, and counted (02 R24, R25). -/
theorem State.admissionNext_fetch {a : AdmRec} (step : a.step = .probe) (fetch : (u.entry h).dmode = .fetch) (counted : 1 ≤ (u.entry h).inflight)
    (rx : List Byte) : (u.modEntry h Entry.lower).admissionNext h a .ok rx =
      u.setEntry h { u.entry h with adm := some { a with step := .sizeRead, planned := .waiting } } := by
  have mode : ((u.modEntry h Entry.lower).entry h).dmode = .fetch := by simpa [Entry.lower, Entry.dmode] using fetch
  simp only [State.admissionNext, step, mode, reduceCtorEq, if_false]
  simp [State.modEntry_eq, Entry.plan, Entry.rise, Entry.lower, Nat.sub_add_cancel counted]

/-- The address probe of an entry of DMODE NONE is acknowledged: its admission ends without a descriptor (02 R24, R33). -/
theorem State.admissionNext_none {a : AdmRec} (step : a.step = .probe) (none : (u.entry h).dmode = .none) (rx : List Byte) :
    (u.modEntry h Entry.lower).admissionNext h a .ok rx = (u.modEntry h Entry.lower).endAdmission h a {} .none := by
  have mode : ((u.modEntry h Entry.lower).entry h).dmode = .none := by simpa [Entry.lower, Entry.dmode] using none
  simp only [State.admissionNext, step, mode, if_true]

/-- The end of a re-admission of an entry of DMODE NONE (02 R40). -/
theorem State.endAdmission_re_none {a : AdmRec} (re : a.kind = .re) (none : (u.entry h).dmode = .none)
    (calm : ∀ w ∈ (u.entry h).watch, w.probe = .none) (d : Desc) (src : DSrc) :
    (u.modEntry h Entry.lower).endAdmission h a d src = u.readmitted h (u.entry h) (u.entry h).desc .none := by
  have mode : ((u.modEntry h Entry.lower).entry h).dmode = .none := by simpa [Entry.lower, Entry.dmode] using none
  have kept : ((u.modEntry h Entry.lower).entry h).desc = (u.entry h).desc := by simp [Entry.lower]
  simp only [State.endAdmission, re, mode, if_true]
  rw [kept, State.endReappeared_lower (by simp [Desc.sameIdentity]) _ calm]

/-! ## The transfer of an admission ends -/

theorem State.report_of_unreachable {s : State} {h : Handle} (hr : (s.entry h).reachable = false) (o : Outcome) : s.report h o = s := by
  have hs : (s.entry h).state ≠ .suspect := by intro hs; simp [Entry.reachable, hs] at hr
  simp [State.report, State.successReport, State.failureReport, hr, hs]

end Ends

section Transfer

variable {s : State} {g : Seg} {d : Current} {h : Handle} {a : AdmRec} {o : Outcome}

@[simp] theorem State.entry_freed (s : State) (g : Seg) (o : Outcome) (h : Handle) : (s.freed g o).entry h = s.entry h := by
  simp [State.freed]

/-- The transfer of a PROBING entry's admission gives no report and goes to the admission (02 R24 to R26). -/
theorem State.deliver_admission (hk : d.kind = .admission) (he : d.entry = some h) (hs : (s.entry h).state = .probing)
    (ha : (s.entry h).adm = some a) (hp : a.planned = .active) :
    (s.freed g o).deliver g d o = ((s.freed g o).modEntry h Entry.lower).admissionNext h a o d.rx := by
  have quiet : (s.freed g o).report h o = s.freed g o := State.report_of_unreachable (by simp [Entry.reachable, hs]) o
  simp [State.deliver, hk, he, State.endAdmissionTransfer, quiet, ha, hp]

/-- The admission takes the outcome as `D`: the segment is IDLE and the arbiter chooses. -/
theorem State.endTransfer_admission {D : State → State} (blind : SegBlind D) (hk : d.kind = .admission) (he : d.entry = some h)
    (hs : (s.entry h).state = .probing) (ha : (s.entry h).adm = some a) (hp : a.planned = .active) (pend : (s.seg g).pendcmd = none)
    (free : (s.seg g).hold = none) (ho : o ≠ .clockTimeout ∧ o ≠ .busStuck)
    (next : ((s.freed g o).modEntry h Entry.lower).admissionNext h a o d.rx = D (s.freed g o)) :
    s.endTransfer g d o = (D (s.setSeg g { s.seg g with state := .idle, current := none, lines := o.lines })).choose g :=
  State.endTransfer_idle blind ((State.deliver_admission hk he hs ha hp).trans next) pend free ho

end Transfer

/-- Settles O42: the outcome of the address probe decides the end of the admission, by its kind and by DMODE. -/
theorem admissionProbeEnds : Obligations.AdmissionProbeEnds := by
  intro s g c h pl a on hk he pend hs hpl ha hstep hplan e idle
  have acknowledged : ∀ (D : State → State) (rx : List Byte), SegBlind D →
      ((s.freed g .ok).modEntry h Entry.lower).admissionNext h a .ok (receivedAll c.plan rx) = D (s.freed g .ok) →
      exec (.admissionTransferEnd g (.done rx)) s = .next ((D idle).choose g) := by
    intro D rx blind next
    have ends := on.exec_ends (.done rx)
    rw [hk, State.transferEnds_done, State.endTransfer_admission (o := .ok) (d := c.at (sends c.plan).length (receivedAll c.plan rx))
      blind hk he hs ha hplan pend on.hold (by decide) next] at ends
    exact ends
  have refused : ∀ (D : State → State) (k : Nat), SegBlind D → (sends c.plan)[k]? = some .addr →
      ((s.freed g .addrNack).modEntry h Entry.lower).admissionNext h a .addrNack [] = D (s.freed g .addrNack) →
      exec (.admissionTransferEnd g (.nack k)) s = .next ((D idle).choose g) := by
    intro D k blind addr next
    have ends := on.exec_ends (.nack k)
    rw [hk, State.transferEnds_addr s g addr, State.endTransfer_admission (o := .addrNack) (d := c.at k []) blind hk he hs ha hplan pend on.hold
      (by decide) next] at ends
    exact ends
  have mode : ∀ o, ((s.freed g o).entry h).dmode = pl.dmode := by
    intro o; simp [Entry.dmode, hpl]
  refine ⟨fun rx fetch counted => ?_, fun first => ⟨fun rx none => ?_, fun k addr => ?_⟩, fun re calm => ⟨fun rx none => ?_, fun k addr => ?_⟩⟩
  · refine acknowledged _ rx (SegBlind.setEntry h _) ?_
    rw [State.admissionNext_fetch hstep ((mode _).trans fetch) (by simpa using counted), State.entry_freed]
  · refine acknowledged _ rx (SegBlind.firstPresent h _ _ _ _) ?_
    rw [State.admissionNext_none hstep ((mode _).trans none)]
    simp [State.endAdmission, first, State.endFirst_lower, e]
  · refine refused _ k (SegBlind.firstFailed h _ _ _ _) addr ?_
    simp [State.admissionNext, hstep, State.failAdmission, first, Outcome.status, e,
      State.failFirst_lower (u := s.freed g .addrNack) (by simpa using ha) (by simpa using hpl)]
  · refine acknowledged _ rx (SegBlind.readmitted h _ _ _) ?_
    rw [State.admissionNext_none hstep ((mode _).trans none),
      State.endAdmission_re_none re ((mode _).trans none) (by simpa using calm), State.entry_freed]
  · refine refused _ k (SegBlind.lostAgain h _) addr ?_
    simp [State.admissionNext, hstep, State.failAdmission, re, e, State.failRe_lower (u := s.freed g .addrNack) (by simpa using calm)]

end Sys2Proof.Machine
end

