-- ==== Sys2Proof/Proofs/DisableEnds.lean ====
section
/-! PROOFS. A transfer that ends while a DISABLE is pending (04 R74): the work's owner is told as usual, then the segment goes OFF. -/

namespace Sys2Proof.Machine

/-! ## A recovery that fails (04 R89) -/

theorem pulses_clockLow (n k : Nat) (rest : List LineObs) (hk : k < n) : pulses n (List.replicate k .dataLow ++ .clockLow :: rest) = some false := by
  induction n generalizing k with
  | zero => simp at hk
  | succ n ih =>
    cases k with
    | zero => rfl
    | succ k => rw [List.replicate_succ, List.cons_append]; exact ih k (by omega)

theorem pulses_dataLow (n : Nat) : pulses n (List.replicate n .dataLow) = some false := by
  induction n with
  | zero => rfl
  | succ n ih => rw [List.replicate_succ]; exact ih

/-- The procedure fails where it sees the data line low ten times, or the clock held low before that. -/
theorem recover_fails {obs : List LineObs}
    (fails : obs = List.replicate 10 .dataLow ∨ ∃ k rest, k ≤ 9 ∧ obs = List.replicate k .dataLow ++ .clockLow :: rest) :
    recover obs = some false := by
  rcases fails with rfl | ⟨k, rest, hk, rfl⟩
  · exact pulses_dataLow 9
  · cases k with
    | zero => rfl
    | succ k => rw [List.replicate_succ, List.cons_append]; exact pulses_clockLow 9 k rest (by omega)

/-! ## The events under a pending DISABLE -/

section Pending

variable {s : State} {g : Seg} {c d : Current} {owner : Option (Port × Tag)} {pre post : List HostTx} {t : HostTx} {o : Outcome}

theorem State.exec_disableComplete (pend : (s.seg g).pendcmd = some ⟨.disable, owner⟩) (ev : BusEvent) :
    exec (.disableComplete g ev) s = .next (s.busEvent g ev) := by
  show Host.Outcome.next _ = _
  simp [pend]

/-- Only what the end of a transfer leaves of the segment counts, not the transfer itself. -/
theorem State.endTransfer_setCurrent (s : State) (g : Seg) (x : Option Current) (d : Current) (o : Outcome) :
    (s.setSeg g { s.seg g with current := x }).endTransfer g d o = s.endTransfer g d o := by
  have same : (s.setSeg g { s.seg g with current := x }).freed g o = s.freed g o := by simp [State.freed]
  rw [State.endTransfer_eq, same, State.endTransfer_eq]

/-- A host transaction that ends OK while a DISABLE is pending does not hold: a chained one sets CHAINBRK, unless its port has been reset (04 R74,
05 R108). -/
theorem HostOnBus.endTransfer_disable_ok (hb : HostOnBus s g c pre t post) (hk : d.kind = .host)
    (pend : (s.seg g).pendcmd = some ⟨.disable, owner⟩) (ok : (s.entry t.handle).EndsOk) : s.endTransfer g d .ok =
      (((s.setSeg g ((s.seg g).without (pre ++ post) .stop)).report t.handle .ok).txEnds t d (t.chain && !t.orphan) .ok
        (d.followOn && 0 < d.lost) (txResult t.kind (writtenOf d.plan d.acked) d.rx)).goOff g true owner := by
  by_cases holds : t.chain = true ∧ t.orphan = false
  · have barred : s.holdBarred g t d = true := (s.holdBarred_iff ..).2 (.inl ⟨_, pend, rfl⟩)
    rw [State.endTransfer_disable ((SegBlind.report t.handle .ok).comp (SegBlind.txEnds ..))
      (hb.deliver_barred hk ok holds.1 holds.2 barred) pend, holds.1, holds.2]
    rfl
  · have plain : t.chain = true → t.orphan = true := by simpa using holds
    have released : (t.chain && !t.orphan) = false := by simpa using plain
    rw [hb.endTransfer_disable hk pend ok (fun hc _ => plain hc), released]
    simp [Outcome.status, Outcome.lines, Current.reportedWritten, Current.reportedRead]

end Pending

/-- Settles O55: under a pending DISABLE the plain events and DISABLE_COMPLETE are the same event of the bus; the outcome is told without a hold, and the
segment goes OFF. -/
theorem transfersEndBeforeDisable : Obligations.TransfersEndBeforeDisable := by
  refine ⟨fun s g c pre t post owner hb pend ok => ?_, fun s g c h pl a owner rx on hk he pend hs hpl fetch ha hstep hplan counted => ?_,
    fun s g c owner active current pend => ?_⟩
  · intro e n left off good bad
    have told : ∀ (r : Segment) (o : Outcome) (d : Current) (chained : Bool) (st : Status) (br : Bool) (result : List Byte), d.plan = c.plan →
        (((s.setSeg g r).report t.handle o).txEnds t d chained st br result).goOff g true owner =
          off ((s.setSeg g r).report t.handle o) d.acked chained st br result := by
      intro r o d chained st br result hd
      rw [State.txEnds_reported ((s.setSeg g r).reported_report t.handle o), hd]
      rfl
    have event := State.exec_disableComplete pend
    refine ⟨fun rx => ?_, fun k hk => ?_, fun k hk => ?_, fun k rx hk hl hrx => ?_, fun hz obs fails => ?_⟩
    · rw [event, hb.bus.busEvent_ended, State.transferEnds_done,
        hb.endTransfer_disable_ok (d := c.at n (receivedAll c.plan rx)) hb.kind pend ok]
      exact congrArg Host.Outcome.next (told _ .ok (c.at n _) _ _ _ _ rfl)
    · rw [event, hb.bus.busEvent_ended, State.transferEnds_data s g hk,
        hb.endTransfer_disable (o := .dataNack) (d := c.at k []) hb.kind pend ok (by simp)]
      exact congrArg Host.Outcome.next (told _ .dataNack (c.at k []) _ _ _ _ rfl)
    · rw [event, hb.bus.busEvent_ended, State.transferEnds_addr s g hk,
        hb.endTransfer_disable (o := .addrNack) (d := c.at k []) hb.kind pend ok (by simp)]
      exact congrArg Host.Outcome.next (told _ .addrNack (c.at k []) _ _ _ _ rfl)
    · rw [event, hb.bus.busEvent_clockTimeout, Current.advance_eq hk hl hrx,
        hb.endTransfer_disable (o := .clockTimeout) (d := c.at k rx) hb.kind pend ok (by simp)]
      exact congrArg Host.Outcome.next (told _ .clockTimeout (c.at k rx) _ _ _ _ rfl)
    · rw [State.exec_disableComplete (owner := owner) (by simpa using pend)]
      have ends : (s.setSeg g { s.seg g with current := some { c with recovering := true } }).busEvent g (.recovery obs) =
          s.endTransfer g { c with recovering := true } .busStuck := by
        rw [← State.endTransfer_setCurrent s g (some { c with recovering := true })]
        simp [State.busEvent, State.innerRecovery, recover_fails fails, hb.bus.active]
      rw [ends, hb.endTransfer_disable (o := .busStuck) (d := { c with recovering := true }) hb.kind pend ok (by simp)]
      refine congrArg Host.Outcome.next ((told _ .busStuck { c with recovering := true } _ _ _ _ rfl).trans ?_)
      rw [State.report_none rfl rfl]
      show off _ c.acked false .busStuck false (txResult t.kind 0 []) = _
      rw [hz]
      rfl
  · have next := State.admissionNext_fetch (u := s.freed g .ok) (h := h) hstep (by simp [Entry.dmode, hpl, fetch]) (by simpa using counted)
      (receivedAll c.plan rx)
    rw [State.exec_disableComplete pend, on.busEvent_ended, State.transferEnds_done, State.endTransfer_disable (SegBlind.setEntry h _)
      ((State.deliver_admission (d := c.at _ (receivedAll c.plan rx)) hk he hs ha hplan).trans next) pend, State.entry_freed]
    rfl
  · have event := State.exec_disableComplete pend
    refine ⟨fun hk e => ?_, fun pr => ⟨(event _).symm, (event _).symm⟩, fun obs => ?_, ?_⟩
    · rw [event]
      exact congrArg Host.Outcome.next (by simp [State.endOfKind, current, hk])
    · rw [event]
      exact congrArg Host.Outcome.next (by simp [State.recoveryEnd, active])
    · rw [event]
      exact congrArg Host.Outcome.next (by simp [State.busBusy, State.busEvent, active, current])

end Sys2Proof.Machine
end

