-- ==== Sys2Proof/Proofs/SweepEnds.lean ====
section
/-! PROOFS. How a sweep read ends, and how a sweep without a candidate ends (08 R143, R145 to R147). -/

namespace Sys2Proof.Machine

/-! ## A sweep read -/

theorem SegBlind.postWhere (who : Port → Bool) (k : NoticeKind) (sub : Subject) (d : Byte) : SegBlind (fun u => u.postWhere who k sub d) :=
  ⟨by simp, by simp⟩

/-- The segment whose sweep read has left the bus: READS and CURSOR count it, and HITS is as given (08 R145, R146). -/
def Segment.afterRead (r : Segment) (h : Handle) (lines : LineEnd) (hits : Nat) : Segment :=
  { r with current := none, lines := lines, sweep := { r.sweep with hits := hits, reads := r.sweep.reads + 1, cursor := some (h.val + 1) } }

/-- Neither the kind of the report nor the report itself decides whether the entry asks. -/
theorem Entry.Reported.asks_eq {e f : Entry} (r : e.Reported f) (b : Byte) : f.asks b = e.asks b := by
  obtain ⟨desc, -⟩ := r.fields
  have retiring : (f.state != .retiring) = (e.state != .retiring) := by
    rw [Bool.eq_iff_iff, bne_iff_ne, bne_iff_ne, ne_eq, ne_eq, r.retiring_iff]
  rw [Entry.asks, Entry.asks, desc, retiring]

section SweepRead

variable {s : State} {g : Seg} {c d : Current} {h : Handle} {o : Outcome}

/-- A sweep read that the sweep counts, and whose byte asks for nothing. -/
theorem State.deliver_sweep (hk : d.kind = .sweep) (he : d.entry = some h) (sweeping : (s.seg g).sweep.state = .sweeping)
    (ok : (s.entry h).EndsOk) (ho : o ≠ .busStuck ∧ o ≠ .aborted) (silent : o = .ok → (s.entry h).asks (d.rx.getD 0 0) = false) :
    (s.freed g o).deliver g d o = ((s.setSeg g ((s.seg g).afterRead h o.lines (s.seg g).sweep.hits)).report h o).workEnds h := by
  have swept : ((s.freed g o).seg g).sweep.state = .sweeping := by simpa [State.freed] using sweeping
  have counted : ((s.freed g o).report h o).modSeg g (fun r => r.passRead h) =
      (s.setSeg g ((s.seg g).afterRead h o.lines (s.seg g).sweep.hits)).report h o := by
    simp [State.modSeg_eq, State.freed, Segment.passRead, Segment.afterRead]
  have last := ((s.setSeg g ((s.seg g).afterRead h o.lines (s.seg g).sweep.hits)).reported_report h o).endsOk (by simpa using ok)
  have quiet : o = .ok → (((s.freed g o).report h o).entry h).asks (d.rx.getD 0 0) = false := by
    intro hok
    rw [((s.freed g o).reported_report h o).asks_eq, State.entry_freed, silent hok]
  rw [State.deliver, hk, ← State.fall_eq _ _ last, ← counted]
  simp only [he, State.endSweepRead, State.seg_report, swept, if_true]
  cases o with
  | ok => simp only [State.judgeByte, quiet rfl, Bool.false_eq_true, if_false]
  | busStuck => exact absurd rfl ho.1
  | aborted => exact absurd rfl ho.2
  | addrNack | dataNack | clockTimeout | arbLost | busBusy => rfl

/-- A byte read OK that asks: HITS rises, and ATTENTION is posted (08 R145). -/
theorem State.deliver_sweep_hit (hk : d.kind = .sweep) (he : d.entry = some h) (sweeping : (s.seg g).sweep.state = .sweeping)
    (ok : (s.entry h).EndsOk) (asks : (s.entry h).asks (d.rx.getD 0 0) = true) :
    (s.freed g .ok).deliver g d .ok = (((s.setSeg g ((s.seg g).afterRead h .stop ((s.seg g).sweep.hits + 1))).successReport h).postWhere
      (fun q => ((s.entry h).subs q).attention) .attention (.entry h (s.entry h).gen) (d.rx.getD 0 0)).workEnds h := by
  have swept : ((s.freed g .ok).seg g).sweep.state = .sweeping := by simpa [State.freed] using sweeping
  have rep : ((s.freed g .ok).entry h).Reported (((s.freed g .ok).successReport h).entry h) := State.reported_successReport ..
  obtain ⟨-, -, gen, -, subs, -⟩ := rep.fields
  have asked := rep.asks_eq (d.rx.getD 0 0)
  rw [State.entry_freed, asks] at asked
  rw [State.entry_freed] at gen subs
  have last : ((((s.setSeg g ((s.seg g).afterRead h .stop ((s.seg g).sweep.hits + 1))).successReport h).postWhere
      (fun q => ((s.entry h).subs q).attention) .attention (.entry h (s.entry h).gen) (d.rx.getD 0 0)).entry h).EndsOk := by
    rw [State.entry_postWhere]
    exact (State.reported_successReport _ h).endsOk (by simpa using ok)
  rw [State.deliver, hk, ← State.fall_eq _ _ last]
  simp only [he, State.endSweepRead, State.report_success (o := .ok) rfl, State.seg_successReport, swept, if_true, State.judgeByte, asked,
    State.subject, gen, subs]
  simp [State.modSeg_eq, State.freed, Segment.passRead, Segment.afterRead, Outcome.lines]

/-- The end of a sweep read with nothing to tell: the segment is IDLE and the arbiter chooses. -/
theorem State.endTransfer_sweep (hk : d.kind = .sweep) (he : d.entry = some h) (sweeping : (s.seg g).sweep.state = .sweeping)
    (ok : (s.entry h).EndsOk) (pend : (s.seg g).pendcmd = none) (free : (s.seg g).hold = none)
    (ho : o ≠ .busStuck ∧ o ≠ .aborted ∧ o ≠ .clockTimeout) (silent : o = .ok → (s.entry h).asks (d.rx.getD 0 0) = false) :
    s.endTransfer g d o = (((s.setSeg g { (s.seg g).afterRead h o.lines (s.seg g).sweep.hits with state := .idle }).report h o).workEnds
      h).choose g := by
  obtain ⟨hb, ha, hc⟩ := ho
  exact State.endTransfer_idle ((SegBlind.report h o).comp (SegBlind.workEnds h))
    (State.deliver_sweep hk he sweeping ok ⟨hb, ha⟩ silent) pend free ⟨hc, hb⟩

end SweepRead

/-! ## A sweep without a candidate -/

/-- The segment whose sweep has reached its end (08 R147). -/
def Segment.sweepOver (r : Segment) : Segment :=
  { r with sweep := if r.sattn = true then { r.sweep with state := .disarmed, cursor := none, rearmleft := r.config.rearm }
    else { r.sweep with state := .idle, cursor := none, rearmleft := 0 } }

theorem Segment.sweepOver_state (r : Segment) : r.sweepOver.sweep.state ≠ .sweeping := by
  unfold Segment.sweepOver; split <;> simp

theorem State.endSweep_hits {s : State} {g : Seg} (hits : (s.seg g).sweep.hits ≠ 0) : s.endSweep g = s.setSeg g (s.seg g).sweepOver := by
  simp [State.endSweep, hits, State.modSeg_eq, Segment.sweepOver]

theorem State.endSweep_orphan {s : State} {g : Seg} (hits : (s.seg g).sweep.hits = 0) : s.endSweep g =
    (s.setSeg g (s.seg g).sweepOver).postWhere (fun q => (s.port q).segMasks[g.val].attention) .orphanAttention (.segment g)
      (byte (s.seg g).sweep.reads) := by
  simp [State.endSweep, hits, State.modSeg_eq, Segment.sweepOver]

theorem State.seg_endSweep (s : State) (g : Seg) : (s.endSweep g).seg g = (s.seg g).sweepOver := by
  by_cases hits : (s.seg g).sweep.hits = 0
  · simp [State.endSweep_orphan hits]
  · simp [State.endSweep_hits hits]

/-- A choice on an IDLE segment whose sweep has no candidate is the end of the sweep and the choice after it (08 R143). -/
theorem State.choose_endSweep {s : State} {g : Seg} (idle : (s.seg g).state = .idle) (sweeping : (s.seg g).sweep.state = .sweeping)
    (spent : s.candidate g = none) : s.choose g = (s.endSweep g).choose g := by
  have before : s.lookSweep g = s.endSweep g := by simp [State.lookSweep, sweeping, spent]
  have after : (s.endSweep g).lookSweep g = s.endSweep g := by
    simp [State.lookSweep, State.seg_endSweep, Segment.sweepOver_state]
  have queue : ((s.endSweep g).seg g).hostq = (s.seg g).hostq := by rw [State.seg_endSweep]; rfl
  have still : ((s.endSweep g).seg g).state = .idle := by rw [State.seg_endSweep]; exact idle
  rw [State.choose, State.choose, queue]
  simp only [State.arbitrate, idle, still, before, after]

/-- Settles O60: the read counts with its report, a byte that the entry asks for is a hit, and a sweep with no candidate ends before the choice. -/
theorem sweepReadJudged : Obligations.SweepReadJudged := by
  refine ⟨fun s g c h on hk he pend sweeping ok one => ?_, fun s g idle sweeping spent => ⟨fun orphan => ?_, fun hit => ?_⟩⟩
  · intro e left hits
    have received : ∀ b : Byte, (receivedAll c.plan [b]).getD 0 0 = b := by
      intro b; simp [receivedAll, one]
    have ends : ∀ x, exec (.sweepReadEnd g x) s = .next (s.transferEnds g c x) := by
      intro x
      have reach := on.exec_ends x
      rw [hk] at reach
      exact reach
    refine ⟨fun b => ⟨fun quiet => ?_, fun bits used => ?_⟩, fun k hk' => ?_, fun k hk' => ?_, fun pr => ?_, fun pr lt last => ?_, fun hr => ?_⟩
    · have silent : e.asks b = false := by
        rcases quiet with hq | hq <;> simp [Entry.asks, hq]
      rw [ends, State.transferEnds_done, State.endTransfer_sweep (o := .ok) (d := c.at _ (receivedAll c.plan [b])) hk he sweeping ok pend
        on.hold (by decide) (fun _ => by rw [Current.at, received]; exact silent)]
      rfl
    · have asks : e.asks b = true := by simpa [Entry.asks, used] using bits
      rw [ends, State.transferEnds_done, State.endTransfer_idle (((SegBlind.report h .ok).comp (SegBlind.postWhere ..)).comp
        (SegBlind.workEnds h)) (State.deliver_sweep_hit (d := c.at _ (receivedAll c.plan [b])) hk he sweeping ok
          (by rw [Current.at, received]; exact asks)) pend on.hold (by decide)]
      simp only [Current.at, received]
      rfl
    · rw [ends, State.transferEnds_data s g hk', State.endTransfer_sweep (o := .dataNack) (d := c.at k []) hk he sweeping ok pend on.hold
        (by decide) (by simp)]
      rfl
    · rw [ends, State.transferEnds_addr s g hk', State.endTransfer_sweep (o := .addrNack) (d := c.at k []) hk he sweeping ok pend on.hold
        (by decide) (by simp)]
      rfl
    · rw [on.exec_clockTimeout, State.endTransfer_clockTimeout ((SegBlind.report h .clockTimeout).comp (SegBlind.workEnds h))
        (State.deliver_sweep (d := c.advance pr) hk he sweeping ok (by decide) (by simp)) pend]
      rfl
    · rw [on.exec_arbLost, State.losesArbitration_last s g lt last, State.endTransfer_sweep (o := .arbLost) (d := c.advance pr) hk he sweeping
        ok pend on.hold (by decide) (by simp)]
      rfl
    · rw [on.exec_busBusy, State.waitsTooLong_ends s g hr, State.endTransfer_sweep (o := .busBusy) hk he sweeping ok pend on.hold (by decide)
        (by simp)]
      rfl
  · exact congrArg Host.Outcome.next ((State.choose_endSweep idle sweeping spent).trans (by rw [State.endSweep_orphan orphan]; rfl))
  · exact congrArg Host.Outcome.next ((State.choose_endSweep idle sweeping spent).trans (by rw [State.endSweep_hits hit]; rfl))

end Sys2Proof.Machine
end

