-- ==== Sys2Proof/Proofs/GoneWork.lean ====
section
/-! PROOFS. Transfers whose work has ended since (01 R14, 06 R127, 07 R139, R140): their end is the report alone, on the wire and where a SEGMENT_RESET or a
failed recovery cuts them. -/

namespace Sys2Proof.Machine

/-! ## The fall of INFLIGHT and the answers leave the segments -/

@[simp] theorem State.seg_dropClaims (s : State) (h : Handle) (o : Option Port) (g : Seg) : (s.dropClaims h o).seg g = s.seg g := by
  simp [State.dropClaims_eq]

@[simp] theorem State.seg_completeRetire (s : State) (h : Handle) (g : Seg) : (s.completeRetire h).seg g = s.seg g := by
  simp [State.completeRetire, State.enterVacant]

@[simp] theorem State.seg_fall (s : State) (h : Handle) (g : Seg) : (s.fall h).seg g = s.seg g := by
  simp only [State.fall]
  split <;> simp

@[simp] theorem State.seg_answerTx (s : State) (t : HostTx) (st : Status) (n : Nat) (rx : List Byte) (b : Bool) (g : Seg) :
    (s.answerTx t st n rx b).seg g = s.seg g := by
  simp [State.answerTx_eq]

/-! ## HOSTQ completes, and first admissions fail, around an entry -/

section Around

variable {s : State} {g : Seg} {h : Handle}

theorem State.foldl_frame {α β : Type} {f : State → α → State} {view : State → β} {l : List α}
    (hf : ∀ u, ∀ a ∈ l, view (f u a) = view u) (s : State) : view (l.foldl f s) = view s := by
  induction l generalizing s with
  | nil => rfl
  | cons a l ih =>
    rw [List.foldl_cons, ih fun u b hb => hf u b (List.mem_cons_of_mem _ hb)]
    exact hf s a List.mem_cons_self

/-- An entry that no transaction in HOSTQ names is left when HOSTQ completes. -/
theorem State.entry_completeAll (free : ∀ t ∈ (s.seg g).hostq, t.handle ≠ h) (st : Status) : (s.completeAll g st).entry h = s.entry h := by
  rw [State.completeAll, State.foldl_frame (view := fun u => u.entry h), State.entry_modSeg]
  intro u t ht
  simp [(free t ht).symm]

@[simp] theorem State.seg_completeAll (s : State) (g : Seg) (st : Status) : (s.completeAll g st).seg g = { s.seg g with hostq := [] } := by
  rw [State.completeAll, State.foldl_frame (view := fun u => u.seg g)]
  · simp [State.modSeg_eq]
  · intro u t _; simp

theorem mem_arrange {α : Type} {x : α} {ns : List Nat} {l : List α} (hx : x ∈ arrange ns l) : x ∈ l := by
  induction ns generalizing l with
  | nil => cases l <;> exact hx
  | cons n ns ih =>
    cases l with
    | nil => exact hx
    | cons y ys =>
      simp only [arrange] at hx
      split at hx
      · next z hz =>
        rcases List.mem_cons.1 hx with rfl | hx
        · exact List.mem_of_getElem? hz
        · exact List.mem_of_mem_eraseIdx (ih hx)
      · exact hx

theorem State.mem_anyOrder {α : Type} {s : State} {x : α} {l : List α} (hx : x ∈ (s.anyOrder l).1) : x ∈ l := by
  unfold State.anyOrder at hx
  split at hx
  · exact hx
  · exact mem_arrange hx

/-- Effects on other entries, in any order, leave an entry. -/
theorem State.entry_forAnyOrder {l : List Handle} {f : State → Handle → State} (hf : ∀ u, ∀ k ∈ l, (f u k).entry h = u.entry h) (s : State) :
    (s.forAnyOrder l f).entry h = s.entry h := by
  rw [State.forAnyOrder, State.foldl_frame (view := fun u => u.entry h), State.entry_anyOrder]
  exact fun u k hk => hf u k (State.mem_anyOrder hk)

/-- An entry without host transactions and not under a first admission there is left where a segment becomes STUCK. -/
theorem State.entry_becomeStuck (free : ∀ t ∈ (s.seg g).hostq, t.handle ≠ h) (admitted : (s.entry h).admits g .first = false) (cause : Byte) :
    (s.becomeStuck g cause).entry h = s.entry h := by
  unfold State.becomeStuck
  have before : ((((s.modSeg g (fun r => { r with state := .stuck, current := none, lines := .released })).completeAll g .busStuck).answerSurvey
      g .busStuck).modSeg g Segment.stickSweep).entry h = s.entry h := by
    rw [State.entry_modSeg, State.entry_answerSurvey, State.entry_completeAll (by simpa [State.modSeg_eq] using free), State.entry_modSeg]
  rw [State.entry_postWhere, State.entry_forAnyOrder, before]
  intro u k hk
  rw [State.entry_failFirst, if_neg]
  rintro rfl
  have hadm := (List.mem_filter.1 hk).2
  rw [before, admitted] at hadm
  cases hadm

end Around

/-! ## The end of a transfer whose work is gone -/

section Gone

variable {s u w : State} {g : Seg} {c d : Current} {h : Handle} {o : Outcome}

/-- Whatever the outcome, the transfer ends with its report and the fall of INFLIGHT. -/
theorem State.deliver_workGone (he : d.entry = some h) (gone : WorkGone u g d (u.entry h)) (ok : (u.entry h).EndsOk) (o : Outcome) :
    u.deliver g d o = (u.report h o).workEnds h := by
  have rep := u.reported_report h o
  rw [← State.fall_eq _ _ (rep.endsOk ok), State.deliver]
  rcases gone with ⟨hk, hadm⟩ | ⟨hk, hw⟩ | ⟨hk, hs⟩
  · have none := rep.adm_eq.trans hadm
    simp only [hk, he, State.endAdmissionTransfer, none]
  · simp only [hk, he, State.endWatchProbe]
    cases hv : (u.entry h).watch with
    | none => rfl
    | some v => simp [hw v hv]
  · simp only [hk, he, State.endSurveyProbe_eq, State.reportNamed, State.fallNamed]
    cases hv : (u.seg g).survey with
    | none => rfl
    | some v => simp [hs v hv]

/-- A survey probe of no listed entry, of a survey that is gone, ends with nothing. -/
theorem State.deliver_surveyGone (he : d.entry = none) (hk : d.kind = .survey) (gone : ∀ cu ∈ (u.seg g).survey, cu.probe ≠ .active)
    (o : Outcome) : u.deliver g d o = u := by
  simp only [State.deliver, hk, he, State.endSurveyProbe_eq, State.reportNamed, State.fallNamed]
  cases hv : (u.seg g).survey with
  | none => rfl
  | some v => simp [gone v hv]

theorem WorkGone.of_kind (gone : WorkGone s g c (s.entry h)) (hk : d.kind = c.kind) (hs : (u.seg g).survey = (s.seg g).survey)
    (he : u.entry h = s.entry h) : WorkGone u g d (u.entry h) := by
  rw [WorkGone, hk, hs, he]
  exact gone

@[simp] theorem State.seg_freed (s : State) (g : Seg) (o : Outcome) :
    (s.freed g o).seg g = { s.seg g with current := none, lines := o.lines } := by
  simp [State.freed]

/-- The segment of a transfer that is told as `D` is IDLE or RECOVERING, by the fault (04 R85 to R88). -/
theorem OnBus.faultsEnd {D : Outcome → State → State} (on : OnBus s g c) (pend : (s.seg g).pendcmd = none) (blind : ∀ o, SegBlind (D o))
    (told : ∀ d : Current, d.kind = c.kind → d.entry = c.entry → ∀ o, (s.freed g o).deliver g d o = D o (s.freed g o))
    {f : Status → State → State} (lost : f .arbLost = D .arbLost) (busy : f .busBusy = D .busBusy) (clock : f .clockTimeout = D .clockTimeout) :
    FaultsEnd s g c f where
  arbLost pr lt last := by
    rw [on.exec_arbLost, State.losesArbitration_last s g lt last, lost,
      State.endTransfer_idle (blind .arbLost) (told (c.advance pr) rfl rfl .arbLost) pend on.hold (by decide)]
    rfl
  busBusy hr := by
    rw [on.exec_busBusy, State.waitsTooLong_ends s g hr, busy,
      State.endTransfer_idle (blind .busBusy) (told c rfl rfl .busBusy) pend on.hold (by decide)]
    rfl
  clockTimeout pr := by
    rw [on.exec_clockTimeout, clock,
      State.endTransfer_clockTimeout (blind .clockTimeout) (told (c.advance pr) rfl rfl .clockTimeout) pend]
    rfl

/-! ## A transfer whose work is gone is cut -/

@[simp] theorem PortRec.respq_offer (pr : PortRec) (k : NoticeKind) (sub : Subject) (d : Byte) : (pr.offer k sub d).respq = pr.respq := by
  unfold PortRec.offer
  split_ifs <;> rfl

theorem Told.mem_respq {a b : PortRec} (told : Told a b) {r : Response} (hr : r ∈ a.respq) : r ∈ b.respq := by
  induction told with
  | refl => exact hr
  | response x _ ih => exact List.mem_append_left _ ih
  | notice k sub d _ ih => rw [PortRec.respq_offer]; exact ih

theorem Quiet.mem_answers (quiet : Quiet s u) (q : Port) {x : Tag × Status × List Byte} (hx : x ∈ s.answers q) : x ∈ u.answers q := by
  obtain ⟨r, hr, rfl⟩ := List.mem_map.1 hx
  exact List.mem_map_of_mem ((quiet.told q).mem_respq hr)

/-- The last work of a RETIRING entry answers the RETIRE. -/
theorem State.mem_answers_workEnds (last : (s.entry h).state = .retiring ∧ (s.entry h).inflight ≤ 1) (q : Port) {x : Tag × Status × List Byte}
    (hx : x ∈ ownerAnswers q .ok [] (s.entry h).retire) : x ∈ (s.workEnds h).answers q := by
  simp only [State.workEnds, last, and_self, if_true]
  cases hr : (s.entry h).retire with
  | none => simp [ownerAnswers, hr] at hx
  | some owner =>
    obtain ⟨p, t⟩ := owner
    simp only [ownerAnswers, hr, Option.toList_some, List.mem_map, List.mem_filter, List.mem_singleton, beq_iff_eq] at hx
    obtain ⟨_, ⟨rfl, rfl⟩, rfl⟩ := hx
    simp [State.respondTo, State.respond_eq, State.answers]

/-- What is left of the entry after its work has ended somewhere on the way from `s` to `u`. -/
theorem State.gone_of (same : w.entry h = s.entry h) (kept : u.entry h = (w.workEnds h).entry h) (quiet : Quiet (w.workEnds h) u) :
    u.entry h = (s.workEnds h).entry h ∧ ((s.entry h).state = .retiring → (s.entry h).inflight ≤ 1 →
      ∀ q, ∀ x ∈ ownerAnswers q .ok [] (s.entry h).retire, x ∈ u.answers q) := by
  refine ⟨?_, fun retiring last q x hx => quiet.mem_answers q ?_⟩
  · rw [kept, State.entry_workEnds_self, State.entry_workEnds_self, same]
  · rw [← same] at retiring last hx
    exact State.mem_answers_workEnds ⟨retiring, last⟩ q hx

/-- The parts of a segment reset after the transfer has been cut and the survey's probe has ended (04 R75). -/
def State.resetRest (s : State) (g : Seg) (owner : Port × Tag) : State :=
  (((s.answerSurvey g .aborted).modSeg g Segment.armSweep).dropHold g .released true).modSeg g (fun r => r.beginReset owner)

theorem Quiet.resetRest (s : State) (g : Seg) (owner : Port × Tag) : Quiet s (s.resetRest g owner) :=
  (((Quiet.answerSurvey ..).trans (.modSeg ..)).trans (.dropHold ..)).trans (.modSeg ..)

theorem State.hold_answerSurvey (s : State) (g : Seg) (st : Status) : ((s.answerSurvey g st).seg g).hold = (s.seg g).hold := by
  unfold State.answerSurvey
  split <;> simp [State.modSeg_eq]

theorem State.entry_resetRest (free : (s.seg g).hold = none) (owner : Port × Tag) : (s.resetRest g owner).entry h = s.entry h := by
  have none : ((((s.answerSurvey g .aborted).modSeg g Segment.armSweep)).seg g).hold = none := by
    simpa [State.modSeg_eq, Segment.armSweep, State.hold_answerSurvey] using free
  rw [State.resetRest, State.entry_modSeg, State.dropHold, none]
  simp

/-- A SEGMENT_RESET cuts a transfer whose work is gone: the work ends on the way. -/
theorem State.resetSegment_gone (current : (s.seg g).current = some c) (free : (s.seg g).hold = none) (he : c.entry = some h)
    (ok : (s.entry h).EndsOk) (gone : WorkGone s g c (s.entry h)) (alone : ∀ t ∈ (s.seg g).hostq, t.handle ≠ h) (p : Port) (t : Tag)
    (pr : Progress) : ∃ w : State, w.entry h = s.entry h ∧ (s.resetSegment p t g pr).entry h = (w.workEnds h).entry h ∧
      Quiet (w.workEnds h) (s.resetSegment p t g pr) := by
  have cut : (s.seg g).current.map (fun x => x.advance pr) = some (c.advance pr) := by rw [current]; rfl
  set off := s.modSeg g (fun r => { r with current := none }) with hoff
  have off_seg : off.seg g = { s.seg g with current := none } := by simp [hoff, State.modSeg_eq]
  have off_entry : off.entry h = s.entry h := by simp [hoff]
  have apart : ∀ v : State, (v.seg g).hostq = (s.seg g).hostq → ∀ st, (v.completeAll g st).entry h = v.entry h := by
    intro v hq st
    exact State.entry_completeAll (by rw [hq]; exact alone) st
  by_cases hk : c.kind = .survey
  · set w := off.completeAll g .segmentReset with hw
    have w_entry : w.entry h = s.entry h := (apart off (by rw [off_seg]) _).trans off_entry
    have w_seg : w.seg g = { s.seg g with current := none, hostq := [] } := by rw [hw, State.seg_completeAll, off_seg]
    have ends : w.deliver g (c.advance pr) .aborted = w.workEnds h :=
      State.deliver_workGone (d := c.advance pr) he (gone.of_kind rfl (by rw [w_seg]) w_entry) (by rw [w_entry]; exact ok) .aborted
    have path : s.resetSegment p t g pr = (w.workEnds h).resetRest g (p, t) := by
      have hk' : (c.advance pr).kind = .survey := hk
      rw [← ends]
      simp only [State.resetSegment, cut, State.cutTransfer, hk', State.cutSurvey, State.cutSweep, if_true, reduceCtorEq, if_false,
        State.resetRest]
      rfl
    refine ⟨w, w_entry, ?_, ?_⟩ <;> rw [path]
    · exact State.entry_resetRest (by rw [State.seg_workEnds, w_seg]; exact free) _
    · exact .resetRest ..
  · have ends : off.deliver g (c.advance pr) .aborted = off.workEnds h :=
      State.deliver_workGone (d := c.advance pr) he (gone.of_kind rfl (by rw [off_seg]) off_entry) (by rw [off_entry]; exact ok) .aborted
    have path : s.resetSegment p t g pr = ((off.workEnds h).completeAll g .segmentReset).resetRest g (p, t) := by
      rw [← ends]
      rcases gone with ⟨hk', -⟩ | ⟨hk', -⟩ | ⟨hk', -⟩
      · replace hk' : (c.advance pr).kind = .admission := hk'
        simp only [State.resetSegment, cut, State.cutTransfer, hk', State.cutSurvey, State.cutSweep, reduceCtorEq, if_false,
          State.resetRest]
        rfl
      · replace hk' : (c.advance pr).kind = .watch := hk'
        simp only [State.resetSegment, cut, State.cutTransfer, hk', State.cutSurvey, State.cutSweep, reduceCtorEq, if_false,
          State.resetRest]
        rfl
      · exact absurd hk' hk
    have queue : ((off.workEnds h).seg g).hostq = (s.seg g).hostq := by rw [State.seg_workEnds, off_seg]
    refine ⟨off, off_entry, ?_, ?_⟩ <;> rw [path]
    · rw [State.entry_resetRest (by rw [State.seg_completeAll, State.seg_workEnds, off_seg]; exact free), apart _ queue]
    · exact (Quiet.completeAll ..).trans (.resetRest ..)

theorem Entry.admits_first_iff {e : Entry} : e.admits g .first = true ↔ e.firstOn g := by
  simp [Entry.admits, Entry.firstOn, Option.any_eq_true, and_assoc]

/-- The end of a work begins no first admission. -/
theorem State.admits_workEnds (out : ¬(s.entry h).firstOn g) : ((s.workEnds h).entry h).admits g .first = false := by
  rw [State.entry_workEnds_self]
  split
  · rfl
  · rw [← Bool.not_eq_true, Entry.admits_first_iff]
    exact out

/-- A failed recovery within a transfer whose work is gone: the work ends, and the segment becomes STUCK. -/
theorem State.endTransfer_gone_stuck (pend : (s.seg g).pendcmd = none) (he : c.entry = some h) (ok : (s.entry h).EndsOk)
    (gone : WorkGone s g c (s.entry h)) :
    s.endTransfer g c .busStuck = ((s.freed g .busStuck).workEnds h).becomeStuck g stuckInTransfer := by
  have told : (s.freed g .busStuck).deliver g c .busStuck = (s.freed g .busStuck).workEnds h :=
    State.deliver_workGone he (gone.of_kind rfl (by simp) (by simp)) (by simpa using ok) .busStuck
  rw [State.endTransfer_eq, told]
  simp [State.afterTransfer, pend]

/-- A SEGMENT_RESET that is not refused (04 R75). -/
theorem exec_segmentReset_taken {p : Port} {t : Tag} (ready : Ready s p t) (on : (s.seg g).state ≠ .off) (pend : (s.seg g).pendcmd = none)
    (pr : Progress) : exec (.segmentReset p (byte t.val) [byte g.val] pr) s = .next ((s.accepted p t).resetSegment p t g pr) := by
  show Host.Outcome.next _ = _
  rw [State.submit_ready ready (by simp)]
  simp [State.orBadParam, State.answerReset, on, pend]

/-- The recovery within a transfer that sees the data line low ten times ends the transfer BUS_STUCK (04 R89). -/
theorem exec_recoveryEnd_fails (active : (s.seg g).state = .active) (current : (s.seg g).current = some c) (recovering : c.recovering = true) :
    exec (.recoveryEnd g (List.replicate 10 .dataLow)) s = .next (s.endTransfer g c .busStuck) := by
  show Host.Outcome.next _ = _
  simp [State.recoveryEnd, State.busEvent, State.innerRecovery, active, current, recovering, recover_fails]

end Gone

/-- Settles O52: the work's owner hears of such a transfer by its report alone; a SEGMENT_RESET or a failed recovery ends the work on its way. -/
theorem transfersOfEndedWorkReportAlone : Obligations.TransfersOfEndedWorkReportAlone := by
  refine ⟨fun s g c h on he pend ok gone => ?_, fun s g c on he hk pend gone => ?_, fun s g c h active current free he pend ok gone alone => ?_⟩
  · intro idle ends
    have blind : ∀ o, SegBlind (fun u => (u.report h o).workEnds h) := fun o => (SegBlind.report h o).comp (SegBlind.workEnds h)
    have told : ∀ d : Current, d.kind = c.kind → d.entry = c.entry → ∀ o,
        (s.freed g o).deliver g d o = ((s.freed g o).report h o).workEnds h := by
      intro d hk hd o
      exact State.deliver_workGone (hd.trans he) (gone.of_kind hk (by simp) (by simp)) (by simpa using ok) o
    have stops : ∀ (o : Outcome) (k : Nat) (rx : List Byte), o.lines = .stop → o ≠ .clockTimeout ∧ o ≠ .busStuck →
        s.endTransfer g (c.at k rx) o = ((idle.report h o).workEnds h).choose g := by
      intro o k rx hl ho
      rw [State.endTransfer_idle (blind o) (told (c.at k rx) rfl rfl o) pend on.hold ho, hl]
    refine ⟨fun rx => ?_, fun k hk => ?_, fun k hk => ?_, on.faultsEnd pend blind told rfl rfl rfl⟩
    · exact (on.exec_ends _).trans (by rw [State.transferEnds_done, stops .ok _ _ rfl (by decide)]; rfl)
    · exact (on.exec_ends _).trans (by rw [State.transferEnds_data s g hk, stops .dataNack _ _ rfl (by decide)]; rfl)
    · exact (on.exec_ends _).trans (by rw [State.transferEnds_addr s g hk, stops .addrNack _ _ rfl (by decide)]; rfl)
  · intro idle
    have told : ∀ d : Current, d.kind = c.kind → d.entry = c.entry → ∀ o, (s.freed g o).deliver g d o = s.freed g o := by
      intro d hd hd' o
      exact State.deliver_surveyGone (hd'.trans he) (hd.trans hk) (by simpa using gone) o
    have stops : ∀ (o : Outcome) (k : Nat) (rx : List Byte), o.lines = .stop → o ≠ .clockTimeout ∧ o ≠ .busStuck →
        s.endTransfer g (c.at k rx) o = idle.choose g := by
      intro o k rx hl ho
      rw [State.endTransfer_idle SegBlind.id (told (c.at k rx) rfl rfl o) pend on.hold ho, hl]
    have ends : ∀ e, exec (.surveyProbeEnd g e) s = .next (s.transferEnds g c e) := by
      intro e
      have reach := on.exec_ends e
      rw [hk] at reach
      exact reach
    refine ⟨fun rx => ?_, fun k lt => ?_, on.faultsEnd pend (D := fun _ u => u) (fun _ => SegBlind.id) told rfl rfl rfl⟩
    · rw [ends, State.transferEnds_done, stops .ok _ _ rfl (by decide)]
    · obtain ⟨b, hb⟩ : ∃ b, (sends c.plan)[k]? = some b := ⟨_, List.getElem?_eq_getElem lt⟩
      cases b with
      | addr => rw [ends, State.transferEnds_addr s g hb, stops .addrNack _ _ rfl (by decide)]
      | offset => rw [ends, State.transferEnds_data s g (.inl hb), stops .dataNack _ _ rfl (by decide)]
      | data => rw [ends, State.transferEnds_data s g (.inr hb), stops .dataNack _ _ rfl (by decide)]
  · intro left
    refine ⟨fun p t pr ready => ?_, fun recovering out => ?_⟩
    · obtain ⟨w, same, kept, quiet⟩ := State.resetSegment_gone (s := s.accepted p t) (by simpa using current) (by simpa using free) he
        (by simpa using ok) (gone.of_kind rfl (by simp) (by simp)) (by simpa using alone) p t pr
      exact ⟨_, exec_segmentReset_taken ready (by simp [active]) pend pr, State.gone_of (same.trans (by simp)) kept quiet⟩
    · have stuck := exec_recoveryEnd_fails active current recovering
      rw [State.endTransfer_gone_stuck pend he ok gone] at stuck
      refine ⟨_, stuck, State.gone_of (w := s.freed g .busStuck) (by simp) ?_ (.becomeStuck ..)⟩
      exact State.entry_becomeStuck (by simpa using alone) (State.admits_workEnds (by simpa using out)) _

end Sys2Proof.Machine
end

