-- ==== Sys2Proof/Proofs/Recheck.lean ====
section
/-! PROOFS. A picked transaction that fails the dispatch recheck completes without the bus, and the arbiter chooses again (04 R84, 05 R101). -/

namespace Sys2Proof.Machine

/-! ## What the arbiter looks at before a host transaction -/

section Looks

variable {s : State} {g : Seg}

theorem Entry.settling_iff {e : Entry} : e.settling = true ↔ e.settle ≠ 0 := by simp [Entry.settling, Nat.pos_iff_ne_zero]

theorem Entry.settling_eq_false {e : Entry} : e.settling = false ↔ e.settle = 0 := by simp [Entry.settling]

theorem State.lookSweep_of_noSweepRead (no : s.noSweepRead g) : s.lookSweep g = s := by
  rcases no with off | ⟨h, hc, -⟩
  · simp [State.lookSweep, off]
  · simp [State.lookSweep, hc]

theorem State.sweepOffer_of_noSweepRead (no : s.noSweepRead g) : s.sweepOffer g = none := by
  rcases no with off | ⟨h, hc, settling⟩
  · simp [State.sweepOffer, off]
  · simp [State.sweepOffer, hc, Option.filter, Entry.settling_iff.2 settling]

/-- Nothing of the background class may go. -/
theorem State.tryBackground_none (adm : s.noAdmission g) (watch : s.noWatchProbe g) (survey : ∀ c ∈ (s.seg g).survey, c.probe = .active) :
    s.tryBackground g = (s, false) := by
  have noAdm : s.pickAdmission g = none := by
    simp only [State.pickAdmission, List.find?_eq_none, Bool.and_eq_true, Bool.not_eq_true', not_and, Bool.not_eq_false, Entry.settling_iff]
    exact fun h _ hp => adm h hp.1 hp.2
  have noWatch : s.pickWatch g = none := by
    simp only [State.pickWatch, List.find?_eq_none, Bool.and_eq_true, Bool.not_eq_true', not_and, Bool.not_eq_false, Entry.settling_iff]
    exact fun h _ hp => watch h hp.1 hp.2
  rw [State.tryBackground, noAdm]
  dsimp only
  rw [noWatch]
  dsimp only
  unfold State.offerSurvey
  cases hv : (s.seg g).survey with
  | none => rfl
  | some c => simp [survey c hv]

end Looks

/-! ## The pick completes -/

section Completes

variable {s : State} {g : Seg} {pre post : List HostTx} {t : HostTx} {st : Status}

@[simp] theorem State.seg_completeAt (s : State) (g : Seg) (i : Nat) (t : HostTx) (st : Status) :
    (s.completeAt g i t st).seg g = { s.seg g with hostq := (s.seg g).hostq.eraseIdx i } := by
  simp [State.completeAt, State.modSeg_eq]

/-- The transaction leaves HOSTQ, is answered, and its work ends. -/
theorem State.completeAt_eq (queue : (s.seg g).hostq = pre ++ t :: post) (ok : (s.entry t.handle).EndsOk) :
    s.completeAt g pre.length t st = ((((s.setSeg g { s.seg g with hostq := pre ++ post }).setEntry t.handle
      ((s.entry t.handle).setChain t.port false)).give t
        ⟨t.tag, st, (s.entry t.handle).chain t.port, false, txResult t.kind 0 []⟩)).workEnds t.handle := by
  rw [State.completeAt, State.answerTx_eq, State.modSeg_eq, queue, eraseIdx_length_append, State.entry_setSeg, Bool.or_false, State.fall_eq]
  rw [State.entry_give, State.entry_setEntry_same]
  refine ok.of_same ?_ ?_ ?_ ?_ ?_ ?_ <;> cases t.port <;> rfl

theorem State.recheck_stale (hg : (s.entry t.handle).gen ≠ t.gen) : s.recheck t = some .stale := by
  simp [State.recheck, hg]

theorem State.recheck_state (hg : (s.entry t.handle).gen = t.gen) (hs : (s.entry t.handle).state.transferStatus = some st) :
    s.recheck t = some st := by
  simp [State.recheck, hg, hs]

theorem EntryState.transferStatus_live {x : EntryState} (live : x = .present ∨ x = .suspect) : x.transferStatus = none := by
  rcases live with rfl | rfl <;> rfl

theorem State.recheck_claimLost (hg : (s.entry t.handle).gen = t.gen)
    (live : (s.entry t.handle).state = .present ∨ (s.entry t.handle).state = .suspect)
    (barred : (s.entry t.handle).right t.port t.kind ≠ none) : s.recheck t = some .claimLost := by
  obtain ⟨st, hst⟩ := Option.ne_none_iff_exists'.1 barred
  simp [State.recheck, hg, EntryState.transferStatus_live live, hst]

theorem State.recheck_limits (hg : (s.entry t.handle).gen = t.gen)
    (live : (s.entry t.handle).state = .present ∨ (s.entry t.handle).state = .suspect)
    (free : (s.entry t.handle).right t.port t.kind = none) :
    s.recheck t = (s.entry t.handle).desc.limits t.wdata.length t.rlen t.chain := by
  simp [State.recheck, hg, EntryState.transferStatus_live live, free]

/-- The pick that fails its recheck completes and the arbiter chooses again, with one transaction fewer (04 R84). -/
theorem Picks.choose_eq (picks : Picks s g pre t post) (fails : s.recheck t = some st) :
    s.choose g = (s.completeAt g pre.length t st).choose g := by
  have shorter : ((s.completeAt g pre.length t st).seg g).hostq.length + 1 = (s.seg g).hostq.length := by
    rw [State.seg_completeAt, picks.queue]
    simp only [eraseIdx_length_append, List.length_append, List.length_cons]
    omega
  rw [State.choose, State.choose, shorter]
  obtain ⟨idle, noSweep, turn, older⟩ | ⟨held, ⟨left, hold⟩, older⟩ := picks.turn
  · have first : s.pickHost g = some (pre.length, t) := by
      rw [State.pickHost, picks.queue, firstTx_eq_some]
      exact ⟨pre, post, rfl, by simp, by simp [Entry.settling, picks.ready], fun u hu => by simpa [Entry.settling_iff] using older u hu⟩
    rw [State.arbitrate]
    simp only [idle, State.lookSweep_of_noSweepRead noSweep, State.sweepOffer_of_noSweepRead noSweep, first, fails]
    cases turnOf : (s.seg g).nextclass with
    | host => rfl
    | background =>
      obtain ⟨adm, watch, survey⟩ := turn.resolve_left (by simp [turnOf])
      simp only [State.tryBackground_none adm watch survey, first, fails, Bool.false_eq_true, if_false]
  · have first : s.pickFollowOn g = some (pre.length, t) := by
      simp only [State.pickFollowOn, hold, Entry.settling_eq_false.2 picks.ready, Bool.false_eq_true, if_false]
      rw [picks.queue, firstTx_eq_some]
      exact ⟨pre, post, rfl, by simp, by simp, fun u hu => by simpa using older u hu⟩
    rw [State.arbitrate]
    simp only [held, first, fails]

end Completes

/-- Settles O36: the recheck gives the status of its first failing check, and the pick completes with it. -/
theorem recheckCompletes : Obligations.RecheckCompletes := by
  intro s g pre t post picks e gone completed
  have completes : ∀ st, s.recheck t = some st → completed st := by
    intro st fails
    have grant : exec (.arbiterGrant g) s = .next ((s.completeAt g pre.length t st).choose g) := congrArg Host.Outcome.next (picks.choose_eq fails)
    refine ⟨fun more => ?_, fun retiring last ok => ?_⟩
    · have ok : e.EndsOk := fun retiring last => absurd ⟨retiring, last⟩ more
      have stays : ¬(((s.entry t.handle).setChain t.port false).state = .retiring ∧ ((s.entry t.handle).setChain t.port false).inflight ≤ 1) := by
        cases t.port <;> exact more
      rw [State.completeAt_eq picks.queue ok] at grant
      simp only [State.workEnds, State.entry_give, State.entry_setEntry_same, if_neg stays, State.setEntry_give, State.setEntry_setEntry] at grant
      simp only [gone, State.respondTo]
      rw [grant]
      cases t.port <;> rfl
    · have ends : ((s.entry t.handle).setChain t.port false).state = .retiring ∧ ((s.entry t.handle).setChain t.port false).inflight ≤ 1 := by
        cases t.port <;> exact ⟨retiring, last⟩
      rw [State.completeAt_eq picks.queue ok] at grant
      simp only [State.workEnds, State.entry_give, State.entry_setEntry_same, if_pos ends, State.setEntry_give, State.setEntry_setEntry] at grant
      simp only [gone]
      rw [grant]
      cases t.port <;> rfl
  refine ⟨fun stale => completes _ (State.recheck_stale stale), fun hg => ⟨fun hs => ?_, fun hs => ?_, fun hs => ?_, fun live =>
    ⟨fun barred => ?_, fun free => ⟨fun long => ?_, fun short short' chained incapable => ?_⟩⟩⟩⟩
  · exact completes _ (State.recheck_state hg (congrArg EntryState.transferStatus hs))
  · exact completes _ (State.recheck_state hg (congrArg EntryState.transferStatus hs))
  · exact completes _ (State.recheck_state hg (congrArg EntryState.transferStatus hs))
  · exact completes _ (State.recheck_claimLost hg live barred)
  · exact completes _ ((State.recheck_limits hg live free).trans (if_pos long))
  · refine completes _ ((State.recheck_limits hg live free).trans ?_)
    simp [Desc.limits, Nat.not_lt.2 short, Nat.not_lt.2 short', chained, incapable, e]

end Sys2Proof.Machine
end

