-- ==== Sys2Proof/Proofs/SurveyEnds.lean ====
section
/-! PROOFS. How a survey's probe ends: the address is judged and counted, and the walk goes on (07 R133 to R138). -/

namespace Sys2Proof.Machine

/-! ## Updates of a segment go with the fall of INFLIGHT, and notices with answers -/

@[simp] theorem State.setSeg_dropClaims (s : State) (h : Handle) (o : Option Port) (g : Seg) (r : Segment) :
    (s.dropClaims h o).setSeg g r = (s.setSeg g r).dropClaims h o := by
  simp [State.dropClaims_eq]

@[simp] theorem State.setSeg_fall (s : State) (h : Handle) (g : Seg) (r : Segment) : (s.fall h).setSeg g r = (s.setSeg g r).fall h := by
  by_cases hd : (s.entry h).lower.drained = true
  · simp [State.fall, hd, State.modEntry_eq, State.completeRetire, State.enterVacant]
  · simp [State.fall, hd, State.modEntry_eq]

@[simp] theorem State.setSeg_fallNamed (s : State) (n : Option Handle) (g : Seg) (r : Segment) :
    (s.fallNamed n).setSeg g r = (s.setSeg g r).fallNamed n := by
  cases n <;> simp [State.fallNamed]

@[simp] theorem State.seg_fallNamed (s : State) (n : Option Handle) (g : Seg) : (s.fallNamed n).seg g = s.seg g := by
  cases n <;> simp [State.fallNamed]

theorem SegBlind.respond (p : Port) (t : Tag) (st : Status) (l : List Byte) : SegBlind (fun u => u.respond p t st l) := ⟨by simp, by simp⟩
theorem SegBlind.post (p : Port) (k : NoticeKind) (sub : Subject) (d : Byte) : SegBlind (fun u => u.post p k sub d) := ⟨by simp, by simp⟩

theorem PortRec.offer_setRespq (pr : PortRec) (q : List Response) (k : NoticeKind) (sub : Subject) (d : Byte) :
    ({ pr with respq := q } : PortRec).offer k sub d = { pr.offer k sub d with respq := q } := by
  unfold PortRec.offer
  dsimp only
  split_ifs <;> rfl

/-- A notice and an answer to one port may be placed in either order: they go to different lists. -/
theorem State.respond_post (s : State) (p : Port) (k : NoticeKind) (sub : Subject) (d : Byte) (t : Tag) (st : Status) (l : List Byte) :
    (s.post p k sub d).respond p t st l = (s.respond p t st l).post p k sub d := by
  rw [State.respond_eq, State.respond_eq, State.post, State.post, State.modPort_eq, State.modPort_eq]
  simp only [State.port_setPort_same, State.setPort_setPort, PortRec.respq_offer]
  exact congrArg (s.setPort p) (PortRec.offer_setRespq (s.port p) _ k sub d).symm

theorem State.successReport_of_unreachable {s : State} {h : Handle} (hr : (s.entry h).reachable = false) : s.successReport h = s :=
  (State.report_success (o := .ok) rfl).symm.trans (State.report_of_unreachable hr .ok)

theorem State.failureReport_of_unreachable {s : State} {h : Handle} (hr : (s.entry h).reachable = false) : s.failureReport h = s :=
  (State.report_failure (o := .addrNack) rfl rfl).symm.trans (State.report_of_unreachable hr .addrNack)

/-! ## The walk -/

/-- The survey whose cursor is `k` after an address has been judged: its probe of the next address is planned, or the survey is answered OK (07 R133,
R138). -/
def State.walkOn (u : State) (g : Seg) (r : Segment) (k : Cursor) : State :=
  if k.next < k.high then u.setSeg g { r with survey := some { k with next := k.next + 1, named := none, probe := .waiting } }
  else (u.setSeg g { r with survey := none }).respond k.port k.tag .ok (surveyResult g { k with next := k.next + 1 })

section Walk

variable {s : State} {g : Seg} {d : Current} {cu k : Cursor} {o : Outcome} {D : State → State} {v : State} {h : Handle}

theorem State.walkOn_setEntry (u : State) (r : Segment) (h : Handle) (e : Entry) :
    (u.setEntry h e).walkOn g r k = (u.walkOn g r k).setEntry h e := by
  unfold State.walkOn
  split <;> simp [State.respond_eq]

theorem State.walkOn_post (u : State) (r : Segment) (kind : NoticeKind) (sub : Subject) (b : Byte) :
    (u.post k.port kind sub b).walkOn g r k = (u.walkOn g r k).post k.port kind sub b := by
  unfold State.walkOn
  split
  · simp
  · simp [State.respond_post]

@[simp] theorem State.setSeg_freed (s : State) (g : Seg) (o : Outcome) (r : Segment) : (s.freed g o).setSeg g r = s.setSeg g r := by
  simp [State.freed]

/-- The survey of a cursor that has just been replaced is answered with that cursor's counts. -/
theorem State.answerSurvey_setSeg (u : State) (g : Seg) {r : Segment} {c : Cursor} (hr : r.survey = some c) (st : Status) :
    (u.setSeg g r).answerSurvey g st = (u.setSeg g { r with survey := none }).respond c.port c.tag st (surveyResult g c) := by
  simp [State.answerSurvey, State.modSeg_eq, hr]

/-- The probe of a running survey ends by the judgement of its address, and the arbiter chooses. -/
theorem State.endTransfer_survey (blind : SegBlind D) (hk : d.kind = .survey) (survey : (s.seg g).survey = some cu) (active : cu.probe = .active)
    (pend : (s.seg g).pendcmd = none) (free : (s.seg g).hold = none) (ho : o = .ok ∨ o = .addrNack)
    (judged : ((s.freed g o).reportNamed d.entry o).judge g cu ((s.freed g o).listedAt g cu.next) o = (v, k))
    (bounds : k.next = cu.next ∧ k.high = cu.high) (done : v.fallNamed d.entry = D (s.freed g o)) :
    s.endTransfer g d o = ((D s).walkOn g { s.seg g with state := .idle, current := none, lines := .stop } k).choose g := by
  have stop : o.lines = .stop := by rcases ho with rfl | rfl <;> rfl
  have plain : o ≠ .clockTimeout ∧ o ≠ .busStuck := by rcases ho with rfl | rfl <;> decide
  have ends : ¬(o = .busStuck ∨ o = .aborted) := by rcases ho with rfl | rfl <;> decide
  have kept : v.seg g = { s.seg g with current := none, lines := .stop } := by
    have := congrArg (fun u => u.seg g) done
    simpa [blind.seg, stop] using this
  have found : ((s.freed g o).seg g).survey = some cu := by simpa using survey
  obtain ⟨hn, hh⟩ := bounds
  have told : (s.freed g o).deliver g d o =
      let w := (D (s.freed g o)).setSeg g { s.seg g with
        current := none, lines := .stop, survey := some { k with next := cu.next + 1, named := none, probe := .waiting } }
      if cu.high < cu.next + 1 then w.answerSurvey g .ok else w := by
    rw [State.deliver, hk]
    simp only [State.endSurveyProbe_eq, found, active, if_true, if_neg ends, judged, State.modSeg_eq, ← State.setSeg_fallNamed, done, kept]
  by_cases more : cu.next < cu.high
  · simp only [if_neg (by omega : ¬cu.high < cu.next + 1), blind.setSeg, State.setSeg_freed] at told
    rw [State.walkOn, if_pos (by omega), State.endTransfer_idle blind told pend free plain]
    simp only [blind.setSeg, hn]
  · simp only [if_pos (by omega : cu.high < cu.next + 1)] at told
    rw [State.answerSurvey_setSeg _ _ rfl, blind.setSeg, State.setSeg_freed] at told
    rw [State.walkOn, if_neg (by omega), State.endTransfer_idle (blind.comp (SegBlind.respond ..)) told pend free plain]
    simp only [blind.setSeg, hn]
    rfl

/-! ## The judgement of an address -/

@[simp] theorem State.listedAt_freed (s : State) (g : Seg) (o : Outcome) (a : Nat) : (s.freed g o).listedAt g a = s.listedAt g a := by
  simp [State.listedAt, State.find]

theorem State.listedAt_none (unlisted : ∀ h, (s.entry h).at g .seven cu.next = false) : s.listedAt g cu.next = none := by
  simp [State.listedAt, State.find_eq_none.2 unlisted]

theorem State.listedAt_some (hf : s.find g .seven cu.next = some h) : s.listedAt g cu.next = some (h, (s.entry h).state) := by
  simp [State.listedAt, hf]

section Judge

variable (u : State) (g : Seg) (cu : Cursor) {h : Handle}

theorem State.judge_found (low : u.lowestVacant = some h) : u.judge g cu none .ok =
    (u.setEntry h ((u.entry h).taken ⟨g, .seven, cu.next, .survey, .fetch⟩ {} {} (.survey (some cu.port))), { cu with found := cu.found + 1 }) := by
  simp [State.judge, low, State.modEntry_eq]

theorem State.judge_full (full : u.lowestVacant = none) : u.judge g cu none .ok =
    (if cu.fullPosted = true then u else u.post cu.port .directoryFull (.segment g) (byte cu.next),
      { cu with full := cu.full + 1, fullPosted := true }) := by
  simp [State.judge, full]

/-- An entry that is listed but was not when the probe was granted counts nothing (07 R134, R135). -/
theorem State.judge_passed {x : EntryState} (hx : x = .probing ∨ x = .retiring) (o : Outcome) : u.judge g cu (some (h, x)) o = (u, cu) := by
  rcases hx with rfl | rfl <;> rfl

theorem State.judge_live_ok {x : EntryState} (hx : x = .present ∨ x = .suspect) : u.judge g cu (some (h, x)) .ok = (u, cu) := by
  rcases hx with rfl | rfl <;> rfl

theorem State.judge_live_missed {x : EntryState} (hx : x = .present ∨ x = .suspect) :
    u.judge g cu (some (h, x)) .addrNack = (u, { cu with missing := cu.missing + 1 }) := by
  rcases hx with rfl | rfl <;> rfl

end Judge

/-- The entry of a re-admission that has just begun, with the transfer that found it no longer counted (02 R38, 06 R126). -/
def Entry.readmitting (e : Entry) (source : AdmSource) : Entry :=
  { e with
    state := .probing, fails := 0, adm := some ⟨.re, .probe, source, none, none, .waiting⟩
    watch := e.watch.map (fun w => if w.probe = .due then { w with probe := .none } else w)
    inflight := if e.watchDue then e.inflight - 1 else e.inflight }

theorem State.fall_beginReadmission (u : State) (h : Handle) (source : AdmSource) :
    (u.beginReadmission h source).fall h = u.setEntry h ((u.entry h).readmitting source) := by
  unfold Entry.readmitting
  cases hw : (u.entry h).watch with
  | none => simp [State.beginReadmission, State.fall, State.modEntry_eq, Entry.plan, Entry.rise, Entry.lower, Entry.drained, Entry.watchDue, hw]
  | some w =>
    by_cases due : w.probe = .due <;>
      simp [State.beginReadmission, State.fall, State.modEntry_eq, Entry.plan, Entry.rise, Entry.lower, Entry.drained, Entry.watchDue, hw, due]

/-! ## The probe on the bus -/

/-- The transfer on the bus is the probe of the running survey, and no command is pending. -/
structure ProbeOnBus (s : State) (g : Seg) (c : Current) (cu : Cursor) : Prop where
  bus : OnBus s g c
  kind : c.kind = .survey
  pend : (s.seg g).pendcmd = none
  survey : (s.seg g).survey = some cu
  active : cu.probe = .active

/-- The segment after the probe. -/
def Segment.probed (r : Segment) : Segment := { r with state := .idle, current := none, lines := .stop }

namespace ProbeOnBus

variable {c : Current}

theorem exec_end (pb : ProbeOnBus s g c cu) (e : TransferEnd) : exec (.surveyProbeEnd g e) s = .next (s.transferEnds g c e) := by
  have reach := pb.bus.exec_ends e
  rw [pb.kind] at reach
  exact reach

theorem exec_done (pb : ProbeOnBus s g c cu) (rx : List Byte) (blind : SegBlind D)
    (judged : ((s.freed g .ok).reportNamed c.entry .ok).judge g cu (s.listedAt g cu.next) .ok = (v, k))
    (bounds : k.next = cu.next ∧ k.high = cu.high) (done : v.fallNamed c.entry = D (s.freed g .ok)) :
    exec (.surveyProbeEnd g (.done rx)) s = .next (((D s).walkOn g (s.seg g).probed k).choose g) := by
  rw [pb.exec_end, State.transferEnds_done, State.endTransfer_survey (d := c.at _ (receivedAll c.plan rx)) blind pb.kind pb.survey pb.active
    pb.pend pb.bus.hold (.inl rfl) (by rw [State.listedAt_freed]; exact judged) bounds done]
  rfl

theorem exec_nack (pb : ProbeOnBus s g c cu) {n : Nat} (hn : (sends c.plan)[n]? = some .addr) (blind : SegBlind D)
    (judged : ((s.freed g .addrNack).reportNamed c.entry .addrNack).judge g cu (s.listedAt g cu.next) .addrNack = (v, k))
    (bounds : k.next = cu.next ∧ k.high = cu.high) (done : v.fallNamed c.entry = D (s.freed g .addrNack)) :
    exec (.surveyProbeEnd g (.nack n)) s = .next (((D s).walkOn g (s.seg g).probed k).choose g) := by
  rw [pb.exec_end, State.transferEnds_addr s g hn, State.endTransfer_survey (d := c.at n []) blind pb.kind pb.survey pb.active pb.pend
    pb.bus.hold (.inr rfl) (by rw [State.listedAt_freed]; exact judged) bounds done]
  rfl

/-! ### An address that was unlisted when the probe was granted -/

theorem exec_found (pb : ProbeOnBus s g c cu) (unnamed : c.entry = none) (unlisted : ∀ h, (s.entry h).at g .seven cu.next = false)
    (low : s.lowestVacant = some h) (rx : List Byte) : exec (.surveyProbeEnd g (.done rx)) s =
      .next (((s.walkOn g (s.seg g).probed { cu with found := cu.found + 1 }).setEntry h
        ((s.entry h).taken ⟨g, .seven, cu.next, .survey, .fetch⟩ {} {} (.survey (some cu.port)))).choose g) := by
  have judged := State.judge_found (s.freed g .ok) g cu (by simpa [State.lowestVacant] using low)
  rw [State.entry_freed] at judged
  have run := pb.exec_done (k := { cu with found := cu.found + 1 }) rx
    (SegBlind.setEntry h ((s.entry h).taken ⟨g, .seven, cu.next, .survey, .fetch⟩ {} {} (.survey (some cu.port))))
    (by rw [State.listedAt_none unlisted, unnamed]; exact judged) ⟨rfl, rfl⟩ (by rw [unnamed]; rfl)
  rwa [State.walkOn_setEntry] at run

theorem exec_full (pb : ProbeOnBus s g c cu) (unnamed : c.entry = none) (unlisted : ∀ h, (s.entry h).at g .seven cu.next = false)
    (full : s.lowestVacant = none) (rx : List Byte) : exec (.surveyProbeEnd g (.done rx)) s =
      .next (((if cu.fullPosted = true then s else s.post cu.port .directoryFull (.segment g) (byte cu.next)).walkOn g (s.seg g).probed
        { cu with full := cu.full + 1, fullPosted := true }).choose g) := by
  have judged := State.judge_full (s.freed g .ok) g cu (by simpa [State.lowestVacant] using full)
  by_cases posted : cu.fullPosted = true
  · simp only [posted, if_true] at judged ⊢
    exact pb.exec_done rx SegBlind.id (by rw [State.listedAt_none unlisted, unnamed]; exact judged) ⟨rfl, rfl⟩ (by rw [unnamed]; rfl)
  · simp only [posted] at judged ⊢
    exact pb.exec_done rx (SegBlind.post ..) (by rw [State.listedAt_none unlisted, unnamed]; exact judged) ⟨rfl, rfl⟩ (by rw [unnamed]; rfl)

/-- The judgement changes nothing: the walk goes on. -/
theorem exec_plain (pb : ProbeOnBus s g c cu) (unnamed : c.entry = none)
    (nothing : ∀ o : Outcome, o = .ok ∨ o = .addrNack → ∀ u : State, u.judge g cu (s.listedAt g cu.next) o = (u, cu)) :
    (∀ rx, exec (.surveyProbeEnd g (.done rx)) s = .next ((s.walkOn g (s.seg g).probed cu).choose g)) ∧
    (∀ n, (sends c.plan)[n]? = some .addr → exec (.surveyProbeEnd g (.nack n)) s = .next ((s.walkOn g (s.seg g).probed cu).choose g)) := by
  refine ⟨fun rx => ?_, fun n hn => ?_⟩
  · exact pb.exec_done rx SegBlind.id (nothing .ok (.inl rfl) _) ⟨rfl, rfl⟩ (by rw [unnamed]; rfl)
  · exact pb.exec_nack hn SegBlind.id (nothing .addrNack (.inr rfl) _) ⟨rfl, rfl⟩ (by rw [unnamed]; rfl)

/-! ### A listed address -/

theorem exec_done_named (pb : ProbeOnBus s g c cu) (named : c.entry = some h) (ok : (s.entry h).EndsOk) (rx : List Byte)
    (judged : ∀ u : State, u.judge g cu (s.listedAt g cu.next) .ok = (u, k)) (bounds : k.next = cu.next ∧ k.high = cu.high) :
    exec (.surveyProbeEnd g (.done rx)) s = .next ((((s.successReport h).workEnds h).walkOn g (s.seg g).probed k).choose g) := by
  have last := (State.reported_report (s.freed g .ok) h .ok).endsOk (by simpa using ok)
  have run := pb.exec_done rx ((SegBlind.report h .ok).comp (SegBlind.workEnds h)) (judged _) bounds
    (by rw [named]; exact State.fall_eq _ _ last)
  rwa [State.report_success rfl] at run

theorem exec_nack_named (pb : ProbeOnBus s g c cu) (named : c.entry = some h) (ok : (s.entry h).EndsOk) {n : Nat}
    (hn : (sends c.plan)[n]? = some .addr) (judged : ∀ u : State, u.judge g cu (s.listedAt g cu.next) .addrNack = (u, k))
    (bounds : k.next = cu.next ∧ k.high = cu.high) :
    exec (.surveyProbeEnd g (.nack n)) s = .next ((((s.failureReport h).workEnds h).walkOn g (s.seg g).probed k).choose g) := by
  have last := (State.reported_report (s.freed g .addrNack) h .addrNack).endsOk (by simpa using ok)
  have run := pb.exec_nack hn ((SegBlind.report h .addrNack).comp (SegBlind.workEnds h)) (judged _) bounds
    (by rw [named]; exact State.fall_eq _ _ last)
  rwa [State.report_failure rfl rfl] at run

/-- A LOST entry that acknowledges is re-admitted (07 R136). -/
theorem exec_reappeared (pb : ProbeOnBus s g c cu) (named : c.entry = some h) (listed : s.listedAt g cu.next = some (h, .lost))
    (lost : (s.entry h).state = .lost) (rx : List Byte) : exec (.surveyProbeEnd g (.done rx)) s =
      .next (((s.walkOn g (s.seg g).probed { cu with reappeared := cu.reappeared + 1 }).setEntry h
        ((s.entry h).readmitting .surveyReappear)).choose g) := by
  have quiet : (s.freed g .ok).report h .ok = s.freed g .ok := State.report_of_unreachable (by simp [Entry.reachable, lost]) .ok
  have judged : ((s.freed g .ok).reportNamed (some h) .ok).judge g cu (some (h, .lost)) .ok =
      ((s.freed g .ok).beginReadmission h .surveyReappear, { cu with reappeared := cu.reappeared + 1 }) := by
    rw [State.reportNamed, quiet]
    rfl
  have begun := State.fall_beginReadmission (s.freed g .ok) h .surveyReappear
  rw [State.entry_freed] at begun
  have run := pb.exec_done (k := { cu with reappeared := cu.reappeared + 1 }) rx (SegBlind.setEntry h ((s.entry h).readmitting .surveyReappear))
    (by rw [listed, named]; exact judged) ⟨rfl, rfl⟩ (by rw [named]; exact begun)
  rwa [State.walkOn_setEntry] at run

end ProbeOnBus

end Walk

/-- Settles O51: the index and the state of the listed entry decide what the probe counts, and the walk goes on. -/
theorem surveyProbeEnds : Obligations.SurveyProbeEnds := by
  intro s g c cu on hk pend survey active _ r walked
  have pb : ProbeOnBus s g c cu := ⟨on, hk, pend, survey, active⟩
  refine ⟨fun unnamed unlisted => ⟨fun rx h vacant first => ?_, fun rx used => ⟨fun fresh => ?_, fun posted => ?_⟩, fun n hn => ?_⟩,
    fun unnamed ⟨h, at_⟩ passed => ?_, fun h named at_ ok last => ⟨fun live => ⟨fun rx => ?_, fun n hn => ?_⟩, fun lost => ⟨fun rx => ?_, fun n hn => ?_⟩,
      fun passed => ⟨fun rx => ?_, fun n hn => ?_⟩⟩⟩
  · exact pb.exec_found unnamed unlisted (State.lowestVacant_eq vacant first) rx
  · refine (pb.exec_full unnamed unlisted (State.lowestVacant_eq_none.2 used) rx).trans ?_
    rw [fresh, if_neg (by simp)]
    exact congrArg (fun u => Host.Outcome.next (State.choose u g)) (State.walkOn_post (k := { cu with full := cu.full + 1, fullPosted := true }) ..)
  · refine (pb.exec_full unnamed unlisted (State.lowestVacant_eq_none.2 used) rx).trans ?_
    rw [posted, if_pos rfl]
    rfl
  · exact pb.exec_nack hn SegBlind.id (by rw [State.listedAt_none unlisted, unnamed]; rfl) ⟨rfl, rfl⟩ (by rw [unnamed]; rfl)
  · refine pb.exec_plain unnamed fun o _ u => ?_
    cases found : s.find g .seven cu.next with
    | none => simp [State.find_eq_none.1 found h] at at_
    | some k =>
      rw [State.listedAt_some found]
      exact State.judge_passed u g cu (passed k (State.at_of_find found)) o
  all_goals have listed := State.listedAt_some (State.find_eq ok at_)
  · exact pb.exec_done_named named last rx (fun u => by rw [listed, State.judge_live_ok u g cu live]) ⟨rfl, rfl⟩
  · exact pb.exec_nack_named (k := { cu with missing := cu.missing + 1 }) named last hn
      (fun u => by rw [listed, State.judge_live_missed u g cu live]) ⟨rfl, rfl⟩
  · exact pb.exec_reappeared named (lost ▸ listed) lost rx
  · have run := pb.exec_nack_named (k := cu) named last hn (fun u => by rw [listed, lost]; rfl) ⟨rfl, rfl⟩
    rwa [State.failureReport_of_unreachable (by simp [Entry.reachable, lost])] at run
  · have run := pb.exec_done_named named last rx (fun u => by rw [listed, State.judge_passed u g cu passed]) ⟨rfl, rfl⟩
    rwa [State.successReport_of_unreachable (by rcases passed with hs | hs <;> simp [Entry.reachable, hs])] at run
  · have run := pb.exec_nack_named named last hn (fun u => by rw [listed, State.judge_passed u g cu passed]) ⟨rfl, rfl⟩
    rwa [State.failureReport_of_unreachable (by rcases passed with hs | hs <;> simp [Entry.reachable, hs])] at run

end Sys2Proof.Machine
end

