-- ==== Sys2Proof/Proofs/Reset.lean ====
section
/-! PROOFS. The reset by the pin, and that the state after it satisfies what every step keeps (01 R21, 04 R67, 06 R130, 08 R141, 10 R162). -/

namespace Sys2Proof.Machine

/-! ## The records after a reset -/

@[simp] theorem State.entry_reset (h : Handle) : State.reset.entry h = Entry.vacant 0 := by
  simp [State.entry, State.reset]

@[simp] theorem State.seg_reset (g : Seg) : State.reset.seg g = {} := by
  simp [State.seg, State.reset]

@[simp] theorem State.port_reset (p : Port) : State.reset.port p = { rejected := true, reason := some .restart } := by
  cases p <;> rfl

/-! ## What every step keeps holds of them -/

theorem PortRec.noticesOk_pinReset : ({ rejected := true, reason := some .restart } : PortRec).NoticesOk where
  list := ⟨by simp, .nil, by simp⟩
  latch := by simp

theorem Entry.claimsOk_vacant (n : Gen) : (Entry.vacant n).ClaimsOk where
  none _ := ⟨rfl, rfl⟩
  exclusive hc := by cases hc
  shared hc := by cases hc
  idle _ := ⟨rfl, rfl⟩

theorem Entry.waiterOk_vacant (n : Gen) : (Entry.vacant n).WaiterOk := by
  intro w hw
  cases hw

theorem Entry.leasesOk_vacant (n : Gen) : (Entry.vacant n).LeasesOk where
  lease p hr h := by cases p <;> cases h
  wait w hw := by cases hw

theorem State.healthOk_reset : State.reset.HealthOk where
  low := by decide
  high := by decide
  fails h := by rw [State.entry_reset]; rfl

theorem State.indexOk_reset : State.reset.IndexOk where
  place h := by simp [Entry.vacant]
  record h := by simp [Entry.vacant]
  single h k pl pl' hp := by simp [Entry.vacant] at hp

theorem Segment.ok_default : ({} : Segment).Ok where
  queue := by simp
  current := by simp
  hold := by simp

/-- No entry has a work. -/
theorem State.works_reset (h : Handle) : State.reset.works h = 0 := by
  simp [State.works, Entry.admWaiting, Entry.watchDue, Entry.vacant, bit]

theorem State.workOk_reset : State.reset.WorkOk where
  segs g := by rw [State.seg_reset]; exact Segment.ok_default
  vacant h _ := by simp [Entry.vacant]
  record := State.indexOk_reset.record
  first h a ha := by simp [Entry.vacant] at ha
  planned h a ha := by simp [Entry.vacant] at ha
  bus g h c hc := by simp at hc
  queue g t ht := by simp at ht
  hold g ho hh := by simp at hh
  count h := by rw [State.works_reset]; simp [Entry.vacant]

/-- No tag is in use. -/
theorem State.tagsInUse_reset (p : Port) : State.reset.tagsInUse p = [] := by
  simp [State.tagsInUse, Entry.owners, Segment.owners, Entry.vacant]

theorem State.tagsOk_reset : State.reset.TagsOk where
  count p t := by
    rw [State.tagsInUse_reset, State.port_reset]
    simp [bit]
  retiring h hs := by simp [Entry.vacant] at hs
  retire h hr := by simp [Entry.vacant] at hr
  source h a ha := by simp [Entry.vacant] at ha
  latch p r hl := by simp at hl

/-- Settles O10: every record is replaced by its value after a reset, but for the levels of the input pins; the invariants hold of those values. -/
theorem resetsClearThePart : Obligations.ResetsClearThePart := by
  refine ⟨fun s => ⟨s.pinReset, rfl, fun h => State.entry_reset h, fun g => ?_, fun p => ?_, rfl, rfl⟩, State.entry_reset, State.seg_reset,
    State.port_reset, rfl, fun p => ?_, fun h => ?_, fun h => ?_, fun h => ?_, State.healthOk_reset, State.indexOk_reset, fun g => ?_,
    State.workOk_reset, State.tagsOk_reset⟩
  · simp [State.seg, State.pinReset]
  · cases p <;> rfl
  · rw [State.port_reset]; exact PortRec.noticesOk_pinReset
  · rw [State.entry_reset]; exact Entry.claimsOk_vacant 0
  · rw [State.entry_reset]; exact Entry.waiterOk_vacant 0
  · rw [State.entry_reset]; exact Entry.leasesOk_vacant 0
  · rw [State.seg_reset]; exact Segment.ok_default

end Sys2Proof.Machine
end

