-- ==== Sys2Proof/Proofs/DescriptorEnds.lean ====
section
/-! PROOFS. How the SIZE and body reads of an admission end (02 R25 to R30, R33, R39 to R41): the read goes on, or gives a descriptor
with which the admission is over. -/

namespace Sys2Proof.Machine

/-! ## The ends of an admission with a descriptor -/

section DescriptorEnds

variable {u : State} {h : Handle}

/-- A re-admission ends with another identity, its transfer no longer counted and no probe of the watch due (02 R41, 06 R126). -/
theorem State.endReplaced_lower {d : Desc} (other : (u.entry h).desc.sameIdentity d = false) (src : DSrc)
    (calm : ∀ w ∈ (u.entry h).watch, w.probe = .none) :
    (u.modEntry h Entry.lower).endReplaced h d src = u.readmitted h (u.entry h) d src := by
  have nobody : ∀ p : Port, ((none : Option Port) != some p) = true := fun _ => rfl
  have differs : ¬((u.entry h).desc.cls = d.cls ∧ (u.entry h).desc.maker = d.maker ∧ (u.entry h).desc.model = d.model ∧
      (u.entry h).desc.serial = d.serial) := by
    simpa [Desc.sameIdentity, and_assoc] using other
  unfold State.endReplaced State.readmitted
  rw [State.answerWatch_told _ _ _ rfl, State.dropClaims_eq, if_neg differs]
  cases hw : (u.entry h).watch with
  | none =>
    simp [State.modEntry_eq, Entry.endWatch_eq, Entry.lower, Entry.noClaims, Entry.holder, Entry.watchDue, Entry.subs, State.subject,
      State.watchTold, hw, bit, nobody]
  | some w =>
    simp [State.modEntry_eq, Entry.endWatch_eq, Entry.lower, Entry.noClaims, Entry.holder, Entry.watchDue, Entry.subs, State.subject,
      State.watchTold, hw, calm w hw, bit, entryStateCode, nobody]

/-- The end of a re-admission of an entry of DMODE FETCH, by the identity read (02 R40, R41). -/
theorem State.endAdmission_re_fetch {a : AdmRec} (re : a.kind = .re) (fetch : (u.entry h).dmode = .fetch)
    (calm : ∀ w ∈ (u.entry h).watch, w.probe = .none) (d : Desc) (src : DSrc) :
    (u.modEntry h Entry.lower).endAdmission h a d src = u.readmitted h (u.entry h) d src := by
  have mode : ((u.modEntry h Entry.lower).entry h).dmode = .fetch := by simpa [Entry.lower, Entry.dmode] using fetch
  have kept : ((u.modEntry h Entry.lower).entry h).desc = (u.entry h).desc := by simp [Entry.lower]
  simp only [State.endAdmission, re, mode, kept, reduceCtorEq, if_false]
  split
  · next same => exact State.endReappeared_lower same src calm
  · next other => exact State.endReplaced_lower (by simpa using other) src calm

/-- The end of a first admission (02 R33). -/
theorem State.endAdmission_first {a : AdmRec} (first : a.kind = .first) (d : Desc) (src : DSrc) :
    (u.modEntry h Entry.lower).endAdmission h a d src = u.firstPresent h (u.entry h) a d src := by
  simp only [State.endAdmission, first, State.endFirst_lower]

/-- How an admission of an entry of DMODE FETCH ends with a descriptor, by its KIND (02 R33, R39). -/
def State.admittedAs (u : State) (h : Handle) (e : Entry) (a : AdmRec) (d : Desc) (src : DSrc) : State :=
  match a.kind with
  | .first => u.firstPresent h e a d src
  | .re => u.readmitted h e d src

theorem SegBlind.admittedAs (h : Handle) (e : Entry) (a : AdmRec) (d : Desc) (src : DSrc) : SegBlind (fun u => u.admittedAs h e a d src) := by
  unfold State.admittedAs
  cases a.kind with
  | first => exact .firstPresent ..
  | re => exact .readmitted ..

theorem State.endAdmission_fetch (a : AdmRec) (fetch : (u.entry h).dmode = .fetch) (calm : ∀ w ∈ (u.entry h).watch, w.probe = .none)
    (d : Desc) (src : DSrc) : (u.modEntry h Entry.lower).endAdmission h a d src = u.admittedAs h (u.entry h) a d src := by
  unfold State.admittedAs
  cases hk : a.kind with
  | first => exact State.endAdmission_first hk d src
  | re => exact State.endAdmission_re_fetch hk fetch calm d src

/-- The answer of a first admission looks at its SOURCE alone. -/
theorem State.admittedAs_congr (u : State) (h : Handle) (e : Entry) {a b : AdmRec} (hk : a.kind = b.kind) (hs : a.source = b.source) (d : Desc)
    (src : DSrc) : u.admittedAs h e a d src = u.admittedAs h e b d src := by
  unfold State.admittedAs State.firstPresent
  rw [hk, hs]

/-! ## The SIZE read and the body read -/

variable {a : AdmRec}

/-- A SIZE from 2 to 18 is kept, and the body read is planned in the SIZE read's place, and counted (02 R25). -/
theorem State.admissionNext_size {rx : List Byte} (step : a.step = .sizeRead) (low : 2 ≤ (rx.getD 0 0).toNat) (high : (rx.getD 0 0).toNat ≤ 18)
    (counted : 1 ≤ (u.entry h).inflight) : (u.modEntry h Entry.lower).admissionNext h a .ok rx =
      u.setEntry h { u.entry h with adm := some { a with step := .bodyRead, size := some (rx.getD 0 0), planned := .waiting } } := by
  simp only [State.admissionNext, step, low, high, and_self, if_true]
  simp [State.modEntry_eq, Entry.plan, Entry.rise, Entry.lower, Nat.sub_add_cancel counted]

/-- Another SIZE ends the admission with what can be said without a body (02 R25, R29). -/
theorem State.admissionNext_size_ends {rx : List Byte} (step : a.step = .sizeRead) (out : ¬(2 ≤ (rx.getD 0 0).toNat ∧ (rx.getD 0 0).toNat ≤ 18))
    (fetch : (u.entry h).dmode = .fetch) (calm : ∀ w ∈ (u.entry h).watch, w.probe = .none) :
    (u.modEntry h Entry.lower).admissionNext h a .ok rx =
      u.admittedAs h (u.entry h) a (readDesc (rx.getD 0 0) []).1 (readDesc (rx.getD 0 0) []).2 := by
  simp only [State.admissionNext, step, if_neg out]
  rw [State.endAdmission_fetch _ fetch calm]
  exact State.admittedAs_congr _ _ _ rfl rfl _ _

/-- The body read gives the descriptor with which the admission ends (02 R27, R28). -/
theorem State.admissionNext_body {size : Byte} (rx : List Byte) (step : a.step = .bodyRead) (hs : a.size = some size) :
    (u.modEntry h Entry.lower).admissionNext h a .ok rx =
      (u.modEntry h Entry.lower).endAdmission h { a with body := some rx } (readDesc size rx).1 (readDesc size rx).2 := by
  simp only [State.admissionNext, step, hs, Option.getD_some]

/-- The outcomes of a transfer that was not acknowledged, lost its arbitration or ran out of time. -/
def Outcome.isFault : Outcome → Bool
  | .addrNack | .dataNack | .clockTimeout | .arbLost | .busBusy => true
  | .ok | .busStuck | .aborted => false

/-- A read that does not come in ends the admission with every default (02 R26, R29). -/
theorem State.admissionNext_defaulted {o : Outcome} (ho : o.isFault = true) (rx : List Byte) (step : a.step ≠ .probe)
    (fetch : (u.entry h).dmode = .fetch) (calm : ∀ w ∈ (u.entry h).watch, w.probe = .none) :
    (u.modEntry h Entry.lower).admissionNext h a o rx = u.admittedAs h (u.entry h) a {} .defaulted := by
  have ends := State.endAdmission_fetch a fetch calm {} .defaulted
  rw [← ends]
  cases hstep : a.step with
  | probe => exact absurd hstep step
  | sizeRead | bodyRead =>
    cases o with
    | ok | busStuck | aborted => cases ho
    | addrNack | dataNack | clockTimeout | arbLost | busBusy => simp only [State.admissionNext, hstep]

/-- The address probe that does not come in fails the admission (02 R34, R39). -/
theorem State.admissionNext_failed {o : Outcome} (ho : o.isFault = true) (rx : List Byte) (step : a.step = .probe) (v : State) :
    v.admissionNext h a o rx = v.failAdmission h a o.status := by
  cases o with
  | ok | busStuck | aborted => cases ho
  | addrNack | dataNack | clockTimeout | arbLost | busBusy => simp only [State.admissionNext, step]

end DescriptorEnds

/-! ## The descriptor -/

theorem readDesc_one {size : Byte} (hs : size.toNat = 1) : readDesc size [] = ({}, .short) := by
  simp [readDesc, sizeValid, hs, buildDesc]

theorem readDesc_invalid {size : Byte} (hs : size.toNat = 0 ∨ 19 ≤ size.toNat) (body : List Byte) : readDesc size body = ({}, .defaulted) := by
  have invalid : sizeValid size = false := by
    simp only [sizeValid, Bool.and_eq_false_iff, decide_eq_false_iff_not]
    omega
  simp [readDesc, invalid]

theorem readDesc_desc {size : Byte} (low : 1 ≤ size.toNat) (high : size.toNat ≤ 18) (body : List Byte) :
    (readDesc size body).1 = buildDesc size.toNat body := by
  simp only [readDesc, sizeValid, low, high, decide_true, Bool.and_self, Bool.not_true, Bool.false_eq_true, if_false]
  split_ifs <;> rfl

/-- DSRC is FETCHED for a whole descriptor in which nothing was replaced (02 R28, R29). -/
theorem readDesc_dsrc {size : Byte} (low : 1 ≤ size.toNat) (high : size.toNat ≤ 18) (body : List Byte) :
    (readDesc size body).2 = if size.toNat = 18 ∧ (descByte body 11).toNat ≤ 2 ∧ 1 ≤ (descByte body 12).toNat ∧
      (descByte body 12).toNat ≤ 32 ∧ descByte body 15 ≠ 0 then .fetched else .short := by
  have replaced : someReplaced body = false ↔ (descByte body 11).toNat ≤ 2 ∧ 1 ≤ (descByte body 12).toNat ∧
      (descByte body 12).toNat ≤ 32 ∧ descByte body 15 ≠ 0 := by
    simp [someReplaced, validOffsetw, validMaxburst, and_assoc]
  simp only [readDesc, sizeValid, low, high, decide_true, Bool.and_self, Bool.not_true, Bool.false_eq_true, if_false, ← replaced]
  by_cases whole : size.toNat < 18
  · rw [if_pos whole, if_neg (fun hc => absurd hc.1 (by omega))]
  · rw [if_neg whole]
    by_cases hr : someReplaced body = true
    · rw [if_pos hr, if_neg (by simp [hr])]
    · rw [if_neg hr, if_pos ⟨by omega, by simpa using hr⟩]

/-- A two-byte field, least significant byte first, as a number (02 R27). -/
theorem toNat_descWord (body : List Byte) (off : Nat) :
    (descWord body off).toNat = (descByte body (off + 1)).toNat * 256 + (descByte body off).toNat := by
  rw [descWord, BitVec.toNat_append, ← Nat.shiftLeft_add_eq_or_of_lt (descByte body off).isLt, Nat.shiftLeft_eq]

/-! ## The reads on the bus -/

/-- The transfer on the bus is the one that the admission `a` of the PROBING entry `h` has planned, and no command is pending. -/
structure AdmOnBus (s : State) (g : Seg) (c : Current) (h : Handle) (a : AdmRec) : Prop where
  bus : OnBus s g c
  kind : c.kind = .admission
  entry : c.entry = some h
  pend : (s.seg g).pendcmd = none
  probing : (s.entry h).state = .probing
  record : (s.entry h).adm = some a
  planned : a.planned = .active

namespace AdmOnBus

variable {s : State} {g : Seg} {c : Current} {h : Handle} {a : AdmRec} {D : State → State}

/-- The segment after a transfer that ended on the wire. -/
def idle (s : State) (g : Seg) : State := s.setSeg g { s.seg g with state := .idle, current := none, lines := .stop }

theorem exec_end (ab : AdmOnBus s g c h a) (x : TransferEnd) : exec (.admissionTransferEnd g x) s = .next (s.transferEnds g c x) := by
  have reach := ab.bus.exec_ends x
  rw [ab.kind] at reach
  exact reach

/-- The transfer ends OK, and the admission takes that as `D`. -/
theorem exec_done (ab : AdmOnBus s g c h a) (rx : List Byte) (blind : SegBlind D)
    (next : ((s.freed g .ok).modEntry h Entry.lower).admissionNext h a .ok (receivedAll c.plan rx) = D (s.freed g .ok)) :
    exec (.admissionTransferEnd g (.done rx)) s = .next ((D (idle s g)).choose g) := by
  rw [ab.exec_end, State.transferEnds_done, State.endTransfer_admission (o := .ok) (d := c.at (sends c.plan).length (receivedAll c.plan rx))
    blind ab.kind ab.entry ab.probing ab.record ab.planned ab.pend ab.bus.hold (by decide) next]
  rfl

/-- A byte is not acknowledged, whichever it is, and the admission takes that as `D`. -/
theorem exec_nack (ab : AdmOnBus s g c h a) {k : Nat} (lt : k < (sends c.plan).length) (blind : SegBlind D)
    (next : ∀ o : Outcome, o = .addrNack ∨ o = .dataNack →
      ((s.freed g o).modEntry h Entry.lower).admissionNext h a o [] = D (s.freed g o)) :
    exec (.admissionTransferEnd g (.nack k)) s = .next ((D (idle s g)).choose g) := by
  have ends : ∀ o : Outcome, o = .addrNack ∨ o = .dataNack → s.endTransfer g (c.at k []) o = (D (idle s g)).choose g := by
    intro o ho
    have stop : o.lines = .stop := by rcases ho with rfl | rfl <;> rfl
    rw [State.endTransfer_admission (d := c.at k []) blind ab.kind ab.entry ab.probing ab.record ab.planned ab.pend ab.bus.hold
      (by rcases ho with rfl | rfl <;> decide) (next o ho), stop]
    rfl
  rw [ab.exec_end]
  obtain ⟨b, hb⟩ : ∃ b, (sends c.plan)[k]? = some b := ⟨_, List.getElem?_eq_getElem lt⟩
  cases b with
  | addr => rw [State.transferEnds_addr s g hb, ends .addrNack (.inl rfl)]
  | offset => rw [State.transferEnds_data s g (.inl hb), ends .dataNack (.inr rfl)]
  | data => rw [State.transferEnds_data s g (.inr hb), ends .dataNack (.inr rfl)]

end AdmOnBus

/-- Settles O43: SIZE decides whether the body read is planned; a byte that is not acknowledged ends the admission with every default. -/
theorem descriptorReadsGoOnOrDefault : Obligations.DescriptorReadsGoOnOrDefault := by
  intro s g c h pl a on hk he pend hs hpl fetch ha hplan calm e idle ends
  have ab : AdmOnBus s g c h a := ⟨on, hk, he, pend, hs, ha, hplan⟩
  have mode : ∀ o, ((s.freed g o).entry h).dmode = .fetch := by intro o; simp [Entry.dmode, hpl, fetch]
  have quiet : ∀ o, ∀ w ∈ ((s.freed g o).entry h).watch, w.probe = .none := by intro o; simpa using calm
  have ended : ∀ src, ends src = (AdmOnBus.idle s g).admittedAs h e a {} src := fun _ => rfl
  refine ⟨fun step _ rx => ?_, fun step k lt => ?_⟩
  · intro size
    refine ⟨fun low high counted => ?_, fun one => ?_, fun out => ?_⟩
    · refine ab.exec_done rx (SegBlind.setEntry h _) ?_
      rw [State.admissionNext_size step low high (by simpa using counted), State.entry_freed]
    · rw [ended]
      refine ab.exec_done rx (SegBlind.admittedAs ..) ?_
      rw [State.admissionNext_size_ends step (fun hc => absurd hc.1 (by change ¬2 ≤ size.toNat; omega)) (mode _) (quiet _), State.entry_freed,
        readDesc_one one]
    · rw [ended]
      refine ab.exec_done rx (SegBlind.admittedAs ..) ?_
      rw [State.admissionNext_size_ends step (by change ¬(2 ≤ size.toNat ∧ size.toNat ≤ 18); omega) (mode _) (quiet _), State.entry_freed,
        readDesc_invalid out]
  · rw [ended]
    refine ab.exec_nack lt (SegBlind.admittedAs ..) fun o ho => ?_
    rw [State.admissionNext_defaulted (by rcases ho with rfl | rfl <;> rfl) [] step (mode _) (quiet _), State.entry_freed]

/-- Settles O44: the body read ends the admission with the descriptor built from its bytes, field by field. -/
theorem descriptorRead : Obligations.DescriptorRead := by
  intro s g c h pl source body size rx on hk he pend hs hpl low high a ha n b
  have ab : AdmOnBus s g c h a := ⟨on, hk, he, pend, hs, ha, rfl⟩
  have desc := readDesc_desc (by omega) high (receivedAll c.plan rx)
  have word := toNat_descWord (receivedAll c.plan rx) 16
  refine ⟨(readDesc size (receivedAll c.plan rx)).1, (readDesc size (receivedAll c.plan rx)).2, ?_, ?_⟩
  · refine ab.exec_done rx (SegBlind.firstPresent h (s.entry h) a _ _) ?_
    rw [State.admissionNext_body _ rfl rfl, State.endAdmission_first rfl, State.entry_freed]
    rfl
  · refine ⟨?_, ?_, ?_, ?_, ?_, ?_, ?_, ?_, ?_, ?_, ?_, readDesc_dsrc (by omega) high _⟩ <;> rw [desc]
    · exact if_pos low
    · rfl
    · rfl
    · rfl
    · rfl
    · simp only [buildDesc, validOffsetw, decide_eq_true_eq]; rfl
    · simp only [buildDesc, validMaxburst, Bool.and_eq_true, decide_eq_true_eq]; rfl
    · rfl
    · rfl
    · rfl
    · simp only [buildDesc, word]; rfl

/-- Settles O45: the body read ends the re-admission by the identity read. -/
theorem readmissionEnds : Obligations.ReadmissionEnds := by
  intro s g c h pl source body size rx on hk he pend hs hpl fetch calm ha idle new
  have ab : AdmOnBus s g c h _ := ⟨on, hk, he, pend, hs, ha, rfl⟩
  refine ab.exec_done rx (SegBlind.readmitted h (s.entry h) new.1 new.2) ?_
  rw [State.admissionNext_body _ rfl rfl, State.endAdmission_re_fetch rfl (by simp [Entry.dmode, hpl, fetch]) (by simpa using calm),
    State.entry_freed]

end Sys2Proof.Machine
end

