-- ==== Sys2Proof/Proofs/BackgroundEnds.lean ====
section
/-! PROOFS. How the part's own work ends: watch probes (06 R124 to R126), and the faults of the bus on admission, watch and survey transfers (02 R26, R34, R39,
06 R125, 07 R136, R137), with the work that is planned again after a cut or a failed recovery (02 R35, R42). -/

namespace Sys2Proof.Machine

/-! ## The end of a work of an entry that is not RETIRING -/

theorem State.workEnds_live {u : State} {h : Handle} (live : (u.entry h).state ≠ .retiring) :
    u.workEnds h = u.setEntry h { u.entry h with inflight := (u.entry h).inflight - 1 } := by
  simp [State.workEnds, live]

theorem State.fall_live {u : State} {h : Handle} (live : (u.entry h).state ≠ .retiring) :
    u.fall h = u.setEntry h { u.entry h with inflight := (u.entry h).inflight - 1 } := by
  rw [State.fall_eq u h fun retiring => absurd retiring live, State.workEnds_live live]

@[simp] theorem State.setEntry_respond (s : State) (p : Port) (t : Tag) (st : Status) (l : List Byte) (h : Handle) (e : Entry) :
    (s.respond p t st l).setEntry h e = (s.setEntry h e).respond p t st l := by
  simp [State.respond_eq]

/-! ## A watch probe ends (06 R125, R126) -/

section WatchProbe

variable {u : State} {g : Seg} {d : Current} {h : Handle} {w : Watch} {o : Outcome}

/-- A failure report looks at no watch, so that one counted before it is one counted after it. -/
theorem State.failureReport_setWatch (u : State) (h : Handle) (x : Option Watch) :
    (u.setEntry h { u.entry h with watch := x }).failureReport h =
      (u.failureReport h).setEntry h { (u.failureReport h).entry h with watch := x } := by
  by_cases hr : (u.entry h).reachable = true
  · have hr' : ({ u.entry h with watch := x } : Entry).reachable = true := hr
    by_cases hn : u.threshold ≤ (u.entry h).fails + 1
    · simp [State.failureReport, State.becomeLost, State.postHealth, State.subject, hr, hr', hn, State.modEntry_eq, Entry.subs]
    · by_cases hp : (u.entry h).state = .present
      · simp [State.failureReport, State.postHealth, State.subject, Entry.reachable, hn, hp, State.modEntry_eq, Entry.subs]
      · simp [State.failureReport, hr, hr', hn, hp, State.modEntry_eq]
  · have hr' : ¬({ u.entry h with watch := x } : Entry).reachable = true := hr
    simp [State.failureReport, hr, hr']

theorem State.inflight_failureReport (u : State) (h : Handle) : ((u.failureReport h).entry h).inflight = (u.entry h).inflight := by
  rw [State.entry_failureReport]
  split_ifs <;> rfl

/-- A probe of the watch is used up without success: the watch is answered WATCH_EXPIRED at its last one, or goes on from a fresh interval. -/
def State.watchMissed (v : State) (h : Handle) (w : Watch) : State :=
  let e := v.entry h
  if w.remaining = 1 then
    (v.setEntry h { e with watch := none, inflight := e.inflight - 1 }).respond w.port w.tag .watchExpired
      [byte h.val, byte e.gen.val, entryStateCode e.state, byte (w.probes + 1), 0x00]
  else v.setEntry h { e with inflight := e.inflight - 1, watch := some { w with
    probe := .none, probes := w.probes + 1, remaining := w.remaining - 1, nextdue := w.interval } }

theorem SegBlind.watchMissed (h : Handle) (w : Watch) : SegBlind (fun v => v.watchMissed h w) := by
  constructor <;> intros <;> unfold State.watchMissed <;> by_cases last : w.remaining = 1 <;> simp [last]

theorem SegBlind.failureReport (h : Handle) : SegBlind (fun u => u.failureReport h) := ⟨by simp, by simp⟩

theorem State.deliver_watch (hk : d.kind = .watch) (he : d.entry = some h) (hw : (u.entry h).watch = some w) (active : w.probe = .active) :
    u.deliver g d o = (((u.setEntry h { u.entry h with watch := some (w.count o) }).report h o).watchOutcome h o).fall h := by
  simp [State.deliver, hk, he, State.endWatchProbe, hw, active, State.modEntry_eq]

/-- What is left of a watch whose probe did not succeed, once the entry has its report. -/
theorem State.watchOutcome_missed {v : State} (fault : o.isFault = true) (left : 1 ≤ w.remaining) (live : (v.entry h).state ≠ .retiring) :
    ((v.setEntry h { v.entry h with watch := some (w.count o) }).watchOutcome h o).fall h = v.watchMissed h w := by
  have ends : ¬(o = .busStuck ∨ o = .aborted) ∧ o ≠ .ok := by cases o <;> simp_all [Outcome.isFault]
  have count : w.count o = { w with probe := .none, probes := w.probes + 1, remaining := w.remaining - 1 } := by
    cases o with
    | ok | busStuck | aborted => cases fault
    | addrNack | dataNack | clockTimeout | arbLost | busBusy => rfl
  have last : w.remaining - 1 = 0 ↔ w.remaining = 1 := by omega
  unfold State.watchMissed State.watchOutcome
  simp only [State.entry_setEntry_same, count, ends.1, ends.2, false_and, if_false, last]
  split
  · rw [State.answerWatch_told _ _ _ rfl, State.fall_live (by simpa [Entry.endWatch_eq] using live)]
    simp [Entry.endWatch_eq, Entry.watchDue, State.watchTold, bit, State.respond_eq]
  · rw [State.fall_live (by simpa [State.modEntry_eq] using live)]
    simp [State.modEntry_eq]

/-- A watch probe that is not acknowledged or runs out of time: a failure report, and a probe used up. -/
theorem State.deliver_watch_failed (hk : d.kind = .watch) (he : d.entry = some h) (hw : (u.entry h).watch = some w)
    (active : w.probe = .active) (left : 1 ≤ w.remaining) (live : (u.entry h).state = .lost ∨ (u.entry h).state = .suspect)
    (ho : o = .addrNack ∨ o = .clockTimeout) : u.deliver g d o = (u.failureReport h).watchMissed h w := by
  have kind : o.isSuccess = false ∧ o.isFailure = true ∧ o.isFault = true := by rcases ho with rfl | rfl <;> exact ⟨rfl, rfl, rfl⟩
  have stays : ((u.failureReport h).entry h).state ≠ .retiring := by
    rw [ne_eq, (u.reported_failureReport h).retiring_iff]
    rcases live with hs | hs <;> simp [hs]
  rw [State.deliver_watch hk he hw active, State.report_failure kind.1 kind.2.1, State.failureReport_setWatch,
    State.watchOutcome_missed kind.2.2 left stays]

/-- A watch probe that learned nothing: no report, and a probe used up. -/
theorem State.deliver_watch_unheard (hk : d.kind = .watch) (he : d.entry = some h) (hw : (u.entry h).watch = some w)
    (active : w.probe = .active) (left : 1 ≤ w.remaining) (live : (u.entry h).state = .lost ∨ (u.entry h).state = .suspect)
    (ho : o = .arbLost ∨ o = .busBusy) : u.deliver g d o = u.watchMissed h w := by
  have kind : o.isSuccess = false ∧ o.isFailure = false ∧ o.isFault = true := by rcases ho with rfl | rfl <;> exact ⟨rfl, rfl, rfl⟩
  rw [State.deliver_watch hk he hw active, State.report_none kind.1 kind.2.1,
    State.watchOutcome_missed kind.2.2 left (by rcases live with hs | hs <;> simp [hs])]

/-- The device of a LOST entry acknowledges: its re-admission begins (02 R38, 06 R126). -/
theorem State.deliver_watch_readmits (hk : d.kind = .watch) (he : d.entry = some h) (hw : (u.entry h).watch = some w)
    (active : w.probe = .active) (lost : (u.entry h).state = .lost) : u.deliver g d .ok = u.setEntry h { u.entry h with
      state := .probing, fails := 0, watch := some { w with probe := .none, probes := w.probes + 1, remaining := w.remaining - 1 }
      adm := some ⟨.re, .probe, .watch, none, none, .waiting⟩ } := by
  have quiet : (u.setEntry h { u.entry h with watch := some (w.count .ok) }).report h .ok =
      u.setEntry h { u.entry h with watch := some (w.count .ok) } := State.report_of_unreachable (by simp [Entry.reachable, lost]) .ok
  have begins : (u.setEntry h { u.entry h with watch := some (w.count .ok) }).watchOutcome h .ok =
      (u.setEntry h { u.entry h with watch := some (w.count .ok) }).beginReadmission h .watch := by
    simp [State.watchOutcome, lost]
  rw [State.deliver_watch hk he hw active, quiet, begins, State.fall_beginReadmission]
  simp [Entry.readmitting, Entry.watchDue, Watch.count]

/-- The device of a SUSPECT entry acknowledges: the entry is PRESENT, and the watch is answered RECOVERED (06 R119). -/
theorem State.deliver_watch_recovers (hk : d.kind = .watch) (he : d.entry = some h) (hw : (u.entry h).watch = some w)
    (active : w.probe = .active) (suspect : (u.entry h).state = .suspect) : u.deliver g d .ok =
      ((u.setEntry h { u.entry h with state := .present, fails := 0, watch := none, inflight := (u.entry h).inflight - 1 }).postWhere
        (fun q => ((u.entry h).subs q).health) .health (.entry h (u.entry h).gen) 0x02).respond w.port w.tag .ok
          [byte h.val, byte (u.entry h).gen.val, 0x02, byte (w.probes + 1), 0x01] := by
  have recovered : (u.setEntry h { u.entry h with watch := some (w.count .ok) }).report h .ok =
      ((u.setEntry h { u.entry h with state := .present, fails := 0, watch := none }).postWhere (fun q => ((u.entry h).subs q).health) .health
        (.entry h (u.entry h).gen) 0x02).respond w.port w.tag .ok [byte h.val, byte (u.entry h).gen.val, 0x02, byte (w.probes + 1), 0x01] := by
    have told : ∀ (v : State) (aux : Byte), v.answerWatch h .ok aux = (v.setEntry h (v.entry h).endWatch).watchTold h (v.entry h)
        (v.entry h).gen .ok (entryStateCode (v.entry h).state) aux := fun v aux => State.answerWatch_told v h aux rfl
    rw [State.report_success rfl]
    simp [State.successReport, suspect, told, State.modEntry_eq, State.postHealth, State.subject, Entry.subs, Entry.endWatch_eq, Entry.watchDue,
      State.watchTold, Watch.count, bit, entryStateCode, howRecovered]
  rw [State.deliver_watch hk he hw active, recovered]
  simp [State.watchOutcome, State.fall_live]

/-- After a recovery that fails, and where a SEGMENT_RESET cuts it, the probe is due again (06 R125). -/
theorem State.deliver_watch_again (hk : d.kind = .watch) (he : d.entry = some h) (hw : (u.entry h).watch = some w)
    (active : w.probe = .active) (live : (u.entry h).state = .lost ∨ (u.entry h).state = .suspect) (ho : o = .busStuck ∨ o = .aborted) :
    u.deliver g d o = u.setEntry h { u.entry h with watch := some { w with probe := .due } } := by
  have kind : o.isSuccess = false ∧ o.isFailure = false := by rcases ho with rfl | rfl <;> exact ⟨rfl, rfl⟩
  have count : w.count o = { w with probe := .none } := by rcases ho with rfl | rfl <;> rfl
  have stays : (u.entry h).state ≠ .retiring := by rcases live with hs | hs <;> simp [hs]
  rw [State.deliver_watch hk he hw active, State.report_none kind.1 kind.2, count]
  simp only [State.watchOutcome, State.entry_setEntry_same, if_pos ho]
  rw [State.fall_live (by simpa [State.modEntry_eq, Entry.rise] using stays)]
  simp [State.modEntry_eq, Entry.rise]

end WatchProbe

/-- Settles O47: a probe that is due joins BACKGROUND; its end is a success of the entry, or uses up a probe of the watch. -/
theorem watchProbesDueAndEnd : Obligations.WatchProbesDueAndEnd := by
  refine ⟨fun s h pl w hw hp hn hs hpl => ?_, fun s g c h w on hk he pend hw active counted => ?_⟩
  · have runs : (s.entry h).watchRuns = true := by rcases hs with hs | hs <;> simp [Entry.watchRuns, hs, hw, hp]
    show Host.Outcome.next _ = _
    simp [State.watchProbeDue, runs, hw, hn, State.becomeDue, State.atSegOf, State.modEntry_eq, Entry.rise, hpl]
  · intro e idle more answer
    have reach : ∀ x, exec (.watchProbeEnd g x) s = .next (s.transferEnds g c x) := by
      intro x
      have ends := on.exec_ends x
      rw [hk] at ends
      exact ends
    refine ⟨fun lost rx => ?_, fun suspect rx => ?_, fun live k hk' => ?_⟩
    · have told := State.deliver_watch_readmits (u := s.freed g .ok) (g := g) (d := c.at (sends c.plan).length (receivedAll c.plan rx)) hk he
        (by simpa using hw) active (by simpa using lost)
      rw [reach, State.transferEnds_done, State.endTransfer_idle (SegBlind.setEntry h _) told pend on.hold (by decide), State.entry_freed]
      rfl
    · have told := State.deliver_watch_recovers (u := s.freed g .ok) (g := g) (d := c.at (sends c.plan).length (receivedAll c.plan rx)) hk he
        (by simpa using hw) active (by simpa using suspect)
      rw [reach, State.transferEnds_done, State.endTransfer_idle (((SegBlind.setEntry h _).comp (SegBlind.postWhere ..)).comp
        (SegBlind.respond ..)) told pend on.hold (by decide), State.entry_freed]
      rfl
    · intro v
      have ends : 1 ≤ w.remaining → exec (.watchProbeEnd g (.nack k)) s = .next ((v.watchMissed h w).choose g) := by
        intro left
        have told := State.deliver_watch_failed (u := s.freed g .addrNack) (g := g) (d := c.at k []) hk he (by simpa using hw) active left
          (by simpa using live) (.inl rfl)
        rw [reach, State.transferEnds_addr s g hk',
          State.endTransfer_idle ((SegBlind.failureReport h).comp (SegBlind.watchMissed h w)) told pend on.hold (by decide)]
        rfl
      have gen : (v.entry h).gen = e.gen := (State.reported_failureReport idle h).fields.2.2.1
      have inflight : (v.entry h).inflight = e.inflight := State.inflight_failureReport idle h
      refine ⟨fun last => ?_, fun left => ?_⟩
      · rw [ends (by omega), State.watchMissed, if_pos last]
        simp only [answer, ← gen, ← inflight]
      · rw [ends (by omega), State.watchMissed, if_neg (by omega), inflight]

/-! ## The faults of the bus -/

/-- The outcomes of the three faults of the bus (04 R85 to R87). -/
def Outcome.isBusFault : Outcome → Bool
  | .clockTimeout | .arbLost | .busBusy => true
  | .ok | .addrNack | .dataNack | .busStuck | .aborted => false

section BusFaults

variable {s : State} {g : Seg} {c : Current} {f : Status → State → State}

/-- A fault is told as `D`, with the survey of the segment as given; then the segment is IDLE or RECOVERING, by the fault (04 R85 to R88). -/
theorem OnBus.faultsEnd_survey {D : Outcome → State → State} {survey : Outcome → Option Cursor} (on : OnBus s g c)
    (pend : (s.seg g).pendcmd = none) (blind : ∀ o, SegBlind (D o))
    (told : ∀ d : Current, d.kind = c.kind → d.entry = c.entry → ∀ o : Outcome, o.isBusFault = true → (s.freed g o).deliver g d o =
      D o (s.setSeg g { s.seg g with current := none, lines := o.lines, survey := survey o }))
    (said : ∀ o : Outcome, o.isBusFault = true → ∀ r : Segment, r.survey = (s.seg g).survey →
      f o.status (s.setSeg g r) = D o (s.setSeg g { r with survey := survey o })) : FaultsEnd s g c f where
  arbLost pr lt last := by
    rw [on.exec_arbLost, State.losesArbitration_last s g lt last, State.endTransfer_idle (blind .arbLost)
      (told (c.advance pr) rfl rfl .arbLost rfl) pend on.hold (by decide)]
    exact congrArg (fun u : State => Host.Outcome.next (u.choose g))
      (said .arbLost rfl { s.seg g with state := .idle, current := none, lines := .released } rfl).symm
  busBusy hr := by
    rw [on.exec_busBusy, State.waitsTooLong_ends s g hr, State.endTransfer_idle (blind .busBusy) (told c rfl rfl .busBusy rfl) pend on.hold
      (by decide)]
    exact congrArg (fun u : State => Host.Outcome.next (u.choose g))
      (said .busBusy rfl { s.seg g with state := .idle, current := none, lines := .released } rfl).symm
  clockTimeout pr := by
    rw [on.exec_clockTimeout, State.endTransfer_clockTimeout (blind .clockTimeout) (told (c.advance pr) rfl rfl .clockTimeout rfl) pend]
    exact congrArg Host.Outcome.next
      (said .clockTimeout rfl { s.seg g with state := .recovering, current := none, lines := .released } rfl).symm

/-- A fault of a transfer that is no survey's. -/
theorem OnBus.faultsEnd_plain (on : OnBus s g c) (pend : (s.seg g).pendcmd = none) (blind : ∀ o : Outcome, SegBlind (f o.status))
    (told : ∀ d : Current, d.kind = c.kind → d.entry = c.entry → ∀ o : Outcome, o.isBusFault = true →
      (s.freed g o).deliver g d o = f o.status (s.freed g o)) : FaultsEnd s g c f :=
  on.faultsEnd_survey pend (D := fun o => f o.status) (survey := fun _ => (s.seg g).survey) blind told
    fun o _ r hr => by rw [← hr]

end BusFaults

/-! ### On the transfer of an admission -/

/-- How an admission ends whose transfer met a fault: the address probe fails it, a read gives every default (02 R26, R34, R39). -/
def State.admissionFaulted (u : State) (h : Handle) (e : Entry) (pl : Place) (a : AdmRec) (st : Status) : State :=
  match a.kind, a.step with
  | .first, .probe => u.firstFailed h e a pl st
  | .re, .probe => u.lostAgain h e
  | .first, .sizeRead | .first, .bodyRead => u.firstPresent h e a {} .defaulted
  | .re, .sizeRead | .re, .bodyRead => u.readmitted h e {} .defaulted

theorem SegBlind.admissionFaulted (h : Handle) (e : Entry) (pl : Place) (a : AdmRec) (st : Status) :
    SegBlind (fun u => u.admissionFaulted h e pl a st) := by
  unfold State.admissionFaulted
  split
  · exact .firstFailed ..
  · exact .lostAgain ..
  · exact .firstPresent ..
  · exact .firstPresent ..
  · exact .readmitted ..
  · exact .readmitted ..

theorem State.admissionNext_faulted {u : State} {h : Handle} {pl : Place} {a : AdmRec} {o : Outcome} (ho : o.isFault = true) (rx : List Byte)
    (hpl : (u.entry h).place = some pl) (ha : (u.entry h).adm = some a) (calm : ∀ w ∈ (u.entry h).watch, w.probe = .none)
    (mode : pl.dmode = .fetch ∨ a.step = .probe) : (u.modEntry h Entry.lower).admissionNext h a o rx =
      u.admissionFaulted h (u.entry h) pl a o.status := by
  by_cases step : a.step = .probe
  · rw [State.admissionNext_failed ho rx step]
    unfold State.failAdmission State.admissionFaulted
    cases hk : a.kind with
    | first => simp only [step]; exact State.failFirst_lower ha hpl o.status
    | re => simp only [step]; exact State.failRe_lower calm
  · have fetch : (u.entry h).dmode = .fetch := by simpa [Entry.dmode, hpl] using mode.resolve_right step
    rw [State.admissionNext_defaulted ho rx step fetch calm]
    unfold State.admittedAs State.admissionFaulted
    cases hstep : a.step with
    | probe => exact absurd hstep step
    | sizeRead | bodyRead => cases hk : a.kind <;> rfl

theorem Outcome.isFault_of_isBusFault {o : Outcome} (ho : o.isBusFault = true) : o.isFault = true := by
  cases o with
  | clockTimeout | arbLost | busBusy => rfl
  | ok | addrNack | dataNack | busStuck | aborted => cases ho

/-! ### On the probe of a survey -/

/-- The cursor and the answer of a survey that goes on to its next address, or has judged its last one (07 R133, R138). -/
def Cursor.onward (k : Cursor) : Option Cursor :=
  if k.next < k.high then some { k with next := k.next + 1, named := none, probe := .waiting } else none

def State.walkAnswered (u : State) (g : Seg) (k : Cursor) : State :=
  if k.next < k.high then u else u.respond k.port k.tag .ok (surveyResult g { k with next := k.next + 1 })

theorem SegBlind.walkAnswered (g : Seg) (k : Cursor) : SegBlind (fun u => u.walkAnswered g k) := by
  unfold State.walkAnswered
  split
  · exact .id
  · exact .respond ..

theorem State.walkOn_eq (u : State) (g : Seg) (r : Segment) (k : Cursor) :
    u.walkOn g r k = (u.setSeg g { r with survey := k.onward }).walkAnswered g k := by
  unfold State.walkOn State.walkAnswered Cursor.onward
  split <;> rfl

section SurveyFault

variable {s : State} {g : Seg} {d : Current} {cu k : Cursor} {o : Outcome} {D : State → State} {h : Handle}

/-- A survey probe meets a fault: its address is judged as `k` counts it, and the walk goes on. -/
theorem State.deliver_survey (blind : SegBlind D) (hk : d.kind = .survey) (survey : (s.seg g).survey = some cu) (active : cu.probe = .active)
    (ho : o.isFault = true) (judged : ∀ v : State, v.judge g cu (s.listedAt g cu.next) o = (v, k))
    (bounds : k.next = cu.next ∧ k.high = cu.high)
    (done : ((s.freed g o).reportNamed d.entry o).fallNamed d.entry = D (s.freed g o)) :
    (s.freed g o).deliver g d o = (D (s.setSeg g { s.seg g with current := none, lines := o.lines, survey := k.onward })).walkAnswered g k := by
  have ends : ¬(o = .busStuck ∨ o = .aborted) := by cases o <;> simp_all [Outcome.isFault]
  have kept : ((s.freed g o).reportNamed d.entry o).seg g = { s.seg g with current := none, lines := o.lines } := by
    have same := congrArg (fun u => u.seg g) done
    simpa [blind.seg] using same
  obtain ⟨hn, hh⟩ := bounds
  have told : (s.freed g o).deliver g d o =
      let w := (D (s.freed g o)).setSeg g { s.seg g with
        current := none, lines := o.lines, survey := some { k with next := k.next + 1, named := none, probe := .waiting } }
      if k.high < k.next + 1 then w.answerSurvey g .ok else w := by
    rw [State.deliver, hk]
    simp only [State.endSurveyProbe_eq, State.seg_freed, survey, active, if_true, if_neg ends, State.listedAt_freed, judged, State.modSeg_eq,
      ← State.setSeg_fallNamed, done, kept, hn, hh]
  by_cases more : k.next < k.high
  · simp only [if_neg (by omega : ¬k.high < k.next + 1), blind.setSeg, State.setSeg_freed] at told
    simp only [told, State.walkAnswered, Cursor.onward, if_pos more]
  · simp only [if_pos (by omega : k.high < k.next + 1)] at told
    rw [told, State.answerSurvey_setSeg _ _ rfl, blind.setSeg, State.setSeg_freed]
    simp only [State.walkAnswered, Cursor.onward, if_neg more]
    rfl

/-- A listed entry is counted MISSING where its probe ran out of time while it was PRESENT or SUSPECT; another fault counts nothing (07 R137). -/
theorem State.judge_listed_fault (v : State) {x : EntryState} (ho : o.isBusFault = true) :
    v.judge g cu (some (h, x)) o =
      (v, { cu with missing := if o.status = .clockTimeout ∧ (x = .present ∨ x = .suspect) then cu.missing + 1 else cu.missing }) := by
  cases o with
  | ok | addrNack | dataNack | busStuck | aborted => cases ho
  | clockTimeout => cases x <;> rfl
  | arbLost | busBusy => cases x <;> rfl

theorem State.report_busFault (v : State) (h : Handle) (ho : o.isBusFault = true) :
    v.report h o = if o.status = .clockTimeout then v.failureReport h else v := by
  cases o with
  | ok | addrNack | dataNack | busStuck | aborted => cases ho
  | clockTimeout => rfl
  | arbLost | busBusy => rfl

theorem State.judge_unlisted_fault (v : State) (ho : o.isFault = true) : v.judge g cu none o = (v, cu) := by
  cases o with
  | ok | busStuck | aborted => cases ho
  | addrNack | dataNack | clockTimeout | arbLost | busBusy => rfl

end SurveyFault

/-! ### Work that is planned again -/

section Again

variable {s u : State} {g : Seg} {c d : Current} {h : Handle} {f : Entry}

/-- An admission transfer that is cut is planned again, and so is one of a re-admission after a failed recovery (02 R26). -/
theorem State.deliver_admission_again {a : AdmRec} {o : Outcome} (hk : d.kind = .admission) (he : d.entry = some h)
    (probing : (u.entry h).state = .probing) (ha : (u.entry h).adm = some a) (hp : a.planned = .active) (counted : 1 ≤ (u.entry h).inflight)
    (ho : o = .aborted ∨ (o = .busStuck ∧ a.kind = .re)) :
    u.deliver g d o = u.setEntry h { u.entry h with adm := some { a with planned := .waiting } } := by
  have quiet : u.report h o = u := State.report_of_unreachable (by simp [Entry.reachable, probing]) o
  have replanned : ∀ v : State, v.admissionNext h a o d.rx = v.modEntry h (fun e => e.plan a) := by
    intro v
    rcases ho with rfl | ⟨rfl, re⟩
    · rfl
    · simp only [State.admissionNext, re]
  simp [State.deliver, hk, he, State.endAdmissionTransfer, quiet, ha, hp, replanned, State.modEntry_eq, Entry.plan, Entry.rise, Entry.lower,
    Nat.sub_add_cancel counted]

/-- A SEGMENT_RESET cuts an admission transfer or a watch probe: its work is told first (04 R75). -/
theorem State.resetSegment_cut (current : (s.seg g).current = some c) (hk : c.kind = .admission ∨ c.kind = .watch) (p : Port) (t : Tag)
    (pr : Progress) : s.resetSegment p t g pr =
      (((s.setSeg g { s.seg g with current := none }).deliver g (c.advance pr) .aborted).completeAll g .segmentReset).resetRest g (p, t) := by
  have cut : (s.seg g).current.map (fun x => x.advance pr) = some (c.advance pr) := by rw [current]; rfl
  rcases hk with hk | hk <;>
  · replace hk := (show (c.advance pr).kind = c.kind from rfl).trans hk
    simp only [State.resetSegment, cut, State.cutTransfer, hk, State.cutSurvey, State.cutSweep, reduceCtorEq, if_false, State.resetRest]
    rfl

/-- The entry whose work has been told is left by the rest of a SEGMENT_RESET. -/
theorem State.entry_resetSegment_cut (current : (s.seg g).current = some c) (hk : c.kind = .admission ∨ c.kind = .watch)
    (free : (s.seg g).hold = none) (alone : ∀ t ∈ (s.seg g).hostq, t.handle ≠ h) (p : Port) (t : Tag) (pr : Progress)
    (told : (s.setSeg g { s.seg g with current := none }).deliver g (c.advance pr) .aborted =
      (s.setSeg g { s.seg g with current := none }).setEntry h f) : (s.resetSegment p t g pr).entry h = f := by
  rw [State.resetSegment_cut current hk, told, State.entry_resetRest (by simpa using free), State.entry_completeAll (by simpa using alone),
    State.entry_setEntry_same]

/-- A failed recovery within a transfer ends it BUS_STUCK, and the segment becomes STUCK (04 R89, R91). -/
theorem State.endTransfer_stuck {v : State} (pend : (s.seg g).pendcmd = none) (told : (s.freed g .busStuck).deliver g c .busStuck = v)
    (kept : (v.seg g).pendcmd = (s.seg g).pendcmd) : s.endTransfer g c .busStuck = v.becomeStuck g stuckInTransfer := by
  rw [State.endTransfer_eq, told]
  simp [State.afterTransfer, kept, pend]

/-- The entry whose work has been told is left where the segment becomes STUCK, unless it is under first admission. -/
theorem State.entry_endTransfer_stuck (pend : (s.seg g).pendcmd = none) (alone : ∀ t ∈ (s.seg g).hostq, t.handle ≠ h)
    (out : f.admits g .first = false) (told : (s.freed g .busStuck).deliver g c .busStuck = (s.freed g .busStuck).setEntry h f) :
    (s.endTransfer g c .busStuck).entry h = f := by
  rw [State.endTransfer_stuck pend told (by simp), State.entry_becomeStuck (by simpa using alone) (by simpa using out),
    State.entry_setEntry_same]

/-- Where a SEGMENT_RESET cuts the transfer of `h`, the entry is left as its work makes it. -/
theorem exec_cut_again (active : (s.seg g).state = .active) (current : (s.seg g).current = some c) (hk : c.kind = .admission ∨ c.kind = .watch)
    (free : (s.seg g).hold = none) (pend : (s.seg g).pendcmd = none) (alone : ∀ t ∈ (s.seg g).hostq, t.handle ≠ h)
    (told : ∀ (u : State) (d : Current), u.entry h = s.entry h → d.kind = c.kind → d.entry = c.entry →
      u.deliver g d .aborted = u.setEntry h f) (p : Port) (t : Tag) (pr : Progress) (ready : Ready s p t) :
    ∃ u, exec (.segmentReset p (byte t.val) [byte g.val] pr) s = .next u ∧ u.entry h = f := by
  refine ⟨_, exec_segmentReset_taken ready (by simp [active]) pend pr, State.entry_resetSegment_cut (by simpa using current) hk
    (by simpa using free) (by simpa using alone) p t pr (told _ _ (by simp) rfl rfl)⟩

/-- Where a recovery within the transfer of `h` fails, the entry is left as its work makes it. -/
theorem exec_stuck_again (active : (s.seg g).state = .active) (current : (s.seg g).current = some c) (pend : (s.seg g).pendcmd = none)
    (alone : ∀ t ∈ (s.seg g).hostq, t.handle ≠ h) (out : f.admits g .first = false)
    (told : ∀ (u : State) (d : Current), u.entry h = s.entry h → d.kind = c.kind → d.entry = c.entry →
      u.deliver g d .busStuck = u.setEntry h f) (recovering : c.recovering = true) :
    ∃ u, exec (.recoveryEnd g (List.replicate 10 .dataLow)) s = .next u ∧ u.entry h = f :=
  ⟨_, exec_recoveryEnd_fails active current recovering, State.entry_endTransfer_stuck pend alone out (told _ _ (by simp) rfl rfl)⟩

end Again

/-- Settles O40: each fault is handed to the work of its transfer, by its kind; a cut or a failed recovery plans the work again. -/
theorem busFaultsEndBackgroundWork : Obligations.BusFaultsEndBackgroundWork := by
  refine ⟨fun s g c h pl a on hk he pend hs hpl ha hplan calm mode => ?_, fun s g c h w on hk he pend hw active left counted live => ?_,
    fun s g c cu on hk pend survey active _ => ?_, fun s g c h active current free he pend counted alone => ?_⟩
  · refine on.faultsEnd_plain (f := fun st u => u.admissionFaulted h (s.entry h) pl a st) pend (fun o => .admissionFaulted ..) ?_
    intro d hdk hde o ho
    rw [State.deliver_admission (hdk.trans hk) (hde.trans he) hs ha hplan, State.admissionNext_faulted (Outcome.isFault_of_isBusFault ho) _
      (by simpa using hpl) (by simpa using ha) (by simpa using calm) mode, State.entry_freed]
  · refine on.faultsEnd_plain (f := fun st u => (if st = .clockTimeout then u.failureReport h else u).watchMissed h w) pend (fun o => ?_) ?_
    · by_cases hc : o.status = .clockTimeout
      · simp only [hc, if_true]; exact (SegBlind.failureReport h).comp (.watchMissed h w)
      · simp only [hc, if_false]; exact .watchMissed h w
    · intro d hdk hde o ho
      have watched : ((s.freed g o).entry h).watch = some w := by simpa using hw
      have state : ((s.freed g o).entry h).state = .lost ∨ ((s.freed g o).entry h).state = .suspect := by simpa using live
      cases o with
      | clockTimeout => exact State.deliver_watch_failed (hdk.trans hk) (hde.trans he) watched active left state (.inr rfl)
      | arbLost => exact State.deliver_watch_unheard (hdk.trans hk) (hde.trans he) watched active left state (.inl rfl)
      | busBusy => exact State.deliver_watch_unheard (hdk.trans hk) (hde.trans he) watched active left state (.inr rfl)
      | ok | addrNack | dataNack | busStuck | aborted => cases ho
  · intro walked
    have walks : ∀ (u : State) (m : Nat), walked u m = u.walkOn g (u.seg g) { cu with missing := m } := fun _ _ => rfl
    refine ⟨fun unnamed passed => ?_, fun h named at_ ok last => ?_⟩
    · refine on.faultsEnd_survey pend (D := fun _ u => u.walkAnswered g cu) (survey := fun _ => cu.onward) (fun _ => .walkAnswered ..) ?_ ?_
      · intro d hdk hde o ho
        have unnamed' := hde.trans unnamed
        refine State.deliver_survey SegBlind.id (hdk.trans hk) survey active (Outcome.isFault_of_isBusFault ho) (fun v => ?_) ⟨rfl, rfl⟩
          (by rw [unnamed']; rfl)
        cases found : s.find g .seven cu.next with
        | none => rw [State.listedAt_none (State.find_eq_none.1 found), State.judge_unlisted_fault v (Outcome.isFault_of_isBusFault ho)]
        | some k => rw [State.listedAt_some found, State.judge_passed v g cu (passed k (State.at_of_find found)) o]
      · intro o _ r _
        rw [walks, State.walkOn_eq]
        simp
    · have found : s.find g .seven cu.next = some h := State.find_eq ok at_
      let missed (o : Outcome) : Cursor :=
        { cu with missing := if o.status = .clockTimeout ∧ ((s.entry h).state = .present ∨ (s.entry h).state = .suspect)
            then cu.missing + 1 else cu.missing }
      refine on.faultsEnd_survey pend (D := fun o u => ((u.report h o).workEnds h).walkAnswered g (missed o))
        (survey := fun o => (missed o).onward) (fun o => ((SegBlind.report h o).comp (.workEnds h)).comp (.walkAnswered ..)) ?_ ?_
      · intro d hdk hde o ho
        have entry := hde.trans named
        refine State.deliver_survey ((SegBlind.report h o).comp (.workEnds h)) (hdk.trans hk) survey active (Outcome.isFault_of_isBusFault ho)
          (fun v => ?_) ⟨rfl, rfl⟩ ?_
        · rw [State.listedAt_some found, State.judge_listed_fault v ho]
        · rw [entry]
          exact State.fall_eq _ h (((s.freed g o).reported_report h o).endsOk (by simpa using last))
      · intro o ho r _
        have walks : ∀ (u : State) (m : Nat), walked u m = u.walkOn g (u.seg g) { cu with missing := m } := fun _ _ => rfl
        simp only [walks, State.walkOn_eq, ← State.report_busFault _ h ho]
        simp [missed]
  · refine ⟨fun a hk probing ha hp => ?_, fun w hk live hw probed => ?_⟩
    · have told : ∀ o, (o = .aborted ∨ (o = .busStuck ∧ a.kind = .re)) → ∀ (u : State) (d : Current), u.entry h = s.entry h → d.kind = c.kind →
          d.entry = c.entry → u.deliver g d o = u.setEntry h { s.entry h with adm := some { a with planned := .waiting } } := by
        intro o ho u d same hdk hde
        rw [State.deliver_admission_again (hdk.trans hk) (hde.trans he) (by rw [same]; exact probing) (by rw [same]; exact ha) hp
          (by rw [same]; exact counted) ho, same]
      exact ⟨exec_cut_again active current (.inl hk) free pend alone (told .aborted (.inl rfl)), fun re =>
        exec_stuck_again active current pend alone (by simp [Entry.admits, re]) (told .busStuck (.inr ⟨rfl, re⟩))⟩
    · have told : ∀ o, (o = .busStuck ∨ o = .aborted) → ∀ (u : State) (d : Current), u.entry h = s.entry h → d.kind = c.kind →
          d.entry = c.entry → u.deliver g d o = u.setEntry h { s.entry h with watch := some { w with probe := .due } } := by
        intro o ho u d same hdk hde
        rw [State.deliver_watch_again (hdk.trans hk) (hde.trans he) (by rw [same]; exact hw) probed (by rw [same]; exact live) ho, same]
      exact ⟨exec_cut_again active current (.inr hk) free pend alone (told .aborted (.inr rfl)),
        exec_stuck_again active current pend alone (by rcases live with hs | hs <;> simp [Entry.admits, hs]) (told .busStuck (.inl rfl))⟩

end Sys2Proof.Machine
end

