-- ==== Sys2Proof/Proofs/OpenOrders.lean ====
section
/-! PROOFS. Several effects of one step in an order that is left open (log entry 5), and what a port has been told: the answers that wait in RESPQ, and the
notices that were posted. -/

namespace Sys2Proof.Machine

/-! ## The open order is a rearrangement -/

section Order

variable {α β : Type}

theorem arrange_perm (ns : List Nat) (l : List α) : (arrange ns l).Perm l := by
  induction ns generalizing l with
  | nil => cases l <;> exact .refl _
  | cons n ns ih =>
    cases l with
    | nil => exact .refl _
    | cons x xs =>
      have lt : n % (x :: xs).length < (x :: xs).length := Nat.mod_lt _ (by simp)
      simp only [arrange, List.getElem?_eq_getElem lt]
      exact ((ih _).cons _).trans (List.getElem_cons_eraseIdx_perm lt)

theorem State.anyOrder_perm (s : State) (l : List α) : (s.anyOrder l).1.Perm l := by
  unfold State.anyOrder
  split
  · exact .refl l
  · exact arrange_perm _ l

@[simp] theorem State.seg_anyOrder (s : State) (l : List α) (g : Seg) : (s.anyOrder l).2.seg g = s.seg g := by
  unfold State.anyOrder; split <;> rfl

@[simp] theorem State.port_anyOrder (s : State) (l : List α) (p : Port) : (s.anyOrder l).2.port p = s.port p := by
  unfold State.anyOrder; split <;> cases p <;> rfl

@[simp] theorem State.forAnyOrder_nil (s : State) (f : State → α → State) : s.forAnyOrder [] f = s := rfl

theorem State.seg_forAnyOrder {l : List α} {f : State → α → State} {g : Seg} (hf : ∀ u, ∀ a ∈ l, (f u a).seg g = u.seg g) (s : State) :
    (s.forAnyOrder l f).seg g = s.seg g := by
  rw [State.forAnyOrder, State.foldl_frame (view := fun u => u.seg g), State.seg_anyOrder]
  exact fun u a ha => hf u a (State.mem_anyOrder ha)

/-- The turn of an element of the list: what comes before it, its own effect, and what comes after it. Nothing else changes what is viewed. -/
theorem State.foldl_turn {f : State → α → State} (quiet : ∀ u a, Quiet u (f u a)) {l : List α} {a : α} (ha : a ∈ l) (nodup : l.Nodup)
    {view : State → β} (frame : ∀ u, ∀ b ∈ l, b ≠ a → view (f u b) = view u) (s : State) :
    ∃ v, view v = view s ∧ Quiet s v ∧ Quiet (f v a) (l.foldl f s) ∧ view (l.foldl f s) = view (f v a) := by
  obtain ⟨pre, post, rfl⟩ := List.append_of_mem ha
  obtain ⟨-, nodup', apart⟩ := List.nodup_append.1 nodup
  have before : ∀ u, ∀ b ∈ pre, view (f u b) = view u := fun u b hb =>
    frame u b (List.mem_append_left _ hb) fun same => apart b hb a List.mem_cons_self same
  have after : ∀ u, ∀ b ∈ post, view (f u b) = view u := fun u b hb =>
    frame u b (List.mem_append_right _ (List.mem_cons_of_mem _ hb)) fun same => (List.nodup_cons.1 nodup').1 (same ▸ hb)
  rw [List.foldl_append, List.foldl_cons]
  exact ⟨pre.foldl f s, State.foldl_frame before s, .foldl quiet pre s, .foldl quiet post _, State.foldl_frame after _⟩

/-- The turn of an element of the list, in any order. -/
theorem State.forAnyOrder_turn {f : State → α → State} (quiet : ∀ u a, Quiet u (f u a)) {l : List α} {a : α} (ha : a ∈ l) (nodup : l.Nodup)
    {view : State → β} (frame : ∀ u, ∀ b ∈ l, b ≠ a → view (f u b) = view u) (s : State) (blind : view (s.anyOrder l).2 = view s) :
    ∃ v, view v = view s ∧ Quiet s v ∧ Quiet (f v a) (s.forAnyOrder l f) ∧ view (s.forAnyOrder l f) = view (f v a) := by
  have perm := s.anyOrder_perm l
  obtain ⟨v, same, before, after, done⟩ := State.foldl_turn quiet (perm.mem_iff.2 ha) (perm.nodup_iff.2 nodup)
    (fun u b hb => frame u b (perm.mem_iff.1 hb)) (s.anyOrder l).2
  exact ⟨v, same.trans blind, (Quiet.anyOrder s l).trans before, after, done⟩

end Order

section Entries

variable {f : State → Handle → State} {E : Entry → Entry} {l : List Handle}

/-- Each handle's effect changes its own entry alone, so that one after the other they change each of theirs once. -/
theorem State.entry_foldl (own : ∀ u k h, (f u k).entry h = if h = k then E (u.entry k) else u.entry h) (nodup : l.Nodup) (s : State)
    (h : Handle) : (l.foldl f s).entry h = if h ∈ l then E (s.entry h) else s.entry h := by
  induction l generalizing s with
  | nil => simp
  | cons k l ih =>
    obtain ⟨out, nodup⟩ := List.nodup_cons.1 nodup
    rw [List.foldl_cons, ih nodup, own]
    by_cases hk : h = k
    · subst hk; simp [out]
    · simp [hk]

theorem State.entry_forAnyOrder_own (own : ∀ u k h, (f u k).entry h = if h = k then E (u.entry k) else u.entry h) (nodup : l.Nodup)
    (s : State) (h : Handle) : (s.forAnyOrder l f).entry h = if h ∈ l then E (s.entry h) else s.entry h := by
  have perm := s.anyOrder_perm l
  rw [State.forAnyOrder, State.entry_foldl own (perm.nodup_iff.2 nodup), State.entry_anyOrder]
  simp only [perm.mem_iff]

theorem nodup_handles : handles.Nodup := List.nodup_finRange 48

end Entries

/-! ## The answers that wait -/

section Answers

variable (s : State) (q : Port)

theorem State.answers_of_port {s t : State} {q : Port} (h : (t.port q).respq = (s.port q).respq) : t.answers q = s.answers q := by
  simp [State.answers, h]

@[simp] theorem State.answers_setEntry (h : Handle) (e : Entry) : (s.setEntry h e).answers q = s.answers q := State.answers_of_port (by simp)
@[simp] theorem State.answers_modEntry (h : Handle) (f : Entry → Entry) : (s.modEntry h f).answers q = s.answers q :=
  State.answers_of_port (by simp)
@[simp] theorem State.answers_setSeg (g : Seg) (r : Segment) : (s.setSeg g r).answers q = s.answers q := State.answers_of_port (by simp)
@[simp] theorem State.answers_modSeg (g : Seg) (f : Segment → Segment) : (s.modSeg g f).answers q = s.answers q :=
  State.answers_of_port (by simp)

@[simp] theorem State.respq_post (p : Port) (k : NoticeKind) (sub : Subject) (d : Byte) :
    ((s.post p k sub d).port q).respq = (s.port q).respq := by
  rw [State.post, State.port_modPort]
  split
  · next hq => rw [hq, PortRec.respq_offer]
  · rfl

@[simp] theorem State.answers_postWhere (who : Port → Bool) (k : NoticeKind) (sub : Subject) (d : Byte) :
    (s.postWhere who k sub d).answers q = s.answers q := by
  refine State.answers_of_port ?_
  unfold State.postWhere
  split_ifs <;> simp

theorem ownerAnswers_some (st : Status) (l : List Byte) (p : Port) (t : Tag) :
    ownerAnswers q st l (some (p, t)) = if p = q then [(t, st, l)] else [] := by
  by_cases hp : p = q <;> simp [ownerAnswers, hp]

@[simp] theorem ownerAnswers_none (st : Status) (l : List Byte) : ownerAnswers q st l none = [] := rfl

theorem State.answers_enqueue (p : Port) (r : Response) :
    (s.enqueue p r).answers q = s.answers q ++ if p = q then [(r.tag, r.status, r.result)] else [] := by
  by_cases hp : p = q
  · subst hp; simp [State.answers, State.enqueue]
  · simp [State.answers, State.enqueue, State.port_modPort_ne _ _ (Ne.symm hp), hp]

theorem State.answers_respond (p : Port) (t : Tag) (st : Status) (l : List Byte) :
    (s.respond p t st l).answers q = s.answers q ++ ownerAnswers q st l (some (p, t)) := by
  rw [State.respond, State.answers_enqueue, ownerAnswers_some]

theorem State.answers_respondTo (o : Option (Port × Tag)) (st : Status) (l : List Byte) :
    (s.respondTo o st l).answers q = s.answers q ++ ownerAnswers q st l o := by
  rcases o with _ | ⟨p, t⟩
  · simp [State.respondTo]
  · exact s.answers_respond q p t st l

/-- The answer that is placed last stands last. -/
theorem State.getLast_answers_respondTo {s : State} {q : Port} {o : Option (Port × Tag)} {st : Status} {l : List Byte}
    {x : Tag × Status × List Byte} (hx : x ∈ ownerAnswers q st l o) : ((s.respondTo o st l).answers q).getLast? = some x := by
  rw [State.answers_respondTo]
  rcases o with _ | ⟨p, t⟩
  · cases hx
  · rw [ownerAnswers_some] at hx ⊢
    split at hx
    · next hp => simp [List.mem_singleton.1 hx, hp]
    · cases hx

theorem State.answers_answerSurvey (g : Seg) (st : Status) :
    (s.answerSurvey g st).answers q = s.answers q ++ surveyAnswers q st g (s.seg g).survey := by
  unfold State.answerSurvey
  cases (s.seg g).survey with
  | none => simp [surveyAnswers]
  | some c =>
    rw [State.answers_respond, State.answers_modSeg, ownerAnswers_some]
    by_cases hp : c.port = q <;> simp [surveyAnswers, surveyResult, hp]

theorem queueAnswers_cons (st : Status) (t : HostTx) (l : List HostTx) :
    queueAnswers q st (t :: l) = queueAnswers q st [t] ++ queueAnswers q st l := by
  simp only [queueAnswers, ← List.map_append, ← List.filter_append, List.singleton_append]

theorem queueAnswers_single (st : Status) (t : HostTx) :
    queueAnswers q st [t] = if t.port = q ∧ t.orphan = false then [(t.tag, st, txResult t.kind 0 [])] else [] := by
  by_cases hp : t.port = q <;> cases ho : t.orphan <;> simp [queueAnswers, hp, ho]

theorem State.answers_give (t : HostTx) (r : Response) :
    (s.give t r).answers q = s.answers q ++ if t.port = q ∧ t.orphan = false then [(r.tag, r.status, r.result)] else [] := by
  unfold State.give
  cases ho : t.orphan
  · simp [State.answers_enqueue]
  · simp

theorem State.answers_answerTx (t : HostTx) (st : Status) : (s.answerTx t st 0 [] false).answers q = s.answers q ++ queueAnswers q st [t] := by
  rw [State.answerTx_eq, State.answers_give, State.answers_setEntry, queueAnswers_single]

end Answers

/-! ## Notices -/

/-- A notice of this KIND and SUBJECT waits, or the list was full (09 R158). -/
def PortRec.heard (pr : PortRec) (k : NoticeKind) (sub : Subject) : Prop :=
  (∃ n ∈ pr.notices, n.kind = k ∧ n.subject = sub) ∨ (16 ≤ pr.notices.length ∧ pr.noticeLost = true)

theorem State.heard_iff {s : State} {p : Port} {k : NoticeKind} {sub : Subject} :
    (s.port p).heard k sub ↔ ∃ d, s.told p k sub d := by
  constructor
  · rintro (⟨n, hn, hk, hs⟩ | full)
    · exact ⟨n.detail, .inl ⟨n, hn, hk, hs, rfl⟩⟩
    · exact ⟨0, .inr full⟩
  · rintro ⟨d, ⟨n, hn, hk, hs, -⟩ | full⟩
    · exact .inl ⟨n, hn, hk, hs⟩
    · exact .inr full

theorem Notice.is_iff {n : Notice} {k : NoticeKind} {sub : Subject} : n.is k sub = true ↔ n.kind = k ∧ n.subject = sub := by
  simp [Notice.is]

/-- A notice that is posted stands with its DETAIL, or finds the list full. -/
theorem PortRec.offer_stands (pr : PortRec) (k : NoticeKind) (sub : Subject) (d : Byte) :
    (∃ n ∈ (pr.offer k sub d).notices, n.kind = k ∧ n.subject = sub ∧ n.detail = d) ∨
      (16 ≤ (pr.offer k sub d).notices.length ∧ (pr.offer k sub d).noticeLost = true) := by
  unfold PortRec.offer
  split_ifs with merges room
  · obtain ⟨n, hn, hi⟩ := List.any_eq_true.1 merges
    refine .inl ⟨_, List.mem_map_of_mem hn, ?_⟩
    rw [if_pos hi]
    exact ⟨(Notice.is_iff.1 hi).1, (Notice.is_iff.1 hi).2, rfl⟩
  · exact .inl ⟨⟨k, sub, d, 1⟩, by simp, rfl, rfl, rfl⟩
  · exact .inr ⟨Nat.le_of_not_lt room, rfl⟩

/-- What has been heard stays heard when another notice is posted. -/
theorem PortRec.heard_offer {pr : PortRec} {k : NoticeKind} {sub : Subject} (heard : pr.heard k sub) (k' : NoticeKind) (sub' : Subject)
    (d : Byte) : (pr.offer k' sub' d).heard k sub := by
  unfold PortRec.heard PortRec.offer
  split_ifs
  · rcases heard with ⟨n, hn, hk, hs⟩ | full
    · refine .inl ⟨_, List.mem_map_of_mem hn, ?_⟩
      split <;> exact ⟨hk, hs⟩
    · exact .inr (by simpa using full)
  · rcases heard with ⟨n, hn, is⟩ | ⟨full, lost⟩
    · exact .inl ⟨n, List.mem_append_left _ hn, is⟩
    · exact .inr ⟨by simp; omega, lost⟩
  · rcases heard with found | ⟨full, -⟩
    · exact .inl found
    · exact .inr ⟨full, rfl⟩

theorem Told.heard {a b : PortRec} (told : Told a b) {k : NoticeKind} {sub : Subject} (heard : a.heard k sub) : b.heard k sub := by
  induction told with
  | refl => exact heard
  | response r _ ih => exact ih
  | notice k' sub' d _ ih => exact PortRec.heard_offer ih k' sub' d

theorem Quiet.heard {s u : State} (quiet : Quiet s u) {p : Port} {k : NoticeKind} {sub : Subject} (heard : (s.port p).heard k sub) :
    (u.port p).heard k sub := (quiet.told p).heard heard

theorem State.heard_post (s : State) (p : Port) (k : NoticeKind) (sub : Subject) (d : Byte) : ((s.post p k sub d).port p).heard k sub :=
  State.heard_iff.2 ⟨d, by rw [State.told, State.post, State.port_modPort_same]; exact PortRec.offer_stands ..⟩

theorem State.told_postWhere (s : State) {who : Port → Bool} {p : Port} (named : who p = true) (k : NoticeKind) (sub : Subject) (d : Byte) :
    (s.postWhere who k sub d).told p k sub d := by
  have stands := fun pr : PortRec => pr.offer_stands k sub d
  unfold State.postWhere
  cases p with
  | A =>
    rw [if_pos named]
    split
    · rw [State.told, State.post, State.port_modPort_ne _ _ (by decide), State.post, State.port_modPort_same]; exact stands _
    · rw [State.told, State.post, State.port_modPort_same]; exact stands _
  | B => rw [if_pos named, State.told, State.post, State.port_modPort_same]; exact stands _

/-- What being told of things leaves of a port: everything but RESPQ, the notices and what is latched of them. -/
theorem Told.kept {a b : PortRec} (told : Told a b) :
    b = { a with respq := b.respq, notices := b.notices, latch := b.latch, noticeLost := b.noticeLost } := by
  induction told with
  | refl => rfl
  | response r _ ih => rw [ih]
  | @notice b k sub d _ ih =>
    have offered : b.offer k sub d = { b with
        notices := (b.offer k sub d).notices, latch := (b.offer k sub d).latch, noticeLost := (b.offer k sub d).noticeLost } := by
      unfold PortRec.offer
      split_ifs <;> rfl
    rw [offered]
    generalize b.offer k sub d = x
    rw [ih]

theorem Told.respq_prefix {a b : PortRec} (told : Told a b) : a.respq <+: b.respq := by
  induction told with
  | refl => exact List.prefix_rfl
  | response r _ ih => exact ih.trans (List.prefix_append ..)
  | notice k sub d _ ih => rw [PortRec.respq_offer]; exact ih

end Sys2Proof.Machine
end

