-- ==== Sys2Proof/Proofs/StuckEnds.lean ====
section
/-! PROOFS. A recovery that fails leaves its segment STUCK: HOSTQ and the survey are answered, first admissions end and tell their SOURCE, and SEGMENT_STUCK is
posted (04 R76, R85, R89, R91). -/

namespace Sys2Proof.Machine

/-! ## The segments are left by what befalls entries -/

section Segs

variable (s : State) (h : Handle) (g : Seg)

@[simp] theorem State.seg_enterVacant : (s.enterVacant h).seg g = s.seg g := by simp [State.enterVacant]

@[simp] theorem State.seg_tellFailure (a : Option AdmRec) (pl : Option Place) (st : Status) : (s.tellFailure a pl st).seg g = s.seg g := by
  unfold State.tellFailure; split <;> simp [State.post]

@[simp] theorem State.seg_failFirst (st : Status) : (s.failFirst h st).seg g = s.seg g := by simp [State.failFirst]

theorem State.seg_answerSurvey (k : Seg) (st : Status) :
    (s.answerSurvey g st).seg k = if k = g then { s.seg g with survey := none } else s.seg k := by
  unfold State.answerSurvey
  cases hs : (s.seg g).survey with
  | none =>
    by_cases hk : k = g
    · subst hk; simp [← hs]
    · simp [hk]
  | some c => simp [State.seg_modSeg]

theorem State.seg_completeAll_ne {k : Seg} (hk : k ≠ g) (st : Status) : (s.completeAll g st).seg k = s.seg k := by
  rw [State.completeAll, State.foldl_frame (view := fun u => u.seg k), State.seg_modSeg_ne _ _ hk]
  intro u t _; simp

end Segs

/-! ## HOSTQ completes (05 R102, R113) -/

section CompleteAll

variable {s : State} {g : Seg} {h : Handle} {st : Status}

@[simp] theorem Entry.without_nil (e : Entry) (h : Handle) : e.without h [] = e := by simp [Entry.without]

/-- An entry once one transaction has completed: nothing of another's, else CHAINBRK is given and INFLIGHT falls. -/
def Entry.served (e : Entry) (h : Handle) (t : HostTx) : Entry := if t.handle = h then (e.setChain t.port false).lower else e

theorem Entry.without_cons (e : Entry) (h : Handle) (t : HostTx) (q : List HostTx) : e.without h (t :: q) = (e.served h t).without h q := by
  unfold Entry.without Entry.served
  by_cases hh : t.handle = h
  · have apart : (Port.A == Port.B) = false ∧ (Port.B == Port.A) = false := ⟨rfl, rfl⟩
    cases hp : t.port <;> simp [hh, hp, apart, Entry.setChain, Entry.lower, Nat.sub_sub, Nat.add_comm]
  · have other : (t.handle == h) = false := by simpa using hh
    simp [hh, other]

theorem Entry.without_perm (e : Entry) (h : Handle) {q q' : List HostTx} (perm : q.Perm q') : e.without h q = e.without h q' := by
  have any : ∀ f : HostTx → Bool, q.any f = q'.any f := fun f => perm.any_eq
  unfold Entry.without
  rw [perm.countP_eq, any, any]

theorem Entry.without_vacant (n : Gen) (h : Handle) (q : List HostTx) : (Entry.vacant n).without h q = Entry.vacant n := by
  simp [Entry.without, Entry.vacant]

theorem Entry.fallen_live {e : Entry} (live : e.state ≠ .retiring) : e.fallen = e.lower := by
  simp [Entry.fallen, Entry.drained, Entry.lower, live]

theorem Entry.state_served (e : Entry) (h : Handle) (t : HostTx) : (e.served h t).state = e.state := by
  unfold Entry.served
  split <;> simp [Entry.lower]

theorem Entry.firstOn_served (e : Entry) (h : Handle) (t : HostTx) : (e.served h t).firstOn g ↔ e.firstOn g := by
  unfold Entry.served
  split
  · cases t.port <;> rfl
  · rfl

theorem State.entry_served {t : HostTx} (live : (s.entry h).state ≠ .retiring) :
    ((s.answerTx t st 0 [] false).fall t.handle).entry h = (s.entry h).served h t := by
  rw [State.entry_fall]
  unfold Entry.served
  by_cases hh : h = t.handle
  · subst hh
    simp only [State.entry_answerTx, if_true]
    exact Entry.fallen_live (by simpa using live)
  · simp [hh, Ne.symm hh]

theorem State.entry_completing {q : List HostTx} (live : (s.entry h).state ≠ .retiring) :
    (q.foldl (fun s t => (s.answerTx t st 0 [] false).fall t.handle) s).entry h = (s.entry h).without h q := by
  induction q generalizing s with
  | nil => simp
  | cons t q ih => rw [List.foldl_cons, ih (by rw [State.entry_served live, Entry.state_served]; exact live), State.entry_served live,
      Entry.without_cons]

/-- An entry that is not RETIRING, once HOSTQ has completed. -/
theorem State.entry_completeAll_live (live : (s.entry h).state ≠ .retiring) :
    (s.completeAll g st).entry h = (s.entry h).without h (s.seg g).hostq := by
  rw [State.completeAll, State.entry_completing (by simpa using live), State.entry_modSeg]

theorem State.answers_completing {q : List HostTx} (calm : ∀ h, (s.entry h).state ≠ .retiring) (p : Port) :
    (q.foldl (fun s t => (s.answerTx t st 0 [] false).fall t.handle) s).answers p = s.answers p ++ queueAnswers p st q := by
  induction q generalizing s with
  | nil => simp [queueAnswers]
  | cons t q ih =>
    have stays : ((s.answerTx t st 0 [] false).entry t.handle).state ≠ .retiring := by simpa using calm t.handle
    have still : ∀ h, (((s.answerTx t st 0 [] false).fall t.handle).entry h).state ≠ .retiring := by
      intro h
      rw [State.entry_served (calm h), Entry.state_served]
      exact calm h
    rw [List.foldl_cons, ih still, State.fall_live stays, State.answers_setEntry, State.answers_answerTx, queueAnswers_cons p st t q,
      List.append_assoc]

/-- Where no entry is RETIRING, the completion of HOSTQ answers its transactions, oldest first, and nothing else. -/
theorem State.answers_completeAll (calm : ∀ h, (s.entry h).state ≠ .retiring) (p : Port) :
    (s.completeAll g st).answers p = s.answers p ++ queueAnswers p st (s.seg g).hostq := by
  rw [State.completeAll, State.answers_completing (by simpa using calm), State.answers_modSeg]

/-- Every transaction in HOSTQ whose port has not been reset is answered. -/
theorem State.mem_answers_completeAll {t : HostTx} (ht : t ∈ (s.seg g).hostq) (owned : t.orphan = false) :
    (t.tag, st, txResult t.kind 0 []) ∈ (s.completeAll g st).answers t.port := by
  obtain ⟨pre, post, split⟩ := List.append_of_mem ht
  have quiet : ∀ (u : State) (t : HostTx), Quiet u ((u.answerTx t st 0 [] false).fall t.handle) := fun _ _ =>
    (Quiet.answerTx ..).trans (.fall ..)
  rw [State.completeAll, split, List.foldl_append, List.foldl_cons]
  refine ((Quiet.fall ..).trans (.foldl quiet post _)).mem_answers t.port ?_
  rw [State.answers_answerTx, queueAnswers_single]
  simp [owned]

end CompleteAll

/-! ## First admissions fail (02 R35) -/

section FailAll

variable {s u v : State} {g : Seg} {h : Handle} {st : Status}

/-- The SOURCE of a first admission that has failed on the segment has been told: an ADMIT has its response, a survey's requester its notice. -/
structure AdmRec.ToldIn (a : AdmRec) (u : State) (g : Seg) (st : Status) : Prop where
  response : ∀ p t, a.source = .byAdmit (some (p, t)) → (t, st, []) ∈ u.answers p
  survey : ∀ p, a.source = .survey (some p) → ∃ d, u.told p .admitFailed (.segment g) d

theorem AdmRec.ToldIn.later {a : AdmRec} (told : a.ToldIn u g st) (quiet : Quiet u v) : a.ToldIn v g st where
  response p t hs := quiet.mem_answers p (told.response p t hs)
  survey p hs := State.heard_iff.1 (quiet.heard (State.heard_iff.2 (told.survey p hs)))

/-- A first admission that fails tells its SOURCE. -/
theorem State.toldIn_failFirst {a : AdmRec} (first : (u.entry h).firstOn g) (ha : (u.entry h).adm = some a) :
    a.ToldIn (u.failFirst h st) g st := by
  obtain ⟨-, on, -⟩ := first
  obtain ⟨pl, hpl, hg⟩ := (Option.any_eq_true _ _).1 on
  replace hg : pl.seg = g := by simpa using hg
  have told : u.failFirst h st = (u.enterVacant h).sourceTold a pl st := by
    rw [State.failFirst, ha, hpl, State.tellFailure_eq]
  rw [told]
  constructor
  · intro p t hs
    simp [State.sourceTold, hs, State.answers_respond, ownerAnswers_some]
  · intro p hs
    rw [← hg]
    simp only [State.sourceTold, hs]
    exact State.heard_iff.1 (State.heard_post ..)

/-- Every first admission on the segment fails, in an order that is left open (log entry 5). -/
def State.failAll (s : State) (g : Seg) (st : Status) : State := s.forAnyOrder (s.admitting g .first) (fun s h => s.failFirst h st)

theorem State.mem_admitting {k : AdmKind} : h ∈ s.admitting g k ↔ (s.entry h).admits g k = true := by simp [State.admitting]

theorem State.nodup_admitting (k : AdmKind) : (s.admitting g k).Nodup := nodup_handles.filter _

theorem Quiet.failAll (s : State) (g : Seg) (st : Status) : Quiet s (s.failAll g st) := .forAnyOrder (fun _ _ => .failFirst ..) _ _

@[simp] theorem State.seg_failAll (k : Seg) : (s.failAll g st).seg k = s.seg k := State.seg_forAnyOrder (fun _ _ _ => by simp) s

theorem State.entry_failAll : (s.failAll g st).entry h =
    if (s.entry h).admits g .first = true then Entry.vacant ((s.entry h).gen + 1) else s.entry h := by
  rw [State.failAll, State.entry_forAnyOrder_own (E := fun e => Entry.vacant (e.gen + 1)) (fun u k h => u.entry_failFirst k h st)
    (State.nodup_admitting _)]
  simp only [State.mem_admitting]

theorem State.failAll_calm (none : ∀ h, ¬(s.entry h).firstOn g) : s.failAll g st = s := by
  have empty : s.admitting g .first = [] := by
    refine List.eq_nil_iff_forall_not_mem.2 fun h hh => none h ?_
    exact Entry.admits_first_iff.1 (State.mem_admitting.1 hh)
  rw [State.failAll, empty, State.forAnyOrder_nil]

theorem State.toldIn_failAll {a : AdmRec} (first : (s.entry h).firstOn g) (ha : (s.entry h).adm = some a) : a.ToldIn (s.failAll g st) g st := by
  obtain ⟨v, same, -, after, -⟩ := State.forAnyOrder_turn (f := fun s h => s.failFirst h st) (fun _ _ => .failFirst ..)
    (State.mem_admitting.2 (Entry.admits_first_iff.2 first)) (State.nodup_admitting (s := s) .first) (view := fun u => u.entry h)
    (fun u k _ hk => by simp [Ne.symm hk]) s (by simp)
  exact (State.toldIn_failFirst (by rw [same]; exact first) (by rw [same]; exact ha)).later after

/-- What the completion of HOSTQ leaves of an entry under first admission. -/
theorem Entry.firstOn_without {e : Entry} (q : List HostTx) : (e.without h q).firstOn g ↔ e.firstOn g := Iff.rfl

end FailAll

/-! ## The segment becomes STUCK (04 R91) -/

section Stuck

variable {s u v : State} {g : Seg} {h : Handle}

/-- The part once HOSTQ and the survey of a segment that becomes STUCK have been answered, and its sweep has ended. -/
def State.stuckQueue (s : State) (g : Seg) : State :=
  (((s.modSeg g (fun r => { r with state := .stuck, current := none, lines := .released })).completeAll g .busStuck).answerSurvey g
    .busStuck).modSeg g Segment.stickSweep

theorem State.becomeStuck_eq (s : State) (g : Seg) (cause : Byte) : s.becomeStuck g cause =
    ((s.stuckQueue g).failAll g .busStuck).postWhere (fun p => (((s.stuckQueue g).failAll g .busStuck).port p).segMasks[g.val].fault)
      .segmentStuck (.segment g) cause := rfl

theorem Quiet.stuckQueue (s : State) (g : Seg) : Quiet s (s.stuckQueue g) :=
  (((Quiet.modSeg ..).trans (.completeAll ..)).trans (.answerSurvey ..)).trans (.modSeg ..)

theorem State.entry_stuckQueue (live : (s.entry h).state ≠ .retiring) : (s.stuckQueue g).entry h = (s.entry h).without h (s.seg g).hostq := by
  rw [State.stuckQueue, State.entry_modSeg, State.entry_answerSurvey, State.entry_completeAll_live (by simpa using live)]
  simp

theorem State.seg_stuckQueue : (s.stuckQueue g).seg g = { s.seg g with
    state := .stuck, hostq := [], current := none, survey := none, lines := .released
    sweep := if (s.seg g).sweep.state = .sweeping then { (s.seg g).sweep with state := .idle, cursor := none, rearmleft := 0 }
      else (s.seg g).sweep } := by
  simp only [State.stuckQueue, State.seg_modSeg_same, State.seg_answerSurvey, if_true, State.seg_completeAll, Segment.stickSweep,
    Segment.armSweep]
  split <;> rfl

theorem State.seg_stuckQueue_ne {k : Seg} (hk : k ≠ g) : (s.stuckQueue g).seg k = s.seg k := by
  rw [State.stuckQueue, State.seg_modSeg_ne _ _ hk, State.seg_answerSurvey, if_neg hk, State.seg_completeAll_ne _ _ hk,
    State.seg_modSeg_ne _ _ hk]

theorem State.answers_stuckQueue (calm : ∀ h, (s.entry h).state ≠ .retiring) (q : Port) : (s.stuckQueue g).answers q =
    s.answers q ++ queueAnswers q .busStuck (s.seg g).hostq ++ surveyAnswers q .busStuck g (s.seg g).survey := by
  rw [State.stuckQueue, State.answers_modSeg, State.answers_answerSurvey, State.answers_completeAll (by simpa using calm),
    State.answers_modSeg, State.seg_completeAll]
  simp

theorem State.mem_queue_stuckQueue {t : HostTx} (ht : t ∈ (s.seg g).hostq) (owned : t.orphan = false) :
    (t.tag, .busStuck, txResult t.kind 0 []) ∈ (s.stuckQueue g).answers t.port :=
  ((Quiet.answerSurvey ..).trans (.modSeg ..)).mem_answers t.port (State.mem_answers_completeAll (by simpa using ht) owned)

theorem State.mem_survey_stuckQueue {q : Port} {x : Tag × Status × List Byte} (hx : x ∈ surveyAnswers q .busStuck g (s.seg g).survey) :
    x ∈ (s.stuckQueue g).answers q := by
  rw [State.stuckQueue, State.answers_modSeg, State.answers_answerSurvey, State.seg_completeAll]
  exact List.mem_append_right _ (by simpa using hx)

theorem State.seg_becomeStuck (cause : Byte) (k : Seg) : (s.becomeStuck g cause).seg k = (s.stuckQueue g).seg k := by
  rw [State.becomeStuck_eq, State.seg_postWhere, State.seg_failAll]

theorem State.entry_becomeStuck_eq (cause : Byte) : (s.becomeStuck g cause).entry h = ((s.stuckQueue g).failAll g .busStuck).entry h := by
  rw [State.becomeStuck_eq, State.entry_postWhere]

theorem Quiet.becomeStuck_failAll (s : State) (g : Seg) (cause : Byte) : Quiet ((s.stuckQueue g).failAll g .busStuck) (s.becomeStuck g cause) := by
  rw [State.becomeStuck_eq]
  exact .postWhere ..

theorem Quiet.becomeStuck_stuckQueue (s : State) (g : Seg) (cause : Byte) : Quiet (s.stuckQueue g) (s.becomeStuck g cause) :=
  (Quiet.failAll ..).trans (.becomeStuck_failAll s g cause)

/-- An entry that is neither RETIRING nor under first admission there keeps what it had, but for the work that has ended. -/
theorem State.entry_becomeStuck_live (live : (s.entry h).state ≠ .retiring) (out : ¬(s.entry h).firstOn g) (cause : Byte) :
    (s.becomeStuck g cause).entry h = (s.entry h).without h (s.seg g).hostq := by
  have still := s.entry_stuckQueue (g := g) live
  rw [State.entry_becomeStuck_eq, State.entry_failAll, if_neg, still]
  rw [still, Entry.admits_first_iff, Entry.firstOn_without]
  exact out

/-- An entry under first admission there is VACANT, and its SOURCE has been told. -/
theorem State.first_becomeStuck (first : (s.entry h).firstOn g) (cause : Byte) :
    (s.becomeStuck g cause).entry h = Entry.vacant ((s.entry h).gen + 1) ∧
      ∀ a ∈ (s.entry h).adm, a.ToldIn (s.becomeStuck g cause) g .busStuck := by
  have still : (s.stuckQueue g).entry h = (s.entry h).without h (s.seg g).hostq := s.entry_stuckQueue (by simp [first.1])
  have admitted : ((s.stuckQueue g).entry h).firstOn g := by rw [still]; exact first
  constructor
  · rw [State.entry_becomeStuck_eq, State.entry_failAll, if_pos (Entry.admits_first_iff.2 admitted), still]
    rfl
  · intro a ha
    exact (State.toldIn_failAll admitted (by rw [still]; exact ha)).later (.becomeStuck_failAll s g cause)

theorem State.told_becomeStuck (cause : Byte) {p : Port} (fault : (s.port p).segMasks[g.val].fault = true) :
    (s.becomeStuck g cause).told p .segmentStuck (.segment g) cause := by
  rw [State.becomeStuck_eq]
  refine State.told_postWhere _ ?_ _ _ _
  have kept := (((Quiet.stuckQueue s g).trans (.failAll _ g .busStuck)).told p).kept
  rw [kept]
  exact fault

/-- Where no entry is RETIRING and none is under first admission there, the answers stand in the order of 04 R91. -/
theorem State.answers_becomeStuck (alone : ∀ h, (s.entry h).state ≠ .retiring ∧ ¬(s.entry h).firstOn g) (cause : Byte) (q : Port) :
    (s.becomeStuck g cause).answers q =
      s.answers q ++ queueAnswers q .busStuck (s.seg g).hostq ++ surveyAnswers q .busStuck g (s.seg g).survey := by
  have none : ∀ h, ¬((s.stuckQueue g).entry h).firstOn g := by
    intro h
    rw [State.entry_stuckQueue (alone h).1, Entry.firstOn_without]
    exact (alone h).2
  rw [State.becomeStuck_eq, State.answers_postWhere, State.failAll_calm none, State.answers_stuckQueue fun h => (alone h).1]

end Stuck

/-! ## The transfer on the bus ends BUS_STUCK first (04 R85, R89) -/

/-- What an admission is known by: the entry's STATE, place and GEN, and its record. -/
structure Entry.SameAdm (e f : Entry) : Prop where
  state : f.state = e.state
  place : f.place = e.place
  gen : f.gen = e.gen
  adm : f.adm = e.adm

theorem Entry.SameAdm.firstOn {e f : Entry} {g : Seg} (same : e.SameAdm f) (first : e.firstOn g) : f.firstOn g := by
  unfold Entry.firstOn Entry.onSeg
  rw [same.state, same.place, same.adm]
  exact first

theorem Entry.SameAdm.refl (e : Entry) : e.SameAdm e := ⟨rfl, rfl, rfl, rfl⟩

/-- The fall of INFLIGHT leaves an admission. -/
theorem Entry.sameAdm_fallen {e f : Entry} (probing : e.state = .probing) (same : e.SameAdm f) : e.SameAdm f.fallen := by
  rw [Entry.fallen_live (by simp [same.state, probing])]
  exact ⟨same.state, same.place, same.gen, same.adm⟩

/-- From `s` to `v` the work of a transfer has been told that it ended BUS_STUCK: each transaction, the survey and each first admission of the segment is there
still, or has been told. -/
structure StuckBefore (s v : State) (g : Seg) : Prop where
  quiet : Quiet s v
  seg : ∃ cur lines queue survey, v.seg g = { s.seg g with current := cur, lines := lines, hostq := queue, survey := survey }
  others : ∀ k, k ≠ g → v.seg k = s.seg k
  queue : ∀ t ∈ (s.seg g).hostq, t.orphan = false →
    t ∈ (v.seg g).hostq ∨ (t.tag, .busStuck, txResult t.kind 0 []) ∈ v.answers t.port
  survey : ∀ p, ∀ x ∈ surveyAnswers p .busStuck g (s.seg g).survey, x ∈ surveyAnswers p .busStuck g (v.seg g).survey ∨ x ∈ v.answers p
  first : ∀ h, (s.entry h).firstOn g → (s.entry h).SameAdm (v.entry h) ∨
    (v.entry h = Entry.vacant ((s.entry h).gen + 1) ∧ ∀ a ∈ (s.entry h).adm, a.ToldIn v g .busStuck)

section Before

variable {s u v w : State} {g : Seg} {c d : Current} {h : Handle}

theorem StuckBefore.of_entries (quiet : Quiet u v) (segs : ∀ k, v.seg k = u.seg k)
    (first : ∀ h, (u.entry h).firstOn g → (u.entry h).SameAdm (v.entry h) ∨
      (v.entry h = Entry.vacant ((u.entry h).gen + 1) ∧ ∀ a ∈ (u.entry h).adm, a.ToldIn v g .busStuck)) : StuckBefore u v g where
  quiet := quiet
  seg := ⟨_, _, _, _, segs g⟩
  others k _ := segs k
  queue t ht _ := .inl (by rwa [segs])
  survey p x hx := .inl (by rwa [segs])
  first := first

theorem StuckBefore.refl (s : State) (g : Seg) : StuckBefore s s g := .of_entries (.refl s) (fun _ => rfl) fun _ _ => .inl (.refl _)

/-- An operation that leaves the segments and every admission leaves every work of the segment to be told. -/
theorem StuckBefore.of_sameAdm (quiet : Quiet u v) (segs : ∀ k, v.seg k = u.seg k)
    (same : ∀ h, (u.entry h).state = .probing → (u.entry h).SameAdm (v.entry h)) : StuckBefore u v g :=
  .of_entries quiet segs fun h first => .inl (same h first.1)

theorem StuckBefore.fall (u : State) (g : Seg) (h : Handle) : StuckBefore u (u.fall h) g :=
  .of_sameAdm (.fall ..) (by simp) fun k probing => by
    rw [State.entry_fall]
    split
    · next hk => rw [← hk]; exact Entry.sameAdm_fallen probing (.refl _)
    · exact .refl _

theorem StuckBefore.of_freed {o : Outcome} (before : StuckBefore (s.freed g o) v g) : StuckBefore s v g where
  quiet := (Quiet.modSeg s g (fun r => { r with current := none, lines := o.lines })).trans before.quiet
  seg := by
    obtain ⟨cur, lines, queue, survey, hseg⟩ := before.seg
    exact ⟨cur, lines, queue, survey, by rw [hseg, State.seg_freed]⟩
  others k hk := (before.others k hk).trans (by simp [State.freed, State.seg_setSeg_ne _ _ hk])
  queue t ht := before.queue t (by simpa using ht)
  survey p x hx := before.survey p x (by simpa using hx)
  first h := by simpa using before.first h

/-- The transaction on the bus leaves HOSTQ and is answered, with counts of 0 and no settle load. -/
theorem State.deliver_host_stuck {pre post : List HostTx} {t : HostTx} (hk : d.kind = .host) (queue : (u.seg g).hostq = pre ++ t :: post)
    (waiting : ∀ x ∈ pre, x.active = false) (mark : t.active = true) : u.deliver g d .busStuck =
      ((u.setSeg g { u.seg g with hostq := pre ++ post }).txAnswered t d false .busStuck false (txResult t.kind 0 [])).fall t.handle := by
  simp only [State.deliver, hk, State.endHost_eq queue waiting mark, State.txOut, State.report_none (o := .busStuck) rfl rfl, reduceCtorEq,
    and_false, if_false]
  rfl

theorem State.answers_txAnswered (t : HostTx) (c : Current) (b b' : Bool) (st : Status) (l : List Byte) (q : Port) :
    (u.txAnswered t c b st b' l).answers q = u.answers q ++ if t.port = q ∧ t.orphan = false then [(t.tag, st, l)] else [] := by
  rw [State.txAnswered, State.answers_give, State.answers_setEntry]

theorem State.entry_txAnswered_ne {t : HostTx} (hh : h ≠ t.handle) (c : Current) (b b' : Bool) (st : Status) (l : List Byte) :
    (u.txAnswered t c b st b' l).entry h = u.entry h := by
  rw [State.txAnswered, State.entry_give, State.entry_setEntry_ne _ _ hh]

theorem Quiet.deliver_busStuck (u : State) (g : Seg) (d : Current) : Quiet u (u.deliver g d .busStuck) := .deliver ..

/-- A host transaction is told. -/
theorem StuckBefore.host (hk : d.kind = .host) : StuckBefore u (u.deliver g d .busStuck) g := by
  cases hact : (u.seg g).activeTx with
  | none =>
    have same : u.deliver g d .busStuck = u := by simp only [State.deliver, hk, State.endHost, hact]
    rw [same]
    exact .refl u g
  | some x =>
    obtain ⟨i, t⟩ := x
    obtain ⟨pre, post, queue, -, mark, waiting⟩ := firstTx_eq_some.1 hact
    have told := State.deliver_host_stuck hk queue waiting mark
    have hseg : (u.deliver g d .busStuck).seg g = { u.seg g with hostq := pre ++ post } := by rw [told]; simp
    refine ⟨.deliver_busStuck u g d, ⟨_, _, _, _, hseg⟩, fun k hk => ?_, fun x hx owned => ?_, fun p x hx => .inl ?_, fun h first => .inl ?_⟩
    · rw [told, State.seg_fall, State.seg_txAnswered, State.seg_setSeg_ne _ _ hk]
    · rw [hseg]
      rw [queue] at hx
      rcases List.mem_append.1 hx with hx | hx
      · exact .inl (List.mem_append_left _ hx)
      rcases List.mem_cons.1 hx with rfl | hx
      · refine .inr ?_
        rw [told]
        refine (Quiet.fall ..).mem_answers _ ?_
        rw [State.answers_txAnswered]
        simp [owned]
      · exact .inl (List.mem_append_right _ hx)
    · rw [hseg]; exact hx
    · rw [told, State.entry_fall]
      by_cases hh : h = t.handle
      · subst hh
        rw [if_pos rfl, State.entry_txAnswered, State.entry_setSeg]
        exact Entry.sameAdm_fallen first.1 ⟨by simp, by simp, by simp, by simp⟩
      · rw [if_neg hh, State.entry_txAnswered_ne hh, State.entry_setSeg]
        exact .refl _

theorem State.reportNamed_busStuck (u : State) (n : Option Handle) : u.reportNamed n .busStuck = u := by
  cases n with
  | none => rfl
  | some h => exact State.report_none rfl rfl

/-- A survey probe is told. -/
theorem StuckBefore.survey_probe (hk : d.kind = .survey) : StuckBefore u (u.deliver g d .busStuck) g := by
  have named : ∀ n : Option Handle, StuckBefore u (u.fallNamed n) g := by
    intro n
    cases n with
    | none => exact .refl u g
    | some h => exact .fall u g h
  have quiet := Quiet.deliver_busStuck u g d
  simp only [State.deliver, hk, State.endSurveyProbe_eq, State.reportNamed_busStuck] at quiet ⊢
  cases hs : (u.seg g).survey with
  | none => exact named d.entry
  | some cu =>
    by_cases active : cu.probe = .active
    · simp only [hs, active, true_or, reduceCtorEq, if_true, if_false] at quiet ⊢
      have hseg : ((u.answerSurvey g .busStuck).fallNamed d.entry).seg g = { u.seg g with survey := none } := by
        simp [State.seg_answerSurvey]
      refine ⟨quiet, ⟨_, _, _, _, hseg⟩, fun k hk => ?_, fun t ht _ => .inl (by rw [hseg]; exact ht), fun p x hx => .inr ?_, fun h first => .inl ?_⟩
      · simp [State.seg_answerSurvey, hk]
      · refine (Quiet.fallNamed ..).mem_answers p ?_
        rw [State.answers_answerSurvey]
        exact List.mem_append_right _ hx
      · rw [State.entry_fallNamed, State.entry_answerSurvey]
        split
        · exact Entry.sameAdm_fallen first.1 (.refl _)
        · exact .refl _
    · simp only [active, if_false]
      exact named d.entry

/-- A sweep read is told. -/
theorem StuckBefore.sweep (hk : d.kind = .sweep) : StuckBefore u (u.deliver g d .busStuck) g := by
  cases he : d.entry with
  | none => simp only [State.deliver, hk, he]; exact .refl u g
  | some h =>
    have told : u.deliver g d .busStuck = u.fall h := by
      simp [State.deliver, hk, he, State.endSweepRead, State.report_none (o := .busStuck) rfl rfl]
    rw [told]
    exact .fall u g h

/-- A watch probe is told: the probe is due again. -/
theorem StuckBefore.watch (hk : d.kind = .watch) : StuckBefore u (u.deliver g d .busStuck) g := by
  cases he : d.entry with
  | none => simp only [State.deliver, hk, he]; exact .refl u g
  | some h =>
    cases hw : (u.entry h).watch with
    | none =>
      simp only [State.deliver, hk, he, State.endWatchProbe, hw, State.report_none (o := .busStuck) rfl rfl]
      exact .fall u g h
    | some w =>
      by_cases active : w.probe = .active
      · have told : u.deliver g d .busStuck =
            (u.setEntry h { (u.entry h).rise with watch := some { w with probe := .due } }).fall h := by
          rw [State.deliver_watch hk he hw active, State.report_none rfl rfl]
          simp [State.watchOutcome, State.modEntry_eq, Watch.count, Entry.rise]
        rw [told]
        refine .of_sameAdm ((Quiet.setEntry ..).trans (.fall ..)) (by simp) fun k probing => ?_
        rw [State.entry_fall]
        by_cases hk : k = h
        · subst hk
          rw [if_pos rfl, State.entry_setEntry_same]
          exact Entry.sameAdm_fallen probing ⟨rfl, rfl, rfl, rfl⟩
        · rw [if_neg hk, State.entry_setEntry_ne _ _ hk]
          exact .refl _
      · simp only [State.deliver, hk, he, State.endWatchProbe, hw, active, if_false, State.report_none (o := .busStuck) rfl rfl]
        exact .fall u g h

/-- An admission transfer is told: a first admission fails, a re-admission's transfer is planned again. -/
theorem StuckBefore.admission (hk : d.kind = .admission) : StuckBefore u (u.deliver g d .busStuck) g := by
  cases he : d.entry with
  | none => simp only [State.deliver, hk, he]; exact .refl u g
  | some h =>
    simp only [State.deliver, hk, he, State.endAdmissionTransfer, State.report_none (o := .busStuck) rfl rfl]
    cases ha : (u.entry h).adm with
    | none => exact .fall u g h
    | some a =>
      by_cases active : a.planned = .active
      · simp only [active, if_true, State.admissionNext]
        cases hkind : a.kind with
        | first =>
          refine .of_entries ((Quiet.modEntry ..).trans (.failFirst ..)) (by simp) fun k first => ?_
          by_cases hh : k = h
          · subst hh
            refine .inr ⟨by simp [Entry.lower], fun b hb => ?_⟩
            refine State.toldIn_failFirst ?_ ?_ <;> simp only [State.entry_modEntry_same]
            · exact first
            · exact hb
          · refine .inl ?_
            rw [State.entry_failFirst, if_neg hh, State.entry_modEntry_ne _ _ hh]
            exact .refl _
        | re =>
          refine .of_entries ((Quiet.modEntry ..).trans (.modEntry ..)) (by simp) fun k first => .inl ?_
          by_cases hh : k = h
          · subst hh
            obtain ⟨-, -, b, hb, isFirst⟩ := first
            cases ha.symm.trans hb
            cases hkind.symm.trans isFirst
          · rw [State.entry_modEntry_ne _ _ hh, State.entry_modEntry_ne _ _ hh]
            exact .refl _
      · simp only [active, if_false]
        exact .fall u g h

/-- Whatever the transfer's kind, its work is told first. -/
theorem StuckBefore.deliver (u : State) (g : Seg) (d : Current) : StuckBefore u (u.deliver g d .busStuck) g := by
  cases hk : d.kind with
  | host => exact .host hk
  | admission => exact .admission hk
  | watch => exact .watch hk
  | survey => exact .survey_probe hk
  | sweep => exact .sweep hk

end Before

/-! ## The segment has become STUCK -/

section StuckAs

variable {s u v : State} {g : Seg} {c d : Current} {h : Handle}

/-- A VACANT entry is left where a segment becomes STUCK. -/
theorem State.vacant_becomeStuck {n : Gen} (hv : v.entry h = Entry.vacant n) (cause : Byte) :
    (v.becomeStuck g cause).entry h = Entry.vacant n := by
  rw [State.entry_becomeStuck_live (by simp [hv, Entry.vacant]) (by simp [hv, Entry.vacant, Entry.firstOn]), hv, Entry.without_vacant]

/-- Once its transfer's work has been told, the segment becomes STUCK, and the command that it deferred, if any, is answered. -/
theorem StuckBefore.stuckAs {cause : Byte} (before : StuckBefore s v g) (after : Quiet (v.becomeStuck g cause) u)
    (seg : u.seg g = { (v.becomeStuck g cause).seg g with pendcmd := none }) (others : ∀ k, k ≠ g → u.seg k = (v.becomeStuck g cause).seg k)
    (entry : ∀ h, u.entry h = (v.becomeStuck g cause).entry h)
    (lists : ∀ p, (u.port p).notices = ((v.becomeStuck g cause).port p).notices ∧
      (u.port p).noticeLost = ((v.becomeStuck g cause).port p).noticeLost) : StuckAs s u g cause where
  seg := by
    obtain ⟨cur, lines, queue, survey, hseg⟩ := before.seg
    rw [seg, State.seg_becomeStuck, State.seg_stuckQueue, hseg]
  others k hk := by rw [others k hk, State.seg_becomeStuck, State.seg_stuckQueue_ne hk, before.others k hk]
  queue t ht owned := by
    refine after.mem_answers _ ?_
    rcases before.queue t ht owned with left | told
    · exact (Quiet.becomeStuck_stuckQueue v g cause).mem_answers _ (State.mem_queue_stuckQueue left owned)
    · exact (Quiet.becomeStuck v g cause).mem_answers _ told
  survey p x hx := by
    refine after.mem_answers _ ?_
    rcases before.survey p x hx with left | told
    · exact (Quiet.becomeStuck_stuckQueue v g cause).mem_answers _ (State.mem_survey_stuckQueue left)
    · exact (Quiet.becomeStuck v g cause).mem_answers _ told
  first h first := by
    have ended : u.entry h = Entry.vacant ((s.entry h).gen + 1) ∧ ∀ a ∈ (s.entry h).adm, a.ToldIn u g .busStuck := by
      rw [entry]
      rcases before.first h first with same | ⟨vacant, told⟩
      · obtain ⟨ended, told⟩ := State.first_becomeStuck (same.firstOn first) cause
        rw [same.gen] at ended
        rw [same.adm] at told
        exact ⟨ended, fun a ha => (told a ha).later after⟩
      · exact ⟨State.vacant_becomeStuck vacant cause, fun a ha => (told a ha).later ((Quiet.becomeStuck v g cause).trans after)⟩
    exact ⟨ended.1, fun a ha => (ended.2 a ha).response, fun a ha => (ended.2 a ha).survey⟩
  notice p fault := by
    have kept : (v.port p).segMasks = (s.port p).segMasks := by
      rw [(before.quiet.told p).kept]
    have told := State.told_becomeStuck (s := v) cause (p := p) (by rw [kept]; exact fault)
    unfold State.told at told ⊢
    rw [(lists p).1, (lists p).2]
    exact told

/-- With no command pending, nothing follows. -/
theorem StuckBefore.stuckAs_plain (before : StuckBefore s v g) (pend : (s.seg g).pendcmd = none) (cause : Byte) :
    StuckAs s (v.becomeStuck g cause) g cause := by
  refine before.stuckAs (.refl _) ?_ (fun _ _ => rfl) (fun _ => rfl) fun _ => ⟨rfl, rfl⟩
  obtain ⟨cur, lines, queue, survey, hseg⟩ := before.seg
  have free : ((v.becomeStuck g cause).seg g).pendcmd = none := by
    rw [State.seg_becomeStuck, State.seg_stuckQueue, hseg]
    exact pend
  rw [← free]

theorem State.notices_respondTo (s : State) (o : Option (Port × Tag)) (st : Status) (l : List Byte) (p : Port) :
    ((s.respondTo o st l).port p).notices = (s.port p).notices ∧ ((s.respondTo o st l).port p).noticeLost = (s.port p).noticeLost := by
  rcases o with _ | ⟨q, t⟩
  · exact ⟨rfl, rfl⟩
  · simp only [State.respondTo, State.respond_eq, State.port_setPort]
    split
    · next hp => subst hp; exact ⟨rfl, rfl⟩
    · exact ⟨rfl, rfl⟩

/-- A pending SEGMENT_RESET is answered BUS_STUCK at the end. -/
theorem StuckAs.after_reset (s : State) (g : Seg) (cause : Byte) (owner : Option (Port × Tag)) (l : List Byte) :
    StuckAs s (((s.becomeStuck g cause).modSeg g (fun r => { r with pendcmd := none })).respondTo owner .busStuck l) g cause := by
  refine (StuckBefore.refl s g).stuckAs ((Quiet.modSeg ..).trans (.respondTo ..)) (by simp) (fun k hk => ?_) (by simp) fun p => ?_
  · rw [State.seg_respondTo, State.seg_modSeg_ne _ _ hk]
  · rw [(State.notices_respondTo ..).1, (State.notices_respondTo ..).2, State.port_modSeg]
    exact ⟨rfl, rfl⟩

/-- Where nobody is RETIRING or under first admission, a host transaction on the bus is the first to be answered, and the other entries keep what they had. -/
theorem State.deliver_host_alone {pre post : List HostTx} {t : HostTx} (hk : d.kind = .host) (queue : (u.seg g).hostq = pre ++ t :: post)
    (waiting : ∀ x ∈ pre, x.active = false) (mark : t.active = true) (unsent : d.acked = 0) (calm : (u.entry t.handle).state ≠ .retiring) :
    (∀ h, (u.deliver g d .busStuck).entry h = (u.entry h).served h t) ∧
      (∀ q, (u.deliver g d .busStuck).answers q = u.answers q ++ queueAnswers q .busStuck [t]) ∧
      (u.deliver g d .busStuck).seg g = { u.seg g with hostq := pre ++ post } := by
  have unloaded : writePhaseDone d.plan d.acked = false := by
    simp only [writePhaseDone, writtenOf, unsent, List.take_zero, List.count_nil, Bool.and_eq_false_iff, decide_eq_false_iff_not, beq_eq_false_iff_ne]
    omega
  have told := State.deliver_host_stuck hk queue waiting mark
  set x := (u.setSeg g { u.seg g with hostq := pre ++ post }).txAnswered t d false .busStuck false (txResult t.kind 0 []) with hx
  have own : x.entry t.handle = (u.entry t.handle).setChain t.port false := by
    rw [hx, State.entry_txAnswered, unloaded, State.entry_setSeg]
    simp only [Bool.false_eq_true, if_false]
    cases t.port <;> rfl
  have live : (x.entry t.handle).state ≠ .retiring := by rw [own]; simpa using calm
  refine ⟨fun h => ?_, fun q => ?_, ?_⟩
  · rw [told, State.entry_fall, Entry.fallen_live live, own]
    unfold Entry.served
    by_cases hh : h = t.handle
    · subst hh; simp
    · rw [if_neg hh, if_neg (Ne.symm hh), hx, State.entry_txAnswered_ne hh, State.entry_setSeg]
  · rw [told, State.fall_live live, State.answers_setEntry, hx, State.answers_txAnswered, State.answers_setSeg, queueAnswers_single]
  · rw [told, State.seg_fall, hx]
    simp

end StuckAs

theorem pulses_dataHigh (n k : Nat) (rest : List LineObs) (hk : k < n) : pulses n (List.replicate k .dataLow ++ .dataHigh :: rest) = some true := by
  induction k generalizing n with
  | zero => obtain ⟨n, rfl⟩ := Nat.exists_eq_succ_of_ne_zero (by omega : n ≠ 0); rfl
  | succ k ih =>
    obtain ⟨n, rfl⟩ := Nat.exists_eq_succ_of_ne_zero (by omega : n ≠ 0)
    rw [List.replicate_succ, List.cons_append]
    exact ih n (by omega)

/-- The procedure succeeds where it sees the data line high after at most nine pulses. -/
theorem recover_succeeds {k : Nat} (hk : k ≤ 9) (rest : List LineObs) :
    recover (List.replicate k .dataLow ++ .dataHigh :: rest) = some true := by
  cases k with
  | zero => rfl
  | succ k => rw [List.replicate_succ, List.cons_append]; exact pulses_dataHigh 9 k rest (by omega)

/-- The recovery within a transfer reaches the transfer on the bus. -/
theorem exec_recoveryEnd_inner {s : State} {g : Seg} {c : Current} (active : (s.seg g).state = .active) (current : (s.seg g).current = some c)
    (recovering : c.recovering = true) (obs : List LineObs) : exec (.recoveryEnd g obs) s = .next (s.innerRecovery g c obs) := by
  show Host.Outcome.next _ = _
  simp only [State.recoveryEnd, active, State.busEvent, current, recovering, if_true]

/-- The recovery after a CLOCK_TIMEOUT fails (04 R91). -/
theorem State.outerRecovery_stuck {s : State} {g : Seg} (pend : (s.seg g).pendcmd = none) : s.outerRecovery g false = s.becomeStuck g 0x00 := by
  simp only [State.outerRecovery, pend, Bool.false_eq_true, if_false, stuckAfterTimeout]

/-- The recovery of a SEGMENT_RESET fails (04 R76). -/
theorem State.outerRecovery_reset_stuck {s : State} {g : Seg} {owner : Option (Port × Tag)} (pend : (s.seg g).pendcmd = some ⟨.reset, owner⟩) :
    s.outerRecovery g false =
      ((s.becomeStuck g 0x01).modSeg g (fun r => { r with pendcmd := none })).respondTo owner .busStuck [0x05] := by
  simp only [State.outerRecovery, pend, Bool.false_eq_true, if_false, stuckAfterReset, segStateCode]

/-- Settles O58: the recovery that fails leaves the segment STUCK, and within a transfer the transfer's work is told first. -/
theorem stuckEndsTheWork : Obligations.StuckEndsTheWork := by
  intro s g obs fails r alone
  have failed := recover_fails fails
  refine ⟨fun owner recovering current pend => ?_, fun c active current recovering hold unsent unread => ⟨fun k rest hk => ?_, fun pend => ?_⟩⟩
  · have ends : exec (.recoveryEnd g obs) s = .next (s.outerRecovery g false) := by
      show Host.Outcome.next _ = _
      rw [State.recoveryEnd, recovering, failed]
    refine ⟨_, ends, ?_⟩
    rcases pend with pend | pend
    · rw [State.outerRecovery_stuck pend, if_pos pend]
      refine ⟨(StuckBefore.refl s g).stuckAs_plain pend 0x00, fun other => absurd pend other, fun calm => ⟨fun q => ?_, fun h => ?_⟩⟩
      · rw [State.answers_becomeStuck calm, if_pos pend, List.append_nil]
      · exact State.entry_becomeStuck_live (calm h).1 (calm h).2 0x00
    · have some : r.pendcmd ≠ none := by rw [pend]; simp
      rw [State.outerRecovery_reset_stuck pend, if_neg some]
      refine ⟨.after_reset .., fun _ q x hx => State.getLast_answers_respondTo hx, fun calm => ⟨fun q => ?_, fun h => ?_⟩⟩
      · rw [State.answers_respondTo, State.answers_modSeg, State.answers_becomeStuck calm, if_neg some]
      · rw [State.entry_respondTo, State.entry_modSeg]
        exact State.entry_becomeStuck_live (calm h).1 (calm h).2 0x01
  · rw [exec_recoveryEnd_inner active current recovering, State.innerRecovery, recover_succeeds hk, State.modSeg_eq]
  · have ends : exec (.recoveryEnd g obs) s = .next (s.endTransfer g c .busStuck) := by
      rw [exec_recoveryEnd_inner active current recovering, State.innerRecovery, failed]
    have before : StuckBefore s ((s.freed g .busStuck).deliver g c .busStuck) g := (StuckBefore.deliver _ g c).of_freed
    obtain ⟨cur, lines, queue, survey, hseg⟩ := before.seg
    have path : s.endTransfer g c .busStuck = ((s.freed g .busStuck).deliver g c .busStuck).becomeStuck g 0x02 :=
      State.endTransfer_stuck pend rfl (by rw [hseg])
    refine ⟨_, ends, ?_, fun calm pre t post hk queue waiting mark => ?_⟩
    · rw [path]
      exact before.stuckAs_plain pend 0x02
    · obtain ⟨entries, answers, seg⟩ := State.deliver_host_alone (u := s.freed g .busStuck) (g := g) (pre := pre) (post := post) hk
        (by simpa using queue) waiting mark unsent (by simpa using (calm t.handle).1)
      have split : r.hostq.Perm (t :: (pre ++ post)) := by rw [queue]; exact List.perm_middle
      have still : ∀ h, (((s.freed g .busStuck).deliver g c .busStuck).entry h).state ≠ .retiring ∧
          ¬(((s.freed g .busStuck).deliver g c .busStuck).entry h).firstOn g := by
        intro h
        rw [entries h, State.entry_freed, Entry.state_served, Entry.firstOn_served]
        exact calm h
      rw [path]
      refine ⟨fun q => ?_, fun h => ?_⟩
      · rw [State.answers_becomeStuck still, answers, seg, queueAnswers_cons q .busStuck t (pre ++ post)]
        simp [State.freed, r]
      · rw [State.entry_becomeStuck_live (still h).1 (still h).2, entries, seg, State.entry_freed, Entry.without_perm _ _ split,
          Entry.without_cons]

end Sys2Proof.Machine
end

