-- ==== Sys2Proof/Proofs/OffEnds.lean ====
section
/-! PROOFS. A segment goes OFF (04 R73): HOSTQ, the survey and the watches are answered, a hold ends, first admissions fail, and re-admissions are ended. -/

namespace Sys2Proof.Machine

/-! ## The parts of going OFF -/

/-- HOSTQ and the survey of a segment that goes OFF have been answered, its sweep and its hold have ended (04 R73 steps 1 to 6). -/
def State.offQueue (s : State) (g : Seg) (clockHigh : Bool) : State :=
  let u := (((s.modSeg g (fun r => { r with state := .off, pendcmd := none, current := none, lines := r.offLines clockHigh })).completeAll g
    .segmentOff).answerSurvey g .segmentOff).modSeg g Segment.armSweep
  u.dropHold g (u.seg g).lines true

/-- The watches of a segment are answered in an order that is left open (04 R73 step 7; log entry 5). -/
def State.endWatches (s : State) (g : Seg) : State := s.forAnyOrder (s.watched g) (fun s h => s.answerWatch h .segmentOff 0x00)

/-- The re-admissions of a segment are ended (04 R73 step 8, 02 R42). -/
def State.cancelAll (s : State) (g : Seg) : State := (s.admitting g .re).foldl (fun s h => s.modEntry h Entry.cancelRe) s

theorem State.goOff_eq (s : State) (g : Seg) (clockHigh : Bool) (owner : Option (Port × Tag)) : s.goOff g clockHigh owner =
    ((((s.offQueue g clockHigh).endWatches g).failAll g .segmentOff).cancelAll g).respondTo owner .ok [] := rfl

/-! ### A hold ends (05 R112) -/

section Hold

variable {s : State} {g : Seg} {h : Handle}

/-- What the end of a hold with CHAINBRK makes of an entry. -/
def Entry.unheld (e : Entry) (h : Handle) (hold : Option Hold) : Entry :=
  match hold with
  | some ho => if ho.entry = h then e.setChain ho.port true else e
  | none => e

theorem Entry.unheld_kept (e : Entry) (h : Handle) (hold : Option Hold) :
    e.SameAdm (e.unheld h hold) ∧ (e.unheld h hold).watch = e.watch ∧ (e.unheld h hold).inflight = e.inflight := by
  have same := (Entry.SameAdm.refl e)
  unfold Entry.unheld
  split
  · split
    · exact ⟨⟨by simp, by simp, by simp, by simp⟩, by simp, by simp⟩
    · exact ⟨same, rfl, rfl⟩
  · exact ⟨same, rfl, rfl⟩

theorem State.entry_dropHold (l : LineEnd) : (s.dropHold g l true).entry h = (s.entry h).unheld h (s.seg g).hold := by
  unfold State.dropHold Entry.unheld
  cases (s.seg g).hold with
  | none => rfl
  | some ho =>
    simp only [if_true, State.entry_modEntry, State.entry_modSeg]
    by_cases hh : ho.entry = h
    · subst hh; simp
    · simp [hh, Ne.symm hh]

theorem State.seg_dropHold (k : Seg) : (s.dropHold g (s.seg g).lines true).seg k = if k = g then { s.seg g with hold := none } else s.seg k := by
  unfold State.dropHold
  cases hold : (s.seg g).hold with
  | none =>
    have same : { s.seg g with hold := none } = s.seg g := by rw [← hold]
    by_cases hk : k = g
    · rw [if_pos hk, hk, same]
    · rw [if_neg hk]
  | some ho => simp [State.seg_modSeg]

@[simp] theorem State.answers_dropHold (l : LineEnd) (b : Bool) (q : Port) : (s.dropHold g l b).answers q = s.answers q := by
  unfold State.dropHold
  split
  · split <;> simp
  · rfl

end Hold

section Off

variable {s u v : State} {g : Seg} {h : Handle} {clockHigh : Bool}

theorem Quiet.offQueue (s : State) (g : Seg) (clockHigh : Bool) : Quiet s (s.offQueue g clockHigh) :=
  ((((Quiet.modSeg ..).trans (.completeAll ..)).trans (.answerSurvey ..)).trans (.modSeg ..)).trans (.dropHold ..)

theorem State.entry_offQueue (live : (s.entry h).state ≠ .retiring) :
    (s.offQueue g clockHigh).entry h = ((s.entry h).without h (s.seg g).hostq).unheld h (s.seg g).hold := by
  simp only [State.offQueue, State.entry_dropHold, State.entry_modSeg, State.entry_answerSurvey]
  rw [State.entry_completeAll_live (by simpa using live)]
  simp [State.seg_answerSurvey, Segment.armSweep]

theorem State.seg_offQueue (k : Seg) : (s.offQueue g clockHigh).seg k = if k = g then { s.seg g with
    state := .off, current := none, hold := none, pendcmd := none, hostq := [], survey := none, lines := (s.seg g).offLines clockHigh
    sweep := { (s.seg g).sweep with state := .idle, cursor := none, rearmleft := 0 } } else s.seg k := by
  simp only [State.offQueue, State.seg_dropHold]
  by_cases hk : k = g
  · simp [hk, State.seg_answerSurvey, Segment.armSweep]
  · simp [hk, State.seg_answerSurvey, State.seg_modSeg_ne, State.seg_completeAll_ne]

theorem State.answers_offQueue (calm : ∀ h, (s.entry h).state ≠ .retiring) (q : Port) : (s.offQueue g clockHigh).answers q =
    s.answers q ++ queueAnswers q .segmentOff (s.seg g).hostq ++ surveyAnswers q .segmentOff g (s.seg g).survey := by
  simp only [State.offQueue, State.answers_dropHold, State.answers_modSeg, State.answers_answerSurvey]
  rw [State.answers_completeAll (by simpa using calm)]
  simp

theorem State.mem_queue_offQueue {t : HostTx} (ht : t ∈ (s.seg g).hostq) (owned : t.orphan = false) :
    (t.tag, .segmentOff, txResult t.kind 0 []) ∈ (s.offQueue g clockHigh).answers t.port :=
  (((Quiet.answerSurvey ..).trans (.modSeg ..)).trans (.dropHold ..)).mem_answers t.port
    (State.mem_answers_completeAll (by simpa using ht) owned)

theorem State.mem_survey_offQueue {q : Port} {x : Tag × Status × List Byte} (hx : x ∈ surveyAnswers q .segmentOff g (s.seg g).survey) :
    x ∈ (s.offQueue g clockHigh).answers q := by
  simp only [State.offQueue, State.answers_dropHold, State.answers_modSeg, State.answers_answerSurvey]
  exact List.mem_append_right _ (by simpa using hx)

/-! ### Watches and re-admissions end -/

theorem State.mem_watched : h ∈ s.watched g ↔ (s.entry h).onSeg g = true ∧ (s.entry h).watch.isSome = true := by simp [State.watched]

theorem State.nodup_watched : (s.watched g).Nodup := nodup_handles.filter _

theorem Quiet.endWatches (s : State) (g : Seg) : Quiet s (s.endWatches g) := .forAnyOrder (fun _ _ => .answerWatch ..) _ _

theorem State.entry_endWatches : (s.endWatches g).entry h = if (s.entry h).onSeg g = true then (s.entry h).endWatch else s.entry h := by
  rw [State.endWatches, State.entry_forAnyOrder_own (fun u k h => u.entry_answerWatch k h _ _) State.nodup_watched]
  simp only [State.mem_watched]
  by_cases on : (s.entry h).onSeg g = true
  · cases hw : (s.entry h).watch with
    | none => simp [on, Entry.endWatch, hw]
    | some w => simp [on]
  · simp [on]

theorem State.seg_endWatches (k : Seg) : (s.endWatches g).seg k = s.seg k := State.seg_forAnyOrder (fun _ _ _ => by simp) s

theorem State.endWatches_calm (none : ∀ h, (s.entry h).onSeg g = true → (s.entry h).watch = none) : s.endWatches g = s := by
  have empty : s.watched g = [] := by
    refine List.eq_nil_iff_forall_not_mem.2 fun h hh => ?_
    obtain ⟨on, some⟩ := State.mem_watched.1 hh
    rw [none h on] at some
    cases some
  rw [State.endWatches, empty, State.forAnyOrder_nil]

/-- Every watch of the segment is answered SEGMENT_OFF. -/
theorem State.mem_answers_endWatches {w : Watch} (on : (s.entry h).onSeg g = true) (hw : (s.entry h).watch = some w) :
    (w.tag, .segmentOff, []) ∈ (s.endWatches g).answers w.port := by
  obtain ⟨v, same, -, after, -⟩ := State.forAnyOrder_turn (f := fun s h => s.answerWatch h .segmentOff 0x00) (fun _ _ => .answerWatch ..)
    (State.mem_watched.2 ⟨on, by rw [hw]; rfl⟩) (State.nodup_watched (s := s) (g := g)) (view := fun u => u.entry h)
    (fun u k _ hk => by simp [Ne.symm hk]) s (by simp)
  refine after.mem_answers _ ?_
  replace same : v.entry h = s.entry h := same
  rw [State.answerWatch_bare _ _ _ rfl, same, hw, State.answers_respondTo, Option.map_some, ownerAnswers_some]
  simp

/-- What is ended of a re-admission, said as one replacement. -/
theorem Entry.cancelRe_eq (e : Entry) :
    e.cancelRe = { e with state := .lost, fails := 0, adm := none, inflight := e.inflight - bit e.admWaiting } := by
  unfold Entry.cancelRe Entry.admWaiting
  by_cases hw : e.adm.any (fun a => a.planned == .waiting) <;> simp [hw, bit, Entry.lower]

theorem Quiet.cancelAll (s : State) (g : Seg) : Quiet s (s.cancelAll g) := .foldl (fun _ _ => .modEntry ..) _ _

theorem State.entry_cancelAll : (s.cancelAll g).entry h = if (s.entry h).admits g .re = true then (s.entry h).cancelRe else s.entry h := by
  rw [State.cancelAll, State.entry_foldl (E := Entry.cancelRe) (fun u k h => u.entry_modEntry k h _) (State.nodup_admitting _)]
  simp only [State.mem_admitting]

theorem State.seg_cancelAll (k : Seg) : (s.cancelAll g).seg k = s.seg k :=
  State.foldl_frame (view := fun u => u.seg k) (fun _ _ _ => by simp) s

theorem State.answers_cancelAll (q : Port) : (s.cancelAll g).answers q = s.answers q :=
  State.foldl_frame (view := fun u => u.answers q) (fun _ _ _ => by simp) s

/-! ## The segment is OFF -/

/-- What going OFF does once the watches are answered. -/
theorem Quiet.goOff_rest (v : State) (g : Seg) (owner : Option (Port × Tag)) :
    Quiet v (((v.failAll g .segmentOff).cancelAll g).respondTo owner .ok []) :=
  ((Quiet.failAll ..).trans (.cancelAll ..)).trans (.respondTo ..)

/-- An entry that is not RETIRING, once HOSTQ, the hold and the watches have ended. -/
def Entry.quieted (e : Entry) (h : Handle) (g : Seg) (r : Segment) : Entry :=
  let f := (e.without h r.hostq).unheld h r.hold
  if f.onSeg g = true then f.endWatch else f

theorem State.entry_quieted (live : (s.entry h).state ≠ .retiring) :
    ((s.offQueue g clockHigh).endWatches g).entry h = (s.entry h).quieted h g (s.seg g) := by
  rw [State.entry_endWatches, State.entry_offQueue live]
  rfl

theorem Entry.sameAdm_quieted (e : Entry) (h : Handle) (g : Seg) (r : Segment) : e.SameAdm (e.quieted h g r) := by
  obtain ⟨same, -, -⟩ := (e.without h r.hostq).unheld_kept h r.hold
  unfold Entry.quieted
  dsimp only
  split
  · rw [Entry.endWatch_eq]
    exact ⟨same.state, same.place, same.gen, same.adm⟩
  · exact ⟨same.state, same.place, same.gen, same.adm⟩

theorem Entry.SameAdm.admits {e f : Entry} (same : e.SameAdm f) (g : Seg) (k : AdmKind) : f.admits g k = e.admits g k := by
  unfold Entry.admits Entry.onSeg
  rw [same.state, same.place, same.adm]

/-- An entry under first admission there is VACANT, and its SOURCE has been told. -/
theorem State.first_goOff (first : (s.entry h).firstOn g) (owner : Option (Port × Tag)) :
    (s.goOff g clockHigh owner).entry h = Entry.vacant ((s.entry h).gen + 1) ∧
      ∀ a ∈ (s.entry h).adm, a.ToldIn (s.goOff g clockHigh owner) g .segmentOff := by
  have still := s.entry_quieted (g := g) (clockHigh := clockHigh) (h := h) (by simp [first.1])
  have same := (s.entry h).sameAdm_quieted h g (s.seg g)
  have admitted : (((s.offQueue g clockHigh).endWatches g).entry h).firstOn g := by rw [still]; exact same.firstOn first
  have failed := State.entry_failAll (s := (s.offQueue g clockHigh).endWatches g) (g := g) (h := h) (st := .segmentOff)
  rw [if_pos (Entry.admits_first_iff.2 admitted), still, same.gen] at failed
  rw [State.goOff_eq]
  constructor
  · rw [State.entry_respondTo, State.entry_cancelAll, failed]
    rfl
  · intro a ha
    exact (State.toldIn_failAll admitted (by rw [still, same.adm]; exact ha)).later ((Quiet.cancelAll ..).trans (.respondTo ..))

/-- What an entry that is not under first admission there becomes: where it lies on the segment its watch has ended, and its re-admission. -/
theorem Entry.afterOff_eq {e : Entry} (out : ¬e.firstOn g) (h : Handle) (r : Segment) : e.afterOff h r (e.onSeg g) =
    if e.admits g .re = true then (e.quieted h g r).cancelRe else e.quieted h g r := by
  obtain ⟨same, watch, -⟩ := (e.without h r.hostq).unheld_kept h r.hold
  have unfolded : e.afterOff h r (e.onSeg g) =
      let f := (e.without h r.hostq).unheld h r.hold
      if e.onSeg g then
        let f := { f with watch := none, inflight := f.inflight - bit e.watchDue }
        if e.state = .probing ∧ e.adm.isSome then { f with state := .lost, fails := 0, adm := none, inflight := f.inflight - bit e.admWaiting }
        else f
      else f := by
    unfold Entry.afterOff Entry.unheld
    cases r.hold <;> rfl
  have place : ((e.without h r.hostq).unheld h r.hold).onSeg g = e.onSeg g := by
    unfold Entry.onSeg
    rw [same.place]
    rfl
  have due : ((e.without h r.hostq).unheld h r.hold).watchDue = e.watchDue := by
    unfold Entry.watchDue
    rw [watch]
    rfl
  rw [unfolded, Entry.quieted, place]
  by_cases on : e.onSeg g = true
  · have re : e.admits g .re = true ↔ e.state = .probing ∧ e.adm.isSome = true := by
      unfold Entry.admits
      cases ha : e.adm with
      | none => simp
      | some a =>
        have other : e.state = .probing → a.kind = .re := by
          intro probing
          cases hk : a.kind with
          | first => exact absurd ⟨probing, on, a, ha, hk⟩ out
          | re => rfl
        simpa [on] using other
    simp only [on, if_true, re, Entry.cancelRe_eq, Entry.endWatch_eq, due]
    split
    · have waiting : ((e.without h r.hostq).unheld h r.hold).admWaiting = e.admWaiting := by
        unfold Entry.admWaiting
        rw [same.adm]
        rfl
      rw [← waiting]
      rfl
    · rfl
  · have apart : ¬e.admits g .re = true := by simp [Entry.admits, on]
    rw [if_neg on, if_neg apart, if_neg on]

/-- An entry that is neither RETIRING nor under first admission there (04 R73, 02 R42). -/
theorem State.entry_goOff (live : (s.entry h).state ≠ .retiring) (out : ¬(s.entry h).firstOn g) (owner : Option (Port × Tag)) :
    (s.goOff g clockHigh owner).entry h = (s.entry h).afterOff h (s.seg g) ((s.entry h).onSeg g) := by
  have still := s.entry_quieted (g := g) (clockHigh := clockHigh) live
  have same := (s.entry h).sameAdm_quieted h g (s.seg g)
  have unfailed := State.entry_failAll (s := (s.offQueue g clockHigh).endWatches g) (g := g) (h := h) (st := .segmentOff)
  rw [still, same.admits, if_neg (by rw [Entry.admits_first_iff]; exact out)] at unfailed
  rw [State.goOff_eq, State.entry_respondTo, State.entry_cancelAll, unfailed, same.admits, Entry.afterOff_eq out]

theorem State.seg_goOff (owner : Option (Port × Tag)) (k : Seg) : (s.goOff g clockHigh owner).seg k = (s.offQueue g clockHigh).seg k := by
  rw [State.goOff_eq, State.seg_respondTo, State.seg_cancelAll, State.seg_failAll, State.seg_endWatches]

theorem Quiet.goOff_offQueue (s : State) (g : Seg) (clockHigh : Bool) (owner : Option (Port × Tag)) :
    Quiet (s.offQueue g clockHigh) (s.goOff g clockHigh owner) := by
  rw [State.goOff_eq]
  exact (Quiet.endWatches ..).trans (.goOff_rest ..)

/-- Every watch on the segment of an entry that is not RETIRING is answered. -/
theorem State.watch_goOff {w : Watch} (on : (s.entry h).onSeg g = true) (live : (s.entry h).state ≠ .retiring)
    (hw : (s.entry h).watch = some w) (owner : Option (Port × Tag)) :
    (w.tag, .segmentOff, []) ∈ (s.goOff g clockHigh owner).answers w.port := by
  obtain ⟨same, watch, -⟩ := ((s.entry h).without h (s.seg g).hostq).unheld_kept h (s.seg g).hold
  have still := s.entry_offQueue (g := g) (clockHigh := clockHigh) live
  rw [State.goOff_eq]
  refine (Quiet.goOff_rest ..).mem_answers _ (State.mem_answers_endWatches (h := h) ?_ ?_)
  · unfold Entry.onSeg
    rw [still, same.place]
    exact on
  · rw [still, watch]
    exact hw

theorem State.offAs_goOff (s : State) (g : Seg) (clockHigh : Bool) (owner : Option (Port × Tag)) :
    OffAs s (s.goOff g clockHigh owner) g clockHigh where
  seg := by rw [State.seg_goOff, State.seg_offQueue, if_pos rfl]; rfl
  others k hk := by rw [State.seg_goOff, State.seg_offQueue, if_neg hk]
  queue t ht owned := (Quiet.goOff_offQueue ..).mem_answers _ (State.mem_queue_offQueue ht owned)
  survey p x hx := (Quiet.goOff_offQueue ..).mem_answers _ (State.mem_survey_offQueue hx)
  watch h on live w hw := State.watch_goOff on live hw owner
  first h first := by
    obtain ⟨vacant, told⟩ := State.first_goOff (clockHigh := clockHigh) first owner
    exact ⟨vacant, fun a ha => (told a ha).response, fun a ha => (told a ha).survey⟩
  entries h live out := State.entry_goOff live out owner

/-- Where no entry is RETIRING or under first admission there and no watch is there, the answers stand in the order of 04 R73. -/
theorem State.answers_goOff (alone : ∀ h, (s.entry h).state ≠ .retiring ∧ ¬(s.entry h).firstOn g)
    (unwatched : ∀ h, (s.entry h).onSeg g = true → (s.entry h).watch = none) (owner : Option (Port × Tag)) (q : Port) :
    (s.goOff g clockHigh owner).answers q = s.answers q ++ queueAnswers q .segmentOff (s.seg g).hostq ++
      surveyAnswers q .segmentOff g (s.seg g).survey ++ ownerAnswers q .ok [] owner := by
  have kept := fun h => ((s.entry h).without h (s.seg g).hostq).unheld_kept h (s.seg g).hold
  have quietOff : (s.offQueue g clockHigh).endWatches g = s.offQueue g clockHigh := by
    refine State.endWatches_calm fun h on => ?_
    rw [State.entry_offQueue (alone h).1] at on ⊢
    rw [(kept h).2.1]
    refine unwatched h ?_
    unfold Entry.onSeg at on ⊢
    rwa [(kept h).1.place] at on
  have calm : (s.offQueue g clockHigh).failAll g .segmentOff = s.offQueue g clockHigh := by
    refine State.failAll_calm fun h first => (alone h).2 ?_
    rw [State.entry_offQueue (alone h).1, ← Entry.admits_first_iff, (kept h).1.admits, Entry.admits_first_iff] at first
    exact first
  rw [State.goOff_eq, quietOff, calm, State.answers_respondTo, State.answers_cancelAll, State.answers_offQueue fun h => (alone h).1]

/-! ### With nothing to end (04 R73) -/

/-- The segment once it is OFF. -/
def Segment.turnedOff (r : Segment) (clockHigh : Bool) : Segment :=
  { r with
    state := .off, current := none, hold := none, pendcmd := none, hostq := [], survey := none, lines := r.offLines clockHigh
    sweep := { r.sweep with state := .idle, cursor := none, rearmleft := 0 } }

theorem State.offQueue_empty (queue : (s.seg g).hostq = []) (survey : (s.seg g).survey = none) : s.offQueue g clockHigh =
    (s.setSeg g { (s.seg g).turnedOff clockHigh with hold := (s.seg g).hold }).dropHold g ((s.seg g).offLines clockHigh) true := by
  simp only [State.offQueue, State.completeAll, State.modSeg_eq, State.seg_setSeg_same, queue, List.foldl_nil, State.answerSurvey, survey,
    State.setSeg_setSeg, Segment.armSweep]
  rfl

theorem State.goOff_calm {v : State} (owner : Option (Port × Tag)) (off : s.offQueue g clockHigh = v) (calm : v.calmOn g) :
    s.goOff g clockHigh owner = v.respondTo owner .ok [] := by
  have unwatched : v.endWatches g = v := State.endWatches_calm fun h on => (calm h on).1
  have unfailed : v.failAll g .segmentOff = v := State.failAll_calm fun h ⟨_, on, a, ha, _⟩ => by
    rw [(calm h on).2] at ha
    cases ha
  have uncancelled : v.cancelAll g = v := by
    have empty : v.admitting g .re = [] := by
      refine List.eq_nil_iff_forall_not_mem.2 fun h hh => ?_
      have re := State.mem_admitting.1 hh
      simp only [Entry.admits, Bool.and_eq_true] at re
      rw [(calm h re.1.2).2] at re
      cases re.2
    rw [State.cancelAll, empty, List.foldl_nil]
  rw [State.goOff_eq, off, unwatched, unfailed, uncancelled]

end Off

/-- A SEGMENT_DISABLE reaches its block. -/
theorem exec_segmentDisable {s : State} {p : Port} {t : Tag} (ready : Ready s p t) (g : Seg) (clockHigh : Bool) :
    exec (.segmentDisable p (byte t.val) [byte g.val] clockHigh) s = .next ((s.accepted p t).answerDisable p t clockHigh g) := by
  show Host.Outcome.next _ = _
  rw [State.submit_ready ready (by simp), parseSegOnly_byte]
  rfl

/-- A SEGMENT_DISABLE that is neither refused nor kept waiting. -/
theorem State.answerDisable_goOff {s : State} {g : Seg} (pend : (s.seg g).pendcmd = none) (on : (s.seg g).state ≠ .off)
    (idle : (s.seg g).state ≠ .active) (p : Port) (t : Tag) (clockHigh : Bool) :
    s.answerDisable p t clockHigh g = s.goOff g clockHigh (some (p, t)) := by
  unfold State.answerDisable
  rw [pend]
  cases hs : (s.seg g).state with
  | off => exact absurd hs on
  | active => exact absurd hs idle
  | idle | held | recovering | stuck => rfl

/-- CHAINBRK is neither a watch nor an admission. -/
theorem State.calmOn.setChain {s : State} {g : Seg} (calm : s.calmOn g) (r : Segment) (h : Handle) (q : Port) (b : Bool) :
    ((s.setSeg g r).setEntry h ((s.entry h).setChain q b)).calmOn g := by
  intro k on
  rw [State.entry_setEntry] at on ⊢
  by_cases hk : k = h
  · subst hk
    rw [if_pos rfl] at on ⊢
    rw [Entry.watch_setChain, Entry.adm_setChain]
    unfold Entry.onSeg at on
    rw [Entry.place_setChain] at on
    exact calm k on
  · rw [if_neg hk] at on ⊢
    exact calm k on

/-- Settles O54: the DISABLE is refused, done already, deferred, or done at once; and going OFF ends all that the segment has. -/
theorem disableTurnsOffAtOnceOrLater : Obligations.DisableTurnsOffAtOnceOrLater := by
  constructor
  · intro s p t g clockHigh ready ask off
    refine ⟨fun busy => ?_, fun pend => ⟨fun already => ?_, fun active => ?_, fun on idle => ?_,
      fun queue survey calm => ⟨fun state free => ?_, fun q h left held hold => ?_⟩⟩⟩
    · rw [exec_segmentDisable ready, State.answerDisable, State.seg_accepted, if_pos busy]
    · rw [exec_segmentDisable ready]
      simp only [State.answerDisable, State.seg_accepted, pend, already, Option.isSome_none, Bool.false_eq_true, if_false]
    · rw [exec_segmentDisable ready]
      simp only [State.answerDisable, State.seg_accepted, pend, active, Option.isSome_none, Bool.false_eq_true, if_false, State.modSeg_eq]
    · rw [exec_segmentDisable ready, State.answerDisable_goOff (by simpa using pend) (by simpa using on) (by simpa using idle)]
    · have out : (s.seg g).state ≠ .off ∧ (s.seg g).state ≠ .active := by rcases state with hs | hs <;> simp [hs]
      have lines : (s.seg g).offLines clockHigh = (s.seg g).lines := by rcases state with hs | hs <;> simp [Segment.offLines, hs]
      have done : (s.accepted p t).offQueue g clockHigh = (s.accepted p t).setSeg g off := by
        rw [State.offQueue_empty (by simpa using queue) (by simpa using survey)]
        simp [State.dropHold, free, Segment.turnedOff, lines, off, pend]
      have quiet : ((s.accepted p t).setSeg g off).calmOn g := by simpa [State.calmOn] using calm
      rw [exec_segmentDisable ready, State.answerDisable_goOff (by simpa using pend) (by simpa using out.1) (by simpa using out.2),
        State.goOff_calm _ done quiet]
      rfl
    · have lines : (s.seg g).offLines clockHigh = if clockHigh then .stop else .released := by simp [Segment.offLines, held]
      have done : (s.accepted p t).offQueue g clockHigh =
          ((s.accepted p t).setSeg g { off with lines := if clockHigh then .stop else .released }).setEntry h ((s.entry h).setChain q true) := by
        rw [State.offQueue_empty (by simpa using queue) (by simpa using survey)]
        simp [State.dropHold, hold, Segment.turnedOff, lines, off, pend, State.modSeg_eq, State.modEntry_eq]
      have accepted : (s.accepted p t).calmOn g := by simpa [State.calmOn] using calm
      have quiet := accepted.setChain { off with lines := if clockHigh then .stop else .released } h q true
      rw [State.entry_accepted] at quiet
      rw [exec_segmentDisable ready, State.answerDisable_goOff (by simpa using pend) (by simp [held]) (by simp [held]),
        State.goOff_calm _ done quiet]
      rfl
  · intro s g clockHigh owner u
    exact ⟨s.offAs_goOff g clockHigh owner, fun q x hx => State.getLast_answers_respondTo hx, fun alone unwatched q =>
      State.answers_goOff alone unwatched owner q⟩

end Sys2Proof.Machine
end

