-- ==== Sys2Proof/Proofs/PortReset.lean ====
section
/-! PROOFS. A PORT_RESET leaves nothing of its port, and leaves the other port what it had (03 R65, 04 R78, 10 R174, R175). -/

namespace Sys2Proof.Machine

/-! ## What a reset of a port makes of an entry -/

section EntryReset

variable (e : Entry) (p : Port)

/-- The entry without the claim and the wait of the port. -/
def Entry.unclaimed : Entry :=
  let e₁ := if (e.holder p).isSome then e.dropHolder p else e
  { e₁ with waiter := e₁.waiter.filter (fun w => w.port != p) }

theorem Entry.unclaimed_eq : e.unclaimed p =
    { e.setHolder p none with
      claim := if (e.holder p).isSome = true ∧ e.holder p.other = none then .none else e.claim
      waiter := e.waiter.filter (fun w => w.port != p) } := by
  unfold Entry.unclaimed Entry.dropHolder
  cases p <;> cases ha : e.holderA <;> cases hb : e.holderB <;> simp [Entry.holder, Entry.setHolder, Port.other, ha, hb]

theorem Entry.unclaimed_kept : (e.unclaimed p).watch = e.watch ∧ (e.unclaimed p).adm = e.adm ∧ (e.unclaimed p).retire = e.retire ∧
    (e.unclaimed p).state = e.state := by
  rw [Entry.unclaimed_eq]
  exact ⟨by simp, by simp, by simp, by simp⟩

/-- What a reset of a port makes of an entry, as one replacement. -/
theorem Entry.portReset_eq : e.portReset p =
    { ((e.unclaimed p).setSubs p {}).setChain p false with
      watch := e.watch.filter (fun w => w.port != p)
      inflight := (e.unclaimed p).inflight - bit (e.watch.any (fun w => w.port == p) && e.watchDue)
      adm := e.adm.map (fun a => { a with source := a.source.forget p })
      retire := forget p e.retire } := by
  obtain ⟨watch, adm, retire, -⟩ := e.unclaimed_kept p
  have path : e.portReset p =
      let f := (((if (e.unclaimed p).watch.any (fun w => w.port == p) then (e.unclaimed p).endWatch else e.unclaimed p).setSubs p {}).setChain p
        false)
      { f with adm := f.adm.map (fun a => { a with source := a.source.forget p }), retire := forget p f.retire } := rfl
  rw [path]
  clear path
  generalize e.unclaimed p = c at watch adm retire
  rw [watch]
  cases hw : e.watch with
  | none =>
    have bare : c.watch = none := by rw [watch, hw]
    cases p <;> simp [Entry.setSubs, Entry.setChain, adm, retire, bit, bare]
  | some w =>
    have due : c.watchDue = e.watchDue := by rw [Entry.watchDue, Entry.watchDue, watch]
    by_cases own : w.port = p
    · cases hp : p <;> simp [Entry.endWatch_eq, Entry.setSubs, Entry.setChain, adm, retire, own, hp, due, Option.filter]
    · have kept : c.watch = some w := by rw [watch, hw]
      have apart : (w.port == p) = false := by simpa using own
      simp only [Option.any_some, apart, Bool.false_eq_true, if_false, Option.filter, bne, Bool.not_false, if_true, Bool.false_and, bit, Nat.sub_zero]
      cases p <;> simp [Entry.setSubs, Entry.setChain, adm, retire, kept]

theorem Entry.state_portReset : (e.portReset p).state = e.state := by simp [Entry.portReset_eq, Entry.unclaimed_eq]
theorem Entry.waiter_portReset : (e.portReset p).waiter = e.waiter.filter (fun w => w.port != p) := by
  simp [Entry.portReset_eq, Entry.unclaimed_eq]
theorem Entry.watch_portReset : (e.portReset p).watch = e.watch.filter (fun w => w.port != p) := by rw [Entry.portReset_eq]
theorem Entry.claim_portReset : (e.portReset p).claim =
    if (e.holder p).isSome = true ∧ e.holder p.other = none then .none else e.claim := by
  simp [Entry.portReset_eq, Entry.unclaimed_eq]
theorem Entry.holder_portReset_same : (e.portReset p).holder p = none := by
  rw [Entry.portReset_eq, Entry.unclaimed_eq]
  cases p <;> rfl
theorem Entry.holder_portReset_other : (e.portReset p).holder p.other = e.holder p.other := by
  rw [Entry.portReset_eq, Entry.unclaimed_eq]
  cases p <;> rfl
theorem Entry.subs_portReset_same : (e.portReset p).subs p = {} := by
  rw [Entry.portReset_eq]
  cases p <;> rfl
theorem Entry.subs_portReset_other : (e.portReset p).subs p.other = e.subs p.other := by
  rw [Entry.portReset_eq, Entry.unclaimed_eq]
  cases p <;> rfl
theorem Entry.chain_portReset : (e.portReset p).chain p = false := by
  rw [Entry.portReset_eq]
  cases p <;> rfl

end EntryReset

theorem mem_filter_port {α : Type} {o : Option α} {port : α → Port} {p : Port} {x : α} (hx : x ∈ o.filter (fun a => port a != p)) : port x ≠ p := by
  have apart := (Option.mem_filter_iff.1 hx).2
  simpa using apart

theorem forget_ne {p : Port} {owner : Option (Port × Tag)} {o : Port × Tag} (ho : o ∈ forget p owner) : o.1 ≠ p := mem_filter_port ho

theorem AdmSource.forget_ne (p : Port) (src : AdmSource) :
    (∀ t, src.forget p ≠ .byAdmit (some (p, t))) ∧ src.forget p ≠ .survey (some p) := by
  cases src with
  | byAdmit owner =>
    refine ⟨fun t same => ?_, AdmSource.noConfusion⟩
    have named : Machine.forget p owner = some (p, t) := by injection same
    exact Machine.forget_ne (o := (p, t)) named rfl
  | survey owner =>
    refine ⟨fun t => AdmSource.noConfusion, fun same => ?_⟩
    have named : owner.filter (fun o => o != p) = some p := by injection same
    exact mem_filter_port (port := fun o : Port => o) named rfl
  | watch => exact ⟨fun t => AdmSource.noConfusion, AdmSource.noConfusion⟩
  | surveyReappear => exact ⟨fun t => AdmSource.noConfusion, AdmSource.noConfusion⟩

/-! ## Nothing of a port, entry by entry and segment by segment -/

/-- An entry holds nothing of a port. -/
structure Entry.NothingOf (e : Entry) (p : Port) : Prop where
  holder : e.holder p = none
  waiter : ∀ w ∈ e.waiter, w.port ≠ p
  watch : ∀ w ∈ e.watch, w.port ≠ p
  subs : e.subs p = {}
  chain : e.chain p = false
  retire : ∀ o ∈ e.retire, o.1 ≠ p
  source : ∀ a ∈ e.adm, (∀ t, a.source ≠ .byAdmit (some (p, t))) ∧ a.source ≠ .survey (some p)

/-- A segment holds nothing of a port but a transaction on the bus, whose response will be discarded. -/
structure Segment.NothingOf (r : Segment) (p : Port) : Prop where
  queue : ∀ t ∈ r.hostq, t.port = p → t.active = true ∧ t.orphan = true
  survey : ∀ c ∈ r.survey, c.port ≠ p
  hold : ∀ o ∈ r.hold, r.state = .held → o.port ≠ p
  pendcmd : ∀ c ∈ r.pendcmd, ∀ o ∈ c.owner, o.1 ≠ p

theorem State.nothingOf_iff {s : State} {p : Port} :
    s.NothingOf p ↔ s.port p = {} ∧ (∀ h, (s.entry h).NothingOf p) ∧ ∀ g, (s.seg g).NothingOf p := by
  constructor
  · intro no
    exact ⟨no.port, fun h => ⟨no.holder h, no.waiter h, no.watch h, no.subs h, no.chain h, no.retire h, no.source h⟩,
      fun g => ⟨no.queue g, no.survey g, no.hold g, no.pendcmd g⟩⟩
  · rintro ⟨port, entries, segs⟩
    exact ⟨port, fun h => (entries h).holder, fun h => (entries h).waiter, fun h => (entries h).watch, fun h => (entries h).subs,
      fun h => (entries h).chain, fun h => (entries h).retire, fun g => (segs g).queue, fun h => (entries h).source, fun g => (segs g).survey,
      fun g => (segs g).hold, fun g => (segs g).pendcmd⟩

theorem Entry.nothingOf_portReset (e : Entry) (p : Port) : (e.portReset p).NothingOf p where
  holder := e.holder_portReset_same p
  waiter w hw := mem_filter_port (by rwa [Entry.waiter_portReset] at hw)
  watch w hw := mem_filter_port (by rwa [Entry.watch_portReset] at hw)
  subs := e.subs_portReset_same p
  chain := e.chain_portReset p
  retire o ho := by
    rw [Entry.portReset_eq] at ho
    exact forget_ne ho
  source a ha := by
    rw [Entry.portReset_eq] at ha
    obtain ⟨b, -, rfl⟩ := Option.map_eq_some_iff.1 ha
    exact b.source.forget_ne p

theorem Segment.nothingOf_portReset (r : Segment) (p : Port) : (r.portReset p).NothingOf p := by
  have queue : ∀ t ∈ (r.hostq.filter (fun t => t.port != p || t.active)).map (fun t => if t.port = p then { t with orphan := true } else t),
      t.port = p → t.active = true ∧ t.orphan = true := by
    intro t ht own
    obtain ⟨x, hx, rfl⟩ := List.mem_map.1 ht
    have stays := (List.mem_filter.1 hx).2
    split at own
    · next hp => simp_all
    · next hp => exact absurd own hp
  have survey : ∀ c ∈ r.survey.filter (fun c => c.port != p), c.port ≠ p := fun c hc => mem_filter_port hc
  have pendcmd : ∀ c ∈ r.pendcmd.map (fun c => { c with owner := forget p c.owner }), ∀ o ∈ c.owner, o.1 ≠ p := by
    intro c hc o ho
    obtain ⟨d, -, rfl⟩ := Option.map_eq_some_iff.1 hc
    exact forget_ne ho
  unfold Segment.portReset
  dsimp only
  split
  · exact ⟨queue, survey, nofun, pendcmd⟩
  · next other =>
    refine ⟨queue, survey, fun o ho held own => other ?_, pendcmd⟩
    simp only [Option.mem_def] at ho
    simp only at held
    simp [Segment.heldBy, held, ho, own]

theorem Entry.nothingOf_vacant (n : Gen) (p : Port) : (Entry.vacant n).NothingOf p := by
  constructor <;> cases p <;> simp [Entry.vacant, Entry.holder, Entry.subs, Entry.chain]

theorem Entry.NothingOf.fallen {e : Entry} {p : Port} (no : e.NothingOf p) : e.fallen.NothingOf p := by
  unfold Entry.fallen
  split
  · exact Entry.nothingOf_vacant _ p
  · exact ⟨no.holder, no.waiter, no.watch, no.subs, no.chain, no.retire, no.source⟩

theorem Entry.NothingOf.setChain {e : Entry} {p : Port} (no : e.NothingOf p) (q : Port) : (e.setChain q false).NothingOf p where
  holder := by simpa using no.holder
  waiter := by simpa using no.waiter
  watch := by simpa using no.watch
  subs := by simpa using no.subs
  chain := by
    rcases Port.eq_or_other q p with rfl | rfl
    · exact e.chain_setChain_same p false
    · exact (e.chain_setChain_other q false).trans no.chain
  retire := by simpa using no.retire
  source := by simpa using no.source

/-- A choice of the arbiter brings nothing of a port into an entry. -/
theorem Entry.Chosen.nothingOf {e f : Entry} {p : Port} (chosen : e.Chosen f) (no : e.NothingOf p) : f.NothingOf p := by
  induction chosen with
  | refl => exact no
  | answered q _ ih => exact (ih.setChain q).fallen
  | @admission f a _ ha ih =>
    refine ⟨ih.holder, ih.waiter, ih.watch, ih.subs, ih.chain, ih.retire, fun b hb => ?_⟩
    obtain rfl := Option.some.inj hb
    exact ih.source a ha
  | watch _ _ ih =>
    refine ⟨ih.holder, ih.waiter, fun w hw => ?_, ih.subs, ih.chain, ih.retire, ih.source⟩
    obtain ⟨v, hv, rfl⟩ := Option.map_eq_some_iff.1 hw
    exact ih.watch v hv
  | rise _ _ _ ih => exact ⟨ih.holder, ih.waiter, ih.watch, ih.subs, ih.chain, ih.retire, ih.source⟩

/-! ## Operations that bring nothing of the port -/

section Operations

variable {s u : State} {p : Port} {g : Seg}

theorem State.NothingOf.entryOf (no : u.NothingOf p) (h : Handle) : (u.entry h).NothingOf p := (State.nothingOf_iff.1 no).2.1 h

theorem State.NothingOf.segOf (no : u.NothingOf p) (g : Seg) : (u.seg g).NothingOf p := (State.nothingOf_iff.1 no).2.2 g

theorem State.NothingOf.setEntry (no : u.NothingOf p) {h : Handle} {e : Entry} (he : e.NothingOf p) : (u.setEntry h e).NothingOf p := by
  obtain ⟨port, entries, segs⟩ := State.nothingOf_iff.1 no
  refine State.nothingOf_iff.2 ⟨by simpa using port, fun k => ?_, by simpa using segs⟩
  rw [State.entry_setEntry]
  split
  · exact he
  · exact entries k

theorem State.NothingOf.modEntry (no : u.NothingOf p) {h : Handle} {f : Entry → Entry} (hf : (f (u.entry h)).NothingOf p) :
    (u.modEntry h f).NothingOf p := no.setEntry hf

theorem State.NothingOf.modSeg (no : u.NothingOf p) {f : Segment → Segment} (hf : (f (u.seg g)).NothingOf p) : (u.modSeg g f).NothingOf p := by
  obtain ⟨port, entries, segs⟩ := State.nothingOf_iff.1 no
  refine State.nothingOf_iff.2 ⟨by simpa using port, by simpa using entries, fun k => ?_⟩
  rw [State.seg_modSeg]
  split
  · exact hf
  · exact segs k

theorem State.NothingOf.modPort (no : u.NothingOf p) {q : Port} (hq : q ≠ p) (f : PortRec → PortRec) : (u.modPort q f).NothingOf p := by
  obtain ⟨port, entries, segs⟩ := State.nothingOf_iff.1 no
  exact State.nothingOf_iff.2 ⟨by rw [State.port_modPort_ne _ _ hq.symm]; exact port, by simpa using entries, by simpa using segs⟩

theorem State.NothingOf.respond (no : u.NothingOf p) {q : Port} (hq : q ≠ p) (t : Tag) (st : Status) (l : List Byte) :
    (u.respond q t st l).NothingOf p := by
  unfold State.respond State.enqueue
  exact no.modPort hq _

theorem State.NothingOf.respondTo (no : u.NothingOf p) {owner : Option (Port × Tag)} (ho : ∀ o ∈ owner, o.1 ≠ p) (st : Status) (l : List Byte) :
    (u.respondTo owner st l).NothingOf p := by
  rcases owner with _ | ⟨q, t⟩
  · exact no
  · exact no.respond (ho (q, t) rfl) t st l

theorem State.NothingOf.postWhere (no : u.NothingOf p) {who : Port → Bool} (unnamed : who p = false) (k : NoticeKind) (sub : Subject) (d : Byte) :
    (u.postWhere who k sub d).NothingOf p := by
  have one : ∀ (v : State) (q : Port), v.NothingOf p → who q = true → (v.post q k sub d).NothingOf p := by
    intro v q hv named
    refine hv.modPort ?_ _
    rintro rfl
    rw [unnamed] at named
    cases named
  have first : (if who .A then u.post .A k sub d else u).NothingOf p := by
    split
    · next named => exact one u .A no named
    · exact no
  unfold State.postWhere
  dsimp only
  split
  · next named => exact one _ .B first named
  · exact first

theorem State.NothingOf.completeRetire (no : u.NothingOf p) (h : Handle) : (u.completeRetire h).NothingOf p := by
  have e := no.entryOf h
  unfold State.completeRetire State.enterVacant
  rw [State.dropClaims_eq]
  refine State.NothingOf.respondTo (State.NothingOf.setEntry (State.NothingOf.respondTo (State.NothingOf.postWhere (no.setEntry ?_) ?_ _ _ _) ?_ _ _)
    (Entry.nothingOf_vacant _ p)) e.retire _ _
  · exact ⟨by cases p <;> rfl, nofun, e.watch, e.subs, e.chain, e.retire, e.source⟩
  · simp [e.holder]
  · intro o ho
    obtain ⟨w, hw, rfl⟩ := Option.map_eq_some_iff.1 ho
    exact e.waiter w hw

theorem State.NothingOf.fall (no : u.NothingOf p) (h : Handle) : (u.fall h).NothingOf p := by
  have e := no.entryOf h
  have low : (u.modEntry h Entry.lower).NothingOf p :=
    no.modEntry ⟨e.holder, e.waiter, e.watch, e.subs, e.chain, e.retire, e.source⟩
  unfold State.fall
  dsimp only
  split
  · exact low.completeRetire h
  · exact low

/-- A WAITER of the other port that is granted brings nothing of the port. -/
theorem State.NothingOf.reevaluate (no : u.NothingOf p) (h : Handle) : (u.reevaluate h).NothingOf p := by
  have e := no.entryOf h
  unfold State.reevaluate
  cases hw : (u.entry h).waiter with
  | none => exact no
  | some w =>
    have apart : w.port ≠ p := e.waiter w hw
    dsimp only
    split
    · refine (no.modEntry ?_).respond apart _ _ _
      have other : p = w.port.other := (Port.eq_or_other w.port p).resolve_left (Ne.symm apart)
      have holder := e.holder
      rw [other] at holder
      unfold Entry.grantTo
      cases w.mode with
      | exclusive =>
        refine ⟨?_, nofun, ?_, ?_, ?_, ?_, ?_⟩
        · rw [other]; cases w.port <;> rfl
        · simpa using e.watch
        · rw [← e.subs]; cases w.port <;> cases p <;> rfl
        · rw [← e.chain]; cases w.port <;> cases p <;> rfl
        · simpa using e.retire
        · simpa using e.source
      | shared =>
        refine ⟨?_, nofun, ?_, ?_, ?_, ?_, ?_⟩
        · rw [other, ← holder]; cases w.port <;> rfl
        · simpa using e.watch
        · rw [← e.subs]; cases w.port <;> cases p <;> rfl
        · rw [← e.chain]; cases w.port <;> cases p <;> rfl
        · simpa using e.retire
        · simpa using e.source
    · exact no

/-! ## The arbiter's choice brings nothing of the port -/

theorem State.NothingOf.mem_hostq (no : u.NothingOf p) {t : HostTx} (ht : t ∈ (u.seg g).hostq) (owned : t.orphan = false) : t.port ≠ p := by
  intro own
  have orphan := ((no.segOf g).queue t ht own).2
  rw [owned] at orphan
  cases orphan

theorem State.NothingOf.endSweep (no : u.NothingOf p) (g : Seg) : (u.endSweep g).NothingOf p := by
  have unmasked : (u.port p).segMasks[g.val].attention = false := by
    rw [no.port]
    simp
  have posted : (if (u.seg g).sweep.hits = 0 then u.postWhere (fun p => (u.port p).segMasks[g.val].attention) .orphanAttention (.segment g)
      (byte (u.seg g).sweep.reads) else u).NothingOf p := by
    split
    · exact no.postWhere unmasked _ _ _
    · exact no
  have r := posted.segOf g
  unfold State.endSweep
  refine posted.modSeg ?_
  exact ⟨r.queue, r.survey, r.hold, r.pendcmd⟩

theorem State.NothingOf.lookSweep (no : u.NothingOf p) (g : Seg) : (u.lookSweep g).NothingOf p := by
  unfold State.lookSweep
  split
  · exact no.endSweep g
  · exact no

/-- An entry that was granted the bus. -/
theorem State.NothingOf.chosenEntry (no : u.NothingOf p) {h : Handle} {f : Entry → Entry} (chosen : (u.entry h).Chosen (f (u.entry h))) :
    (u.modEntry h f).NothingOf p := no.modEntry (chosen.nothingOf (no.entryOf h))

/-- The bus is granted. -/
theorem State.NothingOf.granted (no : u.NothingOf p) (c : Segment → Current) (n : Segment → NextClass) :
    (u.modSeg g (fun r => { r.grant (c r) with nextclass := n r })).NothingOf p := by
  have r := no.segOf g
  exact no.modSeg ⟨r.queue, r.survey, nofun, r.pendcmd⟩

theorem State.NothingOf.grantHost (no : u.NothingOf p) {t : HostTx} (ht : t ∈ (u.seg g).hostq) (i : Nat) (b : Bool) :
    (u.grantHost g i t b).NothingOf p := by
  have r := no.segOf g
  unfold State.grantHost
  refine no.modSeg ⟨fun x hx own => ?_, r.survey, nofun, r.pendcmd⟩
  rcases List.mem_or_eq_of_mem_set hx with hx | rfl
  · exact r.queue x hx own
  · exact ⟨rfl, (r.queue t ht own).2⟩

theorem State.NothingOf.give (no : u.NothingOf p) {t : HostTx} (apart : t.orphan = false → t.port ≠ p) (r : Response) : (u.give t r).NothingOf p := by
  unfold State.give
  split
  · exact no
  · next owned => exact no.modPort (apart (by simpa using owned)) _

theorem State.NothingOf.completeAt (no : u.NothingOf p) {t : HostTx} (ht : t ∈ (u.seg g).hostq) (i : Nat) (st : Status) :
    (u.completeAt g i t st).NothingOf p := by
  have r := no.segOf g
  have out : (u.modSeg g (fun r => { r with hostq := r.hostq.eraseIdx i })).NothingOf p :=
    no.modSeg ⟨fun x hx => r.queue x (List.mem_of_mem_eraseIdx hx), r.survey, r.hold, r.pendcmd⟩
  refine State.NothingOf.fall ?_ t.handle
  rw [State.answerTx_eq]
  exact (out.setEntry ((out.entryOf t.handle).setChain t.port)).give (no.mem_hostq ht) _

theorem State.NothingOf.rise (no : u.NothingOf p) (h : Handle) : (u.modEntry h Entry.rise).NothingOf p := by
  have e := no.entryOf h
  exact no.modEntry ⟨e.holder, e.waiter, e.watch, e.subs, e.chain, e.retire, e.source⟩

theorem State.NothingOf.grantSweep (no : u.NothingOf p) (g : Seg) (h : Handle) : (u.grantSweep g h).NothingOf p := by
  have risen := no.rise h
  have r := risen.segOf g
  exact risen.modSeg ⟨r.queue, r.survey, nofun, r.pendcmd⟩

theorem State.NothingOf.setSurvey (no : u.NothingOf p) {c : Cursor} (hc : c.port ≠ p) :
    (u.modSeg g (fun r => { r with survey := some c })).NothingOf p := by
  have r := no.segOf g
  refine no.modSeg ⟨r.queue, fun x hx => ?_, r.hold, r.pendcmd⟩
  obtain rfl := Option.some.inj hx
  exact hc

theorem State.NothingOf.answerSurvey (no : u.NothingOf p) (g : Seg) (st : Status) : (u.answerSurvey g st).NothingOf p := by
  have r := no.segOf g
  unfold State.answerSurvey
  cases hs : (u.seg g).survey with
  | none => exact no
  | some c =>
    have ended : (u.modSeg g (fun r => { r with survey := none })).NothingOf p := no.modSeg ⟨r.queue, nofun, r.hold, r.pendcmd⟩
    exact ended.respond (r.survey c hs) _ _ _

theorem State.NothingOf.grantSurvey (no : u.NothingOf p) {c : Cursor} (hc : c.port ≠ p) : (u.grantSurvey g c).NothingOf p := by
  have named : (match u.find g .seven c.next with
      | some h => u.modEntry h Entry.rise
      | none => u).NothingOf p := by
    split
    · exact no.rise _
    · exact no
  have r := named.segOf g
  unfold State.grantSurvey
  refine named.modSeg ⟨r.queue, fun x hx => ?_, nofun, r.pendcmd⟩
  obtain rfl := Option.some.inj hx
  exact hc

theorem State.NothingOf.offerSurvey (no : u.NothingOf p) (g : Seg) : (u.offerSurvey g).1.NothingOf p := by
  unfold State.offerSurvey
  cases hs : (u.seg g).survey with
  | none => exact no
  | some c =>
    have apart : c.port ≠ p := (no.segOf g).survey c hs
    have walked : (u.modSeg g (fun r => { r with survey := some { c with next := u.walk g (c.high + 1 - c.next) c.next } })).NothingOf p :=
      no.setSurvey apart
    dsimp only
    split
    · exact no
    · split
      · exact walked.answerSurvey g .ok
      · exact walked.grantSurvey apart

theorem State.NothingOf.tryBackground (no : u.NothingOf p) (g : Seg) : (u.tryBackground g).1.NothingOf p := by
  unfold State.tryBackground
  split
  · next h _ =>
    unfold State.grantAdmission
    cases ha : (u.entry h).adm with
    | none => exact no
    | some a =>
      exact (no.chosenEntry (.admission .refl ha)).granted
        (fun r => Current.begin .admission (some h) false ((u.entry h).wire (fun pl => admPlan pl r.config.descoff a))) (fun _ => .host)
  · split
    · next h hp =>
      have due := List.find?_some hp
      simp only [Bool.and_eq_true] at due
      exact (no.chosenEntry (.watch .refl due.1.2)).granted (fun _ => Current.begin .watch (some h) false ((u.entry h).wire probePlan))
        (fun _ => .host)
    · exact no.offerSurvey g

/-- The arbiter's choice, step by step: what the attention unit does, the grants, and the completions without the bus (04 R82 to R84). -/
theorem State.arbitrate_induct {P : State → Prop} (look : ∀ u, P u → P (u.lookSweep g)) (sweep : ∀ u h, P u → P (u.grantSweep g h))
    (background : ∀ u, P u → P (u.tryBackground g).1) (complete : ∀ u i t st, P u → t ∈ (u.seg g).hostq → P (u.completeAt g i t st))
    (grant : ∀ u i t b, P u → t ∈ (u.seg g).hostq → P (u.grantHost g i t b)) (n : Nat) (hs : P s) : P (s.arbitrate n g) := by
  induction n generalizing s with
  | zero => exact hs
  | succ n ih =>
    have pick : ∀ u, P u → ∀ i t b, t ∈ (u.seg g).hostq → P (match u.recheck t with
        | some st => State.arbitrate n (u.completeAt g i t st) g
        | none => u.grantHost g i t b) := by
      intro u hu i t b ht
      split
      · exact ih (complete u i t _ hu ht)
      · exact grant u i t b hu ht
    have inQueue : ∀ {f : HostTx → Bool} {u : State} {i : Nat} {t : HostTx}, firstTx f 0 (u.seg g).hostq = some (i, t) → t ∈ (u.seg g).hostq := by
      intro f u i t ht
      obtain ⟨pre, post, queue, -⟩ := firstTx_eq_some.1 ht
      simp [queue]
    unfold State.arbitrate
    split
    · split
      · exact hs
      · next i t ht =>
        refine pick s hs i t true ?_
        unfold State.pickFollowOn at ht
        split at ht
        · split at ht
          · cases ht
          · exact inQueue ht
        · cases ht
    · dsimp only
      have looked := look s hs
      have tried := background _ looked
      split
      · exact sweep _ _ looked
      · split
        · split
          · exact tried
          · next ht => exact pick _ looked _ _ false (inQueue ht)
        · split
          · exact tried
          · split
            · exact tried
            · next ht => exact pick _ tried _ _ false (inQueue ht)
    all_goals exact hs

theorem State.NothingOf.choose (no : s.NothingOf p) (g : Seg) : (s.choose g).NothingOf p :=
  State.arbitrate_induct (P := fun u => u.NothingOf p) (fun _ hu => hu.lookSweep g) (fun _ h hu => hu.grantSweep g h)
    (fun _ hu => hu.tryBackground g) (fun _ i _ st hu ht => hu.completeAt ht i st) (fun _ i _ b hu ht => hu.grantHost ht i b) _ no

/-! ## The port's withdrawal -/

theorem State.withdrawing_kept (l : List HostTx) (h : Handle) :
    (∃ n, (l.foldl (fun s t => s.modEntry t.handle Entry.lower) s).entry h = { s.entry h with inflight := n }) ∧
      (∀ g, (l.foldl (fun s t => s.modEntry t.handle Entry.lower) s).seg g = s.seg g) ∧
      ∀ q, (l.foldl (fun s t => s.modEntry t.handle Entry.lower) s).port q = s.port q := by
  refine ⟨?_, fun g => ?_, fun q => ?_⟩
  · induction l generalizing s with
    | nil => exact ⟨_, rfl⟩
    | cons t l ih =>
      obtain ⟨n, hn⟩ := ih (s := s.modEntry t.handle Entry.lower)
      refine ⟨n, ?_⟩
      rw [List.foldl_cons, hn, State.entry_modEntry]
      split
      · next hh => rw [hh]; rfl
      · rfl
  · exact State.foldl_frame (view := fun u => u.seg g) (fun _ _ _ => by simp) s
  · exact State.foldl_frame (view := fun u => u.port q) (fun _ _ _ => by simp) s

/-- Every entry has lost what was the port's, and the transactions withdrawn are no longer counted. -/
theorem State.entry_withdrawPort (s : State) (p : Port) (h : Handle) :
    ∃ n, (s.withdrawPort p).entry h = ({ s.entry h with inflight := n } : Entry).portReset p := by
  obtain ⟨⟨n, hn⟩, -, -⟩ := State.withdrawing_kept (s := s) (s.withdrawn p) h
  exact ⟨n, by rw [State.withdrawPort, State.entry_setPort, State.entry_mapSegs, State.entry_mapEntries, hn]⟩

theorem State.seg_withdrawPort (s : State) (p : Port) (g : Seg) : (s.withdrawPort p).seg g = (s.seg g).portReset p := by
  rw [State.withdrawPort, State.seg_setPort, State.seg_mapSegs, State.seg_mapEntries,
    (State.withdrawing_kept (s := s) (s.withdrawn p) 0).2.1]

theorem State.port_withdrawPort_other (s : State) (p : Port) : (s.withdrawPort p).port p.other = s.port p.other := by
  rw [State.withdrawPort, State.port_setPort_other, State.port_mapSegs, State.port_mapEntries,
    (State.withdrawing_kept (s := s) (s.withdrawn p) 0).2.2]

theorem State.threshold_withdrawPort (s : State) (p : Port) : (s.withdrawPort p).threshold = s.threshold := by
  rw [State.withdrawPort, State.threshold_setPort, State.threshold_mapSegs, State.threshold_mapEntries]
  exact State.foldl_frame (view := State.threshold) (fun _ _ _ => by simp) s

theorem State.nothingOf_withdrawPort (s : State) (p : Port) : (s.withdrawPort p).NothingOf p := by
  refine State.nothingOf_iff.2 ⟨?_, fun h => ?_, fun g => ?_⟩
  · rw [State.withdrawPort, State.port_setPort_same]
  · obtain ⟨n, hn⟩ := s.entry_withdrawPort p h
    rw [hn]
    exact Entry.nothingOf_portReset _ p
  · rw [State.seg_withdrawPort]
    exact Segment.nothingOf_portReset _ p

end Operations

/-! ## What the reset brings about on the entries (03 R65 step 3, 01 R15) -/

section Events

variable {s u : State} {p q : Port} {g : Seg} {h : Handle}

theorem State.mem_portResetEvents {ev : Event} : ev ∈ s.portResetEvents ↔
    (∃ h, (s.entry h).waiterReady = true ∧ ev = .waiterGranted h) ∨ ∃ h, (s.entry h).drained = true ∧ ev = .retireComplete h := by
  simp only [State.portResetEvents, List.mem_append, List.mem_map, List.mem_filter, mem_handles, true_and]
  exact or_congr (exists_congr fun h => and_congr_right' eq_comm) (exists_congr fun h => and_congr_right' eq_comm)

theorem State.nodup_portResetEvents (s : State) : s.portResetEvents.Nodup := by
  refine List.Nodup.append ?_ ?_ ?_
  · exact (nodup_handles.filter _).map fun a b same => by injection same
  · exact (nodup_handles.filter _).map fun a b same => by injection same
  · intro ev hw hr
    obtain ⟨a, -, rfl⟩ := List.mem_map.1 hw
    obtain ⟨b, -, same⟩ := List.mem_map.1 hr
    cases same

theorem State.forAnyOrder_keeps {α : Type} {P : State → Prop} {l : List α} {f : State → α → State} (hf : ∀ u, ∀ a ∈ l, P u → P (f u a))
    (s : State) (hs : P (s.anyOrder l).2) : P (s.forAnyOrder l f) := by
  have fold : ∀ (l' : List α) (u : State), (∀ a ∈ l', a ∈ l) → P u → P (l'.foldl f u) := by
    intro l'
    induction l' with
    | nil => exact fun u _ hu => hu
    | cons a l' ih =>
      intro u sub hu
      exact ih _ (fun b hb => sub b (List.mem_cons_of_mem _ hb)) (hf u a (sub a List.mem_cons_self) hu)
  exact fold _ _ (fun a ha => State.mem_anyOrder ha) hs

theorem State.NothingOf.anyOrder {α : Type} (no : s.NothingOf p) (l : List α) : (s.anyOrder l).2.NothingOf p := by
  obtain ⟨port, entries, segs⟩ := State.nothingOf_iff.1 no
  exact State.nothingOf_iff.2 ⟨by simpa using port, by simpa using entries, by simpa using segs⟩

theorem State.NothingOf.portReset (s : State) (p : Port) :
    (((s.withdrawPort p).forAnyOrder (s.withdrawPort p).portResetEvents State.happen).forAnyOrder (s.heldSegs p) State.choose).NothingOf p := by
  have events : ((s.withdrawPort p).forAnyOrder (s.withdrawPort p).portResetEvents State.happen).NothingOf p := by
    refine State.forAnyOrder_keeps (P := fun u => u.NothingOf p) (fun u ev hev no => ?_) _ ((s.nothingOf_withdrawPort p).anyOrder _)
    rcases State.mem_portResetEvents.1 hev with ⟨h, -, rfl⟩ | ⟨h, -, rfl⟩
    · exact no.reevaluate h
    · unfold State.happen
      dsimp only
      split
      · exact no.completeRetire h
      · exact no
  exact State.forAnyOrder_keeps (P := fun u => u.NothingOf p) (fun u g _ no => no.choose g) _ (events.anyOrder _)

/-! ### The entries -/

theorem State.reevaluate_ready {w : Waiter} (hw : (s.entry h).waiter = some w) (ready : (s.entry h).compatible w = true) :
    s.reevaluate h = (s.setEntry h ((s.entry h).grantTo w)).respond w.port w.tag .ok [claimCode w.mode.claim, byte w.leasereq] := by
  simp only [State.reevaluate, hw, ready, if_true, State.modEntry_eq]

theorem State.entry_reevaluate_ne {k : Handle} (hk : k ≠ h) : (s.reevaluate h).entry k = s.entry k := by
  unfold State.reevaluate
  split
  · rfl
  · split
    · rw [State.entry_respond, State.entry_modEntry_ne _ _ hk]
    · rfl

/-- The events change their own entries alone. -/
theorem State.entry_happen_ne {ev : Event} (hev : ev ∈ s.portResetEvents) (granted : ev ≠ .waiterGranted h) (retired : ev ≠ .retireComplete h)
    (u : State) : (u.happen ev).entry h = u.entry h := by
  rcases State.mem_portResetEvents.1 hev with ⟨k, -, rfl⟩ | ⟨k, -, rfl⟩
  · exact State.entry_reevaluate_ne fun same => granted (by rw [same])
  · have apart : h ≠ k := fun same => retired (by rw [same])
    unfold State.happen
    dsimp only
    split
    · rw [State.entry_completeRetire, if_neg apart]
    · rfl

/-- An entry on which the reset brings about nothing. -/
theorem State.entry_events_none (waits : (s.entry h).waiterReady = false) (stays : (s.entry h).drained = false) :
    (s.forAnyOrder s.portResetEvents State.happen).entry h = s.entry h := by
  refine State.forAnyOrder_keeps (P := fun u => u.entry h = s.entry h) (fun u ev hev same => ?_) s (by simp)
  refine (State.entry_happen_ne hev ?_ ?_ u).trans same
  · rintro rfl
    rcases State.mem_portResetEvents.1 hev with ⟨k, ready, same⟩ | ⟨k, -, same⟩
    · injection same with same
      rw [← same, waits] at ready
      cases ready
    · cases same
  · rintro rfl
    rcases State.mem_portResetEvents.1 hev with ⟨k, -, same⟩ | ⟨k, drained, same⟩
    · cases same
    · injection same with same
      rw [← same, stays] at drained
      cases drained

/-- An entry whose WAITER can be granted is granted, and the CLAIM answered. -/
theorem State.events_granted {w : Waiter} (hw : (s.entry h).waiter = some w) (ready : (s.entry h).compatible w = true)
    (stays : (s.entry h).drained = false) :
    (s.forAnyOrder s.portResetEvents State.happen).entry h = (s.entry h).grantTo w ∧
      (w.tag, .ok, [claimCode w.mode.claim, byte w.leasereq]) ∈ (s.forAnyOrder s.portResetEvents State.happen).answers w.port := by
  have due : Event.waiterGranted h ∈ s.portResetEvents :=
    State.mem_portResetEvents.2 (.inl ⟨h, by simpa [Entry.waiterReady, hw] using ready, rfl⟩)
  obtain ⟨v, same, -, after, done⟩ := State.forAnyOrder_turn .happen due s.nodup_portResetEvents (view := fun u => u.entry h)
    (fun u ev hev apart => State.entry_happen_ne hev apart (by
      rintro rfl
      rcases State.mem_portResetEvents.1 hev with ⟨k, -, same⟩ | ⟨k, drained, same⟩
      · cases same
      · injection same with same
        rw [← same, stays] at drained
        cases drained) u) s (by simp)
  replace same : v.entry h = s.entry h := same
  have granted : v.happen (.waiterGranted h) =
      (v.setEntry h ((s.entry h).grantTo w)).respond w.port w.tag .ok [claimCode w.mode.claim, byte w.leasereq] := by
    rw [State.happen, State.reevaluate_ready (by rw [same]; exact hw) (by rw [same]; exact ready), same]
  rw [granted] at after done
  constructor
  · refine done.trans ?_
    rw [State.entry_respond, State.entry_setEntry_same]
  · refine after.mem_answers _ ?_
    rw [State.answers_respond, ownerAnswers_some]
    simp

/-! ### The other port's record -/

/-- No RETIRING entry has a claim or a WAITER, and only responses have been placed for the port since `s`. -/
structure OnlyAnswered (s u : State) (q : Port) : Prop where
  retiring : ∀ h, (u.entry h).state = .retiring → (u.entry h).claim = .none ∧ (u.entry h).holderA = none ∧ (u.entry h).holderB = none ∧
    (u.entry h).waiter = none
  port : u.port q = { s.port q with respq := (u.port q).respq }

theorem Entry.state_grantTo (e : Entry) (w : Waiter) : (e.grantTo w).state = e.state := by
  unfold Entry.grantTo
  split <;> simp

theorem State.port_respondTo (s : State) (o : Option (Port × Tag)) (st : Status) (l : List Byte) (q : Port) :
    ∃ rs, (s.respondTo o st l).port q = { s.port q with respq := rs } := by
  rcases o with _ | ⟨p, t⟩
  · exact ⟨_, rfl⟩
  · simp only [State.respondTo, State.respond_eq, State.port_setPort]
    split
    · next hq => rw [hq]; exact ⟨_, rfl⟩
    · exact ⟨_, rfl⟩

theorem OnlyAnswered.answer (only : OnlyAnswered s u q) {e : Entry}
    (live : e.state = .retiring → e.claim = .none ∧ e.holderA = none ∧ e.holderB = none ∧ e.waiter = none) (o : Option (Port × Tag))
    (st : Status) (l : List Byte) : OnlyAnswered s ((u.setEntry h e).respondTo o st l) q where
  retiring k hk := by
    rw [State.entry_respondTo, State.entry_setEntry] at hk ⊢
    split at hk
    · next same => rw [if_pos same]; exact live hk
    · next apart => rw [if_neg apart]; exact only.retiring k hk
  port := by
    obtain ⟨rs, hrs⟩ := (u.setEntry h e).port_respondTo o st l q
    rw [hrs, State.port_setEntry, only.port]

/-- The end of a retire drops no claim, for the entry has none. -/
theorem OnlyAnswered.completeRetire_eq (only : OnlyAnswered s u q) (hs : (u.entry h).state = .retiring) :
    u.completeRetire h = (u.setEntry h (Entry.vacant ((u.entry h).gen + 1))).respondTo (u.entry h).retire .ok [] := by
  obtain ⟨-, ha, hb, hw⟩ := only.retiring h hs
  simp [State.completeRetire, State.enterVacant, State.dropClaims, State.postWhere, Entry.holder, ha, hb, hw, State.modEntry_eq]

theorem OnlyAnswered.events (only : OnlyAnswered s u q) : OnlyAnswered s (u.forAnyOrder u.portResetEvents State.happen) q := by
  refine State.forAnyOrder_keeps (P := fun v => OnlyAnswered s v q) (fun v ev hev only => ?_) u
    ⟨by simpa using only.retiring, by simpa using only.port⟩
  rcases State.mem_portResetEvents.1 hev with ⟨h, -, rfl⟩ | ⟨h, -, rfl⟩
  · show OnlyAnswered s (v.reevaluate h) q
    unfold State.reevaluate
    cases hw : (v.entry h).waiter with
    | none => exact only
    | some w =>
      dsimp only
      split
      · refine only.answer (o := some (w.port, w.tag)) (fun retiring => ?_) _ _
        rw [Entry.state_grantTo] at retiring
        rw [(only.retiring h retiring).2.2.2] at hw
        cases hw
      · exact only
  · unfold State.happen
    dsimp only
    split
    · next drained =>
      have hs : (v.entry h).state = .retiring := by
        simp only [Entry.drained, Bool.and_eq_true, beq_iff_eq] at drained
        exact drained.1
      rw [only.completeRetire_eq hs]
      exact only.answer (fun vacant => EntryState.noConfusion vacant) _ _ _
    · exact only

end Events

/-! ## What the other port keeps of an entry (03 R65, 10 R174, R175) -/

section Kept

variable {e f k : Entry} {p q : Port}

/-- A choice of the arbiter leaves the claims, the masks and the watch of an entry that is not RETIRING, but for the watch's probe. -/
theorem Entry.Chosen.leaves (chosen : e.Chosen f) (live : e.state ≠ .retiring) : f.state = e.state ∧ (∀ q, f.subs q = e.subs q) ∧
    (∀ q, f.holder q = e.holder q) ∧ f.claim = e.claim ∧
    f.watch.map (fun w => { w with probe := .none }) = e.watch.map (fun w => { w with probe := .none }) := by
  induction chosen with
  | refl => exact ⟨rfl, fun _ => rfl, fun _ => rfl, rfl, rfl⟩
  | @answered f p _ ih =>
    obtain ⟨hs, subs, holder, claim, watch⟩ := ih
    rw [Entry.fallen_live (by rw [Entry.state_setChain, hs]; exact live)]
    refine ⟨?_, fun q => ?_, fun q => ?_, ?_, ?_⟩
    · rw [← hs]; exact f.state_setChain p false
    · rw [← subs]; exact f.subs_setChain p q false
    · rw [← holder]; exact f.holder_setChain p q false
    · rw [← claim]; exact f.claim_setChain p false
    · rw [← watch]; exact congrArg _ (f.watch_setChain p false)
  | admission _ _ ih => exact ih
  | watch _ _ ih =>
    obtain ⟨hs, subs, holder, claim, watch⟩ := ih
    exact ⟨hs, subs, holder, claim, by rw [← watch, Option.map_map]; rfl⟩
  | rise _ _ _ ih => exact ih

theorem KeptOf.chosen (kept : KeptOf q e f) (live : f.state ≠ .retiring) (chosen : f.Chosen k) : KeptOf q e k := by
  obtain ⟨-, subs, holder, claim, watch⟩ := chosen.leaves live
  exact ⟨(subs q).trans kept.subs, watch.trans kept.watch, by rw [holder, claim]; exact kept.claim, by rw [holder, claim]; exact kept.granted⟩

/-- Without holders there is no claim. -/
theorem Entry.claim_of_unheld (ok : e.ClaimsOk) (hp : e.holder p = none) (hq : e.holder p.other = none) : e.claim = .none := by
  have both : e.holderA = none ∧ e.holderB = none := by cases p <;> [exact ⟨hp, hq⟩; exact ⟨hq, hp⟩]
  cases hc : e.claim with
  | none => rfl
  | exclusive => simpa [both] using ok.exclusive hc
  | shared => simpa [both] using ok.shared hc

theorem Port.ne_iff_other {x p : Port} : (x != p) = (x == p.other) := by cases x <;> cases p <;> rfl

/-- What the reset itself leaves of the other port's claim, mask and watch. -/
theorem Entry.kept_portReset (ok : e.ClaimsOk) (n : Nat) (p : Port) :
    let f := ({ e with inflight := n } : Entry).portReset p
    f.subs p.other = e.subs p.other ∧
      f.watch.map (fun w => { w with probe := .none }) = (e.watch.filter (fun w => w.port == p.other)).map (fun w => { w with probe := .none }) ∧
      f.holder p.other = e.holder p.other ∧ f.claim = if e.holder p.other = none then .none else e.claim := by
  refine ⟨Entry.subs_portReset_other _ p, ?_, Entry.holder_portReset_other _ p, ?_⟩
  · rw [Entry.watch_portReset]
    simp only [Port.ne_iff_other]
  · rw [Entry.claim_portReset]
    show (if (e.holder p).isSome = true ∧ e.holder p.other = none then Claim.none else e.claim) = _
    by_cases hq : e.holder p.other = none
    · rw [if_pos hq]
      split
      · rfl
      · next out =>
        refine Entry.claim_of_unheld ok (p := p) ?_ hq
        by_contra some
        exact out ⟨Option.isSome_iff_ne_none.2 some, hq⟩
    · rw [if_neg hq, if_neg fun both => hq both.2]

/-- A grant leaves the masks and the watch, and gives the waiter what it waited for (03 R54). -/
theorem Entry.grantTo_leaves (e : Entry) (w : Waiter) : (∀ q, (e.grantTo w).subs q = e.subs q) ∧ (e.grantTo w).watch = e.watch ∧
    (e.grantTo w).holder w.port = some ⟨w.leasereq, w.leasereq⟩ ∧ (e.grantTo w).claim = w.mode.claim := by
  unfold Entry.grantTo
  cases w.mode with
  | exclusive => exact ⟨fun q => by cases w.port <;> cases q <;> rfl, by simp, by cases w.port <;> rfl, rfl⟩
  | shared => exact ⟨fun q => by cases w.port <;> cases q <;> rfl, by simp, by cases w.port <;> rfl, rfl⟩

/-- A waiter is compatible once the other port holds nothing. -/
theorem Entry.compatible_of_alone {w : Waiter} (alone : e.holder w.port.other = none) : e.compatible w = true := by
  unfold Entry.compatible
  cases w.mode <;> simp [alone]

end Kept

section PortReset

variable {s : State} {p : Port} {h : Handle}

/-- The part once what the reset brings about on the entries has come about, before the arbiters choose (10 R174). -/
def State.resetEvents (s : State) (p : Port) : State := (s.withdrawPort p).forAnyOrder (s.withdrawPort p).portResetEvents State.happen

theorem State.portReset_eq (reset : (s.port p).exchange = .portReset) :
    s.portReset p = (s.resetEvents p).forAnyOrder (s.heldSegs p) State.choose := by
  rw [State.portReset, if_pos reset]
  rfl

/-- What the other port keeps of an entry that is not RETIRING, and the answer of its WAITER. -/
theorem State.kept_resetEvents (ok : (s.entry h).ClaimsOk) (live : (s.entry h).state ≠ .retiring) :
    KeptOf p.other (s.entry h) ((s.resetEvents p).entry h) ∧ ((s.resetEvents p).entry h).state ≠ .retiring ∧
      ∀ w ∈ (s.entry h).waiter, w.port = p.other →
        (w.tag, .ok, [claimCode w.mode.claim, byte w.leasereq]) ∈ (s.resetEvents p).answers p.other := by
  obtain ⟨n, hn⟩ := s.entry_withdrawPort p h
  obtain ⟨subs, watch, holder, claim⟩ := Entry.kept_portReset ok n p
  rw [← hn] at subs watch holder claim
  have state : ((s.withdrawPort p).entry h).state = (s.entry h).state := by rw [hn, Entry.state_portReset]
  have stays : ((s.withdrawPort p).entry h).drained = false := by simp [Entry.drained, state, live]
  have waiter : ((s.withdrawPort p).entry h).waiter = (s.entry h).waiter.filter (fun w => w.port != p) := by rw [hn, Entry.waiter_portReset]
  by_cases waits : ∃ w, (s.entry h).waiter = some w ∧ w.port = p.other
  · obtain ⟨w, hw, own⟩ := waits
    have apart : w.port ≠ p := by rw [own]; exact Port.other_ne p
    have still : ((s.withdrawPort p).entry h).waiter = some w := by simp [waiter, hw, Option.filter, apart]
    have alone : ((s.withdrawPort p).entry h).holder w.port.other = none := by
      rw [own, Port.other_other, hn, Entry.holder_portReset_same]
    obtain ⟨granted, answered⟩ := State.events_granted still (Entry.compatible_of_alone alone) stays
    obtain ⟨subs', watch', holder', claim'⟩ := ((s.withdrawPort p).entry h).grantTo_leaves w
    have only : ∀ x ∈ (s.entry h).waiter, x = w := fun x hx => Option.some.inj (hx.symm.trans hw)
    refine ⟨?_, ?_, fun x hx _ => ?_⟩
    · rw [State.resetEvents, granted]
      refine ⟨(subs' _).trans subs, by rw [watch']; exact watch, fun none => absurd own (none w hw), fun x hx _ => ?_⟩
      rw [only x hx, ← own]
      exact ⟨holder', claim'⟩
    · rw [State.resetEvents, granted, Entry.state_grantTo, state]
      exact live
    · rw [only x hx, ← own]
      exact answered
  · have none : ((s.withdrawPort p).entry h).waiter = none := by
      rw [waiter]
      cases hw : (s.entry h).waiter with
      | none => rfl
      | some w =>
        have own : w.port = p := (Port.eq_or_other p w.port).resolve_right fun other => waits ⟨w, hw, other⟩
        simp [Option.filter, own]
    have same := State.entry_events_none (s := s.withdrawPort p) (h := h) (by simp [Entry.waiterReady, none]) stays
    have nobody : ∀ w ∈ (s.entry h).waiter, w.port ≠ p.other := fun w hw own => waits ⟨w, hw, own⟩
    refine ⟨?_, ?_, fun w hw own => absurd own (nobody w hw)⟩
    · rw [State.resetEvents, same]
      exact ⟨subs, watch, fun _ => ⟨holder, claim⟩, fun w hw own => absurd own (nobody w hw)⟩
    · rw [State.resetEvents, same, state]
      exact live

/-- A RETIRING entry has no claim and no WAITER for the reset to end (01 R14). -/
theorem State.onlyAnswered_withdrawPort (ok : ∀ h, (s.entry h).ClaimsOk) : OnlyAnswered s (s.withdrawPort p) p.other where
  retiring h retiring := by
    obtain ⟨n, hn⟩ := s.entry_withdrawPort p h
    have state : ({ s.entry h with inflight := n } : Entry).state = .retiring := by
      rw [← Entry.state_portReset _ p, ← hn]
      exact retiring
    obtain ⟨claim, waiter⟩ := (ok h).idle (.inr state)
    obtain ⟨ha, hb⟩ := (ok h).none claim
    have holders : ∀ q, ((s.withdrawPort p).entry h).holder q = none := by
      intro q
      rw [hn]
      rcases Port.eq_or_other p q with rfl | rfl
      · exact Entry.holder_portReset_same _ q
      · rw [Entry.holder_portReset_other]
        cases p <;> [exact hb; exact ha]
    refine ⟨?_, holders .A, holders .B, ?_⟩
    · rw [hn, Entry.claim_portReset]
      split
      · rfl
      · exact claim
    · rw [hn, Entry.waiter_portReset, show ({ s.entry h with inflight := n } : Entry).waiter = none from waiter]
      rfl
  port := by rw [State.port_withdrawPort_other]

theorem State.onlyAnswered_resetEvents (ok : ∀ h, (s.entry h).ClaimsOk) : OnlyAnswered s (s.resetEvents p) p.other :=
  (State.onlyAnswered_withdrawPort ok).events

theorem Quiet.resetEvents (s : State) (p : Port) : Quiet (s.withdrawPort p) (s.resetEvents p) := .forAnyOrder .happen _ _

theorem State.mem_heldSegs {g : Seg} : g ∈ s.heldSegs p ↔ (s.seg g).state = .held ∧ ∃ ho ∈ (s.seg g).hold, ho.port = p := by
  simp [State.heldSegs, Segment.heldBy, Option.any_eq_true]

theorem State.Chosen.foldl_choose (l : List Seg) (u : State) : u.Chosen (l.foldl State.choose u) := by
  induction l generalizing u with
  | nil => exact .refl u
  | cons g l ih => exact (State.Chosen.choose u g).trans (ih _)

end PortReset

/-- Settles O9: the reset withdraws everything of the port; what it brings about grants the other port's WAITERs; then the arbiters choose. -/
theorem portResetLeavesNothing : Obligations.PortResetLeavesNothing := by
  intro s p reset q held
  have whole := (Quiet.resetEvents s p).trans (.forAnyOrder (f := State.choose) .choose _ (s.heldSegs p))
  have ends := State.portReset_eq reset
  rw [← ends] at whole
  have before : (s.withdrawPort p).port q = s.port q := s.port_withdrawPort_other p
  have kept := (whole.told q).kept
  rw [before] at kept
  refine ⟨s.portReset p, rfl, ends ▸ .portReset s p, whole.threshold.trans (s.threshold_withdrawPort p), by rw [kept], by rw [kept], by rw [kept],
    by rw [kept], by rw [kept], by rw [kept], by rw [kept], by rw [kept], by rw [kept], fun ok => ?_⟩
  have perm := (s.resetEvents p).anyOrder_perm (s.heldSegs p)
  have same : ∀ h, ((s.resetEvents p).anyOrder (s.heldSegs p)).2.entry h = (s.resetEvents p).entry h := fun h => by simp
  have port : ((s.resetEvents p).anyOrder (s.heldSegs p)).2.port q = (s.resetEvents p).port q := by simp
  refine ⟨((s.resetEvents p).anyOrder (s.heldSegs p)).2, ((s.resetEvents p).anyOrder (s.heldSegs p)).1, ends, fun g => ?_, fun x hx h live => ?_,
    fun h w hw own => ?_, ?_, ?_⟩
  · rw [perm.mem_iff, State.mem_heldSegs]
  · obtain ⟨keeps, still, -⟩ := State.kept_resetEvents (p := p) (ok h) live
    rcases List.mem_cons.1 hx with rfl | hx
    · rw [same]
      exact keeps
    · rw [List.mem_singleton.1 hx, ends]
      have chosen := (State.Chosen.foldl_choose ((s.resetEvents p).anyOrder (s.heldSegs p)).1
        ((s.resetEvents p).anyOrder (s.heldSegs p)).2).entry h
      rw [same] at chosen
      exact keeps.chosen still chosen
  · have live : (s.entry h).state ≠ .retiring := by
      intro retiring
      have none := ((ok h).idle (.inr retiring)).2
      rw [none] at hw
      cases hw
    have answered := (State.kept_resetEvents (p := p) (ok h) live).2.2 w hw own
    rwa [State.answers_of_port (congrArg PortRec.respq port)]
  · have only := (State.onlyAnswered_resetEvents (p := p) ok).port
    have longer := ((Quiet.resetEvents s p).told q).respq_prefix
    rw [before] at longer
    rw [port, List.prefix_iff_eq_append.1 longer]
    exact only
  · rw [ends]
    exact ((Quiet.foldl (f := State.choose) .choose _ _).told q).respq_prefix

end Sys2Proof.Machine
end

