-- ==== Sys2Proof/Proofs/ClaimMoves.lean ====
section
/-! PROOFS. What a step may make of CLAIM, HOLDERS and WAITER of an entry (03 R43): one lemma for each operation. Most operations leave them alone or clear
them; the claim unit moves them in the few ways of `Entry.ClaimMove`. Only a 10 ms tick, which counts the leases, and a PORT_RESET do more. -/

namespace Sys2Proof.Machine

/-! ## The re-evaluation of a WAITER, and the removal of a holder -/

/-- An entry whose WAITER has been re-evaluated (03 R54). -/
def Entry.reevaluated (e : Entry) : Entry :=
  match e.waiter with
  | some w => if e.compatible w then e.grantTo w else e
  | none => e

theorem State.entry_reevaluate (s : State) (h k : Handle) :
    (s.reevaluate h).entry k = if k = h then (s.entry h).reevaluated else s.entry k := by
  by_cases hk : k = h
  · subst hk
    unfold State.reevaluate Entry.reevaluated
    cases hw : (s.entry k).waiter with
    | none => simp
    | some w => by_cases hc : (s.entry k).compatible w = true <;> simp [hc]
  · rw [if_neg hk, State.entry_reevaluate_ne hk]

/-- A holder record removed, said of the port and the other one (03 R58, R62). -/
theorem Entry.dropHolder_eq (e : Entry) (p : Port) : e.dropHolder p =
    { e.setHolder p none with claim := if e.holder p.other = none then .none else e.claim } := by
  cases p
  · cases hb : e.holderB <;> simp [Entry.dropHolder, Entry.setHolder, Entry.holder, Port.other, hb]
  · cases ha : e.holderA <;> simp [Entry.dropHolder, Entry.setHolder, Entry.holder, Port.other, ha]

@[simp] theorem Entry.holder_dropHolder_same (e : Entry) (p : Port) : (e.dropHolder p).holder p = none := by
  rw [Entry.dropHolder_eq]; cases p <;> rfl
@[simp] theorem Entry.holder_dropHolder_other (e : Entry) (p : Port) : (e.dropHolder p).holder p.other = e.holder p.other := by
  rw [Entry.dropHolder_eq]; cases p <;> rfl
@[simp] theorem Entry.state_dropHolder (e : Entry) (p : Port) : (e.dropHolder p).state = e.state := by
  rw [Entry.dropHolder_eq]; cases p <;> rfl
@[simp] theorem Entry.waiter_dropHolder (e : Entry) (p : Port) : (e.dropHolder p).waiter = e.waiter := by
  rw [Entry.dropHolder_eq]; cases p <;> rfl
theorem Entry.claim_dropHolder (e : Entry) (p : Port) :
    (e.dropHolder p).claim = if e.holder p.other = none then .none else e.claim := by
  rw [Entry.dropHolder_eq]

/-! ## One entry -/

/-- The entry is in a state in which it has no claim and no waiter (03 R43). -/
def Entry.Idle (e : Entry) : Prop := e.state = .vacant ∨ e.state = .retiring

/-- What an operation outside the claim unit makes of an entry's claims: they stand, and the entry does not come to VACANT or RETIRING; or they are gone
(03 R64). -/
inductive Entry.Aside (e f : Entry) : Prop
  | stand (claim : f.claim = e.claim) (holderA : f.holderA = e.holderA) (holderB : f.holderB = e.holderB) (waiter : f.waiter = e.waiter)
      (idle : f.Idle → e.Idle)
  | gone (claim : f.claim = .none) (holderA : f.holderA = none) (holderB : f.holderB = none) (waiter : f.waiter = none)

namespace Entry.Aside

variable {e f k : Entry}

/-- A change of fields other than the claims and STATE. -/
theorem same (claim : f.claim = e.claim) (holderA : f.holderA = e.holderA) (holderB : f.holderB = e.holderB) (waiter : f.waiter = e.waiter)
    (state : f.state = e.state) : e.Aside f := .stand claim holderA holderB waiter (by rw [Entry.Idle, Entry.Idle, state]; exact id)

/-- The entry comes into a state other than VACANT and RETIRING. -/
theorem live (claim : f.claim = e.claim) (holderA : f.holderA = e.holderA) (holderB : f.holderB = e.holderB) (waiter : f.waiter = e.waiter)
    (state : f.state = .probing ∨ f.state = .present ∨ f.state = .suspect ∨ f.state = .lost) : e.Aside f :=
  .stand claim holderA holderB waiter fun idle => by
    rcases idle with hs | hs <;> simp [hs] at state

theorem refl (e : Entry) : e.Aside e := same rfl rfl rfl rfl rfl

theorem trans (h₁ : e.Aside f) (h₂ : f.Aside k) : e.Aside k := by
  cases h₂ with
  | gone c a b w => exact .gone c a b w
  | stand c a b w i =>
    cases h₁ with
    | gone c' a' b' w' => exact .gone (c.trans c') (a.trans a') (b.trans b') (w.trans w')
    | stand c' a' b' w' i' => exact .stand (c.trans c') (a.trans a') (b.trans b') (w.trans w') fun idle => i' (i idle)

theorem vacant (e : Entry) (g : Gen) : e.Aside (Entry.vacant g) := .gone rfl rfl rfl rfl
theorem taken (e : Entry) (pl : Place) (a b : EntryMask) (src : AdmSource) : e.Aside (e.taken pl a b src) := .gone rfl rfl rfl rfl
theorem noClaims (e : Entry) : e.Aside e.noClaims := .gone rfl rfl rfl rfl
theorem lower (e : Entry) : e.Aside e.lower := same rfl rfl rfl rfl rfl
theorem rise (e : Entry) : e.Aside e.rise := same rfl rfl rfl rfl rfl
theorem plan (e : Entry) (a : AdmRec) : e.Aside (e.plan a) := same rfl rfl rfl rfl rfl
theorem endWatch (e : Entry) : e.Aside e.endWatch := by rw [Entry.endWatch_eq]; exact same rfl rfl rfl rfl rfl
theorem setChain (e : Entry) (p : Port) (b : Bool) : e.Aside (e.setChain p b) := by cases p <;> exact same rfl rfl rfl rfl rfl
theorem setSubs (e : Entry) (p : Port) (m : EntryMask) : e.Aside (e.setSubs p m) := by cases p <;> exact same rfl rfl rfl rfl rfl

theorem fallen (e : Entry) : e.Aside e.fallen := by
  unfold Entry.fallen
  split
  · exact vacant ..
  · exact lower e

theorem of_reported (r : e.Reported f) : e.Aside f := by
  cases r with
  | same => exact refl e
  | moved _ hs => exact live rfl rfl rfl rfl (.inr hs)

theorem of_chosen (c : e.Chosen f) : e.Aside f := by
  induction c with
  | refl => exact refl e
  | answered p _ ih => exact (ih.trans (setChain ..)).trans (fallen _)
  | admission _ _ ih => exact ih.trans (same rfl rfl rfl rfl rfl)
  | watch _ _ ih => exact ih.trans (same rfl rfl rfl rfl rfl)
  | rise _ _ _ ih => exact ih.trans (rise _)

theorem leaving (e : Entry) (owner : Port × Tag) : e.Aside (e.leaving owner) := .gone rfl rfl rfl rfl

theorem cancelRe (e : Entry) : e.Aside e.cancelRe := by
  rw [Entry.cancelRe_eq]
  exact live rfl rfl rfl rfl (.inr (.inr (.inr rfl)))

end Entry.Aside

/-- One move of an entry's claims. A CLAIM is asked for a lease of at least 1 on an entry in use that its port does not wait for; a claim that ends and a
downgrade have the WAITER re-evaluated in the same step (03 R46 to R62). -/
inductive Entry.ClaimMove (e : Entry) : Entry → Prop
  | aside {f : Entry} : e.Aside f → ClaimMove e f
  | reevaluated : ClaimMove e e.reevaluated
  | dropped {f : Entry} (p : Port) : (e.dropHolder p).Aside f → ClaimMove e f.reevaluated
  | given {p : Port} {m : ClaimMode} {lease : Nat} : ¬e.Idle → (∀ w ∈ e.waiter, w.port ≠ p) →
      e.claimOutcome p m ≠ .conflict → e.claimOutcome p m ≠ .downgrade → 1 ≤ lease → ClaimMove e (e.takeClaim p m lease)
  | downgraded {p : Port} {m : ClaimMode} {lease : Nat} : ¬e.Idle → e.claimOutcome p m = .downgrade → 1 ≤ lease →
      ClaimMove e (e.takeClaim p m lease).reevaluated
  | waits {w : Waiter} : ¬e.Idle → e.claimOutcome w.port w.mode = .conflict → 1 ≤ w.leasereq → 1 ≤ w.wait →
      ClaimMove e { e with waiter := some w }
  | renewed {p : Port} {hr : Holder} : e.holder p = some hr → ClaimMove e (e.setHolder p (some { hr with lease := hr.leaseval }))
  | expired : ClaimMove e { e with waiter := none }

/-! ## The whole directory -/

/-- From `s` to `t` the claims of every entry have moved, by any number of moves. -/
structure ClaimMoves (s t : State) : Prop where
  entry : ∀ h, Relation.ReflTransGen Entry.ClaimMove (s.entry h) (t.entry h)

namespace ClaimMoves

variable {s t u : State}

theorem refl (s : State) : ClaimMoves s s := ⟨fun _ => .refl⟩

theorem trans (h₁ : ClaimMoves s t) (h₂ : ClaimMoves t u) : ClaimMoves s u := ⟨fun h => (h₁.entry h).trans (h₂.entry h)⟩

theorem of_aside (d : ∀ h, (s.entry h).Aside (t.entry h)) : ClaimMoves s t := ⟨fun h => .single (.aside (d h))⟩

theorem of_entries (h : ∀ k, t.entry k = s.entry k) : ClaimMoves s t := of_aside fun k => by rw [h]; exact .refl _

theorem ite {c : Prop} [Decidable c] (h₁ : ClaimMoves s t) (h₂ : ClaimMoves s u) : ClaimMoves s (if c then t else u) := by
  split <;> assumption

theorem thenIf {c : Prop} [Decidable c] (h₁ : ClaimMoves s t) (h₂ : ClaimMoves t u) : ClaimMoves s (if c then u else t) :=
  ite (h₁.trans h₂) h₁

theorem foldl {α : Type} {f : State → α → State} (hf : ∀ s a, ClaimMoves s (f s a)) (l : List α) (s : State) : ClaimMoves s (l.foldl f s) := by
  induction l generalizing s with
  | nil => exact refl s
  | cons a l ih => exact (hf s a).trans (ih _)

theorem forAnyOrder {α : Type} {f : State → α → State} (hf : ∀ s a, ClaimMoves s (f s a)) (s : State) (l : List α) :
    ClaimMoves s (s.forAnyOrder l f) := (of_entries (t := (s.anyOrder l).2) (by simp)).trans (foldl hf _ _)

theorem atSegOf {f : State → Seg → State} (hf : ∀ s g, ClaimMoves s (f s g)) (s : State) (h : Handle) : ClaimMoves s (s.atSegOf h f) := by
  unfold State.atSegOf
  split
  · exact hf _ _
  · exact refl s

theorem modEntry_of {h : Handle} {f : Entry → Entry} (hf : (s.entry h).ClaimMove (f (s.entry h))) : ClaimMoves s (s.modEntry h f) where
  entry k := by
    rw [State.entry_modEntry]
    split
    · next hk => rw [hk]; exact .single hf
    · exact .refl

theorem modEntry {h : Handle} {f : Entry → Entry} (hf : (s.entry h).Aside (f (s.entry h))) : ClaimMoves s (s.modEntry h f) :=
  modEntry_of (.aside hf)

/-! ## Operations on records other than entries -/

theorem modSeg (s : State) (g : Seg) (f : Segment → Segment) : ClaimMoves s (s.modSeg g f) := of_entries (by simp)
theorem modPort (s : State) (p : Port) (f : PortRec → PortRec) : ClaimMoves s (s.modPort p f) := of_entries (by simp)
theorem setPort (s : State) (p : Port) (r : PortRec) : ClaimMoves s (s.setPort p r) := of_entries (by simp)
theorem respond (s : State) (p : Port) (t : Tag) (st : Status) (l : List Byte) : ClaimMoves s (s.respond p t st l) := of_entries (by simp)
theorem respondTo (s : State) (o : Option (Port × Tag)) (st : Status) (l : List Byte) : ClaimMoves s (s.respondTo o st l) :=
  of_entries (by simp)
theorem post (s : State) (p : Port) (k : NoticeKind) (sub : Subject) (d : Byte) : ClaimMoves s (s.post p k sub d) := of_entries (by simp)
theorem postWhere (s : State) (who : Port → Bool) (k : NoticeKind) (sub : Subject) (d : Byte) : ClaimMoves s (s.postWhere who k sub d) :=
  of_entries (by simp)
theorem answerSurvey (s : State) (g : Seg) (st : Status) : ClaimMoves s (s.answerSurvey g st) := of_entries (by simp)

/-! ## The claim unit, the directory, the health monitor -/

theorem reevaluate (s : State) (h : Handle) : ClaimMoves s (s.reevaluate h) where
  entry k := by
    rw [State.entry_reevaluate]
    split
    · next hk => rw [hk]; exact .single .reevaluated
    · exact .refl

theorem dropClaims (s : State) (h : Handle) (o : Option Port) : ClaimMoves s (s.dropClaims h o) := of_aside fun k => by
  rw [State.entry_dropClaims]
  split
  · next hk => rw [hk]; exact .noClaims _
  · exact .refl _

theorem failFirst (s : State) (h : Handle) (st : Status) : ClaimMoves s (s.failFirst h st) := of_aside fun k => by
  rw [State.entry_failFirst]
  split
  · exact .vacant ..
  · exact .refl _

theorem completeRetire (s : State) (h : Handle) : ClaimMoves s (s.completeRetire h) := of_aside fun k => by
  rw [State.entry_completeRetire]
  split
  · exact .vacant ..
  · exact .refl _

theorem fall (s : State) (h : Handle) : ClaimMoves s (s.fall h) := of_aside fun k => by
  rw [State.entry_fall]
  split
  · next hk => rw [hk]; exact .fallen _
  · exact .refl _

theorem fallNamed (s : State) (n : Option Handle) : ClaimMoves s (s.fallNamed n) := by
  cases n with
  | none => exact refl s
  | some h => exact fall s h

theorem answerWatch (s : State) (h : Handle) (st : Status) (aux : Byte) : ClaimMoves s (s.answerWatch h st aux) := of_aside fun k => by
  rw [State.entry_answerWatch]
  split
  · next hk => rw [hk]; exact .endWatch _
  · exact .refl _

theorem becomeLost (s : State) (h : Handle) : ClaimMoves s (s.becomeLost h) := of_aside fun k => by
  rw [State.entry_becomeLost]
  split
  · next hk => rw [hk]; exact .live rfl rfl rfl rfl (.inr (.inr (.inr rfl)))
  · exact .refl _

theorem report (s : State) (h : Handle) (o : Outcome) : ClaimMoves s (s.report h o) := of_aside fun k => by
  by_cases hk : k = h
  · rw [hk]; exact .of_reported (s.reported_report h o)
  · rw [s.entry_report_of_ne o hk]; exact .refl _

/-! ## The admission unit -/

theorem beginReadmission (s : State) (h : Handle) (src : AdmSource) : ClaimMoves s (s.beginReadmission h src) := by
  refine modEntry ?_
  dsimp only
  split
  · split
    · exact .live rfl rfl rfl rfl (.inl rfl)
    · exact .live rfl rfl rfl rfl (.inl rfl)
  · exact .live rfl rfl rfl rfl (.inl rfl)

/-- The end of an admission with its entry PRESENT. -/
theorem present (s : State) (h : Handle) (d : Desc) (src : DSrc) :
    ClaimMoves s (s.modEntry h (fun e => { e with state := .present, fails := 0, desc := d, dsrc := src, adm := none })) :=
  modEntry (.live rfl rfl rfl rfl (.inr (.inl rfl)))

theorem endFirst (s : State) (h : Handle) (a : AdmRec) (d : Desc) (src : DSrc) : ClaimMoves s (s.endFirst h a d src) := by
  have first := present s h d src
  unfold State.endFirst
  dsimp only
  split
  · exact first.trans (of_entries (by simp))
  · exact first.trans (post ..)
  all_goals exact first

theorem endReappeared (s : State) (h : Handle) (d : Desc) (src : DSrc) : ClaimMoves s (s.endReappeared h d src) :=
  ((present ..).trans (postWhere ..)).trans (answerWatch ..)

theorem endReplaced (s : State) (h : Handle) (d : Desc) (src : DSrc) : ClaimMoves s (s.endReplaced h d src) :=
  (((dropClaims s h none).trans (modEntry (.live rfl rfl rfl rfl (.inr (.inl rfl))))).trans (postWhere ..)).trans (answerWatch ..)

theorem failRe (s : State) (h : Handle) : ClaimMoves s (s.failRe h) := by
  have lost : ClaimMoves s (s.modEntry h (fun e => { e with state := .lost, fails := 0, adm := none })) :=
    modEntry (.live rfl rfl rfl rfl (.inr (.inr (.inr rfl))))
  unfold State.failRe
  dsimp only
  split
  · exact lost.trans (ite (answerWatch ..) (modEntry (.same rfl rfl rfl rfl rfl)))
  · exact lost

theorem endAdmission (s : State) (h : Handle) (a : AdmRec) (d : Desc) (src : DSrc) : ClaimMoves s (s.endAdmission h a d src) := by
  unfold State.endAdmission
  dsimp only
  split
  · exact endFirst ..
  · exact ite (endReappeared ..) (ite (endReappeared ..) (endReplaced ..))

theorem failAdmission (s : State) (h : Handle) (a : AdmRec) (st : Status) : ClaimMoves s (s.failAdmission h a st) := by
  unfold State.failAdmission
  split
  · exact failFirst ..
  · exact failRe ..

theorem admissionNext (s : State) (h : Handle) (a : AdmRec) (o : Outcome) (rx : List Byte) : ClaimMoves s (s.admissionNext h a o rx) := by
  unfold State.admissionNext
  dsimp only
  split
  · split
    · exact ite (endAdmission ..) (modEntry (.plan ..))
    · exact ite (modEntry (.plan ..)) (endAdmission ..)
    · exact endAdmission ..
  · exact modEntry (.plan ..)
  · split
    · exact failFirst ..
    · exact modEntry (.plan ..)
  all_goals
    split
    · exact failAdmission ..
    all_goals exact endAdmission ..

/-! ## The segment controllers and the arbiter -/

theorem answerTx (s : State) (t : HostTx) (st : Status) (n : Nat) (rx : List Byte) (b : Bool) : ClaimMoves s (s.answerTx t st n rx b) :=
  of_aside fun k => by
    rw [State.entry_answerTx]
    split
    · next hk => rw [hk]; exact .setChain ..
    · exact .refl _

theorem completeAll (s : State) (g : Seg) (st : Status) : ClaimMoves s (s.completeAll g st) :=
  (modSeg ..).trans (foldl (fun _ _ => (answerTx ..).trans (fall ..)) _ _)

theorem dropHold (s : State) (g : Seg) (l : LineEnd) (b : Bool) : ClaimMoves s (s.dropHold g l b) := by
  unfold State.dropHold
  split
  · exact ite ((modSeg ..).trans (modEntry (.setChain ..))) (modSeg ..)
  · exact refl s

theorem endHold (s : State) (g : Seg) (b : Bool) : ClaimMoves s (s.endHold g b) := (modSeg ..).trans (dropHold ..)

theorem becomeStuck (s : State) (g : Seg) (c : Byte) : ClaimMoves s (s.becomeStuck g c) := by
  unfold State.becomeStuck
  refine trans ?_ (postWhere ..)
  refine trans ?_ (forAnyOrder (fun _ _ => failFirst ..) _ _)
  exact (((modSeg ..).trans (completeAll ..)).trans (answerSurvey ..)).trans (modSeg ..)

theorem goOff (s : State) (g : Seg) (b : Bool) (o : Option (Port × Tag)) : ClaimMoves s (s.goOff g b o) := by
  unfold State.goOff
  refine trans ?_ (respondTo ..)
  refine trans ?_ (foldl (fun _ _ => modEntry (.cancelRe _)) _ _)
  refine trans ?_ (forAnyOrder (fun _ _ => failFirst ..) _ _)
  refine trans ?_ (forAnyOrder (fun _ _ => answerWatch ..) _ _)
  refine trans ?_ (dropHold ..)
  exact (((modSeg ..).trans (completeAll ..)).trans (answerSurvey ..)).trans (modSeg ..)

theorem choose (s : State) (g : Seg) : ClaimMoves s (s.choose g) := of_aside fun h => .of_chosen ((State.Chosen.choose s g).entry h)

/-! ## The bus engine -/

theorem loadSettle (s : State) (h : Handle) (c : Current) : ClaimMoves s (s.loadSettle h c) :=
  ite (modEntry (.same rfl rfl rfl rfl rfl)) (refl s)

theorem tryHold (s : State) (g : Seg) (t : HostTx) (c : Current) : ClaimMoves s (s.tryHold g t c) :=
  ite (refl s) (ite (modEntry (.setChain ..)) (modSeg ..))

theorem endHost (s : State) (g : Seg) (c : Current) (o : Outcome) : ClaimMoves s (s.endHost g c o) := by
  unfold State.endHost
  dsimp only
  split
  · exact refl s
  · refine trans ?_ (fall ..)
    refine thenIf ?_ (tryHold ..)
    exact (((report ..).trans (loadSettle ..)).trans (modSeg ..)).trans (answerTx ..)

theorem endAdmissionTransfer (s : State) (h : Handle) (c : Current) (o : Outcome) : ClaimMoves s (s.endAdmissionTransfer h c o) := by
  unfold State.endAdmissionTransfer
  dsimp only
  split
  · exact ite (((report ..).trans (modEntry (.lower _))).trans (admissionNext ..)) ((report ..).trans (fall ..))
  · exact (report ..).trans (fall ..)

theorem watchOutcome (s : State) (h : Handle) (o : Outcome) : ClaimMoves s (s.watchOutcome h o) := by
  unfold State.watchOutcome
  split
  · exact refl s
  · exact ite (modEntry (.same rfl rfl rfl rfl rfl))
      (ite (beginReadmission ..) (ite (answerWatch ..) (modEntry (.same rfl rfl rfl rfl rfl))))

theorem endWatchProbe (s : State) (h : Handle) (o : Outcome) : ClaimMoves s (s.endWatchProbe h o) := by
  unfold State.endWatchProbe
  split
  · exact ite ((((modEntry (.same rfl rfl rfl rfl rfl)).trans (report ..)).trans (watchOutcome ..)).trans (fall ..))
      ((report ..).trans (fall ..))
  · exact (report ..).trans (fall ..)

theorem judge (s : State) (g : Seg) (c : Cursor) (listed : Option (Handle × EntryState)) (o : Outcome) :
    ClaimMoves s (s.judge g c listed o).1 := by
  unfold State.judge
  split
  · split
    · split
      · exact modEntry (f := fun e => e.taken _ _ _ _) (.taken ..)
      · exact ite (refl s) (post ..)
    · exact refl s
  · split
    · exact refl s
    · exact refl s
    · split
      · exact beginReadmission ..
      · exact refl s
    all_goals exact refl s

theorem reportNamed (s : State) (n : Option Handle) (o : Outcome) : ClaimMoves s (s.reportNamed n o) := by
  cases n with
  | none => exact refl s
  | some h => exact report s h o

theorem endSurveyProbe (s : State) (g : Seg) (n : Option Handle) (o : Outcome) : ClaimMoves s (s.endSurveyProbe g n o) := by
  rw [State.endSurveyProbe_eq]
  have first := reportNamed s n o
  split
  · refine ite (ite ((first.trans (answerSurvey ..)).trans (fallNamed ..)) ?_) (first.trans (fallNamed ..))
    refine thenIf ?_ (answerSurvey ..)
    exact ((first.trans (judge ..)).trans (modSeg ..)).trans (fallNamed ..)
  · exact first.trans (fallNamed ..)

theorem judgeByte (s : State) (g : Seg) (h : Handle) (b : Byte) : ClaimMoves s (s.judgeByte g h b) :=
  ite ((postWhere ..).trans (modSeg ..)) (refl s)

theorem endSweepRead (s : State) (g : Seg) (h : Handle) (c : Current) (o : Outcome) : ClaimMoves s (s.endSweepRead g h c o) := by
  have first := report s h o
  unfold State.endSweepRead
  dsimp only
  refine trans ?_ (fall ..)
  refine ite ?_ first
  cases o with
  | ok => exact (first.trans (judgeByte ..)).trans (modSeg ..)
  | busStuck => exact first
  | aborted => exact first
  | addrNack | dataNack | clockTimeout | arbLost | busBusy => exact first.trans (modSeg ..)

theorem deliver (s : State) (g : Seg) (c : Current) (o : Outcome) : ClaimMoves s (s.deliver g c o) := by
  unfold State.deliver
  cases c.kind with
  | host => exact endHost ..
  | survey => exact endSurveyProbe ..
  | admission => cases c.entry with
    | none => exact refl s
    | some h => exact endAdmissionTransfer ..
  | watch => cases c.entry with
    | none => exact refl s
    | some h => exact endWatchProbe ..
  | sweep => cases c.entry with
    | none => exact refl s
    | some h => exact endSweepRead ..

theorem afterTransfer (s : State) (g : Seg) (o : Outcome) : ClaimMoves s (s.afterTransfer g o) := by
  unfold State.afterTransfer
  split
  · exact goOff ..
  all_goals
    split
    · exact modSeg ..
    · exact becomeStuck ..
    all_goals exact (modSeg ..).trans (choose ..)

theorem endTransfer (s : State) (g : Seg) (c : Current) (o : Outcome) : ClaimMoves s (s.endTransfer g c o) :=
  ((modSeg ..).trans (deliver ..)).trans (afterTransfer ..)

theorem transferEnds (s : State) (g : Seg) (c : Current) (e : TransferEnd) : ClaimMoves s (s.transferEnds g c e) := by
  unfold State.transferEnds
  split
  · exact endTransfer ..
  · exact refl s

theorem losesArbitration (s : State) (g : Seg) (c : Current) (pr : Progress) : ClaimMoves s (s.losesArbitration g c pr) :=
  ite (refl s) (ite (modSeg ..) (endTransfer ..))

theorem waitsTooLong (s : State) (g : Seg) (c : Current) (b : Bool) : ClaimMoves s (s.waitsTooLong g c b) :=
  ite (refl s) (ite (modSeg ..) (endTransfer ..))

theorem innerRecovery (s : State) (g : Seg) (c : Current) (l : List LineObs) : ClaimMoves s (s.innerRecovery g c l) := by
  unfold State.innerRecovery
  split
  · exact refl s
  · exact modSeg ..
  · exact endTransfer ..

theorem busEvent (s : State) (g : Seg) (ev : BusEvent) : ClaimMoves s (s.busEvent g ev) := by
  unfold State.busEvent
  split
  · refine ite ?_ ?_
    · cases ev with
      | recovery obs => exact innerRecovery ..
      | ended | clockTimeout | arbLost | busBusy => exact refl s
    · cases ev with
      | ended e => exact transferEnds ..
      | clockTimeout pr => exact endTransfer ..
      | arbLost pr => exact losesArbitration ..
      | busBusy => exact waitsTooLong ..
      | recovery => exact refl s
  · exact refl s

theorem busBusy (s : State) (g : Seg) (b : Bool) : ClaimMoves s (s.busBusy g b) := by
  unfold State.busBusy
  split
  · exact ite (refl s) (waitsTooLong ..)
  · exact refl s

theorem endOfKind (s : State) (g : Seg) (k : CurKind) (e : TransferEnd) : ClaimMoves s (s.endOfKind g k e) := ite (busEvent ..) (refl s)

theorem outerRecovery (s : State) (g : Seg) (b : Bool) : ClaimMoves s (s.outerRecovery g b) := by
  unfold State.outerRecovery
  split
  · exact ite (((modSeg ..).trans (respondTo ..)).trans (choose ..)) (((becomeStuck ..).trans (modSeg ..)).trans (respondTo ..))
  all_goals exact ite ((modSeg ..).trans (choose ..)) (becomeStuck ..)

theorem recoveryEnd (s : State) (g : Seg) (obs : List LineObs) : ClaimMoves s (s.recoveryEnd g obs) := by
  unfold State.recoveryEnd
  split
  · split
    · exact outerRecovery ..
    · exact refl s
  all_goals exact busEvent ..

/-! ## The end of a claim, and the events inside a step -/

end ClaimMoves

/-- A reference that is not refused names an entry that may have claims. -/
theorem State.live_of_refRefusal {s : State} {h : Handle} {g : Gen} (current : s.refRefusal h g = none) : ¬(s.entry h).Idle := by
  rintro (hs | hs)
  · simp [State.refRefusal, State.isCurrent, hs] at current
  · by_cases now : s.isCurrent h g = true <;> simp [State.refRefusal, now, hs] at current

/-- A CLAIM that can be read asks for a lease of at least 1 (03 R46). -/
theorem parseClaim_lease {params : List Byte} {a : ClaimArgs} (read : parseClaim params = some a) : 1 ≤ a.lease := by
  unfold parseClaim at read
  split at read
  · simp only [Option.bind_eq_bind, Option.bind_eq_some_iff] at read
    obtain ⟨_, -, _, -, lease, pos, same⟩ := read
    cases same
    unfold parsePos at pos
    split at pos
    · next one => cases pos; exact one
    · cases pos
  · cases read

/-- What the end of a claim does on the segment changes no claim: CHAINBRK alone may be set on an entry (03 R58, R62, 05 R112). -/
theorem State.aside_claimEnds (s : State) (h : Handle) (p : Port) (k : Handle) : (s.entry k).Aside ((s.claimEnds h p).entry k) := by
  unfold State.claimEnds State.atSegOf
  split
  · next pl _ =>
    dsimp only
    split
    · rw [State.endHold, State.entry_dropHold, State.entry_modSeg]
      unfold Entry.unheld
      split
      · split
        · exact .setChain ..
        · exact .refl _
      · exact .refl _
    · split
      · split
        · exact .refl _
        · exact .refl _
      · exact .refl _
  · exact .refl _

namespace ClaimMoves

variable {s t u : State}

theorem claimEnds (s : State) (h : Handle) (p : Port) : ClaimMoves s (s.claimEnds h p) := of_aside (State.aside_claimEnds s h p)

/-- A holder record is removed, the segment is told and the WAITER re-evaluated: together one move (03 R58, R62). `told` is what else is done, on
ports alone. -/
theorem dropped {h : Handle} (p : Port) {told : State → State} (blind : ∀ u k, (told u).entry k = u.entry k) :
    ClaimMoves s (((told (s.modEntry h (fun e => e.dropHolder p))).claimEnds h p).reevaluate h) where
  entry k := by
    have ends := State.aside_claimEnds (told (s.modEntry h (fun e => e.dropHolder p))) h p k
    rw [blind] at ends
    rw [State.entry_reevaluate]
    split
    · next hk =>
      subst hk
      rw [State.entry_modEntry_same] at ends
      exact .single (.dropped p ends)
    · next hk =>
      rw [State.entry_modEntry_ne _ _ hk] at ends
      exact .single (.aside ends)

theorem lapse (s : State) (p : Port) (h : Handle) : ClaimMoves s (s.lapse p h) :=
  dropped p (told := fun u => u.post p .claimLapsed (u.subject h) (claimCode (s.entry h).claim)) fun _ _ => State.entry_post ..

theorem release (s : State) (p : Port) (h : Handle) : ClaimMoves s (s.release p h) := dropped p (told := id) fun _ _ => rfl

theorem leaseLapse (s : State) (h : Handle) (p : Port) : ClaimMoves s (s.leaseLapse h p) :=
  ite ((lapse ..).trans (atSegOf choose _ _)) (refl s)

theorem waitExpiry (s : State) (h : Handle) : ClaimMoves s (s.waitExpiry h) := by
  unfold State.waitExpiry
  split
  · exact ite ((modEntry_of .expired).trans (respond ..)) (refl s)
  · exact refl s

theorem watchProbeDue (s : State) (h : Handle) : ClaimMoves s (s.watchProbeDue h) :=
  ite ((modEntry (.same rfl rfl rfl rfl rfl)).trans (atSegOf choose _ _)) (refl s)

theorem rearmExpiry (s : State) (g : Seg) : ClaimMoves s (s.rearmExpiry g) := ite ((modSeg ..).trans (choose ..)) (refl s)

theorem settleEnd (s : State) (h : Handle) : ClaimMoves s (s.settleEnd h) :=
  (modEntry (.same rfl rfl rfl rfl rfl)).trans (atSegOf choose _ _)

theorem holdExpiry (s : State) (g : Seg) : ClaimMoves s (s.holdExpiry g) := ite ((endHold ..).trans (choose ..)) (refl s)

theorem happen (s : State) (ev : Event) : ClaimMoves s (s.happen ev) := by
  cases ev with
  | leaseLapse h p => exact leaseLapse ..
  | waitExpiry h => exact waitExpiry ..
  | watchProbeDue h => exact watchProbeDue ..
  | rearmExpiry g => exact rearmExpiry ..
  | settleEnd h => exact settleEnd ..
  | holdExpiry g => exact holdExpiry ..
  | waiterGranted h => exact reevaluate ..
  | retireComplete h => exact ite (completeRetire ..) (refl s)
  | arbiterGrant g => exact choose ..

theorem tick100us (s : State) (l : List Event) : ClaimMoves s (s.tick100us l) :=
  (of_aside (t := s.count100us) fun h => by
    rw [State.count100us, State.entry_mapSegs, State.entry_mapEntries]
    exact .same rfl rfl rfl rfl rfl).trans (foldl happen _ _)

/-! ## Requests -/

theorem submit {body : Tag → State → State} (hb : ∀ t s, ClaimMoves s (body t s)) (s : State) (p : Port) (tag code : Byte)
    (params : List Byte) : ClaimMoves s (s.submit p tag code params body) := by
  unfold State.submit
  refine ite ?_ (refl s)
  dsimp only
  split
  · exact setPort ..
  · exact (setPort ..).trans (hb _ _)

/-- A request whose parameters are read, if they can be. -/
theorem orBadParam_of {α : Type} {s : State} {f : α → State} {args : Option α} (hf : ∀ a, args = some a → ClaimMoves s (f a)) (p : Port)
    (t : Tag) : ClaimMoves s (s.orBadParam p t args f) := by
  cases args with
  | none => exact respond ..
  | some a => exact hf a rfl

theorem orBadParam {α : Type} {s : State} {f : α → State} (hf : ∀ a, ClaimMoves s (f a)) (p : Port) (t : Tag) (args : Option α) :
    ClaimMoves s (s.orBadParam p t args f) := orBadParam_of (fun a _ => hf a) p t

theorem answerAdmit (s : State) (p : Port) (t : Tag) (a : AdmitArgs) : ClaimMoves s (s.answerAdmit p t a) := by
  unfold State.answerAdmit
  split
  · exact respond ..
  · exact (modEntry (.taken ..)).trans (choose ..)

theorem enterRetiring (s : State) (p : Port) (t : Tag) (h : Handle) : ClaimMoves s (s.enterRetiring p t h) := by
  obtain ⟨f, hf, entries⟩ := s.enterRetiring_entries p t h
  refine of_aside fun k => ?_
  rw [entries]
  split
  · next hk =>
    rw [hk]
    rcases hf with rfl | ⟨q, rfl⟩
    · exact .leaving ..
    · exact (Entry.Aside.leaving ..).trans (.setChain ..)
  · exact .refl _

theorem answerRetire (s : State) (p : Port) (t : Tag) (r : Handle × Gen) : ClaimMoves s (s.answerRetire p t r) := by
  unfold State.answerRetire
  split
  · exact respond ..
  · unfold State.retire State.atSegOf
    dsimp only
    split
    · exact trans (thenIf (enterRetiring ..) (completeRetire ..)) (choose ..)
    · exact refl s

theorem answerSubscribe (s : State) (p : Port) (t : Tag) (a : (Handle × Gen) × EntryMask) : ClaimMoves s (s.answerSubscribe p t a) := by
  unfold State.answerSubscribe
  split
  · exact respond ..
  · exact (modEntry (.setSubs ..)).trans (respond ..)

/-- A downgrade, with the re-evaluation of the WAITER: together one move (03 R51). -/
theorem downgrade {p : Port} {t : Tag} {a : ClaimArgs} (live : ¬(s.entry a.handle).Idle)
    (outcome : (s.entry a.handle).claimOutcome p a.mode = .downgrade) (lease : 1 ≤ a.lease) :
    ClaimMoves s ((s.giveClaim p t a).reevaluate a.handle) where
  entry k := by
    rw [State.entry_reevaluate, State.giveClaim, State.entry_respond, State.entry_respond]
    split
    · next hk =>
      rw [hk, State.entry_modEntry_same]
      exact .single (.downgraded live outcome lease)
    · next hk => rw [State.entry_modEntry_ne _ _ hk]

theorem answerClaim (s : State) (p : Port) (t : Tag) (a : ClaimArgs) (lease : 1 ≤ a.lease) : ClaimMoves s (s.answerClaim p t a) := by
  unfold State.answerClaim
  split
  · exact respond ..
  · next current =>
    have live := State.live_of_refRefusal current
    dsimp only
    split
    · exact respond ..
    · next apart =>
      have waits : ∀ w ∈ (s.entry a.handle).waiter, w.port ≠ p := fun w hw same => apart (by simp [Option.mem_def.1 hw, same])
      have given (grants : (s.entry a.handle).claimOutcome p a.mode ≠ .conflict) (keeps : (s.entry a.handle).claimOutcome p a.mode ≠ .downgrade) :
          ClaimMoves s (s.giveClaim p t a) := (modEntry_of (.given live waits grants keeps lease)).trans (respond ..)
      split
      · next outcome => exact given (by simp [outcome]) (by simp [outcome])
      · next outcome => exact given (by simp [outcome]) (by simp [outcome])
      · next outcome => exact given (by simp [outcome]) (by simp [outcome])
      · next outcome => exact downgrade live outcome lease
      · next outcome =>
        unfold State.conflict
        dsimp only
        split
        · exact respond ..
        · next wait => exact ite (respond ..) (modEntry_of (.waits live outcome lease (Nat.pos_of_ne_zero wait)))

theorem answerRenew (s : State) (p : Port) (t : Tag) (r : Handle × Gen) : ClaimMoves s (s.answerRenew p t r) := by
  unfold State.answerRenew
  split
  · exact respond ..
  · split
    · exact respond ..
    · next hr holds => exact (modEntry_of (.renewed holds)).trans (respond ..)

theorem answerRelease (s : State) (p : Port) (t : Tag) (r : Handle × Gen) : ClaimMoves s (s.answerRelease p t r) := by
  unfold State.answerRelease
  split
  · exact respond ..
  · exact ite (((release ..).trans (respond ..)).trans (atSegOf choose _ _)) (respond ..)

theorem answerTransfer (s : State) (p : Port) (t : Tag) (k : TxKind) (args : Option TransferArgs) :
    ClaimMoves s (s.answerTransfer p t k args) := by
  unfold State.answerTransfer
  split
  · exact respond ..
  · split
    · exact respond ..
    · exact ((modSeg ..).trans (modEntry (.rise _))).trans (choose ..)

theorem answerWatchCommand (s : State) (p : Port) (t : Tag) (a : WatchArgs) : ClaimMoves s (s.answerWatchCommand p t a) := by
  unfold State.answerWatchCommand
  split
  · exact respond ..
  · exact ite (respond ..) (ite (respond ..) (modEntry (.same rfl rfl rfl rfl rfl)))

theorem answerWatchCancel (s : State) (p : Port) (t : Tag) (r : Handle × Gen) : ClaimMoves s (s.answerWatchCancel p t r) := by
  unfold State.answerWatchCancel
  split
  · exact respond ..
  · exact ite ((answerWatch ..).trans (respond ..)) (respond ..)

theorem answerSetLimits (s : State) (p : Port) (t : Tag) (n : Nat) : ClaimMoves s (s.answerSetLimits p t n) := by
  have limits : ClaimMoves s (handles.foldl State.applyLimit { s with threshold := n }) :=
    (of_entries (s := s) (t := { s with threshold := n }) fun _ => rfl).trans (foldl (fun u h => ite (becomeLost ..) (refl u)) _ _)
  exact (limits.trans (respond ..)).trans (forAnyOrder choose _ _)

theorem answerSurveyCommand (s : State) (p : Port) (t : Tag) (a : Seg × Nat × Nat) : ClaimMoves s (s.answerSurveyCommand p t a) := by
  unfold State.answerSurveyCommand
  split
  · exact respond ..
  · split
    · exact respond ..
    · exact (modSeg ..).trans (choose ..)

theorem answerDisable (s : State) (p : Port) (t : Tag) (b : Bool) (g : Seg) : ClaimMoves s (s.answerDisable p t b g) := by
  unfold State.answerDisable
  refine ite (respond ..) ?_
  split
  · exact respond ..
  · exact modSeg ..
  all_goals exact goOff ..

theorem cutTransfer (s : State) (g : Seg) (c : Current) : ClaimMoves s (s.cutTransfer g c) := by
  unfold State.cutTransfer
  cases c.kind with
  | host | admission | watch => exact deliver ..
  | survey | sweep => exact refl s

/-- What ends with a transfer that a segment reset has cut, where it is of the kind given. -/
theorem deliverCut (s : State) (g : Seg) (k : CurKind) (cut : Option Current) : ClaimMoves s (match cut with
    | some c => if c.kind = k then s.deliver g c .aborted else s
    | none => s) := by
  cases cut with
  | none => exact refl s
  | some c => exact ite (deliver ..) (refl s)

theorem resetSegment (s : State) (p : Port) (t : Tag) (g : Seg) (pr : Progress) : ClaimMoves s (s.resetSegment p t g pr) := by
  have cut : ∀ (u : State) (o : Option Current), ClaimMoves u (match o with
      | some c => u.cutTransfer g c
      | none => u) := by
    intro u o
    cases o with
    | none => exact refl u
    | some c => exact cutTransfer ..
  unfold State.resetSegment
  refine trans ?_ (modSeg ..)
  refine trans ?_ (dropHold ..)
  refine trans ?_ ((deliverCut ..).trans (modSeg ..))
  refine trans ?_ ((deliverCut ..).trans (answerSurvey ..))
  exact ((modSeg ..).trans (cut _ _)).trans (completeAll ..)

theorem pinReset (s : State) : ClaimMoves s s.pinReset := of_aside fun h => by
  have cleared : s.pinReset.entry h = Entry.vacant 0 := by simp [State.pinReset, State.reset, State.entry]
  rw [cleared]
  exact .vacant ..

/-! ## Every command -/

/-- Every command but a 10 ms tick and a PORT_RESET moves the claims in the ways of `Entry.ClaimMove` alone. -/
theorem exec {i : Instr} (hx : Machine.exec i s = .next t) :
    ClaimMoves s t ∨ (∃ first, t = s.tick10ms first) ∨ ∃ p, t = s.portReset p := by
  cases i <;> cases hx
  case timebaseTick10ms first => exact .inr (.inl ⟨first, rfl⟩)
  case portReset p => exact .inr (.inr ⟨p, rfl⟩)
  all_goals refine .inl ?_
  case exchangeBegin => exact modPort ..
  case leadByte => exact modPort ..
  case submitRejected p bytes =>
    refine ite ?_ (refl s)
    dsimp only
    split
    · exact setPort ..
    · exact refl s
  case badCommand => exact ite (refl s) (submit (fun _ _ => respond ..) ..)
  case takeResponse => exact modPort ..
  case takeNotice => exact modPort ..
  case summary => exact modPort ..
  case pinReset => exact pinReset ..
  case admitDevice => exact submit (fun _ _ => orBadParam (answerAdmit _ _ _) ..) ..
  case retire => exact submit (fun _ _ => orBadParam (answerRetire _ _ _) ..) ..
  case retireComplete => exact ite (completeRetire ..) (refl s)
  case lookup =>
    refine submit (fun _ u => orBadParam (fun a => ?_) ..) ..
    unfold State.answerLookup
    split
    · exact respond ..
    · exact respond ..
  case list => exact submit (fun _ _ => orBadParam (fun _ => respond ..) ..) ..
  case readEntry => exact submit (fun _ _ => orBadParam (fun _ => ite (respond ..) (respond ..)) ..) ..
  case subscribe => exact submit (fun _ _ => orBadParam (answerSubscribe _ _ _) ..) ..
  case segmentSubscribe => exact submit (fun _ _ => orBadParam (fun _ => (modPort ..).trans (respond ..)) ..) ..
  case claim =>
    exact submit (fun _ u => orBadParam_of (fun a ha => answerClaim u _ _ a (parseClaim_lease ha)) ..) ..
  case renew => exact submit (fun _ _ => orBadParam (answerRenew _ _ _) ..) ..
  case release => exact submit (fun _ _ => orBadParam (answerRelease _ _ _) ..) ..
  case waiterGranted => exact reevaluate ..
  case leaseLapse => exact leaseLapse ..
  case waitExpiry => exact waitExpiry ..
  case timebaseTick100us => exact tick100us ..
  case write => exact submit (fun _ _ => answerTransfer ..) ..
  case read => exact submit (fun _ _ => answerTransfer ..) ..
  case writeRead => exact submit (fun _ _ => answerTransfer ..) ..
  case ping => exact submit (fun _ _ => answerTransfer ..) ..
  case arbiterGrant => exact choose ..
  case arbLost => exact busEvent ..
  case busBusy => exact busBusy ..
  case clockTimeout => exact busEvent ..
  case hostTransactionEnd => exact endOfKind ..
  case holdExpiry => exact holdExpiry ..
  case settleEnd => exact ite (settleEnd ..) (refl s)
  case admissionTransferEnd => exact endOfKind ..
  case watch => exact submit (fun _ _ => orBadParam (answerWatchCommand _ _ _) ..) ..
  case watchCancel => exact submit (fun _ _ => orBadParam (answerWatchCancel _ _ _) ..) ..
  case watchProbeDue => exact watchProbeDue ..
  case watchProbeEnd => exact endOfKind ..
  case setLimits => exact submit (fun _ _ => orBadParam (answerSetLimits _ _ _) ..) ..
  case survey => exact submit (fun _ _ => orBadParam (answerSurveyCommand _ _ _) ..) ..
  case surveyAbort => exact submit (fun _ _ => orBadParam (fun _ => ite ((answerSurvey ..).trans (respond ..)) (respond ..)) ..) ..
  case surveyProbeEnd => exact endOfKind ..
  case segmentSetup => exact submit (fun _ _ => orBadParam (fun _ => ite ((modSeg ..).trans (respond ..)) (respond ..)) ..) ..
  case segmentEnable =>
    exact submit (fun _ _ => orBadParam (fun _ => ite (((modSeg ..).trans (respond ..)).trans (choose ..)) (respond ..)) ..) ..
  case segmentDisable => exact submit (fun _ _ => orBadParam (answerDisable _ _ _ _) ..) ..
  case disableComplete => exact ite (busEvent ..) (refl s)
  case segmentReset =>
    exact submit (fun _ _ => orBadParam (fun _ => ite (respond ..) (ite (respond ..) (resetSegment ..))) ..) ..
  case segmentStatus => exact submit (fun _ _ => orBadParam (fun _ => respond ..) ..) ..
  case recoveryEnd => exact recoveryEnd ..
  case portSetup => exact submit (fun _ _ => orBadParam (fun _ => (modPort ..).trans (respond ..)) ..) ..
  case attentionAsserted => exact (modSeg ..).trans (choose ..)
  case attentionDeasserted => exact modSeg ..
  case rearmExpiry => exact rearmExpiry ..
  case sweepReadEnd => exact endOfKind ..
  case exchangeIgnoredEnd => exact modPort ..

end ClaimMoves

end Sys2Proof.Machine
end

