-- ==== Sys2Proof/Proofs/ClaimsKept.lean ====
section
/-! PROOFS. Every step keeps CLAIM, HOLDERS and WAITER in their relation, a WAITER only where a conflicting claim is held, and every LEASE and WAIT above 0
(03 R43, R52, R55, R57): each of the three is kept by every move of an entry's claims, and by what a 10 ms tick and a PORT_RESET do beside. -/

namespace Sys2Proof.Machine

/-! ## CLAIM and the holders (03 R43) -/

/-- Whether a CLAIM goes with whether two ports hold: NONE with neither, EXCLUSIVE with exactly one, SHARED with at least one (03 R43). -/
def Claim.fits : Claim → Bool → Bool → Bool
  | .none, a, b => !a && !b
  | .exclusive, a, b => a != b
  | .shared, a, b => a || b

theorem Claim.fits_comm (c : Claim) (a b : Bool) : c.fits a b = c.fits b a := by cases c <;> cases a <;> cases b <;> rfl

/-- The relation of 03 R43, said of a port and the other one. -/
theorem Entry.claimsOk_iff (e : Entry) (p : Port) : e.ClaimsOk ↔
    e.claim.fits (e.holder p).isSome (e.holder p.other).isSome = true ∧ (e.Idle → e.claim = .none ∧ e.waiter = none) := by
  have ports : e.claim.fits (e.holder p).isSome (e.holder p.other).isSome = e.claim.fits e.holderA.isSome e.holderB.isSome := by
    cases p
    · rfl
    · exact Claim.fits_comm ..
  rw [ports]
  constructor
  · intro ok
    refine ⟨?_, ok.idle⟩
    cases hc : e.claim with
    | none => simp [Claim.fits, ok.none hc]
    | exclusive => simpa [Claim.fits] using ok.exclusive hc
    | shared => simpa [Claim.fits] using ok.shared hc
  · rintro ⟨fits, idle⟩
    exact ⟨fun hc => by simpa [hc, Claim.fits] using fits, fun hc => by simpa [hc, Claim.fits] using fits,
      fun hc => by simpa [hc, Claim.fits] using fits, idle⟩

/-- A conflict is another port's claim, with one of the two for EXCLUSIVE (03 R47). -/
theorem Entry.claimOutcome_conflict_iff {e : Entry} (ok : e.ClaimsOk) (p : Port) (m : ClaimMode) :
    e.claimOutcome p m = .conflict ↔ (e.holder p.other).isSome = true ∧ ¬(e.claim = .shared ∧ m = .shared) := by
  obtain ⟨fits, -⟩ := (e.claimsOk_iff p).1 ok
  unfold Entry.claimOutcome
  generalize (e.holder p).isSome = own at fits ⊢
  generalize (e.holder p.other).isSome = other at fits ⊢
  generalize e.claim = c at fits ⊢
  revert own other c m
  intro m own other c
  cases own <;> cases other <;> cases c <;> cases m <;> decide

/-- A downgrade is a port's own EXCLUSIVE claim asked for as SHARED (03 R47, R51). -/
theorem Entry.claimOutcome_downgrade_iff (e : Entry) (p : Port) (m : ClaimMode) :
    e.claimOutcome p m = .downgrade ↔ (e.holder p).isSome = true ∧ e.claim = .exclusive ∧ m = .shared := by
  unfold Entry.claimOutcome
  generalize (e.holder p).isSome = own
  generalize (e.holder p.other).isSome = other
  generalize e.claim = c
  cases own <;> cases other <;> cases c <;> cases m <;> decide

namespace Entry.ClaimsOk

variable {e f : Entry}

theorem aside (ok : e.ClaimsOk) (a : e.Aside f) : f.ClaimsOk := by
  cases a with
  | stand claim holderA holderB waiter idle =>
    exact ⟨by rw [claim, holderA, holderB]; exact ok.none, by rw [claim, holderA, holderB]; exact ok.exclusive,
      by rw [claim, holderA, holderB]; exact ok.shared, fun hs => by rw [claim, waiter]; exact ok.idle (idle hs)⟩
  | gone claim holderA holderB waiter =>
    exact ⟨fun _ => ⟨holderA, holderB⟩, by simp [claim], by simp [claim], fun _ => ⟨claim, waiter⟩⟩

theorem dropHolder (ok : e.ClaimsOk) (p : Port) : (e.dropHolder p).ClaimsOk := by
  obtain ⟨fits, idle⟩ := (e.claimsOk_iff p).1 ok
  refine (Entry.claimsOk_iff _ p).2 ⟨?_, fun hs => ?_⟩
  · rw [Entry.holder_dropHolder_same, Entry.holder_dropHolder_other, Entry.claim_dropHolder]
    cases other : e.holder p.other with
    | none => rfl
    | some hr => cases claim : e.claim <;> simp [other, claim, Claim.fits] at fits ⊢
  · obtain ⟨claim, waiter⟩ := idle (by simpa [Entry.Idle] using hs)
    simp [Entry.claim_dropHolder, claim, waiter]

theorem reevaluated (ok : e.ClaimsOk) : e.reevaluated.ClaimsOk := by
  unfold Entry.reevaluated
  split
  · next w hw =>
    split
    · refine (Entry.claimsOk_iff _ w.port).2 ⟨?_, fun hs => ?_⟩
      · unfold Entry.grantTo
        cases w.mode <;> cases w.port <;> simp [Entry.holder, Entry.setHolder, Port.other, Claim.fits]
      · rw [Entry.Idle, Entry.state_grantTo] at hs
        simp [(ok.idle hs).2] at hw
    · exact ok
  · exact ok

/-- A claim that is given: its port holds, and for EXCLUSIVE no other does. -/
theorem takeClaim {p : Port} {m : ClaimMode} (lease : Nat) (ok : e.ClaimsOk) (live : ¬e.Idle) (grants : e.claimOutcome p m ≠ .conflict) :
    (e.takeClaim p m lease).ClaimsOk := by
  have own : (e.takeClaim p m lease).holder p = some ⟨lease, lease⟩ := by cases p <;> rfl
  have other : (e.takeClaim p m lease).holder p.other = e.holder p.other := by cases p <;> rfl
  refine (Entry.claimsOk_iff _ p).2 ⟨?_, fun hs => absurd (by simpa [Entry.Idle, Entry.takeClaim] using hs) live⟩
  rw [own, other]
  cases m with
  | shared => rfl
  | exclusive =>
    have alone : (e.holder p.other).isSome = false := by
      rw [← Bool.not_eq_true]
      exact fun held => grants ((Entry.claimOutcome_conflict_iff ok p _).2 ⟨held, nofun⟩)
    rw [alone]
    rfl

theorem move (ok : e.ClaimsOk) (m : e.ClaimMove f) : f.ClaimsOk := by
  cases m with
  | aside a => exact ok.aside a
  | reevaluated => exact ok.reevaluated
  | dropped p a => exact ((ok.dropHolder p).aside a).reevaluated
  | given live _ grants _ _ => exact ok.takeClaim _ live grants
  | downgraded live outcome _ => exact (ok.takeClaim _ live (by simp [outcome])).reevaluated
  | waits live _ _ _ => exact ⟨ok.none, ok.exclusive, ok.shared, fun hs => absurd hs live⟩
  | @renewed p hr holds =>
    obtain ⟨fits, idle⟩ := (e.claimsOk_iff p).1 ok
    refine (Entry.claimsOk_iff _ p).2 ⟨?_, by simpa [Entry.Idle] using idle⟩
    rw [holds] at fits
    simpa using fits
  | expired => exact ⟨ok.none, ok.exclusive, ok.shared, fun hs => ⟨(ok.idle hs).1, rfl⟩⟩

theorem tick10ms (ok : e.ClaimsOk) : e.tick10ms.ClaimsOk :=
  ⟨by simpa [Entry.tick10ms] using ok.none, by simpa [Entry.tick10ms] using ok.exclusive, by simpa [Entry.tick10ms] using ok.shared,
    by simpa [Entry.tick10ms] using ok.idle⟩

theorem portReset (ok : e.ClaimsOk) (p : Port) : (e.portReset p).ClaimsOk := by
  obtain ⟨fits, idle⟩ := (e.claimsOk_iff p).1 ok
  refine (Entry.claimsOk_iff _ p).2 ⟨?_, fun hs => ?_⟩
  · rw [Entry.claim_portReset, Entry.holder_portReset_same, Entry.holder_portReset_other]
    cases own : e.holder p <;> cases other : e.holder p.other <;> cases claim : e.claim <;> simp [own, other, claim, Claim.fits] at fits ⊢
  · obtain ⟨claim, waiter⟩ := idle (by rwa [Entry.Idle, Entry.state_portReset] at hs)
    simp [Entry.claim_portReset, Entry.waiter_portReset, claim, waiter]

end Entry.ClaimsOk

/-! ## The WAITER (03 R52) -/

/-- A mode that does not go with the other port's holding (03 R54). -/
theorem Entry.compatible_eq_false {e : Entry} {w : Waiter} : e.compatible w = false ↔
    (e.holder w.port.other).isSome = true ∧ (w.mode = .exclusive ∨ e.claim = .exclusive) := by
  unfold Entry.compatible
  cases hm : w.mode <;> simp

/-- A WAITER stands as 03 R52 has it where it could not be granted. -/
theorem Entry.waiterOk_iff {e : Entry} : e.WaiterOk ↔ ∀ w ∈ e.waiter, e.compatible w = false := by
  simp only [Entry.WaiterOk, Entry.compatible_eq_false]

/-- Nobody waits after a grant (03 R54). -/
theorem Entry.waiter_grantTo (e : Entry) (w : Waiter) : (e.grantTo w).waiter = none := by
  unfold Entry.grantTo
  cases w.mode <;> rfl

theorem Entry.waiterOk_of_none {e : Entry} (none : e.waiter = none) : e.WaiterOk := by simp [Entry.WaiterOk, none]

/-- Whatever the entry was: a WAITER that its re-evaluation has left stands as it should. -/
theorem Entry.waiterOk_reevaluated (e : Entry) : e.reevaluated.WaiterOk := by
  unfold Entry.reevaluated
  split
  · next w hw =>
    split
    · exact Entry.waiterOk_of_none (e.waiter_grantTo w)
    · next refused =>
      refine Entry.waiterOk_iff.2 fun v hv => ?_
      rw [hw, Option.mem_some] at hv
      rw [← hv]
      simpa using refused
  · next hw => exact Entry.waiterOk_of_none hw

namespace Entry.WaiterOk

variable {e f : Entry}

/-- A change that keeps the WAITER's port and mode, who holds, and CLAIM. -/
theorem of_same (ok : e.WaiterOk) (claim : f.claim = e.claim) (holders : ∀ p, (f.holder p).isSome = (e.holder p).isSome)
    (waiter : f.waiter.map (fun w => (w.port, w.mode)) = e.waiter.map (fun w => (w.port, w.mode))) : f.WaiterOk := by
  intro w hw
  have there : e.waiter.map (fun w => (w.port, w.mode)) = some (w.port, w.mode) := by rw [← waiter, Option.mem_def.1 hw]; rfl
  obtain ⟨v, hv, same⟩ := Option.map_eq_some_iff.1 there
  simp only [Prod.mk.injEq] at same
  rw [claim, holders, ← same.1, ← same.2]
  exact ok v hv

theorem aside (ok : e.WaiterOk) (a : e.Aside f) : f.WaiterOk := by
  cases a with
  | stand claim holderA holderB waiter _ =>
    refine ok.of_same claim (fun p => ?_) (by rw [waiter])
    cases p
    · exact congrArg _ holderA
    · exact congrArg _ holderB
  | gone _ _ _ waiter => exact Entry.waiterOk_of_none waiter

/-- A claim given to a port beside which the other one waits: it keeps the other one waiting (03 R49 to R51). -/
theorem takeClaim {p : Port} {m : ClaimMode} (lease : Nat) (ok : e.WaiterOk) (apart : ∀ w ∈ e.waiter, w.port ≠ p)
    (keeps : e.claimOutcome p m ≠ .downgrade) : (e.takeClaim p m lease).WaiterOk := by
  intro w hw
  have hw : w ∈ e.waiter := by simpa [Entry.takeClaim] using hw
  have other : w.port.other = p := by
    rcases Port.eq_or_other p w.port with same | same
    · exact absurd same (apart w hw)
    · rw [same, Port.other_other]
  obtain ⟨held, mode⟩ := ok w hw
  rw [other] at held ⊢
  refine ⟨by cases p <;> rfl, mode.imp_right fun own => ?_⟩
  cases m with
  | exclusive => rfl
  | shared => exact absurd ((e.claimOutcome_downgrade_iff p _).2 ⟨held, own, rfl⟩) keeps

theorem move (ok : e.WaiterOk) (claims : e.ClaimsOk) (m : e.ClaimMove f) : f.WaiterOk := by
  cases m with
  | aside a => exact ok.aside a
  | reevaluated => exact e.waiterOk_reevaluated
  | dropped p _ => exact Entry.waiterOk_reevaluated _
  | given _ apart _ keeps _ => exact ok.takeClaim _ apart keeps
  | downgraded => exact Entry.waiterOk_reevaluated _
  | @waits w _ outcome _ _ =>
    obtain ⟨held, mode⟩ := (Entry.claimOutcome_conflict_iff claims _ _).1 outcome
    intro v hv
    cases Option.mem_some.1 hv
    refine ⟨held, ?_⟩
    obtain ⟨fits, -⟩ := (e.claimsOk_iff w.port).1 claims
    show w.mode = .exclusive ∨ e.claim = .exclusive
    cases hm : w.mode with
    | exclusive => exact .inl rfl
    | shared =>
      cases hc : e.claim with
      | none => simp [hc, held, Claim.fits] at fits
      | exclusive => exact .inr rfl
      | shared => exact absurd ⟨hc, hm⟩ mode
  | @renewed p hr holds =>
    refine ok.of_same (by simp) (fun q => ?_) (by simp)
    rcases Port.eq_or_other p q with rfl | rfl
    · simp [holds]
    · simp
  | expired => exact Entry.waiterOk_of_none rfl

theorem tick10ms (ok : e.WaiterOk) : e.tick10ms.WaiterOk :=
  ok.of_same rfl (fun p => by cases p <;> simp [Entry.tick10ms, Entry.holder]) (by simp [Entry.tick10ms, Function.comp_def])

end Entry.WaiterOk

/-! ## The leases and the wait (03 R55, R57) -/

/-- The figures of 03 R43 for the leases and the wait of an entry, but for a LEASE of 0 of a port whose claim lapses yet in this step, and a WAIT of 0 that
expires yet in this step (03 R55, R57). -/
structure Entry.LeasesBut (lapses : Port → Prop) (expires : Prop) (e : Entry) : Prop where
  lease : ∀ p, ∀ hr ∈ e.holder p, (1 ≤ hr.lease ∨ lapses p) ∧ hr.lease ≤ hr.leaseval
  wait : ∀ w ∈ e.waiter, (1 ≤ w.wait ∨ expires) ∧ 1 ≤ w.leasereq

theorem Entry.leasesOk_iff {e : Entry} : e.LeasesOk ↔ e.LeasesBut (fun _ => False) False := by
  constructor
  · exact fun ok => ⟨fun p hr hh => ⟨.inl (ok.lease p hr hh).1, (ok.lease p hr hh).2⟩, fun w hw => ⟨.inl (ok.wait w hw).1, (ok.wait w hw).2⟩⟩
  · intro ok
    exact ⟨fun p hr hh => by simpa using ok.lease p hr hh, fun w hw => by simpa using ok.wait w hw⟩

namespace Entry.LeasesBut

variable {e f : Entry} {lapses : Port → Prop} {expires : Prop}

theorem of_same (ok : e.LeasesBut lapses expires) (holderA : f.holderA = e.holderA) (holderB : f.holderB = e.holderB)
    (waiter : f.waiter = e.waiter) : f.LeasesBut lapses expires := by
  refine ⟨fun p => ?_, by rw [waiter]; exact ok.wait⟩
  have same : f.holder p = e.holder p := by
    cases p
    · exact holderA
    · exact holderB
  rw [same]
  exact ok.lease p

theorem aside (ok : e.LeasesBut lapses expires) (a : e.Aside f) : f.LeasesBut lapses expires := by
  cases a with
  | stand _ holderA holderB waiter _ => exact ok.of_same holderA holderB waiter
  | gone _ holderA holderB waiter => exact ⟨fun p => by cases p <;> simp [Entry.holder, holderA, holderB], by simp [waiter]⟩

theorem setHolder {p : Port} {o : Option Holder} (ok : e.LeasesBut lapses expires)
    (given : ∀ hr ∈ o, (1 ≤ hr.lease ∨ lapses p) ∧ hr.lease ≤ hr.leaseval) : (e.setHolder p o).LeasesBut lapses expires := by
  refine ⟨fun q => ?_, by rw [Entry.waiter_setHolder]; exact ok.wait⟩
  rcases Port.eq_or_other p q with rfl | rfl
  · rw [Entry.holder_setHolder_same]; exact given
  · rw [Entry.holder_setHolder_other]; exact ok.lease _

theorem waiterGone {later : Prop} (ok : e.LeasesBut lapses expires) : Entry.LeasesBut lapses later { e with waiter := none } :=
  ⟨fun p => by have := ok.lease p; cases p <;> exact this, nofun⟩

theorem dropHolder (ok : e.LeasesBut lapses expires) (p : Port) : (e.dropHolder p).LeasesBut lapses expires := by
  rw [Entry.dropHolder_eq]
  exact (ok.setHolder (p := p) (o := none) nofun).of_same rfl rfl rfl

theorem takeClaim {lease : Nat} (ok : e.LeasesBut lapses expires) (p : Port) (m : ClaimMode) (pos : 1 ≤ lease) :
    (e.takeClaim p m lease).LeasesBut lapses expires :=
  (ok.setHolder (p := p) (o := some ⟨lease, lease⟩) (by simp [pos])).of_same rfl rfl rfl

theorem grantTo {w : Waiter} (ok : e.LeasesBut lapses expires) (pos : 1 ≤ w.leasereq) : (e.grantTo w).LeasesBut lapses expires := by
  unfold Entry.grantTo
  cases w.mode with
  | exclusive =>
    exact (((ok.setHolder (p := w.port.other) (o := none) nofun).setHolder (p := w.port) (o := some ⟨w.leasereq, w.leasereq⟩)
      (by simp [pos])).waiterGone).of_same rfl rfl rfl
  | shared => exact ((ok.setHolder (p := w.port) (o := some ⟨w.leasereq, w.leasereq⟩) (by simp [pos])).waiterGone).of_same rfl rfl rfl

theorem reevaluated (ok : e.LeasesBut lapses expires) : e.reevaluated.LeasesBut lapses expires := by
  unfold Entry.reevaluated
  split
  · next w hw =>
    split
    · exact ok.grantTo (ok.wait w hw).2
    · exact ok
  · exact ok

theorem move (ok : e.LeasesBut lapses expires) (m : e.ClaimMove f) : f.LeasesBut lapses expires := by
  cases m with
  | aside a => exact ok.aside a
  | reevaluated => exact ok.reevaluated
  | dropped p a => exact ((ok.dropHolder p).aside a).reevaluated
  | given _ _ _ _ pos => exact ok.takeClaim _ _ pos
  | downgraded _ _ pos => exact (ok.takeClaim _ _ pos).reevaluated
  | waits _ _ lease wait => exact ⟨fun p => by have := ok.lease p; cases p <;> exact this, by simp [lease, wait]⟩
  | @renewed p hr holds =>
    obtain ⟨pos, le⟩ := ok.lease p hr holds
    exact ok.setHolder (by simpa using pos.imp_left fun one => one.trans le)
  | expired => exact ok.waiterGone

theorem portReset (ok : e.LeasesBut lapses expires) (p : Port) : (e.portReset p).LeasesBut lapses expires := by
  refine ⟨fun q => ?_, fun w hw => ?_⟩
  · rcases Port.eq_or_other p q with rfl | rfl
    · rw [Entry.holder_portReset_same]; nofun
    · rw [Entry.holder_portReset_other]; exact ok.lease _
  · rw [Entry.waiter_portReset] at hw
    exact ok.wait w (Option.mem_filter_iff.1 hw).1

/-- A lapse removes what could still lapse of its port. -/
theorem lapsed {p : Port} (ok : e.LeasesBut (fun q => q = p ∨ lapses q) expires) : (e.dropHolder p).LeasesBut lapses expires := by
  refine ⟨fun q => ?_, by simpa using ok.wait⟩
  rcases Port.eq_or_other p q with rfl | rfl
  · rw [Entry.holder_dropHolder_same]; nofun
  · rw [Entry.holder_dropHolder_other]
    intro hr held
    obtain ⟨pos, le⟩ := ok.lease _ hr held
    exact ⟨pos.imp_right fun l => l.resolve_left (Port.other_ne p), le⟩

end Entry.LeasesBut

/-! ## Moves keep what each move keeps -/

/-- What every move of an entry's claims keeps is kept on every entry by the moves of a step. -/
theorem ClaimMoves.keeps {s t : State} (moves : ClaimMoves s t) {P : Entry → Prop} (move : ∀ e f, P e → e.ClaimMove f → P f) {h : Handle}
    (ok : P (s.entry h)) : P (t.entry h) := Relation.ReflTransGen.head_induction_on (moves.entry h) id (fun m _ ih ok => ih (move _ _ ok m)) ok

theorem ClaimMoves.claimsOk {s t : State} (moves : ClaimMoves s t) {h : Handle} (ok : (s.entry h).ClaimsOk) : (t.entry h).ClaimsOk :=
  moves.keeps (fun _ _ ok m => ok.move m) ok

theorem ClaimMoves.waiterOk {s t : State} (moves : ClaimMoves s t) {h : Handle} (claims : (s.entry h).ClaimsOk) (ok : (s.entry h).WaiterOk) :
    (t.entry h).WaiterOk :=
  (moves.keeps (P := fun e => e.ClaimsOk ∧ e.WaiterOk) (fun _ _ ok m => ⟨ok.1.move m, ok.2.move ok.1 m⟩) ⟨claims, ok⟩).2

theorem ClaimMoves.leasesBut {s t : State} (moves : ClaimMoves s t) {h : Handle} {lapses : Port → Prop} {expires : Prop}
    (ok : (s.entry h).LeasesBut lapses expires) : (t.entry h).LeasesBut lapses expires := moves.keeps (fun _ _ ok m => ok.move m) ok

/-- Effects taken one after the other, each of which settles its own share of what is left. -/
theorem foldl_remaining {α β : Type} {f : β → α → β} {P : List α → β → Prop} (step : ∀ a rest u, P (a :: rest) u → P rest (f u a)) (l : List α)
    (u : β) (ok : P l u) : P [] (l.foldl f u) := by
  induction l generalizing u with
  | nil => exact ok
  | cons a l ih => exact ih _ (step a l u ok)

/-! ## A PORT_RESET (03 R65) -/

section PortReset

variable {s u : State} {p : Port} {h : Handle}

theorem ClaimMoves.resetEvents (s : State) (p : Port) : ClaimMoves (s.withdrawPort p) (s.resetEvents p) := forAnyOrder happen _ _

/-- What the loss of the port and every move keep, the first part of a PORT_RESET keeps. -/
theorem State.keeps_withdrawPort {P : Entry → Prop} (lost : ∀ e, P e → P (e.portReset p)) (move : ∀ e f, P e → e.ClaimMove f → P f)
    (ok : P (s.entry h)) : P ((s.withdrawPort p).entry h) := by
  obtain ⟨n, entry⟩ := s.entry_withdrawPort p h
  rw [entry]
  exact lost _ (move _ _ ok (.aside (.same rfl rfl rfl rfl rfl)))

/-- What the loss of the port and every move keep, a PORT_RESET keeps. -/
theorem State.keeps_portReset {P : Entry → Prop} (lost : ∀ e, P e → P (e.portReset p)) (move : ∀ e f, P e → e.ClaimMove f → P f)
    (ok : P (s.entry h)) : P ((s.portReset p).entry h) := by
  by_cases reset : (s.port p).exchange = .portReset
  · rw [State.portReset_eq reset]
    exact ((ClaimMoves.resetEvents s p).trans (.forAnyOrder .choose _ _)).keeps move (State.keeps_withdrawPort lost move ok)
  · rw [State.portReset, if_neg reset]
    exact ok

theorem State.claimsOk_portReset (ok : (s.entry h).ClaimsOk) : ((s.portReset p).entry h).ClaimsOk :=
  State.keeps_portReset (fun _ ok => ok.portReset p) (fun _ _ ok m => ok.move m) ok

theorem State.leasesOk_portReset (ok : (s.entry h).LeasesOk) : ((s.portReset p).entry h).LeasesOk :=
  Entry.leasesOk_iff.2 (State.keeps_portReset (fun _ ok => ok.portReset p) (fun _ _ ok m => ok.move m) (Entry.leasesOk_iff.1 ok))

/-- The WAITERs of the part while a PORT_RESET has still to take the events of a list: each stands as it should, or is granted yet (03 R65). -/
def State.WaitersLeft (rest : List Event) (u : State) : Prop :=
  ∀ h, (u.entry h).ClaimsOk ∧ ((u.entry h).WaiterOk ∨ .waiterGranted h ∈ rest)

theorem State.WaitersLeft.happen {ev : Event} {rest : List Event} (left : u.WaitersLeft (ev :: rest)) : (u.happen ev).WaitersLeft rest := by
  intro h
  obtain ⟨ok, waits⟩ := left h
  have moves := ClaimMoves.happen u ev
  refine ⟨moves.claimsOk ok, ?_⟩
  rcases waits with stands | due
  · exact .inl (moves.waiterOk ok stands)
  · rcases List.mem_cons.1 due with rfl | later
    · refine .inl ?_
      rw [State.happen, State.entry_reevaluate, if_pos rfl]
      exact Entry.waiterOk_reevaluated _
    · exact .inr later

/-- A WAITER that could be granted has its event. -/
theorem State.waitersLeft_portResetEvents (claims : ∀ h, (u.entry h).ClaimsOk) : u.WaitersLeft u.portResetEvents := by
  refine fun h => ⟨claims h, ?_⟩
  by_cases ready : (u.entry h).waiterReady = true
  · exact .inr (State.mem_portResetEvents.2 (.inl ⟨h, ready, rfl⟩))
  · refine .inl (Entry.waiterOk_iff.2 fun w hw => ?_)
    simpa [Entry.waiterReady, Option.mem_def.1 hw] using ready

/-- Whatever the order of its events, a PORT_RESET leaves no WAITER that could be granted. -/
theorem State.waitersLeft_resetEvents (claims : ∀ h, (s.entry h).ClaimsOk) : (s.resetEvents p).WaitersLeft [] := by
  refine foldl_remaining (P := State.WaitersLeft) (fun _ _ _ left => left.happen) _ _ fun h => ?_
  rw [State.entry_anyOrder, (State.anyOrder_perm _ _).mem_iff]
  exact State.waitersLeft_portResetEvents
    (fun k => State.keeps_withdrawPort (fun _ ok => ok.portReset p) (fun _ _ ok m => ok.move m) (claims k)) h

theorem State.waiterOk_portReset (claims : ∀ h, (s.entry h).ClaimsOk) (ok : (s.entry h).WaiterOk) : ((s.portReset p).entry h).WaiterOk := by
  by_cases reset : (s.port p).exchange = .portReset
  · rw [State.portReset_eq reset]
    obtain ⟨claims, waits⟩ := State.waitersLeft_resetEvents (p := p) claims h
    exact (ClaimMoves.forAnyOrder .choose _ _).waiterOk claims (waits.resolve_right List.not_mem_nil)
  · rw [State.portReset, if_neg reset]
    exact ok

end PortReset

/-! ## A 10 ms tick (03 R55, R57) -/

section Tick

variable {s u : State} {h : Handle} {ev : Event} {rest : List Event}

@[simp] theorem State.entry_count10ms (s : State) (h : Handle) : s.count10ms.entry h = (s.entry h).tick10ms := by
  rw [State.count10ms, State.entry_mapSegs, State.entry_mapEntries]

/-- Once it has counted, a 10 ms tick moves the claims as other commands do. -/
theorem ClaimMoves.tick10ms (s : State) (first : List Event) : ClaimMoves s.count10ms (s.tick10ms first) := foldl happen _ _

/-- The events that are due after a count are those whose counter stands at 0. -/
theorem State.mem_due10ms : ev ∈ s.due10ms ↔ s.slowLeft 0 ev := by
  simp only [State.due10ms, State.due10msEntry, List.mem_append, List.mem_flatMap, List.mem_map, List.mem_filter, mem_handles, mem_segments, true_and,
    List.mem_ite_nil_right, List.mem_singleton, Option.any_eq_true, beq_iff_eq, Bool.and_eq_true, Entry.watchRuns, Segment.rearmDue, Bool.or_eq_true,
    decide_eq_true_eq]
  cases ev with
  | leaseLapse h p => cases p <;> simp [State.slowLeft, Entry.holder]
  | waitExpiry h => simp [State.slowLeft]
  | watchProbeDue h =>
    cases hw : (s.entry h).watch with
    | none => simp [State.slowLeft, hw]
    | some w =>
      simp only [State.slowLeft, hw, Event.watchProbeDue.injEq, exists_eq_right', exists_eq_left', Option.some.injEq, reduceCtorEq, false_or,
        or_false, and_false, exists_false]
      tauto
  | rearmExpiry g =>
    simp only [State.slowLeft, Event.rearmExpiry.injEq, exists_eq_right, reduceCtorEq, false_or, or_false, and_false, exists_false]
    exact ⟨fun ⟨⟨unit, left⟩, rearm⟩ => ⟨unit, rearm, left⟩, fun ⟨unit, rearm, left⟩ => ⟨⟨unit, left⟩, rearm⟩⟩
  | settleEnd | holdExpiry | waiterGranted | retireComplete | arbiterGrant => simp [State.slowLeft]

/-- The leases and waits of the part while a 10 ms tick has still to take the events of a list (03 R56). -/
def State.LeasesLeft (rest : List Event) (u : State) : Prop :=
  ∀ h, (u.entry h).LeasesBut (fun p => .leaseLapse h p ∈ rest) (.waitExpiry h ∈ rest)

/-- The lapse of a LEASE that stands at 0 settles that lease (03 R58). -/
theorem State.LeasesLeft.leaseLapse {p : Port} (left : u.LeasesLeft (.leaseLapse h p :: rest)) : (u.leaseLapse h p).LeasesLeft rest := by
  unfold State.leaseLapse
  split
  · have dropped : (u.modEntry h (fun e => e.dropHolder p)).LeasesLeft rest := fun k => by
      have ok := left k
      rw [State.entry_modEntry]
      split
      · next hk => subst hk; exact Entry.LeasesBut.lapsed (by simpa using ok)
      · next hk => simpa [hk] using ok
    have moves : ClaimMoves (u.modEntry h (fun e => e.dropHolder p)) ((u.lapse p h).atSegOf h State.choose) :=
      (((ClaimMoves.post ..).trans (.claimEnds ..)).trans (.reevaluate ..)).trans (.atSegOf .choose _ _)
    exact fun k => moves.leasesBut (dropped k)
  · next running =>
    intro k
    have ok := left k
    refine ⟨fun q hr held => ?_, by simpa using ok.wait⟩
    obtain ⟨pos, le⟩ := ok.lease q hr held
    refine ⟨?_, le⟩
    rcases pos with pos | due
    · exact .inl pos
    · rcases List.mem_cons.1 due with same | later
      · cases same
        simp only [Option.mem_def.1 held, Option.any_some, beq_iff_eq] at running
        exact .inl (Nat.pos_of_ne_zero running)
      · exact .inr later

/-- The expiry of a WAIT that stands at 0 settles that wait (03 R55). -/
theorem State.LeasesLeft.waitExpiry (left : u.LeasesLeft (.waitExpiry h :: rest)) : (u.waitExpiry h).LeasesLeft rest := by
  have apart : ∀ k, k ≠ h → (u.entry k).LeasesBut (fun p => .leaseLapse k p ∈ rest) (.waitExpiry k ∈ rest) := fun k hk => by
    simpa [hk] using left k
  have own := left h
  unfold State.waitExpiry
  split
  · next w hw =>
    split
    · intro k
      rw [State.entry_respond, State.entry_modEntry]
      split
      · next hk => subst hk; exact Entry.LeasesBut.waiterGone (by simpa using own)
      · next hk => exact apart k hk
    · next waits =>
      have stays : (u.entry h).LeasesBut (fun p => .leaseLapse h p ∈ rest) (.waitExpiry h ∈ rest) := by
        refine ⟨by simpa using own.lease, fun v hv => ⟨.inl ?_, (own.wait v hv).2⟩⟩
        cases hw.symm.trans hv
        exact Nat.pos_of_ne_zero waits
      exact fun k => if hk : k = h then hk ▸ stays else apart k hk
  · next hw =>
    have stays : (u.entry h).LeasesBut (fun p => .leaseLapse h p ∈ rest) (.waitExpiry h ∈ rest) := ⟨by simpa using own.lease, by simp [hw]⟩
    exact fun k => if hk : k = h then hk ▸ stays else apart k hk

theorem State.LeasesLeft.happen (left : u.LeasesLeft (ev :: rest)) : (u.happen ev).LeasesLeft rest := by
  cases ev with
  | leaseLapse h p => exact left.leaseLapse
  | waitExpiry h => exact left.waitExpiry
  | _ => exact fun k => (ClaimMoves.happen u _).leasesBut (by simpa using left k)

/-- What a count brings to 0 is due. -/
theorem State.leasesLeft_count10ms (ok : ∀ h, (s.entry h).LeasesOk) : s.count10ms.LeasesLeft s.count10ms.due10ms := by
  intro h
  simp only [State.mem_due10ms]
  refine ⟨fun p hr held => ?_, fun w waits => ?_⟩
  · obtain ⟨hr', held', rfl⟩ : ∃ hr', (s.entry h).holder p = some hr' ∧ hr'.tick = hr := by
      rw [State.entry_count10ms] at held
      cases p <;> exact Option.map_eq_some_iff.1 held
    obtain ⟨-, le⟩ := (ok h).lease p hr' held'
    refine ⟨?_, (Nat.sub_le _ _).trans le⟩
    rcases Nat.eq_zero_or_pos hr'.tick.lease with zero | pos
    · exact .inr ⟨_, held, zero⟩
    · exact .inl pos
  · obtain ⟨w', waits', rfl⟩ : ∃ w', (s.entry h).waiter = some w' ∧ { w' with wait := w'.wait - 1 } = w := by
      rw [State.entry_count10ms] at waits
      exact Option.map_eq_some_iff.1 waits
    refine ⟨?_, ((ok h).wait w' waits').2⟩
    rcases Nat.eq_zero_or_pos (w'.wait - 1) with zero | pos
    · exact .inr ⟨_, waits, zero⟩
    · exact .inl pos

theorem State.leasesOk_tick10ms (ok : ∀ h, (s.entry h).LeasesOk) (first : List Event) (h : Handle) :
    ((s.tick10ms first).entry h).LeasesOk := by
  have done : (s.tick10ms first).LeasesLeft [] :=
    foldl_remaining (P := State.LeasesLeft) (fun _ _ _ left => left.happen) _ _ fun k => by
      simpa only [(preferring_perm _ _).mem_iff] using State.leasesLeft_count10ms ok k
  exact Entry.leasesOk_iff.2 (by simpa using done h)

end Tick

/-! ## Every step -/

/-- What a step is to the claims: taking the command from the queue touches no entry, and then claims move, a 10 ms tick counts, or a port is reset. -/
theorem claims_of_step {s t : State} (hs : step s = .next t) : ∃ u : State, (∀ h, u.entry h = s.entry h) ∧
    (ClaimMoves u t ∨ (∃ first, t = u.tick10ms first) ∨ ∃ p, t = u.portReset p) := by
  unfold step at hs
  split at hs
  · cases hs; exact ⟨s, fun _ => rfl, .inl (.refl s)⟩
  · next c rest _ => exact ⟨{ s with pending := rest }, fun _ => rfl, ClaimMoves.exec hs⟩

theorem step_claimsOk {s t : State} (ok : ∀ h, (s.entry h).ClaimsOk) (hs : step s = .next t) (h : Handle) : (t.entry h).ClaimsOk := by
  obtain ⟨u, entries, cases⟩ := claims_of_step hs
  have ok : (u.entry h).ClaimsOk := by rw [entries]; exact ok h
  rcases cases with moves | ⟨first, rfl⟩ | ⟨p, rfl⟩
  · exact moves.claimsOk ok
  · exact (ClaimMoves.tick10ms u first).claimsOk (by rw [State.entry_count10ms]; exact ok.tick10ms)
  · exact State.claimsOk_portReset ok

theorem step_waiterOk {s t : State} (claims : ∀ h, (s.entry h).ClaimsOk) (ok : ∀ h, (s.entry h).WaiterOk) (hs : step s = .next t)
    (h : Handle) : (t.entry h).WaiterOk := by
  obtain ⟨u, entries, cases⟩ := claims_of_step hs
  have claims : ∀ k, (u.entry k).ClaimsOk := fun k => by rw [entries]; exact claims k
  have ok : (u.entry h).WaiterOk := by rw [entries]; exact ok h
  rcases cases with moves | ⟨first, rfl⟩ | ⟨p, rfl⟩
  · exact moves.waiterOk (claims h) ok
  · exact (ClaimMoves.tick10ms u first).waiterOk (by rw [State.entry_count10ms]; exact (claims h).tick10ms)
      (by rw [State.entry_count10ms]; exact ok.tick10ms)
  · exact State.waiterOk_portReset claims ok

theorem step_leasesOk {s t : State} (ok : ∀ h, (s.entry h).LeasesOk) (hs : step s = .next t) (h : Handle) : (t.entry h).LeasesOk := by
  obtain ⟨u, entries, cases⟩ := claims_of_step hs
  have ok : ∀ k, (u.entry k).LeasesOk := fun k => by rw [entries]; exact ok k
  rcases cases with moves | ⟨first, rfl⟩ | ⟨p, rfl⟩
  · exact Entry.leasesOk_iff.2 (moves.leasesBut (Entry.leasesOk_iff.1 (ok h)))
  · exact State.leasesOk_tick10ms ok first h
  · exact State.leasesOk_portReset (ok h)

/-- Settles O13: every move of the claims, the count of a tick and the loss of a port keep both conditions. -/
theorem claimsKept : Obligations.ClaimsKept :=
  ⟨fun _ _ ok hs => step_claimsOk ok hs, fun _ _ claims ok hs => step_waiterOk claims ok hs⟩

/-- Settles O14: what a tick's count brings to 0 is among the events that the tick takes. -/
theorem leasesKept : Obligations.LeasesKept := fun _ _ ok hs => step_leasesOk ok hs

end Sys2Proof.Machine
end

