-- ==== Sys2Proof/Proofs/ClaimCommands.lean ====
section
/-! PROOFS. The commands CLAIM, RENEW and RELEASE, the grant of a WAITER, and the counters of claims, settle times and holds that stand at 0
(03 R46 to R62, 05 R104 to R112). -/

namespace Sys2Proof.Machine

/-! ## Entries, segments and the choice -/

/-- A holder record replaced by itself. -/
theorem Entry.setHolder_holder {e : Entry} {p : Port} {o : Option Holder} (same : e.holder p = o) : e.setHolder p o = e := by
  subst same
  cases p <;> rfl

@[simp] theorem Entry.place_dropHolder (e : Entry) (p : Port) : (e.dropHolder p).place = e.place := by simp [Entry.dropHolder]

@[simp] theorem Entry.place_reevaluated (e : Entry) : e.reevaluated.place = e.place := by
  unfold Entry.reevaluated
  split
  · next w _ =>
    split
    · unfold Entry.grantTo
      cases w.mode <;> simp
    · rfl
  · rfl

@[simp] theorem State.seg_reevaluate (s : State) (h : Handle) (g : Seg) : (s.reevaluate h).seg g = s.seg g := by
  unfold State.reevaluate
  split
  · rfl
  · split
    · simp
    · rfl

theorem State.atSegOf_eq {s : State} {h : Handle} {pl : Place} (hp : (s.entry h).place = some pl) (f : State → Seg → State) :
    s.atSegOf h f = f s pl.seg := by
  simp [State.atSegOf, hp]

/-- On an ACTIVE segment there is nothing to choose (04 R82). -/
theorem State.choose_of_active {s : State} {g : Seg} (active : (s.seg g).state = .active) : s.choose g = s := by
  simp [State.choose, State.arbitrate, active]

/-! ## The grant of a WAITER (03 R54) -/

theorem State.reevaluate_of_none {s : State} {h : Handle} (none : (s.entry h).waiter = none) : s.reevaluate h = s := by
  simp [State.reevaluate, none]

theorem State.reevaluate_waits {s : State} {h : Handle} {w : Waiter} (hw : (s.entry h).waiter = some w)
    (refused : (s.entry h).compatible w = false) : s.reevaluate h = s := by
  simp [State.reevaluate, hw, refused]

/-- An EXCLUSIVE waiter is granted where the other port holds nothing: its port is the sole holder. -/
theorem Entry.grantTo_exclusive {e : Entry} {w : Waiter} (mode : w.mode = .exclusive) (alone : e.holder w.port.other = none) :
    e.grantTo w = { e.setHolder w.port (some ⟨w.leasereq, w.leasereq⟩) with claim := .exclusive, waiter := none } := by
  simp [Entry.grantTo, mode, Entry.setHolder_holder alone]

theorem Entry.grantTo_shared {e : Entry} {w : Waiter} (mode : w.mode = .shared) :
    e.grantTo w = { e.setHolder w.port (some ⟨w.leasereq, w.leasereq⟩) with claim := .shared, waiter := none } := by
  simp [Entry.grantTo, mode]

/-- Settles O29: the WAITER's mode either goes with the other port's holding, or does not. -/
theorem waiterGranted : Obligations.WaiterGranted := by
  refine ⟨fun s h w hw => ⟨fun mode alone => ?_, fun mode goes => ?_, fun held conflict => ?_⟩,
    fun s h => ⟨rfl, State.reevaluate_of_none⟩⟩ <;> show Host.Outcome.next (s.reevaluate h) = _
  · rw [State.reevaluate_ready hw (Entry.compatible_of_alone alone), Entry.grantTo_exclusive mode alone, mode]
    rfl
  · have ready : (s.entry h).compatible w = true := by
      rw [← Bool.not_eq_false, Entry.compatible_eq_false]
      rintro ⟨held, conflict⟩
      rcases goes with alone | apart
      · simp [alone] at held
      · simp [mode, apart] at conflict
    rw [State.reevaluate_ready hw ready, Entry.grantTo_shared mode, mode]
    rfl
  · rw [State.reevaluate_waits hw (Entry.compatible_eq_false.2 ⟨held, conflict⟩)]

/-! ## CLAIM (03 R46 to R52) -/

section Claim

variable {s : State} {p : Port} {t : Tag} {a : ClaimArgs}

theorem exec_claim {h : Handle} {g : Gen} {m : ClaimMode} {lease wait : Nat} (hr : Ready s p t) (h₁ : 1 ≤ lease) (h₂ : lease ≤ 255)
    (h₃ : wait ≤ 255) : exec (.claim p (byte t.val) [byte h.val, byte g.val, claimCode m.claim, byte lease, byte wait]) s =
      .next ((s.accepted p t).answerClaim p t ⟨h, g, m, lease, wait⟩) := by
  show Host.Outcome.next _ = _
  rw [State.submit_ready hr (by simp), parseClaim_bytes h g m h₁ h₂ h₃, State.orBadParam_some]

/-- The port waits for the entry already. -/
theorem State.answerClaim_waiting {w : Waiter} (current : s.refRefusal a.handle a.gen = none) (hw : (s.entry a.handle).waiter = some w)
    (own : w.port = p) : s.answerClaim p t a = s.respond p t .busy (claimResult (s.entry a.handle)) := by
  simp [State.answerClaim, current, hw, own]

/-- A CLAIM of a port that does not wait for the entry, as the table of 03 R47 decides it. -/
theorem State.answerClaim_decided (current : s.refRefusal a.handle a.gen = none) (apart : ∀ w ∈ (s.entry a.handle).waiter, w.port ≠ p) :
    s.answerClaim p t a =
      if (s.entry a.handle).claimOutcome p a.mode = .conflict then s.conflict p t a
      else if (s.entry a.handle).claimOutcome p a.mode = .downgrade then (s.giveClaim p t a).reevaluate a.handle
      else s.giveClaim p t a := by
  have others : (s.entry a.handle).waiter.any (fun w => w.port == p) = false := by
    rw [← Bool.not_eq_true, Option.any_eq_true]
    rintro ⟨w, hw, own⟩
    exact apart w hw (by simpa using own)
  simp only [State.answerClaim, current, others, Bool.false_eq_true, if_false]
  cases (s.entry a.handle).claimOutcome p a.mode <;> rfl

/-- The claim asked for goes with what the other port holds. -/
def Entry.Admits (e : Entry) (p : Port) (m : ClaimMode) : Prop := e.holder p.other = none ∨ (e.claim = .shared ∧ m = .shared)

/-- The port gives up its EXCLUSIVE claim for a SHARED one (03 R51). -/
def Entry.Downgrades (e : Entry) (p : Port) (m : ClaimMode) : Prop := e.claim = .exclusive ∧ (e.holder p).isSome = true ∧ m = .shared

theorem Entry.claimOutcome_conflict_iff_not_admits {e : Entry} (ok : e.ClaimsOk) (m : ClaimMode) :
    e.claimOutcome p m = .conflict ↔ ¬e.Admits p m := by
  rw [Entry.claimOutcome_conflict_iff ok, Entry.Admits, not_or, Option.isSome_iff_ne_none]

theorem State.answerClaim_admits (current : s.refRefusal a.handle a.gen = none) (ok : (s.entry a.handle).ClaimsOk)
    (apart : ∀ w ∈ (s.entry a.handle).waiter, w.port ≠ p) (goes : (s.entry a.handle).Admits p a.mode) :
    ((s.entry a.handle).Downgrades p a.mode → s.answerClaim p t a = (s.giveClaim p t a).reevaluate a.handle) ∧
    (¬(s.entry a.handle).Downgrades p a.mode → s.answerClaim p t a = s.giveClaim p t a) := by
  have down : (s.entry a.handle).claimOutcome p a.mode = .downgrade ↔ (s.entry a.handle).Downgrades p a.mode := by
    rw [Entry.claimOutcome_downgrade_iff, Entry.Downgrades, and_left_comm]
  rw [State.answerClaim_decided current apart, if_neg (by rwa [Entry.claimOutcome_conflict_iff_not_admits ok, not_not])]
  exact ⟨fun d => if_pos (down.2 d), fun d => if_neg fun o => d (down.1 o)⟩

theorem State.answerClaim_conflicts (current : s.refRefusal a.handle a.gen = none) (ok : (s.entry a.handle).ClaimsOk)
    (apart : ∀ w ∈ (s.entry a.handle).waiter, w.port ≠ p) (conflict : ¬(s.entry a.handle).Admits p a.mode) :
    s.answerClaim p t a = s.conflict p t a := by
  rw [State.answerClaim_decided current apart, if_pos ((Entry.claimOutcome_conflict_iff_not_admits ok _).2 conflict)]

end Claim

/-- Settles O25: the outcome of the table of 03 R47 is a conflict exactly where the other port holds and not both are for SHARED. -/
theorem claimDecided : Obligations.ClaimDecided := by
  intro s p t h m lease wait hr ok used live h₁ h₂ h₃ e ask given holding
  have kept : (s.accepted p t).entry h = e := State.entry_accepted ..
  have current : (s.accepted p t).refRefusal h e.gen = none := by rw [State.refRefusal_accepted]; exact State.refRefusal_none rfl used live
  have decided : exec ask s = .next ((s.accepted p t).answerClaim p t ⟨h, e.gen, m, lease, wait⟩) := exec_claim hr h₁ h₂ h₃
  have gives : (s.accepted p t).giveClaim p t ⟨h, e.gen, m, lease, wait⟩ = given := by
    simp only [State.giveClaim, Entry.takeClaim, State.modEntry_eq, kept, given]
  rw [decided]
  refine ⟨fun ⟨w, hw, own⟩ => ?_, fun apart => ?_⟩
  · rw [State.answerClaim_waiting (w := w) current (by rwa [kept]) own, kept]
    rfl
  · have apart : ∀ w ∈ ((s.accepted p t).entry h).waiter, w.port ≠ p := by rwa [kept]
    refine ⟨fun goes => ?_, fun conflict => ?_⟩
    · obtain ⟨down, other⟩ := State.answerClaim_admits (t := t) (a := ⟨h, e.gen, m, lease, wait⟩) current (by rwa [kept]) apart
        (by rwa [kept, Entry.Admits])
      rw [kept, gives] at down other
      exact ⟨fun d => by rw [down d], fun d => by rw [other d]⟩
    · rw [State.answerClaim_conflicts (a := ⟨h, e.gen, m, lease, wait⟩) current (by rwa [kept]) apart (by rwa [kept, Entry.Admits])]
      simp only [State.conflict, State.modEntry_eq, kept]
      refine ⟨fun zero => ?_, fun later waiting => ?_, fun later free => ?_⟩
      · rw [if_pos zero]
        rfl
      · rw [if_neg later, if_pos waiting]
        rfl
      · rw [if_neg later, if_neg (by simp [free])]

/-! ## RENEW (03 R60) -/

section Renew

variable {s : State} {p : Port} {t : Tag} {h : Handle} {g : Gen}

theorem exec_renew (hr : Ready s p t) (b c : Byte) : exec (.renew p (byte t.val) [b, c]) s =
    .next ((s.accepted p t).orBadParam p t (parseRefOnly [b, c]) ((s.accepted p t).answerRenew p t)) := by
  show Host.Outcome.next _ = _
  rw [State.submit_ready hr (by simp)]

/-- A handle above 47 or a generation above 15 is no reference (01 R5). -/
theorem parseRefOnly_eq_none {b c : Byte} (out : 48 ≤ b.toNat ∨ 16 ≤ c.toNat) : parseRefOnly [b, c] = none := by
  rcases out with hb | hc
  · simp [parseRefOnly, parseRef, parseHandle, Nat.not_lt.2 hb]
  · simp [parseRefOnly, parseRef, parseGen, Nat.not_lt.2 hc]

theorem State.answerRenew_refused {st : Status} (refused : s.refRefusal h g = some st) :
    s.answerRenew p t (h, g) = s.respond p t st [] := by
  simp [State.answerRenew, refused]

end Renew

/-- Settles O26: the parameters, the reference and the holder record are judged in this order. -/
theorem renewRestoresLease : Obligations.RenewRestoresLease := by
  intro s p t h g hr ask
  have reads : exec ask s = .next ((s.accepted p t).answerRenew p t (h, g)) := by rw [exec_renew hr, parseRefOnly_byte, State.orBadParam_some]
  refine ⟨fun b c out => ?_, fun stale => ?_, fun hg gone => ?_, fun hg used live => ?_⟩
  · rw [exec_renew hr, parseRefOnly_eq_none out, State.orBadParam_none]
  · rw [reads, State.answerRenew_refused (by rw [State.refRefusal_accepted]; exact State.refRefusal_stale stale)]
  · rw [reads, State.answerRenew_refused (by rw [State.refRefusal_accepted]; exact State.refRefusal_gone hg gone)]
  · have current : (s.accepted p t).refRefusal h g = none := by rw [State.refRefusal_accepted]; exact State.refRefusal_none hg used live
    refine ⟨fun free => ?_, fun hr holds => ?_⟩
    · simp [reads, State.answerRenew, current, free]
    · simp [reads, State.answerRenew, current, holds, State.modEntry_eq]

/-! ## What the end of a claim does on the segment (03 R58, R62, 05 R104, R108, R112) -/

section ClaimEnds

variable {s : State} {p : Port} {h : Handle} {pl : Place}

/-- No hold of the port on the entry, and no transaction of the port for the entry on the bus. -/
theorem State.claimEnds_apart (hp : (s.entry h).place = some pl)
    (unheld : ∀ left, (s.seg pl.seg).state = .held → (s.seg pl.seg).hold ≠ some ⟨p, h, left⟩)
    (unsent : ∀ u ∈ (s.seg pl.seg).hostq, u.active = true → ¬(u.port = p ∧ u.handle = h)) : s.claimEnds h p = s := by
  have free : (s.seg pl.seg).heldBy (fun ho => ho.port == p && ho.entry == h) = false := by
    rw [← Bool.not_eq_true]
    intro held
    simp only [Segment.heldBy, Bool.and_eq_true, beq_iff_eq, Option.any_eq_true] at held
    obtain ⟨hs, ⟨q, k, left⟩, hh, rfl, rfl⟩ := held
    exact unheld left hs hh
  rw [State.claimEnds, State.atSegOf_eq hp]
  simp only [free, Bool.false_eq_true, if_false]
  split
  · next i u sent =>
    obtain ⟨pre, post, queue, -, active, -⟩ := firstTx_eq_some.1 sent
    rw [if_neg (unsent u (by simp [queue]) active)]
  · rfl

/-- A hold of the port on the entry ends with a stop and CHAINBRK. -/
theorem State.claimEnds_held {left : Nat} (hp : (s.entry h).place = some pl) (held : (s.seg pl.seg).state = .held)
    (hold : (s.seg pl.seg).hold = some ⟨p, h, left⟩) : s.claimEnds h p =
      (s.setSeg pl.seg { s.seg pl.seg with state := .idle, hold := none, lines := .stop }).setEntry h ((s.entry h).setChain p true) := by
  rw [State.claimEnds, State.atSegOf_eq hp]
  simp [Segment.heldBy, held, hold, State.endHold, State.dropHold, State.modSeg_eq, State.modEntry_eq]

/-- The port's transaction for the entry on the bus is marked, so that it will not hold. -/
theorem State.claimEnds_sent {c : Current} {i : Nat} {u : HostTx} (hp : (s.entry h).place = some pl) (active : (s.seg pl.seg).state = .active)
    (current : (s.seg pl.seg).current = some c) (sent : (s.seg pl.seg).activeTx = some (i, u)) (port : u.port = p) (handle : u.handle = h) :
    s.claimEnds h p = s.setSeg pl.seg { s.seg pl.seg with current := some { c with claimEnded := true } } := by
  rw [State.claimEnds, State.atSegOf_eq hp]
  simp [Segment.heldBy, active, sent, port, handle, State.modSeg_eq, current]

end ClaimEnds

/-! ## RELEASE (03 R62) -/

section Release

variable {s : State} {p : Port} {t : Tag} {h : Handle} {pl : Place}

theorem exec_release (hr : Ready s p t) (g : Gen) :
    exec (.release p (byte t.val) [byte h.val, byte g.val]) s = .next ((s.accepted p t).answerRelease p t (h, g)) := by
  show Host.Outcome.next _ = _
  rw [State.submit_ready hr (by simp), parseRefOnly_byte, State.orBadParam_some]

/-- A release of a claim that the port holds: `ended` is what the end of the claim leaves, and the arbiter chooses last. -/
theorem State.answerRelease_held {g : Gen} {ended : State} (current : s.refRefusal h g = none) (holds : ((s.entry h).holder p).isSome = true)
    (ends : (s.setEntry h ((s.entry h).dropHolder p)).claimEnds h p = ended) (hp : (ended.entry h).place = some pl) :
    s.answerRelease p t (h, g) = ((ended.reevaluate h).respond p t .ok []).choose pl.seg := by
  simp only [State.answerRelease, current, holds, if_true, State.release, State.modEntry_eq, ends]
  exact State.atSegOf_eq (by rw [State.entry_respond, State.entry_reevaluate, if_pos rfl, Entry.place_reevaluated, hp]) _

end Release

/-- Settles O28: the three forms of the end of a claim, as the bus stands. -/
theorem releaseEndsClaim : Obligations.ReleaseEndsClaim := by
  intro s p t h pl hr hp used live e ask e₁ released
  have current : (s.accepted p t).refRefusal h e.gen = none := by rw [State.refRefusal_accepted]; exact State.refRefusal_none rfl used live
  have reads : exec ask s = .next ((s.accepted p t).answerRelease p t (h, e.gen)) := exec_release hr e.gen
  have drops : ((s.accepted p t).entry h).dropHolder p = e₁ := by rw [State.entry_accepted, Entry.dropHolder_eq]
  have place : e₁.place = some pl := by simp [e₁, e, hp]
  rw [reads]
  refine ⟨fun free => ?_, fun holds => ?_⟩
  · simp [State.answerRelease, current, show (s.entry h).holder p = none from free]
  · have holds : (((s.accepted p t).entry h).holder p).isSome = true := by rw [State.entry_accepted]; exact holds
    have answers {ended : State} (ends : ((s.accepted p t).setEntry h e₁).claimEnds h p = ended) (hp : (ended.entry h).place = some pl) :
        (s.accepted p t).answerRelease p t (h, e.gen) = (released ended).choose pl.seg :=
      State.answerRelease_held current holds (by rw [drops, ends]) hp
    refine ⟨fun unheld unsent => ?_, fun left held hold => ?_, fun c pre u post on port handle => ?_⟩
    · rw [answers (State.claimEnds_apart (pl := pl) (by simpa using place) (by simpa using unheld) (by simpa using unsent))
        (by simpa using place)]
    · rw [answers (State.claimEnds_held (pl := pl) (left := left) (by simpa using place) (by simpa using held) (by simpa using hold))
        (by simpa using place)]
      simp [released]
    · rw [answers (State.claimEnds_sent (pl := pl) (by simpa using place) (by simpa using on.bus.active)
        (by simpa using on.bus.current) (by simpa using Segment.activeTx_eq on.queue on.waiting on.mark) port handle) (by simpa using place),
        State.choose_of_active (by simpa [released] using on.bus.active)]
      simp [released]

/-! ## Counters that stand at 0 -/

section AtZero

variable {s : State} {p : Port} {h : Handle} {pl : Place}

/-- The lapse of a LEASE that stands at 0: `ended` is what the end of the claim leaves, and the arbiter chooses last (03 R58). -/
theorem State.leaseLapse_zero {leaseval : Nat} {ended : State} (holds : (s.entry h).holder p = some ⟨leaseval, 0⟩)
    (ends : ((s.setEntry h ((s.entry h).dropHolder p)).post p .claimLapsed (.entry h (s.entry h).gen) (claimCode (s.entry h).claim)).claimEnds
      h p = ended) (hp : (ended.entry h).place = some pl) : s.leaseLapse h p = (ended.reevaluate h).choose pl.seg := by
  have gen : ((s.entry h).dropHolder p).gen = (s.entry h).gen := by simp [Entry.dropHolder]
  simp only [State.leaseLapse, holds, Option.any_some, beq_self_eq_true, if_true, State.lapse, State.modEntry_eq, State.subject,
    State.entry_setEntry_same, gen, ends]
  exact State.atSegOf_eq (by rw [State.entry_reevaluate, if_pos rfl, Entry.place_reevaluated, hp]) _

theorem State.holdExpiry_zero {g : Seg} (held : (s.seg g).state = .held) (hold : (s.seg g).hold = some ⟨p, h, 0⟩) : s.holdExpiry g =
    ((s.setSeg g { s.seg g with state := .idle, hold := none, lines := .stop }).setEntry h ((s.entry h).setChain p true)).choose g := by
  simp [State.holdExpiry, Segment.heldBy, held, hold, State.expireHold, State.endHold, State.dropHold, State.modSeg_eq, State.modEntry_eq]

end AtZero

/-- Settles O30: each of the four commands finds its counter at 0. -/
theorem countersAtZeroTakeEffect : Obligations.CountersAtZeroTakeEffect := by
  refine ⟨fun s h w hw zero => ?_, fun s h p pl leaseval hp holds => ?_, fun s h pl zero hp => ?_, fun s g p h held hold => ?_⟩
  · show Host.Outcome.next (s.waitExpiry h) = _
    simp [State.waitExpiry, hw, zero, claimResult, State.modEntry_eq]
  · intro e e₁ lapsed
    show (_ → _ → Host.Outcome.next (s.leaseLapse h p) = _) ∧ (∀ left, _ → _ → Host.Outcome.next (s.leaseLapse h p) = _) ∧
      ∀ c pre u post, _ → _ → _ → Host.Outcome.next (s.leaseLapse h p) = _
    have drops : (s.entry h).dropHolder p = e₁ := Entry.dropHolder_eq ..
    have place : e₁.place = some pl := by simp [e₁, e, hp]
    have lapses {ended : State} (ends : ((s.setEntry h e₁).post p .claimLapsed (.entry h e.gen) (claimCode e.claim)).claimEnds h p = ended)
        (hp : (ended.entry h).place = some pl) : s.leaseLapse h p = (ended.reevaluate h).choose pl.seg :=
      State.leaseLapse_zero holds (by rw [drops, ends]) hp
    refine ⟨fun unheld unsent => ?_, fun left held hold => ?_, fun c pre u post on port handle => ?_⟩
    · rw [lapses (State.claimEnds_apart (pl := pl) (by simpa using place) (by simpa using unheld) (by simpa using unsent))
        (by simpa using place)]
    · rw [lapses (State.claimEnds_held (pl := pl) (left := left) (by simpa using place) (by simpa using held) (by simpa using hold))
        (by simpa using place)]
      simp [lapsed]
    · rw [lapses (State.claimEnds_sent (pl := pl) (by simpa using place) (by simpa using on.bus.active)
        (by simpa using on.bus.current) (by simpa using Segment.activeTx_eq on.queue on.waiting on.mark) port handle) (by simpa using place),
        State.choose_of_active (by simpa [lapsed] using on.bus.active)]
      simp [lapsed]
  · show Host.Outcome.next _ = _
    have stands : { s.entry h with settle := 0 } = s.entry h := by rw [← zero]
    rw [if_pos zero, State.settleEnd, State.modEntry_eq, stands, State.setEntry_entry, State.atSegOf_eq hp]
  · show Host.Outcome.next (s.holdExpiry g) = _
    rw [State.holdExpiry_zero held hold]

end Sys2Proof.Machine
end

