-- ==== Sys2Proof/Proofs/Ticks.lean ====
section
/-! PROOFS. The two ticks of the timebase: what they count, and the events that they bring about, in the order that the tick gives
(03 R55, R57, R58, 04 R81, 05 R106, R109, R111, 06 R124, 08 R148; log entry 4). -/

namespace Sys2Proof.Machine

variable {s : State} {ev : Event} {due : List Event}

/-! ## What the counts change -/

@[simp] theorem State.seg_count10ms (s : State) (g : Seg) : s.count10ms.seg g = (s.seg g).tick10ms := by
  rw [State.count10ms, State.seg_mapSegs, State.seg_mapEntries]

@[simp] theorem State.entry_count100us (s : State) (h : Handle) : s.count100us.entry h = (s.entry h).tick100us := by
  rw [State.count100us, State.entry_mapSegs, State.entry_mapEntries]

@[simp] theorem State.seg_count100us (s : State) (g : Seg) : s.count100us.seg g = (s.seg g).tick100us := by
  rw [State.count100us, State.seg_mapSegs, State.seg_mapEntries]

/-- A watch runs while its probe is NONE on an entry that is SUSPECT or LOST (06 R124). -/
theorem Entry.watchRuns_iff {e : Entry} {w : Watch} (hw : e.watch = some w) :
    e.watchRuns = true ↔ w.probe = .none ∧ (e.state = .suspect ∨ e.state = .lost) := by
  simp [Entry.watchRuns, hw, and_comm]

theorem Entry.watch_tick10ms (e : Entry) : e.tick10ms.watch = e.watch.map (fun w => { w with nextdue :=
    if w.probe = .none ∧ (e.state = .suspect ∨ e.state = .lost) then w.nextdue - 1 else w.nextdue }) := by
  cases hw : e.watch with
  | none => simp [Entry.tick10ms, hw]
  | some w =>
    by_cases runs : e.watchRuns = true
    · simp [Entry.tick10ms, hw, runs, (Entry.watchRuns_iff hw).1 runs]
    · simp only [Entry.tick10ms, hw, if_neg runs, Option.map_some, if_neg (mt (Entry.watchRuns_iff hw).2 runs)]

theorem State.countedSlow_count10ms (s : State) : CountedSlow s s.count10ms where
  entries h := by
    rw [State.entry_count10ms, ← Entry.watch_tick10ms]
    rfl
  segs g := by
    rw [State.seg_count10ms, Segment.tick10ms]
    split <;> rfl
  ports p := by rw [State.count10ms, State.port_mapSegs, State.port_mapEntries]
  threshold := rfl
  races := rfl
  pending := rfl

theorem State.countedButLast_count100us (s : State) : CountedButLast s s.count100us where
  entries h := by
    rw [State.entry_count100us, Entry.tick100us]
    congr 1
    split_ifs <;> omega
  segs g := State.seg_count100us s g
  ports p := by rw [State.count100us, State.port_mapSegs, State.port_mapEntries]
  threshold := rfl
  races := rfl
  pending := rfl

/-- Where no SETTLE stands at 1, the count is whole. -/
theorem CountedButLast.countedFast {t : State} (c : CountedButLast s t) (none : ∀ h, (s.entry h).settle ≠ 1) : CountedFast s t where
  entries h := by rw [c.entries h, if_neg (none h)]
  segs := c.segs
  ports := c.ports
  threshold := c.threshold
  races := c.races
  pending := c.pending

/-! ## The events that are due -/

/-- What a 10 ms tick brings to 0 stood at 1, or at 0. -/
theorem State.slowLeft_count10ms : s.count10ms.slowLeft 0 ev ↔ s.slowLeft 1 ev ∨ s.slowLeft 0 ev := by
  cases ev with
  | leaseLapse h p =>
    have left : s.count10ms.slowLeft 0 (.leaseLapse h p) ↔ ∃ hr, (s.entry h).holder p = some hr ∧ hr.lease - 1 = 0 := by
      cases p <;> simp [State.slowLeft, Entry.holder, Entry.tick10ms, Holder.tick]
    rw [left]
    simp only [State.slowLeft, ← exists_or, ← and_or_left]
    exact exists_congr fun hr => and_congr_right' (by omega)
  | waitExpiry h =>
    have left : s.count10ms.slowLeft 0 (.waitExpiry h) ↔ ∃ w, (s.entry h).waiter = some w ∧ w.wait - 1 = 0 := by
      simp [State.slowLeft, Entry.tick10ms]
    rw [left]
    simp only [State.slowLeft, ← exists_or, ← and_or_left]
    exact exists_congr fun w => and_congr_right' (by omega)
  | watchProbeDue h =>
    have state : (s.entry h).tick10ms.state = (s.entry h).state := rfl
    cases hw : (s.entry h).watch with
    | none => simp [State.slowLeft, Entry.watch_tick10ms, hw]
    | some w =>
      simp only [State.slowLeft, State.entry_count10ms, Entry.watch_tick10ms, state, hw, Option.map_some, Option.some.injEq, exists_eq_left']
      by_cases runs : w.probe = .none ∧ ((s.entry h).state = .suspect ∨ (s.entry h).state = .lost)
      · obtain ⟨probe, lowered⟩ := runs
        simp only [probe, lowered, and_self, if_true, true_and, and_true]
        omega
      · simp only [if_neg runs]
        tauto
  | rearmExpiry g =>
    simp only [State.slowLeft, State.seg_count10ms, Segment.tick10ms]
    split
    · next unit =>
      simp only [unit, true_and]
      omega
    · next other => simp [other]
  | settleEnd | holdExpiry | waiterGranted | retireComplete | arbiterGrant => simp [State.slowLeft]

/-- The events that a 10 ms tick can bring about for an entry. -/
def slowEvents (h : Handle) : List Event := [.leaseLapse h .A, .leaseLapse h .B, .waitExpiry h, .watchProbeDue h]

theorem State.due10msEntry_sublist (s : State) (h : Handle) : (s.due10msEntry h).Sublist (slowEvents h) := by
  have optional (c : Prop) [Decidable c] (a : Event) : (if c then [a] else []).Sublist [a] := by
    split
    · exact .refl _
    · exact List.nil_sublist _
  exact (((optional _ _).append (optional _ _)).append (optional _ _)).append (optional _ _)

theorem slowEvents_disjoint {h k : Handle} (apart : h ≠ k) : (slowEvents h).Disjoint (slowEvents k) := by
  simp [slowEvents, apart.symm]

theorem State.nodup_due10ms (s : State) : s.due10ms.Nodup := by
  refine List.Nodup.append (List.nodup_flatMap.2 ⟨fun h _ => ?_, ?_⟩) ?_ ?_
  · exact (s.due10msEntry_sublist h).nodup (by simp [slowEvents])
  · refine nodup_handles.imp fun apart ev at₁ at₂ => ?_
    exact slowEvents_disjoint apart ((s.due10msEntry_sublist _).subset at₁) ((s.due10msEntry_sublist _).subset at₂)
  · exact ((List.nodup_finRange 6).filter _).map fun a b same => by injection same
  · intro ev entry unit
    obtain ⟨h, -, due⟩ := List.mem_flatMap.1 entry
    obtain ⟨g, -, rfl⟩ := List.mem_map.1 unit
    simpa [slowEvents] using (s.due10msEntry_sublist h).subset due

theorem State.mem_due100us : ev ∈ s.due100us ↔
    (∃ h, (s.entry h).settle = 1 ∧ ev = .settleEnd h) ∨
    ∃ g, (s.seg g).state = .held ∧ (∃ ho ∈ (s.seg g).hold, ho.left ≤ 1) ∧ ev = .holdExpiry g := by
  simp only [State.due100us, List.mem_append, List.mem_map, List.mem_filter, mem_handles, mem_segments, true_and, beq_iff_eq, Segment.heldBy,
    Bool.and_eq_true, Option.any_eq_true, decide_eq_true_eq, and_assoc, Option.mem_def, eq_comm (b := ev)]

theorem State.nodup_due100us (s : State) : s.due100us.Nodup := by
  refine List.Nodup.append ?_ ?_ ?_
  · exact (nodup_handles.filter _).map fun a b same => by injection same
  · exact ((List.nodup_finRange 6).filter _).map fun a b same => by injection same
  · intro ev settles holds
    obtain ⟨h, -, rfl⟩ := List.mem_map.1 settles
    obtain ⟨g, -, same⟩ := List.mem_map.1 holds
    cases same

/-- Where every hold has time left, the events of a 100 µs tick are those that its count brings to 0. -/
theorem State.mem_due100us_iff_fastDue (left : ∀ g, (s.seg g).state = .held → ∀ ho ∈ (s.seg g).hold, 1 ≤ ho.left) :
    ev ∈ s.due100us ↔ s.fastDue ev := by
  rw [State.mem_due100us]
  cases ev with
  | settleEnd h => simp [State.fastDue]
  | holdExpiry g =>
    simp only [State.fastDue, Event.holdExpiry.injEq, reduceCtorEq, and_false, exists_false, false_or]
    constructor
    · rintro ⟨k, held, ⟨ho, hold, low⟩, rfl⟩
      exact ⟨held, ho, hold, Nat.le_antisymm low (left _ held ho hold)⟩
    · rintro ⟨held, ho, hold, one⟩
      exact ⟨g, held, ⟨ho, hold, one.le⟩, rfl⟩
  | leaseLapse | waitExpiry | watchProbeDue | rearmExpiry | waiterGranted | retireComplete | arbiterGrant => simp [State.fastDue]

/-- A tick whose operand names the events that are due, each once, takes them in the operand's order. -/
theorem preferring_eq {l : List Event} (nodup : due.Nodup) (nodup' : l.Nodup) (same : ∀ ev, ev ∈ l ↔ ev ∈ due) : preferring due l = due :=
  preferring_of_perm nodup ((List.perm_ext_iff_of_nodup nodup' nodup).2 same)

/-- What is due alone is taken, wherever the operand has it. -/
theorem preferring_singleton {first l : List Event} (nodup : l.Nodup) (only : ∀ e, e ∈ l ↔ e = ev) : preferring first l = [ev] :=
  List.perm_singleton.1 ((preferring_perm first l).trans ((List.perm_ext_iff_of_nodup nodup (List.nodup_singleton ev)).2 (by simpa using only)))

theorem preferring_nil {first l : List Event} (none : ∀ e, e ∉ l) : preferring first l = [] := by
  rw [List.eq_nil_iff_forall_not_mem.2 none]
  rfl

/-! ## An event inside a tick, and as a command -/

/-- An event comes about inside a tick as its own command does it, once its SETTLE has fallen to 0. -/
theorem State.exec_command_settled (s : State) (ev : Event) : exec (Event.command ev) (s.settled ev) = .next (s.happen ev) := by
  cases ev with
  | settleEnd h =>
    show Host.Outcome.next (if ((s.setEntry h { s.entry h with settle := 0 }).entry h).settle = 0 then _ else _) = _
    simp [State.happen, State.settleEnd, State.settled, State.modEntry_eq]
  | leaseLapse | waitExpiry | watchProbeDue | rearmExpiry | holdExpiry | waiterGranted | retireComplete | arbiterGrant => rfl

theorem State.settled_of_slow {n : Nat} {u : State} (slow : s.slowLeft n ev) : u.settled ev = u := by
  cases ev with
  | settleEnd => exact slow.elim
  | leaseLapse | waitExpiry | watchProbeDue | rearmExpiry | holdExpiry | waiterGranted | retireComplete | arbiterGrant => rfl

theorem leadsTo_happen {n : Nat} (slow : ∀ ev ∈ due, s.slowLeft n ev) (t : State) : LeadsTo (due.map Event.command) t (due.foldl State.happen t) := by
  induction due generalizing t with
  | nil => rfl
  | cons ev rest ih =>
    obtain ⟨first, later⟩ := List.forall_mem_cons.1 slow
    refine ⟨t.happen ev, ?_, ih later _⟩
    rw [← State.exec_command_settled, State.settled_of_slow first]

theorem fastLeadsTo_happen (due : List Event) (t : State) : FastLeadsTo due t (due.foldl State.happen t) := by
  induction due generalizing t with
  | nil => rfl
  | cons ev rest ih => exact ⟨t.happen ev, t.exec_command_settled ev, ih _⟩

/-! ## The ticks -/

/-- Settles O31: where no counter stands at 0 or 1, no event is due, and the tick only counts. -/
theorem ticksCount : Obligations.TicksCount := by
  refine ⟨fun s first leases waits watches rearms => ⟨s.count10ms, ?_, s.countedSlow_count10ms⟩,
    fun s first settles holds => ⟨s.count100us, ?_, s.countedButLast_count100us.countedFast settles⟩⟩
  · have none (n : Nat) (low : n ≤ 1) (ev : Event) : ¬s.slowLeft n ev := by
      cases ev with
      | leaseLapse h p =>
        rintro ⟨hr, holds, rfl⟩
        exact absurd (leases h p hr holds) (by omega)
      | waitExpiry h =>
        rintro ⟨w, waiter, rfl⟩
        exact absurd (waits h w waiter) (by omega)
      | watchProbeDue h =>
        rintro ⟨w, watch, probe, rfl, state⟩
        exact absurd (watches h w watch probe state) (by omega)
      | rearmExpiry g =>
        rintro ⟨unit, rearm, rfl⟩
        exact absurd (rearms g unit rearm) (by omega)
      | settleEnd | holdExpiry | waiterGranted | retireComplete | arbiterGrant => exact id
    have nothing : preferring first s.count10ms.due10ms = [] := preferring_nil fun ev => by
      rw [State.mem_due10ms, State.slowLeft_count10ms]
      exact not_or.2 ⟨none 1 le_rfl ev, none 0 zero_le_one ev⟩
    show Host.Outcome.next (s.tick10ms first) = _
    rw [State.tick10ms, nothing, List.foldl_nil]
  · have nothing : preferring first s.due100us = [] := preferring_nil fun ev => by
      rw [State.mem_due100us]
      rintro (⟨h, one, -⟩ | ⟨g, held, ⟨ho, hold, low⟩, -⟩)
      · exact settles h one
      · exact absurd (holds g held ho hold) (by omega)
    show Host.Outcome.next (s.tick100us first) = _
    rw [State.tick100us, nothing, List.foldl_nil]

/-- The count of a 100 µs tick on which one SETTLE reaches 0, with its event's fall taken. -/
theorem State.countedFast_settled {h : Handle} (only : ∀ k, (s.entry k).settle = 1 ↔ k = h) :
    CountedFast s (s.count100us.settled (.settleEnd h)) := by
  obtain ⟨entries, segs, ports, threshold, races, pending⟩ := s.countedButLast_count100us
  refine ⟨fun k => ?_, fun g => by rw [← segs g]; simp [State.settled], fun p => by rw [← ports p]; simp [State.settled], threshold, races, pending⟩
  by_cases same : k = h
  · subst same
    have one := (only k).2 rfl
    simp [State.settled, entries k, one]
  · rw [State.settled, State.entry_setEntry_ne _ _ same, entries k, if_neg (mt (only k).1 same)]

/-- Settles O32: the events due are those of the operand, or the one SETTLE's or the one hold's. -/
theorem ticksBringAboutWhatIsDue : Obligations.TicksBringAboutWhatIsDue := by
  refine ⟨fun s due nodup all stands => ⟨s.count10ms, _, s.countedSlow_count10ms, leadsTo_happen (fun ev => (all ev).1) _, ?_⟩,
    fun s first h settles holds => ⟨_, State.countedFast_settled settles, ?_⟩,
    fun s first g settles holds held hold => ⟨s.count100us, s.countedButLast_count100us.countedFast settles, ?_⟩,
    fun s due nodup all holds => ⟨s.count100us, _, s.countedButLast_count100us, fastLeadsTo_happen due _, ?_⟩⟩
  · show Host.Outcome.next (s.tick10ms due) = _
    rw [State.tick10ms, preferring_eq nodup (State.nodup_due10ms _) fun ev => by
      rw [State.mem_due10ms, State.slowLeft_count10ms, all ev, or_iff_left (stands ev)]]
  · have only : preferring first s.due100us = [.settleEnd h] := preferring_singleton s.nodup_due100us fun ev => by
      rw [State.mem_due100us]
      constructor
      · rintro (⟨k, one, rfl⟩ | ⟨g, held, ⟨ho, hold, low⟩, -⟩)
        · rw [(settles k).1 one]
        · exact absurd (holds g held ho hold) (by omega)
      · rintro rfl
        exact .inl ⟨h, (settles h).2 rfl, rfl⟩
    show Host.Outcome.next (s.tick100us first) = exec (Event.command (.settleEnd h)) _
    rw [State.exec_command_settled, State.tick100us, only, List.foldl_cons, List.foldl_nil]
  · have only : preferring first s.due100us = [.holdExpiry g] := preferring_singleton s.nodup_due100us fun ev => by
      rw [State.mem_due100us]
      constructor
      · rintro (⟨k, one, -⟩ | ⟨k, held', ⟨ho, hold', low⟩, rfl⟩)
        · exact absurd one (settles k)
        · obtain ⟨left, due⟩ := holds k held' ho hold'
          rw [due.1 (Nat.le_antisymm low left)]
      · rintro rfl
        obtain ⟨ho, hold⟩ := Option.isSome_iff_exists.1 hold
        exact .inr ⟨g, held, ⟨ho, hold, ((holds g held ho hold).2.2 rfl).le⟩, rfl⟩
    show Host.Outcome.next (s.tick100us first) = _
    rw [State.tick100us, only]
    rfl
  · show Host.Outcome.next (s.tick100us due) = _
    rw [State.tick100us, preferring_eq nodup s.nodup_due100us fun ev => by rw [State.mem_due100us_iff_fastDue holds, all ev]]

end Sys2Proof.Machine
end

