-- ==== Sys2Proof/Proofs/TransferRefused.lean ====
section
/-! PROOFS. The checks of acceptance of a host transfer (05 R99; 03 R44, 05 R98, R102). -/

namespace Sys2Proof.Machine

/-! ## The request and what is read from it (05 R93, 11 R180) -/

/-- What a request for a host transfer of a kind names: OFFSET, CHAIN, the bytes to write and the number to read as far as the kind has
them. -/
def askedTransfer (k : TxKind) (h : Handle) (g : Gen) (hi lo : Byte) (chain : Bool) (data : List Byte) (m : Nat) : TransferArgs :=
  match k with
  | .write => ⟨h, g, .write, hi ++ lo, data, 0, chain⟩
  | .read => ⟨h, g, .read, hi ++ lo, [], m, chain⟩
  | .writeRead => ⟨h, g, .writeRead, hi ++ lo, data, m, chain⟩
  | .ping => ⟨h, g, .ping, 0, [], 0, false⟩

section Request

variable {s : State} {p : Port} {t : Tag} {data : List Byte} {m : Nat}
  (h : Handle) (g : Gen) (hi lo : Byte) (chain : Bool) (d₁ : 1 ≤ data.length) (d₂ : data.length ≤ 32) (m₁ : 1 ≤ m) (m₂ : m ≤ 32)

include d₁ d₂ in
theorem parseWrite_bytes : parseWrite ([byte h.val, byte g.val, hi, lo, byte (bit chain), byte data.length] ++ data) =
    some (askedTransfer .write h g hi lo chain data m) := by
  simp [parseWrite, parseLen_byte d₁ d₂, askedTransfer]

include m₁ m₂ in
theorem parseRead_bytes : parseRead [byte h.val, byte g.val, hi, lo, byte (bit chain), byte m] =
    some (askedTransfer .read h g hi lo chain data m) := by
  simp [parseRead, parseLen_byte m₁ m₂, askedTransfer]

include d₁ d₂ m₁ m₂ in
theorem parseWriteRead_bytes : parseWriteRead ([byte h.val, byte g.val, hi, lo, byte (bit chain), byte data.length, byte m] ++ data) =
    some (askedTransfer .writeRead h g hi lo chain data m) := by
  simp [parseWriteRead, parseLen_byte d₁ d₂, parseLen_byte m₁ m₂, askedTransfer]

theorem parsePing_bytes : parsePing [byte h.val, byte g.val, 0x00] = some (askedTransfer .ping h g hi lo chain data m) := by
  have unset : parseFlags 0#8 = some false := by decide
  simp [parsePing, unset, askedTransfer]

include d₁ d₂ m₁ m₂ in
/-- A request for a host transfer reaches its block with what it names. -/
theorem exec_transferRequest (k : TxKind) (hr : Ready s p t) : exec (transferRequest p t k h g hi lo chain data m) s =
    .next ((s.accepted p t).answerTransfer p t k (some (askedTransfer k h g hi lo chain data m))) := by
  cases k with
  | write =>
    show Host.Outcome.next _ = _
    rw [State.submit_ready hr (by simp; omega), parseWrite_bytes h g hi lo chain d₁ d₂]
  | read =>
    show Host.Outcome.next _ = _
    rw [State.submit_ready hr (by simp), parseRead_bytes (data := data) h g hi lo chain m₁ m₂]
  | writeRead =>
    show Host.Outcome.next _ = _
    rw [State.submit_ready hr (by simp; omega), parseWriteRead_bytes h g hi lo chain d₁ d₂ m₁ m₂]
  | ping =>
    show Host.Outcome.next _ = _
    rw [State.submit_ready hr (by simp), parsePing_bytes h g hi lo chain]

end Request

@[simp] theorem askedTransfer_handle (k : TxKind) (h : Handle) (g : Gen) (hi lo : Byte) (chain : Bool) (data : List Byte) (m : Nat) :
    (askedTransfer k h g hi lo chain data m).handle = h := by cases k <;> rfl

@[simp] theorem askedTransfer_gen (k : TxKind) (h : Handle) (g : Gen) (hi lo : Byte) (chain : Bool) (data : List Byte) (m : Nat) :
    (askedTransfer k h g hi lo chain data m).gen = g := by cases k <;> rfl

@[simp] theorem askedTransfer_kind (k : TxKind) (h : Handle) (g : Gen) (hi lo : Byte) (chain : Bool) (data : List Byte) (m : Nat) :
    (askedTransfer k h g hi lo chain data m).kind = k := by cases k <;> rfl

/-! ## The checks, one by one -/

section Checks

variable {s : State} {p : Port} {a : TransferArgs} {pl : Place}

theorem State.transferDecision_stale (stale : ¬((s.entry a.handle).gen = a.gen ∧ (s.entry a.handle).state ≠ .vacant)) :
    s.transferDecision p a = .error .stale := by
  have gone : s.isCurrent a.handle a.gen = false := by rw [← Bool.not_eq_true, State.isCurrent_iff]; exact stale
  simp only [State.transferDecision, gone]
  split <;> rfl

/-- The first status that the entry's STATE, the segment's state, the claim and the limits of the descriptor give a transfer, or none. -/
def State.transferStatus (s : State) (p : Port) (pl : Place) (a : TransferArgs) : Option Status :=
  (s.entry a.handle).state.transferStatus.or <| (s.seg pl.seg).state.refusal.or <|
    ((s.entry a.handle).right p a.kind).or <| (s.entry a.handle).desc.limits a.wdata.length a.rlen a.chain

/-- A current reference is refused by the first of these checks that fails, then by a full HOSTQ. -/
theorem State.transferDecision_current (hp : (s.entry a.handle).place = some pl) (gen : (s.entry a.handle).gen = a.gen)
    (used : (s.entry a.handle).state ≠ .vacant) : s.transferDecision p a =
      match s.transferStatus p pl a with
      | some st => .error st
      | none => if (s.seg pl.seg).hostq.length < Config.hostqPlaces then .ok pl.seg else .error .segmentFull := by
  simp only [State.transferDecision, hp, (s.isCurrent_iff _ _).2 ⟨gen, used⟩, Bool.not_true, Bool.false_eq_true, if_false, State.transferStatus]
  cases (s.entry a.handle).state.transferStatus with
  | some st => rfl
  | none => cases (s.seg pl.seg).state.refusal with
    | some st => rfl
    | none => cases (s.entry a.handle).right p a.kind with
      | some st => rfl
      | none => cases (s.entry a.handle).desc.limits a.wdata.length a.rlen a.chain <;> rfl

@[simp] theorem State.transferStatus_accepted (s : State) (q : Port) (t : Tag) :
    (s.accepted q t).transferStatus p pl a = s.transferStatus p pl a := by
  simp [State.transferStatus]

theorem State.transferStatus_state {st : Status} (state : (s.entry a.handle).state.transferStatus = some st) :
    s.transferStatus p pl a = some st := by
  rw [State.transferStatus, state, Option.some_or]

theorem State.transferStatus_segment (alive : (s.entry a.handle).state.transferStatus = none) : s.transferStatus p pl a =
    (s.seg pl.seg).state.refusal.or
      (((s.entry a.handle).right p a.kind).or <| (s.entry a.handle).desc.limits a.wdata.length a.rlen a.chain) := by
  rw [State.transferStatus, alive, Option.none_or]

theorem State.transferStatus_right (alive : (s.entry a.handle).state.transferStatus = none) (runs : (s.seg pl.seg).state.refusal = none) :
    s.transferStatus p pl a =
      ((s.entry a.handle).right p a.kind).or ((s.entry a.handle).desc.limits a.wdata.length a.rlen a.chain) := by
  rw [State.transferStatus_segment alive, runs, Option.none_or]

theorem SegState.refusal_eq_none {x : SegState} (on : x ≠ .off) (free : x ≠ .stuck) : x.refusal = none := by
  cases x with
  | off => exact absurd rfl on
  | stuck => exact absurd rfl free
  | idle | active | held | recovering => rfl

theorem Entry.right_held {e : Entry} {k : TxKind} (claim : e.claim = .exclusive) (other : e.holder p = none) : e.right p k = some .held := by
  simp [Entry.right, claim, other]

theorem Entry.right_shared {e : Entry} {k : TxKind} (claim : e.claim = .shared) (writes : k = .write ∨ k = .writeRead) :
    e.right p k = some .sharedReadonly := by
  rcases writes with rfl | rfl <;> simp [Entry.right, claim]

theorem Entry.right_eq_none {e : Entry} {k : TxKind} (own : ¬(e.claim = .exclusive ∧ e.holder p = none))
    (reads : ¬(e.claim = .shared ∧ (k = .write ∨ k = .writeRead))) : e.right p k = none := by
  unfold Entry.right
  cases claim : e.claim with
  | none => rfl
  | exclusive =>
    have held : (e.holder p).isSome = true := Option.isSome_iff_ne_none.2 fun none => own ⟨claim, none⟩
    simp [held]
  | shared =>
    have only : ¬(k = .write ∨ k = .writeRead) := fun writes => reads ⟨claim, writes⟩
    cases k with
    | write => exact absurd (.inl rfl) only
    | writeRead => exact absurd (.inr rfl) only
    | read | ping => rfl

/-- The limits of a descriptor, as far as a kind of transfer meets them. -/
theorem Desc.limits_askedTransfer (d : Desc) (k : TxKind) (h : Handle) (g : Gen) (hi lo : Byte) (chain : Bool) (data : List Byte) (m : Nat) :
    let a := askedTransfer k h g hi lo chain data m
    d.limits a.wdata.length a.rlen a.chain =
      if ((k = .write ∨ k = .writeRead) ∧ d.maxburst < data.length) ∨ ((k = .read ∨ k = .writeRead) ∧ d.maxburst < m) then some .tooLong
      else if k ≠ .ping ∧ chain = true ∧ d.chainCapable = false then some .noChain
      else none := by
  cases k <;> simp [askedTransfer, Desc.limits]

end Checks

/-- Settles O34: each refusal is the first of the checks that fails. -/
theorem transferRefused : Obligations.TransferRefused := by
  intro s p t k h g hi lo chain data m hr d₁ d₂ m₁ m₂ e writes reads tooLong noChain refused
  have refuses {st : Status} (decision : (s.accepted p t).transferDecision p (askedTransfer k h g hi lo chain data m) = .error st) :
      refused st := by
    show exec _ s = _
    rw [exec_transferRequest h g hi lo chain d₁ d₂ m₁ m₂ k hr, State.answerTransfer, decision]
    cases k <;> rfl
  refine ⟨fun stale => refuses (State.transferDecision_stale (by simpa using stale)), fun pl gen place => ?_⟩
  have decides (used : e.state ≠ .vacant) := State.transferDecision_current (s := s.accepted p t) (p := p) (pl := pl)
    (a := askedTransfer k h g hi lo chain data m) (by simpa using place) (by simpa using gen) (by simpa using used)
  have fails {st : Status} (used : e.state ≠ .vacant) (first : s.transferStatus p pl (askedTransfer k h g hi lo chain data m) = some st) :
      refused st := refuses (by rw [decides used, State.transferStatus_accepted, first])
  have byState {x : EntryState} {st : Status} (state : e.state = x) (used : x ≠ .vacant) (gives : x.transferStatus = some st) : refused st :=
    fails (state ▸ used) (State.transferStatus_state (by simpa [← state] using gives))
  refine ⟨fun probing => byState probing nofun rfl, fun lost => byState lost nofun rfl, fun retiring => byState retiring nofun rfl,
    fun live => ?_⟩
  have used : e.state ≠ .vacant := by
    intro vacant
    simp [vacant] at live
  have alive : (s.entry (askedTransfer k h g hi lo chain data m).handle).state.transferStatus = none := by
    rw [askedTransfer_handle]
    exact EntryState.transferStatus_live live
  refine ⟨fun off => fails used ?_, fun stuck => fails used ?_, fun on free => ?_⟩
  · rw [State.transferStatus_segment alive, off]
    rfl
  · rw [State.transferStatus_segment alive, stuck]
    rfl
  have runs : (s.seg pl.seg).state.refusal = none := SegState.refusal_eq_none on free
  refine ⟨fun claim other => fails used ?_, fun claim writing => fails used ?_, fun own reading => ?_⟩
  · rw [State.transferStatus_right alive runs, askedTransfer_handle, askedTransfer_kind, Entry.right_held claim other, Option.some_or]
  · rw [State.transferStatus_right alive runs, askedTransfer_handle, askedTransfer_kind, Entry.right_shared claim writing, Option.some_or]
  have limits : s.transferStatus p pl (askedTransfer k h g hi lo chain data m) =
      if tooLong then some .tooLong else if noChain then some .noChain else none := by
    rw [State.transferStatus_right alive runs, askedTransfer_handle, askedTransfer_kind, Entry.right_eq_none own reading, Option.none_or]
    exact Desc.limits_askedTransfer ..
  refine ⟨fun long => fails used ?_, fun short chained => fails used ?_, fun short apart full => refuses ?_⟩
  · rw [limits, if_pos long]
  · rw [limits, if_neg short, if_pos chained]
  · rw [decides used, State.transferStatus_accepted, limits, if_neg short, if_neg apart, State.seg_accepted]
    exact if_neg (Nat.not_lt.2 full)

end Sys2Proof.Machine
end

