-- ==== Sys2Proof/Proofs/Choices.lean ====
section
/-! PROOFS. The arbiter's choice, move by move: what is done without the bus, what is granted the bus, and where it comes to rest (04 R82 to R84, 05 R101, 07 R133,
08 R143, R147). -/

namespace Sys2Proof.Machine

/-! ## What the arbiter finds -/

/-- The arbiter's pick among the host transactions: on an IDLE segment the oldest that is not settling, on a HELD one the follow-on (04 R83, R84). -/
def State.pick (s : State) (g : Seg) : Option (Nat × HostTx) :=
  match (s.seg g).state with
  | .idle => s.pickHost g
  | .held => s.pickFollowOn g
  | .off | .active | .recovering | .stuck => none

/-- Nothing of a segment is eligible: on an IDLE one all that waits is settling, on a HELD one no follow-on may run (04 R82 to R84). -/
structure State.AtRest (s : State) (g : Seg) : Prop where
  idle : (s.seg g).state = .idle → s.noHost g ∧ s.noAdmission g ∧ s.noWatchProbe g ∧ s.noSweepRead g ∧
    ∀ c ∈ (s.seg g).survey, c.probe = .active
  held : (s.seg g).state = .held → ∀ ho ∈ (s.seg g).hold, (s.entry ho.entry).settle ≠ 0 ∨
    ∀ t ∈ (s.seg g).hostq, ¬(t.port = ho.port ∧ t.handle = ho.entry)

/-- What a choice does without the bus: a sweep with no candidate ends, a survey whose whole rest is passed over is answered, or a pick that fails its recheck
completes (04 R84, 07 R133, 08 R147). -/
inductive State.Passes (s : State) (g : Seg) : State → Prop
  | sweepEnds : (s.seg g).state = .idle → (s.seg g).sweep.state = .sweeping → s.candidate g = none → s.Passes g (s.endSweep g)
  | surveyEnds {u : State} : (s.seg g).state = .idle → s.tryBackground g = (u, false) → s.Passes g u
  | completes {i : Nat} {t : HostTx} {st : Status} : s.pick g = some (i, t) → s.recheck t = some st → s.Passes g (s.completeAt g i t st)

/-- What a choice grants the bus to (04 R82 to R84). -/
inductive State.Grants (s : State) (g : Seg) : State → Prop
  | sweep {h : Handle} : (s.seg g).state = .idle → s.sweepOffer g = some h → s.Grants g (s.grantSweep g h)
  | background {u : State} : (s.seg g).state = .idle → s.tryBackground g = (u, true) → s.Grants g u
  | host {i : Nat} {t : HostTx} : s.pick g = some (i, t) → s.recheck t = none → s.Grants g (s.grantHost g i t ((s.seg g).state == .held))

/-- What a choice leads to: it passes over what cannot go, and ends with a grant or at rest. -/
inductive Chooses (g : Seg) : State → State → Prop
  | rests {s : State} : s.AtRest g → Chooses g s s
  | grants {s u : State} : s.Grants g u → Chooses g s u
  | passes {s u v : State} : s.Passes g u → Chooses g u v → Chooses g s v

section Picks

variable {s : State} {g : Seg} {i : Nat} {t : HostTx}

theorem State.pickHost_eq_none : s.pickHost g = none ↔ s.noHost g := by
  simp only [State.pickHost, firstTx_eq_none, Bool.not_eq_false', Entry.settling_iff]
  exact Iff.rfl

theorem State.pickAdmission_eq_none : s.pickAdmission g = none ↔ s.noAdmission g := by
  simp only [State.pickAdmission, List.find?_eq_none, mem_handles, Bool.and_eq_true, Bool.not_eq_true', not_and, Bool.not_eq_false,
    Entry.settling_iff, State.noAdmission, forall_const, and_imp]

theorem State.pickWatch_eq_none : s.pickWatch g = none ↔ s.noWatchProbe g := by
  simp only [State.pickWatch, List.find?_eq_none, mem_handles, Bool.and_eq_true, Bool.not_eq_true', not_and, Bool.not_eq_false,
    Entry.settling_iff, State.noWatchProbe, forall_const, and_imp]

theorem State.pickFollowOn_eq_none : s.pickFollowOn g = none ↔ ∀ ho ∈ (s.seg g).hold, (s.entry ho.entry).settle ≠ 0 ∨
    ∀ t ∈ (s.seg g).hostq, ¬(t.port = ho.port ∧ t.handle = ho.entry) := by
  unfold State.pickFollowOn
  cases hold : (s.seg g).hold with
  | none => simp
  | some ho =>
    by_cases settling : (s.entry ho.entry).settle = 0
    · simp [Entry.settling_eq_false.2 settling, firstTx_eq_none, settling]
    · simp [Entry.settling_iff.2 settling, settling]

/-- Once a sweep without a candidate has ended, no sweep read on offer means that there is none. -/
theorem State.noSweepRead_of_sweepOffer (unoffered : s.sweepOffer g = none) (found : ¬((s.seg g).sweep.state = .sweeping ∧ s.candidate g = none)) :
    s.noSweepRead g := by
  by_cases sweeping : (s.seg g).sweep.state = .sweeping
  · obtain ⟨h, hc⟩ := Option.ne_none_iff_exists'.1 fun spent => found ⟨sweeping, spent⟩
    refine .inr ⟨h, hc, ?_⟩
    simpa [State.sweepOffer, sweeping, hc, Option.filter, Entry.settling_eq_false] using unoffered
  · exact .inl sweeping

/-- The pick stands in HOSTQ. -/
theorem State.split_of_pick (pick : s.pick g = some (i, t)) : ∃ pre post, (s.seg g).hostq = pre ++ t :: post ∧ i = pre.length := by
  have inQueue : ∀ {f : HostTx → Bool}, firstTx f 0 (s.seg g).hostq = some (i, t) →
      ∃ pre post, (s.seg g).hostq = pre ++ t :: post ∧ i = pre.length := by
    intro f first
    obtain ⟨pre, post, queue, place, -⟩ := firstTx_eq_some.1 first
    exact ⟨pre, post, queue, place.trans (Nat.zero_add _)⟩
  unfold State.pick at pick
  split at pick
  · exact inQueue pick
  · unfold State.pickFollowOn at pick
    split at pick
    · split at pick
      · cases pick
      · exact inQueue pick
    · cases pick
  all_goals cases pick

end Picks

/-! ## The grants, as replacements -/

section Granted

variable (s : State) (g : Seg)

theorem State.grantSweep_eq (h : Handle) : s.grantSweep g h = (s.setSeg g { s.seg g with
      state := .active
      current := some (Current.begin .sweep (some h) false ((s.entry h).wire (fun pl => sweepPlan pl (s.entry h).desc))) }).setEntry h
    (s.entry h).rise := rfl

theorem State.grantHost_eq {pre post : List HostTx} {t : HostTx} (queue : (s.seg g).hostq = pre ++ t :: post) (b : Bool) :
    s.grantHost g pre.length t b = s.setSeg g { s.seg g with
      state := .active, nextclass := .background, hold := none, hostq := pre ++ { t with active := true } :: post
      current := some (Current.begin .host (some t.handle) b
        ((s.entry t.handle).wire (fun pl => txPlan pl (s.entry t.handle).desc t))) } := by
  simp [State.grantHost, State.modSeg_eq, Segment.grant, queue, List.set_append_right]

theorem State.grantAdmission_eq {h : Handle} {a : AdmRec} (ha : (s.entry h).adm = some a) : s.grantAdmission g h = (s.setSeg g { s.seg g with
      state := .active, nextclass := .host
      current := some (Current.begin .admission (some h) false
        ((s.entry h).wire (fun pl => admPlan pl (s.seg g).config.descoff a))) }).setEntry h
    { s.entry h with adm := some { a with planned := .active } } := by
  simp [State.grantAdmission, ha, State.modSeg_eq, State.modEntry_eq, Segment.grant]

theorem State.grantWatch_eq (h : Handle) : s.grantWatch g h = (s.setSeg g { s.seg g with
      state := .active, nextclass := .host, current := some (Current.begin .watch (some h) false ((s.entry h).wire probePlan)) }).setEntry h
    { s.entry h with watch := (s.entry h).watch.map (fun w => { w with probe := .active }) } := rfl

/-- The segment once the probe of a survey's address has been granted. -/
def Segment.probing (r : Segment) (g : Seg) (c : Cursor) (named : Option Handle) : Segment :=
  { r with
    state := .active, nextclass := .host, survey := some { c with probe := .active, named := named }
    current := some (Current.begin .survey named false (probePlan ⟨g, .seven, c.next, .survey, .fetch⟩)) }

theorem State.grantSurvey_unlisted {c : Cursor} (unlisted : s.find g .seven c.next = none) :
    s.grantSurvey g c = s.setSeg g ((s.seg g).probing g c none) := by
  simp [State.grantSurvey, unlisted, State.modSeg_eq, Segment.grant, Segment.probing]

theorem State.grantSurvey_listed {c : Cursor} {h : Handle} (listed : s.find g .seven c.next = some h) :
    s.grantSurvey g c = (s.setSeg g ((s.seg g).probing g c (some h))).setEntry h (s.entry h).rise := by
  simp [State.grantSurvey, listed, State.modSeg_eq, State.modEntry_eq, Segment.grant, Segment.probing]

theorem State.seg_grantSurvey (c : Cursor) (k : Seg) : (s.grantSurvey g c).seg k =
    if k = g then (s.seg g).probing g c (s.find g .seven c.next) else s.seg k := by
  cases listed : s.find g .seven c.next with
  | none => rw [State.grantSurvey_unlisted s g listed, State.seg_setSeg]
  | some h => rw [State.grantSurvey_listed s g listed, State.seg_setEntry, State.seg_setSeg]

end Granted

/-! ## What each move makes of the segments -/

section Moves

variable {s u : State} {g : Seg}

theorem State.seg_endSweep_ne (s : State) {g k : Seg} (hk : k ≠ g) : (s.endSweep g).seg k = s.seg k := by
  unfold State.endSweep
  rw [State.seg_modSeg_ne _ _ hk]
  split <;> simp

theorem State.seg_completeAt_ne (s : State) {g k : Seg} (hk : k ≠ g) (i : Nat) (t : HostTx) (st : Status) :
    (s.completeAt g i t st).seg k = s.seg k := by
  simp [State.completeAt, State.seg_modSeg_ne _ _ hk]

/-- The background class without a grant: no admission transfer and no watch probe may go, and the survey, if it waited, has been answered (07 R133). -/
theorem State.tryBackground_false (bg : s.tryBackground g = (u, false)) : s.noAdmission g ∧ s.noWatchProbe g ∧ (∀ h, u.entry h = s.entry h) ∧
    (∃ v : Option Cursor, (∀ c ∈ v, c.probe = .active) ∧ u.seg g = { s.seg g with survey := v }) ∧ ∀ k, k ≠ g → u.seg k = s.seg k := by
  unfold State.tryBackground at bg
  split at bg
  · cases bg
  split at bg
  · cases bg
  next noAdm _ noWatch =>
  refine ⟨State.pickAdmission_eq_none.1 noAdm, State.pickWatch_eq_none.1 noWatch, ?_⟩
  unfold State.offerSurvey at bg
  cases survey : (s.seg g).survey with
  | none =>
    rw [survey] at bg
    cases bg
    exact ⟨fun _ => rfl, ⟨none, by simp, by rw [← survey]⟩, fun _ _ => rfl⟩
  | some c =>
    rw [survey] at bg
    dsimp only at bg
    split at bg
    · next active =>
      cases bg
      exact ⟨fun _ => rfl, ⟨some c, by simpa using active, by rw [← survey]⟩, fun _ _ => rfl⟩
    · split at bg
      · cases bg
        exact ⟨fun h => by simp, ⟨none, by simp, by simp [State.seg_answerSurvey, State.modSeg_eq]⟩,
          fun k hk => by simp [State.seg_answerSurvey, hk, State.seg_modSeg_ne]⟩
      · cases bg

/-- The background class with a grant: CURRENT is no host transaction, NEXTCLASS is HOST, and HOSTQ and HOLD stay. -/
theorem State.tryBackground_true (bg : s.tryBackground g = (u, true)) : (∃ (c : Current) (v : Option Cursor), c.kind ≠ .host ∧
    u.seg g = { s.seg g with state := .active, current := some c, nextclass := .host, survey := v }) ∧ ∀ k, k ≠ g → u.seg k = s.seg k := by
  unfold State.tryBackground at bg
  split at bg
  · next h pick =>
    have waits := List.find?_some pick
    simp only [Bool.and_eq_true] at waits
    obtain ⟨a, adm, -⟩ := (Option.any_eq_true _ _).1 waits.1.2
    cases bg
    rw [State.grantAdmission_eq s g adm]
    refine ⟨⟨_, _, ?_, State.seg_setSeg_same ..⟩, fun k hk => State.seg_setSeg_ne _ _ hk⟩
    exact nofun
  split at bg
  · cases bg
    rw [State.grantWatch_eq]
    refine ⟨⟨_, _, ?_, State.seg_setSeg_same ..⟩, fun k hk => State.seg_setSeg_ne _ _ hk⟩
    exact nofun
  unfold State.offerSurvey at bg
  cases survey : (s.seg g).survey with
  | none => rw [survey] at bg; cases bg
  | some c =>
    rw [survey] at bg
    dsimp only at bg
    split at bg
    · cases bg
    split at bg
    · cases bg
    cases bg
    have seg := State.seg_grantSurvey (s.modSeg g (fun r => { r with survey := some { c with next := s.walk g (c.high + 1 - c.next) c.next } })) g
      { c with next := s.walk g (c.high + 1 - c.next) c.next }
    refine ⟨⟨_, _, ?_, (seg g).trans (by rw [if_pos rfl, State.seg_modSeg_same]; rfl)⟩, fun k hk => ?_⟩
    · exact nofun
    · rw [seg, if_neg hk, State.seg_modSeg_ne _ _ hk]

/-- A grant makes the segment ACTIVE with CURRENT present; HOSTQ is no longer, and a hold that stood on a HELD segment is over. -/
theorem State.Grants.granted (grant : s.Grants g u) : (u.seg g).state = .active ∧ (u.seg g).current.isSome = true ∧
    (u.seg g).hostq.length = (s.seg g).hostq.length ∧ ((u.seg g).hold = none ∨ ((s.seg g).state = .idle ∧ (u.seg g).hold = (s.seg g).hold)) ∧
    ∀ k, k ≠ g → u.seg k = s.seg k := by
  cases grant with
  | sweep idle _ =>
    rw [State.grantSweep_eq]
    rw [State.seg_setEntry, State.seg_setSeg_same]
    exact ⟨rfl, rfl, rfl, .inr ⟨idle, rfl⟩, fun k hk => State.seg_setSeg_ne _ _ hk⟩
  | background idle bg =>
    obtain ⟨⟨c, v, -, seg⟩, others⟩ := State.tryBackground_true bg
    rw [seg]
    exact ⟨rfl, rfl, rfl, .inr ⟨idle, rfl⟩, others⟩
  | host pick _ =>
    obtain ⟨pre, post, queue, rfl⟩ := State.split_of_pick pick
    rw [State.grantHost_eq s g queue]
    rw [State.seg_setSeg_same]
    exact ⟨rfl, rfl, by simp [queue], .inl rfl, fun k hk => State.seg_setSeg_ne _ _ hk⟩

/-- What is done without the bus leaves the segment IDLE or HELD as it was, with its hold and without a transfer if it had none. -/
theorem State.Passes.passed (pass : s.Passes g u) : (u.seg g).state = (s.seg g).state ∧ (u.seg g).current = (s.seg g).current ∧
    (u.seg g).hold = (s.seg g).hold ∧ (u.seg g).hostq.length ≤ (s.seg g).hostq.length ∧ ∀ k, k ≠ g → u.seg k = s.seg k := by
  cases pass with
  | sweepEnds =>
    rw [State.seg_endSweep]
    exact ⟨rfl, rfl, rfl, le_rfl, fun k hk => s.seg_endSweep_ne hk⟩
  | surveyEnds _ bg =>
    obtain ⟨-, -, -, ⟨v, -, seg⟩, others⟩ := State.tryBackground_false bg
    rw [seg]
    exact ⟨rfl, rfl, rfl, le_rfl, others⟩
  | completes =>
    rw [State.seg_completeAt]
    exact ⟨rfl, rfl, rfl, List.length_eraseIdx_le _ _, fun k hk => s.seg_completeAt_ne hk _ _ _⟩

end Moves

/-! ## The choice is made of such moves -/

section Choice

variable {s u : State} {g : Seg}

theorem State.candidate_congr (entries : ∀ h, u.entry h = s.entry h) (sweep : (u.seg g).sweep = (s.seg g).sweep) :
    u.candidate g = s.candidate g := by
  simp only [State.candidate, entries, sweep]

/-- With nothing on offer a segment is at rest once the background class has been tried. -/
theorem State.atRest_of_tryBackground (idle : (s.seg g).state = .idle) (noSweep : s.noSweepRead g) (bg : s.tryBackground g = (u, false))
    (noHost : u.pickHost g = none) : u.AtRest g := by
  obtain ⟨noAdm, noWatch, entries, ⟨v, active, seg⟩, -⟩ := State.tryBackground_false bg
  have offers : u.noAdmission g ∧ u.noWatchProbe g ∧ u.noSweepRead g := by
    have candidate : u.candidate g = s.candidate g := State.candidate_congr entries (by rw [seg])
    simp only [State.noAdmission, State.noWatchProbe, State.noSweepRead, entries, candidate, seg]
    exact ⟨noAdm, noWatch, noSweep⟩
  refine ⟨fun _ => ⟨State.pickHost_eq_none.1 noHost, offers.1, offers.2.1, offers.2.2, ?_⟩, fun held => ?_⟩
  · rw [seg]
    exact active
  · rw [seg] at held
    cases idle.symm.trans held

/-- A sweep with no candidate ends before anything is chosen. -/
theorem State.lookSweep_cases (s : State) (g : Seg) : (s.lookSweep g = s ∧ ¬((s.seg g).sweep.state = .sweeping ∧ s.candidate g = none)) ∨
    (s.lookSweep g = s.endSweep g ∧ (s.seg g).sweep.state = .sweeping ∧ s.candidate g = none) := by
  unfold State.lookSweep
  split
  · next ends => exact .inr ⟨rfl, ends⟩
  · next runs => exact .inl ⟨rfl, runs⟩

/-- What the attention unit does first on an IDLE segment: no sweep is left at its end. -/
theorem State.lookSweep_looked {n : Nat} (idle : (s.seg g).state = .idle) (fuel : (s.seg g).hostq.length < n) :
    ((s.lookSweep g).seg g).state = .idle ∧ ((s.lookSweep g).seg g).hostq.length < n ∧
      ((s.lookSweep g).sweepOffer g = none → (s.lookSweep g).noSweepRead g) ∧ ∀ {w}, Chooses g (s.lookSweep g) w → Chooses g s w := by
  rcases s.lookSweep_cases g with ⟨same, runs⟩ | ⟨ends, sweeping, spent⟩
  · rw [same]
    exact ⟨idle, fuel, fun unoffered => State.noSweepRead_of_sweepOffer unoffered runs, id⟩
  · rw [ends, State.seg_endSweep]
    refine ⟨idle, fuel, fun _ => .inl ?_, .passes (.sweepEnds idle sweeping spent)⟩
    rw [State.seg_endSweep]
    exact Segment.sweepOver_state _

/-- The arbiter, with more fuel than there are transactions, goes on until it has granted the bus or nothing is eligible. -/
theorem State.arbitrate_chooses (n : Nat) (s : State) (g : Seg) (fuel : (s.seg g).hostq.length < n) : Chooses g s (s.arbitrate n g) := by
  induction n generalizing s with
  | zero => cases fuel
  | succ n ih =>
    have picked : ∀ {v : State} {i : Nat} {t : HostTx}, (v.seg g).hostq.length < n + 1 → v.pick g = some (i, t) →
        ∀ b, b = ((v.seg g).state == .held) → Chooses g v (match v.recheck t with
          | some st => State.arbitrate n (v.completeAt g i t st) g
          | none => v.grantHost g i t b) := by
      intro v i t enough pick b hb
      subst hb
      split
      · next st fails =>
        refine .passes (.completes pick fails) (ih _ ?_)
        obtain ⟨pre, post, queue, rfl⟩ := State.split_of_pick pick
        rw [State.seg_completeAt, queue]
        rw [queue] at enough
        simp only [eraseIdx_length_append, List.length_append, List.length_cons] at enough ⊢
        omega
      · next passes => exact .grants (.host pick passes)
    rw [State.arbitrate]
    cases state : (s.seg g).state with
    | held =>
      dsimp only
      split
      · next none =>
        exact .rests ⟨fun idle => SegState.noConfusion (state.symm.trans idle), fun _ => State.pickFollowOn_eq_none.1 none⟩
      · next i t first => exact picked fuel (by rw [State.pick, state]; exact first) true (by rw [state]; rfl)
    | idle =>
      dsimp only
      have looked := State.lookSweep_looked state fuel
      generalize s.lookSweep g = v at looked
      obtain ⟨idle, fuel, noSweep, back⟩ := looked
      refine back ?_
      have hosts : ∀ {w : State} {i : Nat} {t : HostTx}, (w.seg g).state = .idle → (w.seg g).hostq.length < n + 1 →
          w.pickHost g = some (i, t) → Chooses g w (match w.recheck t with
            | some st => State.arbitrate n (w.completeAt g i t st) g
            | none => w.grantHost g i t false) :=
        fun idle enough first => picked enough (by rw [State.pick, idle]; exact first) false (by rw [idle]; rfl)
      split
      · next h offer => exact .grants (.sweep idle offer)
      · next unoffered =>
        rcases bg : v.tryBackground g with ⟨w, granted⟩
        cases granted with
        | true =>
          have grant : Chooses g v w := .grants (.background idle bg)
          split
          · split
            · exact grant
            · next first => exact hosts idle fuel first
          · exact grant
        | false =>
          obtain ⟨-, -, entries, ⟨c, -, seg⟩, -⟩ := State.tryBackground_false bg
          have pass : ∀ {x}, Chooses g w x → Chooses g v x := .passes (.surveyEnds idle bg)
          have rests : w.pickHost g = none → Chooses g v w := fun none =>
            pass (.rests (State.atRest_of_tryBackground idle (noSweep unoffered) bg none))
          have same : w.pickHost g = v.pickHost g := by simp only [State.pickHost, entries, seg]
          split
          · split
            · next none => exact rests (same.trans none)
            · next first => exact hosts idle fuel first
          · simp only [Bool.false_eq_true, if_false]
            split
            · next none => exact rests none
            · next first => exact pass (hosts (by rw [seg]; exact idle) (by rw [seg]; exact fuel) first)
    | off | active | recovering | stuck =>
      exact .rests ⟨fun idle => SegState.noConfusion (state.symm.trans idle), fun held => SegState.noConfusion (state.symm.trans held)⟩

/-- What the arbiter's choice leads to, said once (04 R82 to R84). -/
theorem State.chooses (s : State) (g : Seg) : Chooses g s (s.choose g) := s.arbitrate_chooses _ g (Nat.lt_succ_self _)

/-- Where nothing is eligible a choice changes nothing. -/
theorem State.AtRest.choose_eq (rest : s.AtRest g) : s.choose g = s := by
  rw [State.choose, State.arbitrate]
  cases state : (s.seg g).state with
  | held =>
    dsimp only
    rw [State.pickFollowOn_eq_none.2 (rest.held state)]
  | idle =>
    obtain ⟨noHost, noAdm, noWatch, noSweep, survey⟩ := rest.idle state
    have none := State.pickHost_eq_none.2 noHost
    simp only [State.lookSweep_of_noSweepRead noSweep, State.sweepOffer_of_noSweepRead noSweep, State.tryBackground_none noAdm noWatch survey,
      none, Bool.false_eq_true, if_false]
    cases (s.seg g).nextclass <;> rfl
  | off | active | recovering | stuck => rfl

/-- A choice leaves nothing eligible behind. -/
theorem Chooses.atRest (chosen : Chooses g s u) : u.AtRest g := by
  induction chosen with
  | rests rest => exact rest
  | grants grant =>
    have active := grant.granted.1
    exact ⟨fun idle => SegState.noConfusion (active.symm.trans idle), fun held => SegState.noConfusion (active.symm.trans held)⟩
  | passes _ _ ih => exact ih

theorem EntryState.live_of_transferStatus {x : EntryState} (live : x.transferStatus = none) : x = .present ∨ x = .suspect := by
  cases x with
  | present => exact .inl rfl
  | suspect => exact .inr rfl
  | vacant | probing | lost | retiring => cases live

/-- A transaction that passes the dispatch recheck passes each of its checks (05 R101). -/
theorem State.checks_of_recheck {t : HostTx} (passes : s.recheck t = none) : t.gen = (s.entry t.handle).gen ∧
    ((s.entry t.handle).state = .present ∨ (s.entry t.handle).state = .suspect) ∧ (s.entry t.handle).right t.port t.kind = none ∧
    (s.entry t.handle).desc.limits t.wdata.length t.rlen t.chain = none := by
  unfold State.recheck at passes
  dsimp only at passes
  split at passes
  · cases passes
  · next gen =>
    split at passes
    · cases passes
    · next live =>
      split at passes
      · cases passes
      · next right => exact ⟨(not_not.1 gen).symm, EntryState.live_of_transferStatus live, right, passes⟩

/-- A host transaction that a choice has granted the bus passes the dispatch recheck (05 R101). -/
theorem Chooses.host_rechecked (chosen : Chooses g s u) (free : (s.seg g).current = none) {c : Current} (current : (u.seg g).current = some c)
    (host : c.kind = .host) : ∃ t ∈ (u.seg g).hostq, t.active = true ∧ c.entry = some t.handle ∧ u.recheck t = none := by
  induction chosen with
  | rests => cases free.symm.trans current
  | grants grant =>
    cases grant with
    | sweep =>
      rw [State.grantSweep_eq, State.seg_setEntry, State.seg_setSeg_same] at current
      cases current
      cases host
    | background _ bg =>
      obtain ⟨⟨d, v, kind, seg⟩, -⟩ := State.tryBackground_true bg
      rw [seg] at current
      cases current
      exact absurd host kind
    | @host i t pick passes =>
      obtain ⟨pre, post, queue, rfl⟩ := State.split_of_pick pick
      rw [State.grantHost_eq _ g queue] at current ⊢
      rw [State.seg_setSeg_same] at current ⊢
      cases current
      exact ⟨{ t with active := true }, by simp, rfl, rfl, passes⟩
  | passes pass _ ih => exact ih (pass.passed.2.1.trans free) current

end Choice

/-- Settles O38: the choice is followed move by move to its grant, or to rest. -/
theorem choiceGrantsWhatMayRunAndLeavesNothing : Obligations.ChoiceGrantsWhatMayRunAndLeavesNothing := by
  refine ⟨fun s g c free current host => ?_, fun s g => ?_⟩
  · obtain ⟨t, queued, active, entry, passes⟩ := (s.chooses g).host_rechecked free current host
    exact ⟨t, queued, active, entry, State.checks_of_recheck passes⟩
  · have rest := (s.chooses g).atRest
    exact ⟨rest.idle, rest.held, rest.choose_eq⟩

/-! ## What is granted, turn by turn (04 R83, R84) -/

section Turns

variable {s : State} {g : Seg}

/-- The plan of a transfer to an entry in use. -/
theorem Entry.wire_eq {e : Entry} {pl : Place} (hp : e.place = some pl) (f : Place → List WireOp) : e.wire f = f pl := by
  simp [Entry.wire, hp]

/-- A picked transaction that passes its recheck is granted the bus (04 R83, R84). -/
theorem Picks.choose_grant {pre post : List HostTx} {t : HostTx} (picks : Picks s g pre t post) (passes : s.recheck t = none) :
    s.choose g = s.grantHost g pre.length t ((s.seg g).state == .held) := by
  rw [State.choose, State.arbitrate]
  obtain ⟨idle, noSweep, turn, older⟩ | ⟨held, ⟨left, hold⟩, older⟩ := picks.turn
  · have first : s.pickHost g = some (pre.length, t) := by
      rw [State.pickHost, firstTx_eq_some]
      exact ⟨pre, post, picks.queue, by simp, by simp [Entry.settling, picks.ready], fun u hu => by simpa [Entry.settling_iff] using older u hu⟩
    simp only [idle, State.lookSweep_of_noSweepRead noSweep, State.sweepOffer_of_noSweepRead noSweep, first, passes]
    cases next : (s.seg g).nextclass with
    | host => rfl
    | background =>
      obtain ⟨adm, watch, survey⟩ := turn.resolve_left (by simp [next])
      simp only [State.tryBackground_none adm watch survey, first, passes, Bool.false_eq_true, if_false]
      rfl
  · have first : s.pickFollowOn g = some (pre.length, t) := by
      simp only [State.pickFollowOn, hold, Entry.settling_eq_false.2 picks.ready, Bool.false_eq_true, if_false]
      rw [firstTx_eq_some]
      exact ⟨pre, post, picks.queue, by simp, by simp, fun u hu => by simpa using older u hu⟩
    simp only [held, first, passes]
    rfl

/-- The sweep read of a candidate that is not settling comes before all other work (08 R143). -/
theorem State.choose_sweep {h : Handle} (idle : (s.seg g).state = .idle) (sweeping : (s.seg g).sweep.state = .sweeping)
    (candidate : s.candidate g = some h) (ready : (s.entry h).settle = 0) : s.choose g = s.grantSweep g h := by
  have looked : s.lookSweep g = s := by simp [State.lookSweep, candidate]
  have offered : s.sweepOffer g = some h := by simp [State.sweepOffer, sweeping, candidate, Option.filter, Entry.settling_eq_false.2 ready]
  rw [State.choose, State.arbitrate]
  simp only [idle, looked, offered]

/-- At its turn, or where no host transaction may go, the background class is granted the bus (04 R83). -/
theorem State.choose_background {u : State} (idle : (s.seg g).state = .idle) (noSweep : s.noSweepRead g)
    (turn : (s.seg g).nextclass = .background ∨ s.noHost g) (bg : s.tryBackground g = (u, true)) : s.choose g = u := by
  rw [State.choose, State.arbitrate]
  simp only [idle, State.lookSweep_of_noSweepRead noSweep, State.sweepOffer_of_noSweepRead noSweep, bg, if_true]
  cases next : (s.seg g).nextclass with
  | background => rfl
  | host =>
    have none := State.pickHost_eq_none.2 (turn.resolve_left (by simp [next]))
    simp only [none]

/-- Where neither class has anything to grant, a choice does what the background class does without the bus (07 R133). -/
theorem State.choose_ungranted {u : State} (idle : (s.seg g).state = .idle) (noSweep : s.noSweepRead g) (noHost : s.noHost g)
    (bg : s.tryBackground g = (u, false)) : s.choose g = u := by
  obtain ⟨-, -, entries, ⟨v, -, seg⟩, -⟩ := State.tryBackground_false bg
  have none := State.pickHost_eq_none.2 noHost
  have still : u.pickHost g = Option.none := by
    rw [← none]
    simp only [State.pickHost, entries, seg]
  rw [State.choose, State.arbitrate]
  simp only [idle, State.lookSweep_of_noSweepRead noSweep, State.sweepOffer_of_noSweepRead noSweep, bg, none, still, Bool.false_eq_true, if_false]
  cases (s.seg g).nextclass <;> rfl

end Turns

/-- Settles O35: the pick that passes its recheck is granted; on a HELD segment there is no other pick. -/
theorem hostTransactionsGranted : Obligations.HostTransactionsGranted := by
  refine ⟨fun s g pre t post pl picks idle passes place => ?_, fun s g ho held hold => ⟨fun no => ?_, fun pre t post pl picks passes place => ?_⟩⟩
  · show Host.Outcome.next (s.choose g) = _
    rw [picks.choose_grant passes, State.grantHost_eq s g picks.queue, idle, Entry.wire_eq place]
    rfl
  · have rest : s.AtRest g := ⟨fun idle => SegState.noConfusion (held.symm.trans idle), fun _ o ho' => by
      cases hold.symm.trans ho'
      exact no⟩
    exact congrArg Host.Outcome.next rest.choose_eq
  · obtain ⟨idle, -⟩ | ⟨-, ⟨left, hold'⟩, -⟩ := picks.turn
    · cases held.symm.trans idle
    cases hold.symm.trans hold'
    show Host.Outcome.next (s.choose g) = _
    rw [picks.choose_grant passes, State.grantHost_eq s g picks.queue, held, Entry.wire_eq place]
    rfl

/-! ## The survey's walk (07 R133) -/

section Walk

variable {s : State} {g : Seg} {cu : Cursor}

/-- With the index in order the survey passes over the addresses that the statements say. -/
theorem State.passedOver_iff (ok : s.IndexOk) {a : Nat} : s.passedOver g a = true ↔ s.skips g a := by
  unfold State.passedOver State.skips
  cases found : s.find g .seven a with
  | none => simp [State.find_eq_none.1 found]
  | some h =>
    have only : ∀ k, (s.entry k).at g .seven a = true ↔ h = k := fun k =>
      ⟨fun there => Option.some.inj (found.symm.trans (State.find_eq ok there)), fun same => same ▸ State.at_of_find found⟩
    simp [only, Entry.settling_iff, or_assoc]

/-- The walk goes as far as the addresses are passed over. -/
theorem State.walk_eq {n a m : Nat} (skips : ∀ b, a ≤ b → b < a + m → s.passedOver g b = true) (fits : m ≤ n)
    (stops : m < n → s.passedOver g (a + m) = false) : s.walk g n a = a + m := by
  induction n generalizing a m with
  | zero => obtain rfl : m = 0 := by omega
            rfl
  | succ n ih =>
    rw [State.walk]
    cases m with
    | zero => exact if_neg (by simpa using stops (Nat.succ_pos n))
    | succ m =>
      rw [if_pos (skips a le_rfl (by omega)), ih (m := m) (fun b low high => skips b (by omega) (by omega)) (by omega) (fun more => ?_)]
      · omega
      · rw [show a + 1 + m = a + (m + 1) by omega]
        exact stops (by omega)

/-- A survey whose walk ends at an address offers its probe. -/
theorem State.tryBackground_survey (adm : s.noAdmission g) (watch : s.noWatchProbe g) (survey : (s.seg g).survey = some cu)
    (waiting : cu.probe = .waiting) {n : Nat} (walked : s.walk g (cu.high + 1 - cu.next) cu.next = n) : s.tryBackground g =
      if cu.high < n then ((s.setSeg g { s.seg g with survey := some { cu with next := n } }).answerSurvey g .ok, false)
      else ((s.setSeg g { s.seg g with survey := some { cu with next := n } }).grantSurvey g { cu with next := n }, true) := by
  rw [State.tryBackground, State.pickAdmission_eq_none.2 adm]
  dsimp only
  rw [State.pickWatch_eq_none.2 watch]
  simp only [State.offerSurvey, survey, waiting, walked, reduceCtorEq, if_false, State.modSeg_eq]

end Walk

section Offers

variable {s : State} {g : Seg} {h : Handle} {pl : Place}

theorem Entry.onSeg_of_place {e : Entry} (place : e.place = some pl) (on : pl.seg = g) : e.onSeg g = true := by simp [Entry.onSeg, place, on]

/-- The admission transfer of the entry of lowest handle that is not settling (04 R83). -/
theorem State.pickAdmission_eq (on : (s.entry h).onSeg g = true) (waits : (s.entry h).admWaiting = true) (ready : (s.entry h).settle = 0)
    (lowest : ∀ k, k < h → (s.entry k).onSeg g = true → (s.entry k).admWaiting = true → (s.entry k).settle ≠ 0) :
    s.pickAdmission g = some h :=
  find?_handles (by simp [on, waits, Entry.settling_eq_false.2 ready]) fun k hk => by
    simpa [Entry.settling_iff, ← Bool.not_eq_true] using lowest k hk

/-- The due watch probe of the entry of lowest handle that is not settling (04 R83). -/
theorem State.pickWatch_eq (on : (s.entry h).onSeg g = true) (due : (s.entry h).watchDue = true) (ready : (s.entry h).settle = 0)
    (lowest : ∀ k, k < h → (s.entry k).onSeg g = true → (s.entry k).watchDue = true → (s.entry k).settle ≠ 0) :
    s.pickWatch g = some h :=
  find?_handles (by simp [on, due, Entry.settling_eq_false.2 ready]) fun k hk => by
    simpa [Entry.settling_iff, ← Bool.not_eq_true] using lowest k hk

end Offers

/-- Settles O37: the sweep read first, then, at the turn of the background class, what it tries in order. -/
theorem backgroundGranted : Obligations.BackgroundGranted := by
  intro s g idle r granted
  refine ⟨fun h pl place ready sweeping candidate => ?_, fun noSweep turn => ⟨fun h pl place on ready => ⟨fun a adm waiting lowest => ?_,
    fun w watch due noAdm lowest => ?_⟩, fun cu survey waiting noAdm noWatch ok => ⟨fun n low high skipped stops => ?_,
      fun noHost nonempty skipped => ?_⟩⟩⟩
  · show Host.Outcome.next (s.choose g) = _
    rw [State.choose_sweep idle sweeping candidate ready, State.grantSweep_eq, Entry.wire_eq place]
    rfl
  · have pick := State.pickAdmission_eq (Entry.onSeg_of_place place on) (by simp [Entry.admWaiting, adm, waiting]) ready lowest
    have bg : s.tryBackground g = (s.grantAdmission g h, true) := by rw [State.tryBackground, pick]
    show Host.Outcome.next (s.choose g) = _
    rw [State.choose_background idle noSweep turn bg, State.grantAdmission_eq s g adm, Entry.wire_eq place]
    rfl
  · have pick := State.pickWatch_eq (Entry.onSeg_of_place place on) (by simp [Entry.watchDue, watch, due]) ready lowest
    have bg : s.tryBackground g = (s.grantWatch g h, true) := by
      rw [State.tryBackground, State.pickAdmission_eq_none.2 noAdm]
      dsimp only
      rw [pick]
    show Host.Outcome.next (s.choose g) = _
    rw [State.choose_background idle noSweep turn bg, State.grantWatch_eq, Entry.wire_eq place, watch]
    rfl
  · have walked : s.walk g (cu.high + 1 - cu.next) cu.next = n := by
      have stop := State.walk_eq (s := s) (g := g) (n := cu.high + 1 - cu.next) (a := cu.next) (m := n - cu.next)
        (fun b first last => (State.passedOver_iff ok).2 (skipped b first (by omega))) (by omega)
        (fun _ => by rw [Nat.add_sub_cancel' low, ← Bool.not_eq_true, State.passedOver_iff ok]; exact stops)
      rw [stop, Nat.add_sub_cancel' low]
    have bg := State.tryBackground_survey noAdm noWatch survey waiting walked
    rw [if_neg (Nat.not_lt.2 high)] at bg
    have chosen : exec (.arbiterGrant g) s = .next _ := congrArg Host.Outcome.next (State.choose_background idle noSweep turn bg)
    intro probed
    refine ⟨fun unlisted => ?_, fun h here => ?_⟩
    · rw [chosen, State.grantSurvey_unlisted _ g (State.find_eq_none.2 unlisted), State.seg_setSeg_same, State.setSeg_setSeg]
      rfl
    · have found : (s.setSeg g { s.seg g with survey := some { cu with next := n } }).find g .seven n = some h := State.find_eq ok here
      rw [chosen, State.grantSurvey_listed (c := { cu with next := n }) _ g found, State.seg_setSeg_same, State.setSeg_setSeg]
      rfl
  · have walked : s.walk g (cu.high + 1 - cu.next) cu.next = cu.high + 1 := by
      have whole := State.walk_eq (s := s) (g := g) (n := cu.high + 1 - cu.next) (a := cu.next) (m := cu.high + 1 - cu.next)
        (fun b first last => (State.passedOver_iff ok).2 (skipped b first (by omega))) le_rfl (fun more => absurd more (lt_irrefl _))
      rw [whole, Nat.add_sub_cancel' (by omega)]
    have bg := State.tryBackground_survey noAdm noWatch survey waiting walked
    rw [if_pos (Nat.lt_succ_self _), State.answerSurvey_setSeg _ g rfl] at bg
    exact congrArg Host.Outcome.next (State.choose_ungranted idle noSweep noHost bg)

end Sys2Proof.Machine
end

