-- ==== Sys2Proof/Proofs/SegmentCommands.lean ====
section
/-! PROOFS. SEGMENT_SETUP, SEGMENT_ENABLE, SEGMENT_STATUS and the end of a recovery (04 R71, R72, R76, R77, R89). -/

namespace Sys2Proof.Machine

/-! ## SEGMENT_SETUP (04 R71) -/

/-- Settings in their ranges are read back from their bytes. -/
theorem parseSetup_bytes (g : Seg) (c : Settings) (clk : 1 ≤ c.clklow) (clkTop : c.clklow ≤ 255) (busy : 1 ≤ c.busywait)
    (busyTop : c.busywait ≤ 255) (retry : c.arbretry ≤ 3) (hold : 1 ≤ c.holdlimit) (holdTop : c.holdlimit ≤ 255) (rearm : c.rearm ≤ 255) :
    parseSetup (byte g.val :: settingsBytes c) = some (g, c) := by
  have retries := toNat_byte_of_le (n := c.arbretry) (by omega)
  simp [settingsBytes, parseSetup, parsePos_byte clk clkTop, parsePos_byte busy busyTop, parsePos_byte hold holdTop, retries, retry,
    toNat_byte_of_le rearm]

@[simp] theorem wfTag_byte (t : Tag) : wfTag (byte t.val) = true := by revert t; decide

theorem wfSeg_of_parseSeg {b : Byte} {g : Seg} (read : parseSeg b = some g) : wfSeg b = true := by
  unfold parseSeg at read
  split at read
  · next small => simpa [wfSeg] using small
  · cases read

theorem lt_of_parseSpeed {b : Byte} {v : Speed} (read : parseSpeed b = some v) : b.toNat < 3 := by
  revert read
  revert b v
  decide

theorem lt_of_parseOnOff {b : Byte} {on : Bool} (read : parseOnOff b = some on) : b.toNat < 2 := by
  revert b on
  decide

theorem pos_of_parsePos {b : Byte} {n : Nat} (read : parsePos b = some n) : 1 ≤ b.toNat := by
  unfold parsePos at read
  split at read
  · assumption
  · cases read

/-- Parameter bytes that are read as a segment and eight settings are well formed. -/
theorem wf_of_parseSetup {params : List Byte} {a : Seg × Settings} (read : parseSetup params = some a) (p : Port) (t : Tag) :
    (Instr.segmentSetup p (byte t.val) params).wf = true := by
  unfold parseSetup at read
  split at read
  · next g speed clklow busywait arbretry holdlimit descoff attnen rearm =>
    simp only [Option.bind_eq_bind, Option.bind_eq_some_iff] at read
    obtain ⟨_, hg, _, hspeed, _, hclk, _, hbusy, rest⟩ := read
    split at rest
    · next retries =>
      simp only [Option.bind_some, Option.bind_eq_some_iff] at rest
      obtain ⟨_, hhold, _, hattn, _⟩ := rest
      simp [Instr.wf, wfSeg_of_parseSeg hg, lt_of_parseSpeed hspeed, pos_of_parsePos hclk, pos_of_parsePos hbusy, Nat.lt_succ_of_le retries,
        pos_of_parsePos hhold, lt_of_parseOnOff hattn]
    · cases rest
  · cases read

theorem parseSetup_eq_none {params : List Byte} {p : Port} {t : Tag} (bad : (Instr.segmentSetup p (byte t.val) params).wf = false) :
    parseSetup params = none :=
  Option.eq_none_iff_forall_ne_some.2 fun _ read => by simp [wf_of_parseSetup read p t] at bad

theorem exec_segmentSetup {s : State} {p : Port} {t : Tag} (ready : Ready s p t) {params : List Byte} (short : params.length ≤ 40) :
    exec (.segmentSetup p (byte t.val) params) s =
      .next ((s.accepted p t).orBadParam p t (parseSetup params) ((s.accepted p t).answerSetup p t)) := by
  show Host.Outcome.next _ = _
  rw [State.submit_ready ready short]

/-! ## SEGMENT_ENABLE (04 R72, 08 R142) -/

theorem exec_segmentEnable {s : State} {p : Port} {t : Tag} (ready : Ready s p t) (g : Seg) :
    exec (.segmentEnable p (byte t.val) [byte g.val]) s = .next ((s.accepted p t).answerEnable p t g) := by
  show Host.Outcome.next _ = _
  rw [State.submit_ready ready (by simp), parseSegOnly_byte, State.orBadParam_some]

/-- A unit that is IDLE begins a sweep where its input is asserted and followed, on a segment neither OFF nor STUCK. -/
theorem Segment.startSweep_eq (r : Segment) (on : r.state ≠ .off) (free : r.state ≠ .stuck) : r.startSweep = { r with
    sweep := if r.config.attnen = true ∧ r.sattn = true ∧ r.sweep.state = .idle then ⟨.sweeping, some 0, 0, 0, 0⟩ else r.sweep } := by
  have starts : (r.following && r.sattn && r.sweep.state == .idle && r.state != .stuck) = true ↔
      r.config.attnen = true ∧ r.sattn = true ∧ r.sweep.state = .idle := by
    simp [Segment.following, on, free, and_assoc]
  unfold Segment.startSweep
  simp only [starts]
  split <;> rfl

theorem Segment.enable_eq (r : Segment) : r.enable = { r with
    state := .idle, nextclass := .host
    sweep := if r.config.attnen = true ∧ r.sattn = true ∧ r.sweep.state = .idle then ⟨.sweeping, some 0, 0, 0, 0⟩ else r.sweep } :=
  Segment.startSweep_eq _ (by simp) (by simp)

/-! ## SEGMENT_STATUS (04 R77, 11 R181) -/

theorem exec_segmentStatus {s : State} {p : Port} {t : Tag} (ready : Ready s p t) (g : Seg) :
    exec (.segmentStatus p (byte t.val) [byte g.val]) s = .next ((s.accepted p t).respond p t .ok ((s.accepted p t).segmentReport g)) := by
  show Host.Outcome.next _ = _
  rw [State.submit_ready ready (by simp), parseSegOnly_byte, State.orBadParam_some, State.answerStatus]

@[simp] theorem length_holdBytes (o : Option Hold) : (holdBytes o).length = 3 := by cases o <;> rfl
@[simp] theorem length_surveyBytes (o : Option Cursor) : (surveyBytes o).length = 7 := by cases o <;> rfl
@[simp] theorem length_settingsBytes (c : Settings) : (settingsBytes c).length = 8 := rfl

theorem handleByte_eq (o : Option Handle) : handleByte o = o.elim 0xFF (fun h => byte h.val) := by cases o <;> rfl

theorem getD_map_byte (o : Option Nat) : (o.map byte).getD absent = o.elim 0xFF byte := by cases o <;> rfl

theorem State.admits_eq_countP (s : State) (g : Seg) :
    s.admits g = (List.finRange 48).countP (fun h => (s.entry h).onSeg g && (s.entry h).admWaiting) :=
  List.countP_eq_length_filter.symm

theorem State.watchesDue_eq_countP (s : State) (g : Seg) :
    s.watchesDue g = (List.finRange 48).countP (fun h => (s.entry h).onSeg g && (s.entry h).watchDue) :=
  List.countP_eq_length_filter.symm

/-- Settles O53: settings are read back from their bytes, and the report's parts stand in their places whatever is absent. -/
theorem segmentCommandsAnswered : Obligations.SegmentCommandsAnswered := by
  refine ⟨?_, fun s p t g ready => ⟨fun off => ?_, fun on => ?_⟩, ?_⟩
  · intro s p t g c ready clk clkTop busy busyTop retry hold holdTop rearm settings
    have read : parseSetup (byte g.val :: settings) = some (g, c) := parseSetup_bytes g c clk clkTop busy busyTop retry hold holdTop rearm
    refine ⟨fun params short bad => ?_, fun off => ?_, fun on => ?_⟩
    · rw [exec_segmentSetup ready short, parseSetup_eq_none bad, State.orBadParam_none]
    · rw [exec_segmentSetup ready (by simp [settings]), read, State.orBadParam_some]
      simp [State.answerSetup, off, State.modSeg_eq, settings, settingsBytes]
    · rw [exec_segmentSetup ready (by simp [settings]), read, State.orBadParam_some]
      simp [State.answerSetup, on]
  · rw [exec_segmentEnable ready, State.answerEnable, if_pos (by simpa using off), State.modSeg_eq, State.seg_accepted, Segment.enable_eq]
  · rw [exec_segmentEnable ready, State.answerEnable, if_neg (by simpa using on)]
  · intro s p t g ready r
    refine ⟨_, exec_segmentStatus ready g, by simp [State.segmentReport], ?_⟩
    simp only [State.segmentReport, State.seg_accepted, State.admits_eq_countP, State.watchesDue_eq_countP, State.entry_accepted,
      handleByte_eq, getD_map_byte]
    rcases (s.seg g).hold with _ | ho <;> rcases (s.seg g).survey with _ | c <;>
      simp [r, holdBytes, surveyBytes, settingsBytes, absent]

/-! ## The end of a recovery (04 R76, R89) -/

section Recovery

variable {s : State} {g : Seg} {obs : List LineObs}

theorem exec_recoveryEnd_outer (recovering : (s.seg g).state = .recovering) {ok : Bool} (ends : recover obs = some ok) :
    exec (.recoveryEnd g obs) s = .next (s.outerRecovery g ok) := by
  show Host.Outcome.next _ = _
  simp only [State.recoveryEnd, recovering, ends]

/-- A recovery that fails leaves the segments as they are once it is STUCK, but for the command that was pending. -/
theorem State.seg_outerRecovery_fails (s : State) (g : Seg) : (∃ pend, (s.outerRecovery g false).seg g =
    { (s.stuckQueue g).seg g with pendcmd := pend }) ∧ ∀ k, k ≠ g → (s.outerRecovery g false).seg k = s.seg k := by
  unfold State.outerRecovery
  simp only [Bool.false_eq_true, if_false]
  split
  · refine ⟨⟨none, ?_⟩, fun k hk => ?_⟩
    · rw [State.seg_respondTo, State.seg_modSeg_same, State.seg_becomeStuck]
    · rw [State.seg_respondTo, State.seg_modSeg_ne _ _ hk, State.seg_becomeStuck, State.seg_stuckQueue_ne hk]
  · exact ⟨⟨_, State.seg_becomeStuck ..⟩, fun k hk => (State.seg_becomeStuck ..).trans (State.seg_stuckQueue_ne hk)⟩
  · exact ⟨⟨_, State.seg_becomeStuck ..⟩, fun k hk => (State.seg_becomeStuck ..).trans (State.seg_stuckQueue_ne hk)⟩

end Recovery

/-- Settles O57: what the lines show decides between IDLE and STUCK. -/
theorem recoveryEnds : Obligations.RecoveryEnds := by
  refine fun s g recovering => ⟨fun k rest few => ⟨fun free => ?_, fun owner reset => ?_⟩, fun obs fails => ?_⟩
  · rw [exec_recoveryEnd_outer recovering (recover_succeeds few rest)]
    simp [State.outerRecovery, free, State.modSeg_eq]
  · rw [exec_recoveryEnd_outer recovering (recover_succeeds few rest)]
    simp [State.outerRecovery, reset, State.modSeg_eq, segStateCode]
  · obtain ⟨⟨pend, own⟩, others⟩ := State.seg_outerRecovery_fails s g
    rw [State.seg_stuckQueue] at own
    exact ⟨_, exec_recoveryEnd_outer recovering (recover_fails fails), by rw [own], by rw [own], by rw [own], others⟩

end Sys2Proof.Machine
end

