-- ==== Sys2Proof/Proofs/SegmentMoves.lean ====
section
/-! PROOFS. What the operations leave of the segments: most touch none, and what the end of a transfer tells its owner changes of the segment only HOSTQ, the
survey, the sweep and, after an OK, the hold (04 R88). -/

namespace Sys2Proof.Machine

/-! ## Operations that touch no segment -/

section Untouched

variable {s : State} {h : Handle} (g : Seg)

@[simp] theorem State.seg_beginReadmission (src : AdmSource) : (s.beginReadmission h src).seg g = s.seg g := State.seg_modEntry ..

@[simp] theorem State.seg_becomeLost : (s.becomeLost h).seg g = s.seg g := by simp [State.becomeLost, State.postHealth]

@[simp] theorem State.seg_endFirst (a : AdmRec) (d : Desc) (src : DSrc) : (s.endFirst h a d src).seg g = s.seg g := by
  unfold State.endFirst
  dsimp only
  split <;> simp

@[simp] theorem State.seg_endReappeared (d : Desc) (src : DSrc) : (s.endReappeared h d src).seg g = s.seg g := by simp [State.endReappeared]

@[simp] theorem State.seg_endReplaced (d : Desc) (src : DSrc) : (s.endReplaced h d src).seg g = s.seg g := by simp [State.endReplaced]

@[simp] theorem State.seg_failRe : (s.failRe h).seg g = s.seg g := by
  unfold State.failRe
  dsimp only
  split
  · split <;> simp
  · simp

@[simp] theorem State.seg_endAdmission (a : AdmRec) (d : Desc) (src : DSrc) : (s.endAdmission h a d src).seg g = s.seg g := by
  unfold State.endAdmission
  dsimp only
  split
  · simp
  · split
    · simp
    · split <;> simp

@[simp] theorem State.seg_failAdmission (a : AdmRec) (st : Status) : (s.failAdmission h a st).seg g = s.seg g := by
  unfold State.failAdmission
  split <;> simp

@[simp] theorem State.seg_admissionNext (a : AdmRec) (o : Outcome) (rx : List Byte) : (s.admissionNext h a o rx).seg g = s.seg g := by
  unfold State.admissionNext
  dsimp only
  split
  · split
    · split <;> simp
    · split <;> simp
    · simp
  · simp
  · split <;> simp
  all_goals split <;> simp

@[simp] theorem State.seg_endAdmissionTransfer (c : Current) (o : Outcome) : (s.endAdmissionTransfer h c o).seg g = s.seg g := by
  unfold State.endAdmissionTransfer
  dsimp only
  split
  · split <;> simp
  · simp

@[simp] theorem State.seg_watchOutcome (o : Outcome) : (s.watchOutcome h o).seg g = s.seg g := by
  unfold State.watchOutcome
  split
  · rfl
  · split
    · simp
    · split
      · simp
      · split <;> simp

@[simp] theorem State.seg_endWatchProbe (o : Outcome) : (s.endWatchProbe h o).seg g = s.seg g := by
  unfold State.endWatchProbe
  split
  · split <;> simp
  · simp

@[simp] theorem State.seg_loadSettle (c : Current) : (s.loadSettle h c).seg g = s.seg g := by
  unfold State.loadSettle
  split <;> simp

@[simp] theorem State.seg_reportNamed (n : Option Handle) (o : Outcome) : (s.reportNamed n o).seg g = s.seg g := by
  cases n with
  | none => rfl
  | some h => exact State.seg_report ..

@[simp] theorem State.seg_judge (k : Seg) (c : Cursor) (listed : Option (Handle × EntryState)) (o : Outcome) :
    (s.judge k c listed o).1.seg g = s.seg g := by
  unfold State.judge
  split
  · split
    · split
      · simp
      · dsimp only
        split <;> simp
    · rfl
  · split
    · rfl
    · rfl
    · split <;> simp
    all_goals rfl

end Untouched

/-! ## What the end of a transfer tells its owner -/

/-- What telling an outcome leaves of a segment: HOSTQ does not grow, no survey begins, and a hold begins only after an OK (04 R88, 05 R108). -/
structure Segment.Told (o : Outcome) (r r' : Segment) : Prop where
  state : r'.state = r.state
  config : r'.config = r.config
  current : r'.current = r.current
  pendcmd : r'.pendcmd = r.pendcmd
  sattn : r'.sattn = r.sattn
  queue : r'.hostq.length ≤ r.hostq.length
  survey : r.survey = none → r'.survey = none
  hold : o ≠ .ok → r'.hold = r.hold

namespace Segment.Told

variable {o : Outcome} {r r' r'' : Segment}

theorem refl (r : Segment) : r.Told o r := ⟨rfl, rfl, rfl, rfl, rfl, le_rfl, id, fun _ => rfl⟩

theorem trans (h₁ : r.Told o r') (h₂ : r'.Told o r'') : r.Told o r'' where
  state := h₂.state.trans h₁.state
  config := h₂.config.trans h₁.config
  current := h₂.current.trans h₁.current
  pendcmd := h₂.pendcmd.trans h₁.pendcmd
  sattn := h₂.sattn.trans h₁.sattn
  queue := h₂.queue.trans h₁.queue
  survey := fun none => h₂.survey (h₁.survey none)
  hold := fun failed => (h₂.hold failed).trans (h₁.hold failed)

end Segment.Told

/-- What telling an outcome leaves of the segments: the others stay. -/
structure SegTold (g : Seg) (o : Outcome) (s t : State) : Prop where
  own : (s.seg g).Told o (t.seg g)
  others : ∀ k, k ≠ g → t.seg k = s.seg k

namespace SegTold

variable {g : Seg} {o : Outcome} {s t u : State}

theorem of_segs (same : ∀ k, t.seg k = s.seg k) : SegTold g o s t := ⟨by rw [same]; exact .refl _, fun k _ => same k⟩

theorem refl (s : State) : SegTold g o s s := of_segs fun _ => rfl

theorem trans (h₁ : SegTold g o s t) (h₂ : SegTold g o t u) : SegTold g o s u :=
  ⟨h₁.own.trans h₂.own, fun k hk => (h₂.others k hk).trans (h₁.others k hk)⟩

theorem ite {c : Prop} [Decidable c] (h₁ : SegTold g o s t) (h₂ : SegTold g o s u) : SegTold g o s (if c then t else u) := by
  split <;> assumption

theorem modSeg {f : Segment → Segment} (told : (s.seg g).Told o (f (s.seg g))) : SegTold g o s (s.modSeg g f) :=
  ⟨by rw [State.seg_modSeg_same]; exact told, fun k hk => State.seg_modSeg_ne _ _ hk⟩

theorem fall (s : State) (h : Handle) : SegTold g o s (s.fall h) := of_segs (State.seg_fall s h)

theorem answerTx (s : State) (t : HostTx) (st : Status) (n : Nat) (rx : List Byte) (b : Bool) : SegTold g o s (s.answerTx t st n rx b) :=
  of_segs (State.seg_answerTx s t st n rx b)

theorem answerSurvey (st : Status) : SegTold g o s (s.answerSurvey g st) := by
  refine ⟨?_, fun k hk => by rw [State.seg_answerSurvey, if_neg hk]⟩
  rw [State.seg_answerSurvey, if_pos rfl]
  exact ⟨rfl, rfl, rfl, rfl, rfl, le_rfl, fun _ => rfl, fun _ => rfl⟩

theorem tryHold (t : HostTx) (c : Current) : SegTold g .ok s (s.tryHold g t c) :=
  ite (refl s) (ite (of_segs (by simp)) (modSeg ⟨rfl, rfl, rfl, rfl, rfl, le_rfl, id, fun failed => absurd rfl failed⟩))

theorem endHost (c : Current) : SegTold g o s (s.endHost g c o) := by
  unfold State.endHost
  dsimp only
  split
  · exact refl s
  · next i t _ =>
    have reported : SegTold g o s ((s.report t.handle o).loadSettle t.handle c) := of_segs (by simp)
    have left : SegTold g o s (((s.report t.handle o).loadSettle t.handle c).modSeg g (fun r => { r with hostq := r.hostq.eraseIdx i })) :=
      reported.trans (modSeg ⟨rfl, rfl, rfl, rfl, rfl, List.length_eraseIdx_le _ _, id, fun _ => rfl⟩)
    refine trans ?_ (fall ..)
    split
    · next holds =>
      obtain ⟨-, rfl⟩ := holds
      exact (left.trans (answerTx ..)).trans (tryHold ..)
    · exact left.trans (answerTx ..)

theorem endSurveyProbe (n : Option Handle) : SegTold g o s (s.endSurveyProbe g n o) := by
  rw [State.endSurveyProbe_eq]
  have first : SegTold g o s (s.reportNamed n o) := of_segs (by simp)
  have fell : ∀ u : State, SegTold g o u (u.fallNamed n) := fun u => of_segs (by simp)
  split
  · next c running =>
    refine ite (ite ((first.trans (answerSurvey _)).trans (fell _)) ?_) (first.trans (fell _))
    have judged : SegTold g o s ((s.reportNamed n o).judge g c (s.listedAt g c.next) o).1 := of_segs (by simp)
    have runs : (((s.reportNamed n o).judge g c (s.listedAt g c.next) o).1.seg g).survey ≠ none := by simp [running]
    have walked := (judged.trans (modSeg (f := fun r => { r with survey := some { ((s.reportNamed n o).judge g c (s.listedAt g c.next) o).2 with
      next := c.next + 1, named := none, probe := .waiting } }) ⟨rfl, rfl, rfl, rfl, rfl, le_rfl, fun none => absurd none runs, fun _ => rfl⟩)).trans
        (fell _)
    exact ite (walked.trans (answerSurvey _)) walked
  · exact first.trans (fell _)

theorem endSweepRead (h : Handle) (c : Current) : SegTold g o s (s.endSweepRead g h c o) := by
  have first : SegTold g o s (s.report h o) := of_segs (by simp)
  have read : ∀ u : State, SegTold g o u (u.modSeg g (fun r => r.passRead h)) := fun u =>
    modSeg ⟨rfl, rfl, rfl, rfl, rfl, le_rfl, id, fun _ => rfl⟩
  have judged : ∀ (u : State) (b : Byte), SegTold g o u (u.judgeByte g h b) := fun u b =>
    ite ((of_segs (by simp)).trans (modSeg ⟨rfl, rfl, rfl, rfl, rfl, le_rfl, id, fun _ => rfl⟩)) (refl u)
  unfold State.endSweepRead
  dsimp only
  refine trans ?_ (fall ..)
  refine ite ?_ first
  cases o with
  | ok => exact (first.trans (judged ..)).trans (read _)
  | busStuck => exact first
  | aborted => exact first
  | addrNack | dataNack | clockTimeout | arbLost | busBusy => exact first.trans (read _)

theorem deliver (s : State) (g : Seg) (c : Current) (o : Outcome) : SegTold g o s (s.deliver g c o) := by
  unfold State.deliver
  cases c.kind with
  | host => exact endHost c
  | survey => exact endSurveyProbe _
  | admission => cases c.entry with
    | none => exact refl s
    | some h => exact of_segs (by simp)
  | watch => cases c.entry with
    | none => exact refl s
    | some h => exact of_segs (by simp)
  | sweep => cases c.entry with
    | none => exact refl s
    | some h => exact endSweepRead h c

end SegTold

end Sys2Proof.Machine
end

