-- ==== Sys2Proof/Proofs/SegmentReset.lean ====
section
/-! PROOFS. SEGMENT_RESET: the transfer on the bus is cut, HOSTQ, the survey and the hold end, and the segment is RECOVERING (04 R75, 05 R102, R112, 07 R139,
08 R150). -/

namespace Sys2Proof.Machine

/-! ## The parts of a segment reset -/

/-- The transfer that a segment reset has cut is told ABORTED, where it is of one of the kinds given (04 R75). -/
def State.tellCut (s : State) (g : Seg) (cut : Option Current) (kinds : List CurKind) : State :=
  match cut with
  | some c => if c.kind ∈ kinds then s.deliver g c .aborted else s
  | none => s

/-- The end of a segment reset: the sweep is armed, the hold ends, and the segment is RECOVERING (04 R75). -/
def State.resetEnd (s : State) (g : Seg) (owner : Port × Tag) : State :=
  ((s.modSeg g Segment.armSweep).dropHold g .released true).modSeg g (fun r => r.beginReset owner)

/-- A segment reset from the cut transfer's work on (04 R75, parts 2 to 7). -/
def State.resetTail (s : State) (g : Seg) (cut : Option Current) (owner : Port × Tag) : State :=
  ((((s.completeAll g .segmentReset).tellCut g cut [.survey]).answerSurvey g .aborted).tellCut g cut [.sweep]).resetEnd g owner

theorem State.resetSegment_eq (s : State) (p : Port) (t : Tag) (g : Seg) (pr : Progress) :
    let cut := (s.seg g).current.map (fun c => c.advance pr)
    s.resetSegment p t g pr = ((s.setSeg g { s.seg g with current := none }).tellCut g cut [.host, .admission, .watch]).resetTail g cut (p, t) := by
  have off : s.modSeg g (fun r => { r with current := none }) = s.setSeg g { s.seg g with current := none } := State.modSeg_eq ..
  dsimp only [State.resetSegment]
  rw [off]
  cases (s.seg g).current with
  | none => rfl
  | some c =>
    have same : (c.advance pr).kind = c.kind := rfl
    cases hk : c.kind <;>
      simp [State.tellCut, State.resetTail, State.resetEnd, State.cutTransfer, State.cutSurvey, State.cutSweep, same, hk]

/-! ## What it leaves of the segment -/

section Segments

variable {s u : State} {g : Seg}

theorem SegTold.tellCut (s : State) (g : Seg) (cut : Option Current) (kinds : List CurKind) : SegTold g .aborted s (s.tellCut g cut kinds) := by
  unfold State.tellCut
  split
  · exact .ite (.deliver ..) (.refl s)
  · exact .refl s

/-- The hold ends, with the lines as given where there was one. -/
theorem State.seg_dropHold_lines (l : LineEnd) (b : Bool) (k : Seg) : (s.dropHold g l b).seg k =
    if k = g then { s.seg g with hold := none, lines := if (s.seg g).hold.isSome then l else (s.seg g).lines } else s.seg k := by
  unfold State.dropHold
  cases hold : (s.seg g).hold with
  | none =>
    have same : { s.seg g with hold := none } = s.seg g := by rw [← hold]
    by_cases hk : k = g
    · simp [hk, same]
    · simp [hk]
  | some ho => cases b <;> simp [State.seg_modSeg]

/-- What a segment reset makes of a segment once the transfer is off the bus: the settings and the input stay (04 R75). -/
def Segment.reset (r : Segment) (sweep : Sweep) (owner : Port × Tag) : Segment :=
  { r with
    state := .recovering, hostq := [], nextclass := .host, current := none, hold := none, pendcmd := some ⟨.reset, some owner⟩, survey := none
    sweep := sweep, lines := .released }

/-- The settings and the input are all that a reset keeps of a segment. -/
theorem Segment.reset_congr {r r' : Segment} (config : r'.config = r.config) (sattn : r'.sattn = r.sattn) (sweep : Sweep) (owner : Port × Tag) :
    r'.reset sweep owner = r.reset sweep owner := by
  simp only [Segment.reset, config, sattn]

/-- A sweep begins at the end of a reset exactly where the input is asserted and followed (08 R150). -/
theorem State.seg_resetEnd (queue : (s.seg g).hostq = []) (current : (s.seg g).current = none) (survey : (s.seg g).survey = none)
    (owner : Port × Tag) : ∃ sweep : Sweep, (sweep.state = .sweeping ↔ (s.seg g).config.attnen = true ∧ (s.seg g).sattn = true) ∧
      (s.resetEnd g owner).seg g = (s.seg g).reset sweep owner := by
  refine ⟨if (s.seg g).config.attnen = true ∧ (s.seg g).sattn = true then ⟨.sweeping, some 0, 0, 0, 0⟩ else (s.seg g).armSweep.sweep, ?_, ?_⟩
  · split
    · next starts => simp [starts]
    · next rests => simp [rests, Segment.armSweep]
  · rw [State.resetEnd, State.seg_modSeg_same, State.seg_dropHold_lines, if_pos rfl, State.seg_modSeg_same, Segment.beginReset,
      Segment.startSweep_eq _ (by simp) (by simp)]
    simp [Segment.reset, Segment.armSweep, queue, current, survey]

theorem State.seg_resetEnd_ne {k : Seg} (hk : k ≠ g) (owner : Port × Tag) : (s.resetEnd g owner).seg k = s.seg k := by
  rw [State.resetEnd, State.seg_modSeg_ne _ _ hk, State.seg_dropHold_lines, if_neg hk, State.seg_modSeg_ne _ _ hk]

/-- The state from which a segment reset ends: nothing waits on its segment any more, and its hold stands as it stood. -/
theorem State.resetTail_before (current : (s.seg g).current = none) (cut : Option Current) (owner : Port × Tag) :
    ∃ x : State, s.resetTail g cut owner = x.resetEnd g owner ∧ (x.seg g).hostq = [] ∧ (x.seg g).current = none ∧ (x.seg g).survey = none ∧
      (x.seg g).config = (s.seg g).config ∧ (x.seg g).sattn = (s.seg g).sattn ∧ (x.seg g).hold = (s.seg g).hold ∧
      ∀ k, k ≠ g → x.seg k = s.seg k := by
  have empty : SegTold g .aborted s (s.completeAll g .segmentReset) := by
    refine ⟨?_, fun k hk => State.seg_completeAll_ne _ _ hk _⟩
    rw [State.seg_completeAll]
    exact ⟨rfl, rfl, rfl, rfl, rfl, Nat.zero_le _, id, fun _ => rfl⟩
  have probe := SegTold.tellCut (s.completeAll g .segmentReset) g cut [.survey]
  have survey := SegTold.answerSurvey (g := g) (o := .aborted) (s := (s.completeAll g .segmentReset).tellCut g cut [.survey]) .aborted
  have read := SegTold.tellCut (((s.completeAll g .segmentReset).tellCut g cut [.survey]).answerSurvey g .aborted) g cut [.sweep]
  have all := ((empty.trans probe).trans survey).trans read
  have queue := (probe.trans survey).trans read
  refine ⟨_, rfl, ?_, all.own.current.trans current, read.own.survey ?_, all.own.config, all.own.sattn, all.own.hold (by simp), all.others⟩
  · simpa using queue.own.queue
  · rw [State.seg_answerSurvey, if_pos rfl]

/-- A segment reset leaves its segment RECOVERING with nothing on it, and the others as they were (04 R75). -/
theorem State.seg_resetSegment (s : State) (p : Port) (t : Tag) (g : Seg) (pr : Progress) :
    (∃ sweep : Sweep, (sweep.state = .sweeping ↔ (s.seg g).config.attnen = true ∧ (s.seg g).sattn = true) ∧
      (s.resetSegment p t g pr).seg g = (s.seg g).reset sweep (p, t)) ∧ ∀ k, k ≠ g → (s.resetSegment p t g pr).seg k = s.seg k := by
  rw [State.resetSegment_eq]
  have told := SegTold.tellCut (s.setSeg g { s.seg g with current := none }) g ((s.seg g).current.map (fun c => c.advance pr))
    [.host, .admission, .watch]
  have own := told.own
  rw [State.seg_setSeg_same] at own
  obtain ⟨x, tail, queue, current, survey, config, sattn, -, others⟩ := State.resetTail_before own.current
    ((s.seg g).current.map (fun c => c.advance pr)) (p, t)
  obtain ⟨sweep, runs, seg⟩ := x.seg_resetEnd queue current survey (p, t)
  rw [tail]
  refine ⟨⟨sweep, ?_, ?_⟩, fun k hk => ?_⟩
  · rw [runs, config, sattn, own.config, own.sattn]
  · rw [seg]
    exact Segment.reset_congr (config.trans own.config) (sattn.trans own.sattn) sweep (p, t)
  · rw [State.seg_resetEnd_ne hk, others k hk, told.others k hk, State.seg_setSeg_ne _ _ hk]

end Segments

/-! ## CHAINBRK -/

/-- A hold that a segment reset ends sets CHAINBRK (05 R112). -/
theorem State.chain_resetSegment {s : State} {g : Seg} {ho : Hold} (held : (s.seg g).hold = some ho) (p : Port) (t : Tag) (pr : Progress) :
    ((s.resetSegment p t g pr).entry ho.entry).chain ho.port = true := by
  rw [State.resetSegment_eq]
  have told := SegTold.tellCut (s.setSeg g { s.seg g with current := none }) g ((s.seg g).current.map (fun c => c.advance pr))
    [.host, .admission, .watch]
  have own := told.own
  rw [State.seg_setSeg_same] at own
  obtain ⟨x, tail, -, -, -, -, -, hold, -⟩ := State.resetTail_before own.current ((s.seg g).current.map (fun c => c.advance pr)) (p, t)
  have stands : (x.seg g).hold = some ho := by rw [hold, own.hold (by simp)]; exact held
  rw [tail, State.resetEnd, State.entry_modSeg, State.entry_dropHold, State.seg_modSeg_same]
  simp [Segment.armSweep, stands, Entry.unheld]

/-! ## The answers of a segment reset, where no entry is RETIRING -/

/-- A step that tells no port anything: no entry changes its state, and HOSTQ and the survey of the segment stay. -/
structure Untold (g : Seg) (s t : State) : Prop where
  answers : ∀ q, t.answers q = s.answers q
  states : ∀ h, (t.entry h).state = (s.entry h).state
  queue : (t.seg g).hostq = (s.seg g).hostq
  survey : (t.seg g).survey = (s.seg g).survey

namespace Untold

variable {g : Seg} {s t u : State} {h : Handle}

theorem refl (s : State) : Untold g s s := ⟨fun _ => rfl, fun _ => rfl, rfl, rfl⟩

theorem trans (h₁ : Untold g s t) (h₂ : Untold g t u) : Untold g s u :=
  ⟨fun q => (h₂.answers q).trans (h₁.answers q), fun h => (h₂.states h).trans (h₁.states h), h₂.queue.trans h₁.queue, h₂.survey.trans h₁.survey⟩

theorem calm (untold : Untold g s t) (calm : ∀ h, (s.entry h).state ≠ .retiring) (h : Handle) : (t.entry h).state ≠ .retiring := by
  rw [untold.states]
  exact calm h

theorem modEntry {f : Entry → Entry} (same : (f (s.entry h)).state = (s.entry h).state) : Untold g s (s.modEntry h f) := by
  refine ⟨fun q => by simp, fun k => ?_, by simp, by simp⟩
  rw [State.entry_modEntry]
  split
  · next hk => rw [hk, same]
  · rfl

theorem fall (calm : ∀ h, (s.entry h).state ≠ .retiring) : Untold g s (s.fall h) := by
  rw [State.fall_live (calm h), ← State.modEntry_eq s h (fun e => { e with inflight := e.inflight - 1 })]
  exact modEntry rfl

theorem fallNamed (calm : ∀ h, (s.entry h).state ≠ .retiring) (n : Option Handle) : Untold g s (s.fallNamed n) := by
  cases n with
  | none => exact refl s
  | some h => exact fall calm

/-- An admission transfer that is cut is planned again (04 R75). -/
theorem endAdmissionTransfer (calm : ∀ h, (s.entry h).state ≠ .retiring) (c : Current) : Untold g s (s.endAdmissionTransfer h c .aborted) := by
  unfold State.endAdmissionTransfer
  dsimp only
  rw [State.report_none rfl rfl]
  split
  · next a _ =>
    split
    · show Untold g s ((s.modEntry h Entry.lower).modEntry h (fun e => e.plan a))
      exact (modEntry rfl).trans (modEntry rfl)
    · exact fall calm
  · exact fall calm

/-- A watch probe that is cut is due again (06 R125). -/
theorem endWatchProbe (calm : ∀ h, (s.entry h).state ≠ .retiring) : Untold g s (s.endWatchProbe h .aborted) := by
  unfold State.endWatchProbe
  simp only [State.report_none (o := .aborted) rfl rfl]
  split
  · split
    · have counted : ∀ w : Watch, Untold g s (s.modEntry h (fun e => { e with watch := some (w.count .aborted) })) := fun _ => modEntry rfl
      have due : ∀ u : State, Untold g u (u.watchOutcome h .aborted) := by
        intro u
        unfold State.watchOutcome
        split
        · exact refl u
        · rw [if_pos (.inr rfl)]
          exact modEntry rfl
      exact ((counted _).trans (due _)).trans (fall (((counted _).trans (due _)).calm calm))
    · exact fall calm
  · exact fall calm

theorem endSweepRead (calm : ∀ h, (s.entry h).state ≠ .retiring) (c : Current) : Untold g s (s.endSweepRead g h c .aborted) := by
  unfold State.endSweepRead
  simp only [State.report_none (o := .aborted) rfl rfl, ite_self]
  exact fall calm

/-- What is cut on the bus tells nobody, but for a host transaction and a survey's probe. -/
theorem deliver (calm : ∀ h, (s.entry h).state ≠ .retiring) {c : Current} (host : c.kind ≠ .host) (survey : c.kind ≠ .survey) :
    Untold g s (s.deliver g c .aborted) := by
  unfold State.deliver
  cases hk : c.kind with
  | host => exact absurd hk host
  | survey => exact absurd hk survey
  | admission => cases c.entry with
    | none => exact refl s
    | some h => exact endAdmissionTransfer calm c
  | watch => cases c.entry with
    | none => exact refl s
    | some h => exact endWatchProbe calm
  | sweep => cases c.entry with
    | none => exact refl s
    | some h => exact endSweepRead calm c

theorem tellCut (calm : ∀ h, (s.entry h).state ≠ .retiring) {cut : Option Current} {kinds : List CurKind}
    (still : ∀ c ∈ cut, c.kind ∈ kinds → c.kind ≠ .host ∧ c.kind ≠ .survey) : Untold g s (s.tellCut g cut kinds) := by
  unfold State.tellCut
  split
  · next c =>
    split
    · next told => exact deliver calm (still c rfl told).1 (still c rfl told).2
    · exact refl s
  · exact refl s

end Untold

section Answers

variable {s u : State} {g : Seg} {q : Port}

theorem State.state_completeAll (calm : ∀ h, (s.entry h).state ≠ .retiring) (st : Status) (h : Handle) :
    ((s.completeAll g st).entry h).state = (s.entry h).state := by
  rw [State.entry_completeAll_live (calm h)]
  rfl

/-- The survey is answered ABORTED once, whether its probe is on the bus or not (07 R139). -/
theorem State.answers_cutSurvey (calm : ∀ h, (s.entry h).state ≠ .retiring) (cut : Option Current) :
    (((s.tellCut g cut [.survey]).answerSurvey g .aborted).answers q =
      s.answers q ++ surveyAnswers q .aborted g (s.seg g).survey) ∧
      ∀ h, (((s.tellCut g cut [.survey]).answerSurvey g .aborted).entry h).state = (s.entry h).state := by
  have plain : ∀ {u : State}, Untold g s u → ((u.answerSurvey g .aborted).answers q =
      s.answers q ++ surveyAnswers q .aborted g (s.seg g).survey) ∧ ∀ h, ((u.answerSurvey g .aborted).entry h).state = (s.entry h).state := by
    intro u untold
    refine ⟨?_, fun h => ?_⟩
    · rw [State.answers_answerSurvey, untold.answers, untold.survey]
    · rw [State.entry_answerSurvey, untold.states]
  unfold State.tellCut
  split
  · next c =>
    split
    · next survey =>
      have delivered : s.deliver g c .aborted = s.endSurveyProbe g c.entry .aborted := by simp [State.deliver, List.mem_singleton.1 survey]
      have unreported : s.reportNamed c.entry .aborted = s := by
        cases c.entry with
        | none => rfl
        | some h => exact State.report_none rfl rfl
      rw [delivered, State.endSurveyProbe_eq, unreported]
      split
      · next cu running =>
        split
        · rw [if_pos (.inr rfl), if_pos rfl]
          have told : ∀ h, ((s.answerSurvey g .aborted).entry h).state = (s.entry h).state := fun h => by simp
          have fell : Untold g (s.answerSurvey g .aborted) ((s.answerSurvey g .aborted).fallNamed c.entry) := .fallNamed (by simpa using calm) _
          refine ⟨?_, fun h => ?_⟩
          · rw [State.answers_answerSurvey, fell.answers, fell.survey, State.answers_answerSurvey, State.seg_answerSurvey, if_pos rfl]
            simp [surveyAnswers]
          · rw [State.entry_answerSurvey, fell.states, told]
        · exact plain (.fallNamed calm _)
      · exact plain (.fallNamed calm _)
    · exact plain (.refl s)
  · exact plain (.refl s)

@[simp] theorem State.answers_resetEnd (owner : Port × Tag) : (s.resetEnd g owner).answers q = s.answers q := by simp [State.resetEnd]

/-- Once the transfer has been told, what waits is answered: HOSTQ with SEGMENT_RESET, oldest first, then the survey with ABORTED (04 R75). -/
theorem State.answers_resetTail (calm : ∀ h, (s.entry h).state ≠ .retiring) (cut : Option Current) (owner : Port × Tag) :
    (s.resetTail g cut owner).answers q =
      s.answers q ++ queueAnswers q .segmentReset (s.seg g).hostq ++ surveyAnswers q .aborted g (s.seg g).survey := by
  have emptied : ∀ h, ((s.completeAll g .segmentReset).entry h).state ≠ .retiring := by
    intro h
    rw [State.state_completeAll calm]
    exact calm h
  have survey := fun q => State.answers_cutSurvey (q := q) (g := g) emptied cut
  have read : Untold g _ ((((s.completeAll g .segmentReset).tellCut g cut [.survey]).answerSurvey g .aborted).tellCut g cut [.sweep]) :=
    .tellCut (fun h => by rw [(survey q).2]; exact emptied h) fun c _ hk => by simp [List.mem_singleton.1 hk]
  rw [State.resetTail, State.answers_resetEnd, read.answers, (survey q).1, State.answers_completeAll calm, State.seg_completeAll]

/-- The host transaction on the bus is answered ABORTED with its counts, and leaves HOSTQ (04 R75, 05 R102). -/
theorem State.deliver_host_aborted {c : Current} {pre post : List HostTx} {x : HostTx} (calm : ∀ h, (s.entry h).state ≠ .retiring)
    (hk : c.kind = .host) (queue : (s.seg g).hostq = pre ++ x :: post) (waiting : ∀ v ∈ pre, v.active = false) (mark : x.active = true) :
    (s.deliver g c .aborted).answers q = s.answers q ++
        (if x.port = q ∧ x.orphan = false then [(x.tag, .aborted, txResult x.kind (writtenOf c.plan c.acked) c.rx)] else []) ∧
      (∀ h, ((s.deliver g c .aborted).entry h).state = (s.entry h).state) ∧
      ((s.deliver g c .aborted).seg g).hostq = pre ++ post ∧ ((s.deliver g c .aborted).seg g).survey = (s.seg g).survey := by
  have delivered : s.deliver g c .aborted = ((s.setSeg g { s.seg g with hostq := pre ++ post }).txAnswered x c false .aborted false
      (txResult x.kind (writtenOf c.plan c.acked) c.rx)).fall x.handle := by
    simp only [State.deliver, hk, State.endHost_eq queue waiting mark, State.txOut, State.report_none (o := .aborted) rfl rfl, reduceCtorEq,
      and_false, if_false]
    rfl
  set w := (s.setSeg g { s.seg g with hostq := pre ++ post }).txAnswered x c false .aborted false
    (txResult x.kind (writtenOf c.plan c.acked) c.rx) with hw
  have states : ∀ h, (w.entry h).state = (s.entry h).state := by
    intro h
    by_cases hh : h = x.handle
    · rw [hh, hw, State.entry_txAnswered]
      simp
    · rw [hw, State.entry_txAnswered_ne hh, State.entry_setSeg]
  have fell : Untold g w (w.fall x.handle) := .fall fun h => by rw [states]; exact calm h
  rw [delivered]
  refine ⟨?_, fun h => (fell.states h).trans (states h), ?_, ?_⟩
  · rw [fell.answers, hw, State.answers_txAnswered, State.answers_setSeg]
  · rw [fell.queue, hw, State.seg_txAnswered, State.seg_setSeg_same]
  · rw [fell.survey, hw, State.seg_txAnswered, State.seg_setSeg_same]

variable {p : Port} {t : Tag} {pr : Progress}

/-- Where no host transaction is on the bus, the answers are those of what waits. -/
theorem State.answers_resetSegment (calm : ∀ h, (s.entry h).state ≠ .retiring) (noHost : ∀ c ∈ (s.seg g).current, c.kind ≠ .host) :
    (s.resetSegment p t g pr).answers q =
      s.answers q ++ queueAnswers q .segmentReset (s.seg g).hostq ++ surveyAnswers q .aborted g (s.seg g).survey := by
  have still : Untold g (s.setSeg g { s.seg g with current := none }) ((s.setSeg g { s.seg g with current := none }).tellCut g
      ((s.seg g).current.map (fun c => c.advance pr)) [.host, .admission, .watch]) := by
    refine .tellCut (by simpa using calm) fun c hc told => ?_
    obtain ⟨c₀, on, rfl⟩ := Option.mem_map.1 hc
    refine ⟨noHost c₀ on, fun survey => ?_⟩
    simp [survey] at told
  rw [State.resetSegment_eq, State.answers_resetTail (still.calm (by simpa using calm)), still.answers, still.queue, still.survey]
  simp

/-- A host transaction on the bus is answered first. -/
theorem State.answers_resetSegment_host {c : Current} {pre post : List HostTx} {x : HostTx} (calm : ∀ h, (s.entry h).state ≠ .retiring)
    (hk : c.kind = .host) (current : (s.seg g).current = some c) (queue : (s.seg g).hostq = pre ++ x :: post)
    (waiting : ∀ v ∈ pre, v.active = false) (mark : x.active = true) (acked : pr.acked ≤ (sends c.plan).length) (read : pr.rx.length ≤ recvs c.plan)
    (whole : pr.rx = [] ∨ pr.acked = (sends c.plan).length) :
    (s.resetSegment p t g pr).answers q = s.answers q ++
      (if x.port = q ∧ x.orphan = false then [(x.tag, .aborted, txResult x.kind (writtenOf c.plan pr.acked) pr.rx)] else []) ++
      queueAnswers q .segmentReset (pre ++ post) ++ surveyAnswers q .aborted g (s.seg g).survey := by
  have cut : (s.seg g).current.map (fun c => c.advance pr) = some (c.at pr.acked pr.rx) := by
    rw [current, Option.map_some, Current.advance_eq acked read whole]
  obtain ⟨answers, states, left, survey⟩ := State.deliver_host_aborted (q := q) (s := s.setSeg g { s.seg g with current := none })
    (c := c.at pr.acked pr.rx) (g := g) (by simpa using calm) hk (by simpa using queue) waiting mark
  have told : (s.setSeg g { s.seg g with current := none }).tellCut g (some (c.at pr.acked pr.rx)) [.host, .admission, .watch] =
      (s.setSeg g { s.seg g with current := none }).deliver g (c.at pr.acked pr.rx) .aborted := if_pos (by simp [Current.at, hk])
  rw [State.resetSegment_eq, cut, told, State.answers_resetTail (fun h => by rw [states h]; simpa using calm h), answers, left, survey]
  simp [Current.at]

end Answers

/-- The bytes of a SEGMENT_RESET reach its block (04 R75). -/
theorem exec_segmentReset {s : State} {p : Port} {t : Tag} (ready : Ready s p t) (g : Seg) (pr : Progress) :
    exec (.segmentReset p (byte t.val) [byte g.val] pr) s = .next ((s.accepted p t).answerReset p t pr g) := by
  show Host.Outcome.next _ = _
  rw [State.submit_ready ready (by simp), parseSegOnly_byte, State.orBadParam_some]

@[simp] theorem State.answers_accepted (s : State) (p : Port) (t : Tag) (q : Port) : (s.accepted p t).answers q = s.answers q := by
  refine State.answers_of_port ?_
  by_cases hq : q = p
  · subst hq; simp [PortRec.accept, PortRec.emptyFrame, PortRec.endExchange]
  · simp [State.accepted, State.port_setPort, hq]

/-- Settles O56: the parts of the reset leave the segment RECOVERING, and each answers its own work. -/
theorem resetEmptiesSegment : Obligations.ResetEmptiesSegment := by
  intro s p t g pr ready ask
  refine ⟨fun off => ?_, fun on pending => ?_, fun on free => ?_⟩
  · rw [show exec ask s = _ from exec_segmentReset ready g pr, State.answerReset, if_pos (by simpa using off)]
  · rw [show exec ask s = _ from exec_segmentReset ready g pr, State.answerReset, if_neg (by simpa using on), if_pos (by simpa using pending)]
  · obtain ⟨⟨sweep, runs, seg⟩, others⟩ := (s.accepted p t).seg_resetSegment p t g pr
    rw [State.seg_accepted] at runs seg
    refine ⟨_, exec_segmentReset_taken ready on free pr, ?_⟩
    simp only [seg, Segment.reset, true_and]
    refine ⟨runs, fun k hk => by rw [others k hk, State.seg_accepted], fun ho held => State.chain_resetSegment (by simpa using held) p t pr,
      fun calm q => ⟨fun noHost => ?_, fun c pre x post hb acked read whole => ?_⟩⟩
    · rw [State.answers_resetSegment (by simpa using calm) (by simpa using noHost)]
      simp
    · rw [State.answers_resetSegment_host (by simpa using calm) hb.kind (by simpa using hb.bus.current) (by simpa using hb.queue) hb.waiting
        hb.mark acked read whole]
      simp

end Sys2Proof.Machine
end

