-- ==== Sys2Proof/Proofs/SegmentsKept.lean ====
section
/-! PROOFS. Every step keeps HOSTQ within six transactions, CURRENT present exactly when the segment is ACTIVE, and HOLD exactly when it is HELD (04 R67, R68,
R78). -/

namespace Sys2Proof.Machine

/-! ## One segment -/

namespace Segment.Ok

variable {r r' : Segment}

theorem hold_none (ok : r.Ok) (free : r.state ≠ .held) : r.hold = none := by
  rw [← Option.not_isSome_iff_eq_none, ok.hold]
  exact free

theorem current_none (ok : r.Ok) (idle : r.state ≠ .active) : r.current = none := by
  rw [← Option.not_isSome_iff_eq_none, ok.current]
  exact idle

/-- A segment without a transfer and without a hold, neither ACTIVE nor HELD. -/
theorem of_rest (queue : r.hostq.length ≤ 6) (current : r.current = none) (hold : r.hold = none) (active : r.state ≠ .active) (held : r.state ≠ .held) :
    r.Ok := ⟨queue, by simp [current, active], by simp [hold, held]⟩

theorem startSweep (ok : r.Ok) : r.startSweep.Ok := by
  unfold Segment.startSweep
  split
  · exact ⟨ok.queue, ok.current, ok.hold⟩
  · exact ok

/-- What a reset of a port leaves of a segment (10 R175). -/
theorem portReset (ok : r.Ok) (p : Port) : (r.portReset p).Ok := by
  have queue : ((r.hostq.filter (fun t => t.port != p || t.active)).map (fun t => if t.port = p then { t with orphan := true } else t)).length ≤ 6 := by
    rw [List.length_map]
    exact (List.length_filter_le _ _).trans ok.queue
  unfold Segment.portReset
  dsimp only
  split
  · next held =>
    have state : r.state = .held := by simp only [Segment.heldBy, Bool.and_eq_true, beq_iff_eq] at held; exact held.1
    exact .of_rest queue (ok.current_none (by simp [state])) rfl (by simp) (by simp)
  · exact ⟨queue, ok.current, ok.hold⟩

end Segment.Ok

theorem Segment.state_of_heldBy {r : Segment} {f : Hold → Bool} (held : r.heldBy f = true) : r.state = .held := by
  simp only [Segment.heldBy, Bool.and_eq_true, beq_iff_eq] at held
  exact held.1

/-! ## Every segment -/

/-- A step that keeps every segment in order. -/
structure KeepsSegs (s t : State) : Prop where
  keeps : ∀ g, (s.seg g).Ok → (t.seg g).Ok

namespace KeepsSegs

variable {s t u : State} {g : Seg}

theorem of_segs (same : ∀ g, t.seg g = s.seg g) : KeepsSegs s t := ⟨fun g ok => by rw [same]; exact ok⟩

theorem refl (s : State) : KeepsSegs s s := ⟨fun _ => id⟩

theorem trans (h₁ : KeepsSegs s t) (h₂ : KeepsSegs t u) : KeepsSegs s u := ⟨fun g ok => h₂.keeps g (h₁.keeps g ok)⟩

theorem ite {c : Prop} [Decidable c] (h₁ : KeepsSegs s t) (h₂ : KeepsSegs s u) : KeepsSegs s (if c then t else u) := by
  split <;> assumption

theorem foldl {α : Type} {f : State → α → State} (hf : ∀ s a, KeepsSegs s (f s a)) (l : List α) (s : State) : KeepsSegs s (l.foldl f s) := by
  induction l generalizing s with
  | nil => exact refl s
  | cons a l ih => exact (hf s a).trans (ih _)

theorem forAnyOrder {α : Type} {f : State → α → State} (hf : ∀ s a, KeepsSegs s (f s a)) (s : State) (l : List α) :
    KeepsSegs s (s.forAnyOrder l f) := (of_segs (t := (s.anyOrder l).2) (by simp)).trans (foldl hf _ _)

theorem atSegOf {f : State → Seg → State} (hf : ∀ s g, KeepsSegs s (f s g)) (s : State) (h : Handle) : KeepsSegs s (s.atSegOf h f) := by
  unfold State.atSegOf
  split
  · exact hf _ _
  · exact refl s

/-- A step that touches one segment keeps the others. -/
theorem of_own (own : (s.seg g).Ok → (t.seg g).Ok) (others : ∀ k, k ≠ g → t.seg k = s.seg k) : KeepsSegs s t where
  keeps k ok := by
    by_cases hk : k = g
    · subst hk; exact own ok
    · rw [others k hk]; exact ok

theorem modSeg {f : Segment → Segment} (own : (s.seg g).Ok → (f (s.seg g)).Ok) : KeepsSegs s (s.modSeg g f) :=
  of_own (by rw [State.seg_modSeg_same]; exact own) fun _ hk => State.seg_modSeg_ne _ _ hk

theorem respond (s : State) (p : Port) (t : Tag) (st : Status) (l : List Byte) : KeepsSegs s (s.respond p t st l) := of_segs (by simp)


theorem post (s : State) (p : Port) (k : NoticeKind) (sub : Subject) (d : Byte) : KeepsSegs s (s.post p k sub d) := of_segs (by simp)

theorem modEntry (s : State) (h : Handle) (f : Entry → Entry) : KeepsSegs s (s.modEntry h f) := of_segs (by simp)

/-! ## The arbiter -/

/-- A grant makes an IDLE or HELD segment ACTIVE, and a hold that stood is over. -/
theorem of_grants (grant : s.Grants g t) : KeepsSegs s t := by
  obtain ⟨active, current, queue, hold, others⟩ := grant.granted
  refine of_own (fun ok => ⟨queue ▸ ok.queue, by simp [active, current], ?_⟩) others
  have none : (t.seg g).hold = none := by
    rcases hold with none | ⟨idle, same⟩
    · exact none
    · rw [same]; exact ok.hold_none (by simp [idle])
  simp [none, active]

theorem of_passes (pass : s.Passes g t) : KeepsSegs s t := by
  obtain ⟨state, current, hold, queue, others⟩ := pass.passed
  exact of_own (fun ok => ⟨queue.trans ok.queue, by rw [current, state]; exact ok.current, by rw [hold, state]; exact ok.hold⟩) others

theorem of_chooses (chooses : Chooses g s t) : KeepsSegs s t := by
  induction chooses with
  | rests => exact refl _
  | grants grant => exact of_grants grant
  | passes pass _ ih => exact (of_passes pass).trans ih

theorem choose (s : State) (g : Seg) : KeepsSegs s (s.choose g) := of_chooses (s.chooses g)

/-! ## Holds, going OFF and going STUCK -/

theorem endHold (held : (s.seg g).state = .held) (b : Bool) : KeepsSegs s (s.endHold g b) := by
  refine of_own (fun ok => ?_) fun k hk => by rw [State.endHold, State.seg_dropHold_lines, if_neg hk, State.seg_modSeg_ne _ _ hk]
  rw [State.endHold, State.seg_dropHold_lines, if_pos rfl, State.seg_modSeg_same]
  exact .of_rest ok.queue (ok.current_none (by simp [held])) rfl (by simp) (by simp)

theorem ok_goOff (s : State) (g : Seg) (b : Bool) (o : Option (Port × Tag)) : ((s.goOff g b o).seg g).Ok := by
  rw [State.seg_goOff, State.seg_offQueue, if_pos rfl]
  exact .of_rest (Nat.zero_le _) rfl rfl (by simp) (by simp)

theorem seg_goOff_ne (s : State) {k : Seg} (hk : k ≠ g) (b : Bool) (o : Option (Port × Tag)) : (s.goOff g b o).seg k = s.seg k := by
  rw [State.seg_goOff, State.seg_offQueue, if_neg hk]

theorem goOff (s : State) (g : Seg) (b : Bool) (o : Option (Port × Tag)) : KeepsSegs s (s.goOff g b o) :=
  of_own (fun _ => ok_goOff s g b o) fun _ hk => seg_goOff_ne s hk b o

theorem ok_becomeStuck (free : (s.seg g).hold = none) (cause : Byte) : ((s.becomeStuck g cause).seg g).Ok := by
  rw [State.seg_becomeStuck, State.seg_stuckQueue]
  exact .of_rest (Nat.zero_le _) rfl free (by simp) (by simp)

theorem seg_becomeStuck_ne (s : State) {k : Seg} (hk : k ≠ g) (cause : Byte) : (s.becomeStuck g cause).seg k = s.seg k := by
  rw [State.seg_becomeStuck, State.seg_stuckQueue_ne hk]

theorem becomeStuck (free : (s.seg g).Ok → (s.seg g).hold = none) (cause : Byte) : KeepsSegs s (s.becomeStuck g cause) :=
  of_own (fun ok => ok_becomeStuck (free ok) cause) fun _ hk => seg_becomeStuck_ne s hk cause

theorem answerSurvey (s : State) (g : Seg) (st : Status) : KeepsSegs s (s.answerSurvey g st) := by
  refine of_own (fun ok => ?_) fun k hk => by rw [State.seg_answerSurvey, if_neg hk]
  rw [State.seg_answerSurvey, if_pos rfl]
  exact ⟨ok.queue, ok.current, ok.hold⟩

/-! ## The bus engine -/

/-- A transfer has left the bus of `s`, and its outcome has been told: the segment may be HELD only after an OK (04 R88). -/
structure OffBus (g : Seg) (o : Outcome) (s v : State) : Prop where
  queue : (s.seg g).Ok → (v.seg g).hostq.length ≤ 6
  current : (v.seg g).current = none
  hold : (s.seg g).Ok → o ≠ .ok → (v.seg g).hold = none
  others : ∀ k, k ≠ g → v.seg k = s.seg k

theorem offBus_deliver (active : (s.seg g).state = .active) (c : Current) (o : Outcome) :
    OffBus g o s ((s.modSeg g (fun r => { r with current := none, lines := o.lines })).deliver g c o) := by
  have told := SegTold.deliver (s.modSeg g (fun r => { r with current := none, lines := o.lines })) g c o
  have own := told.own
  rw [State.seg_modSeg_same] at own
  exact ⟨fun ok => own.queue.trans ok.queue, own.current, fun ok failed => (own.hold failed).trans (ok.hold_none (by simp [active])),
    fun k hk => (told.others k hk).trans (State.seg_modSeg_ne _ _ hk)⟩

theorem afterTransfer {o : Outcome} {v : State} (off : OffBus g o s v) : KeepsSegs s (v.afterTransfer g o) := by
  have settles : ∀ {f : Segment → Segment}, ((s.seg g).Ok → (f (v.seg g)).Ok) → KeepsSegs s (v.modSeg g f) := fun own =>
    of_own (by rw [State.seg_modSeg_same]; exact own) fun k hk => (State.seg_modSeg_ne _ _ hk).trans (off.others k hk)
  have ends : KeepsSegs s ((v.modSeg g (fun r => { r with state := if r.hold.isSome then .held else .idle })).choose g) := by
    refine trans (settles fun ok => ⟨off.queue ok, ?_, ?_⟩) (choose ..)
    · cases (v.seg g).hold <;> simp [off.current]
    · cases (v.seg g).hold <;> simp
  unfold State.afterTransfer
  split
  · exact of_own (fun _ => ok_goOff ..) fun k hk => (seg_goOff_ne v hk ..).trans (off.others k hk)
  all_goals
    cases o with
    | clockTimeout => exact settles fun ok => .of_rest (off.queue ok) off.current (off.hold ok (by simp)) (by simp) (by simp)
    | busStuck => exact of_own (fun ok => ok_becomeStuck (off.hold ok (by simp)) _) fun k hk => (seg_becomeStuck_ne v hk _).trans (off.others k hk)
    | ok | addrNack | dataNack | arbLost | busBusy | aborted => exact ends

theorem endTransfer (active : (s.seg g).state = .active) (c : Current) (o : Outcome) : KeepsSegs s (s.endTransfer g c o) :=
  afterTransfer (offBus_deliver active c o)

/-- An event that leaves the transfer on the bus. -/
theorem stays (active : (s.seg g).state = .active) (c : Current) (l : LineEnd) :
    KeepsSegs s (s.modSeg g (fun r => { r with current := some c, lines := l })) :=
  modSeg fun ok => ⟨ok.queue, by simp [active], ok.hold⟩

theorem losesArbitration (active : (s.seg g).state = .active) (c : Current) (pr : Progress) : KeepsSegs s (s.losesArbitration g c pr) :=
  ite (refl s) (ite (stays active ..) (endTransfer active ..))

theorem waitsTooLong (active : (s.seg g).state = .active) (c : Current) (b : Bool) : KeepsSegs s (s.waitsTooLong g c b) :=
  ite (refl s) (ite (stays active ..) (endTransfer active ..))

theorem transferEnds (active : (s.seg g).state = .active) (c : Current) (e : TransferEnd) : KeepsSegs s (s.transferEnds g c e) := by
  unfold State.transferEnds
  split
  · exact endTransfer active ..
  · exact refl s

theorem innerRecovery (active : (s.seg g).state = .active) (c : Current) (l : List LineObs) : KeepsSegs s (s.innerRecovery g c l) := by
  unfold State.innerRecovery
  split
  · exact refl s
  · exact stays active ..
  · exact endTransfer active ..

theorem busEvent (s : State) (g : Seg) (ev : BusEvent) : KeepsSegs s (s.busEvent g ev) := by
  unfold State.busEvent
  split
  · next active _ =>
    refine ite ?_ ?_
    · cases ev with
      | recovery obs => exact innerRecovery active ..
      | ended | clockTimeout | arbLost | busBusy => exact refl s
    · cases ev with
      | ended e => exact transferEnds active ..
      | clockTimeout pr => exact endTransfer active ..
      | arbLost pr => exact losesArbitration active ..
      | busBusy => exact waitsTooLong active ..
      | recovery => exact refl s
  · exact refl s

theorem busBusy (s : State) (g : Seg) (b : Bool) : KeepsSegs s (s.busBusy g b) := by
  unfold State.busBusy
  split
  · next active _ => exact ite (refl s) (waitsTooLong active ..)
  · exact refl s

theorem endOfKind (s : State) (g : Seg) (k : CurKind) (e : TransferEnd) : KeepsSegs s (s.endOfKind g k e) := ite (busEvent ..) (refl s)

theorem outerRecovery (recovering : (s.seg g).state = .recovering) (b : Bool) : KeepsSegs s (s.outerRecovery g b) := by
  have free : (s.seg g).Ok → (s.seg g).hold = none := fun ok => ok.hold_none (by simp [recovering])
  have rests : (s.seg g).Ok → (s.seg g).current = none := fun ok => ok.current_none (by simp [recovering])
  have respondTo : ∀ (u : State) (o : Option (Port × Tag)) (st : Status) (l : List Byte), KeepsSegs u (u.respondTo o st l) :=
    fun _ _ _ _ => of_segs (by simp)
  have idle : KeepsSegs s ((s.modSeg g (fun r => { r with state := .idle, lines := .stop })).choose g) :=
    (modSeg fun ok => .of_rest ok.queue (rests ok) (free ok) (by simp) (by simp)).trans (choose ..)
  have answered : KeepsSegs s (s.modSeg g (fun r => { r with state := .idle, pendcmd := none, lines := .stop })) :=
    modSeg fun ok => .of_rest ok.queue (rests ok) (free ok) (by simp) (by simp)
  have stuck := becomeStuck free
  have cleared : ∀ u : State, KeepsSegs u (u.modSeg g (fun r => { r with pendcmd := none })) := fun u => modSeg fun ok =>
    ⟨ok.queue, ok.current, ok.hold⟩
  unfold State.outerRecovery
  split
  · refine ite ((answered.trans (respondTo ..)).trans (choose ..)) ?_
    exact ((stuck _).trans (cleared _)).trans (respondTo ..)
  · exact ite idle (stuck _)
  · exact ite idle (stuck _)

theorem recoveryEnd (s : State) (g : Seg) (obs : List LineObs) : KeepsSegs s (s.recoveryEnd g obs) := by
  unfold State.recoveryEnd
  split
  · next recovering =>
    split
    · exact outerRecovery recovering _
    · exact refl s
  all_goals exact busEvent ..

/-! ## Claims, and the events inside a step -/

theorem claimEnds (s : State) (h : Handle) (p : Port) : KeepsSegs s (s.claimEnds h p) := by
  refine atSegOf (fun s g => ?_) _ _
  dsimp only
  split
  · next held => exact endHold (Segment.state_of_heldBy held) true
  · split
    · exact ite (modSeg fun ok => ⟨ok.queue, by simpa using ok.current, ok.hold⟩) (refl s)
    · exact refl s

theorem reevaluate (s : State) (h : Handle) : KeepsSegs s (s.reevaluate h) := of_segs (by simp)

theorem completeRetire (s : State) (h : Handle) : KeepsSegs s (s.completeRetire h) := of_segs (by simp)

theorem release (s : State) (p : Port) (h : Handle) : KeepsSegs s (s.release p h) :=
  ((modEntry ..).trans (claimEnds ..)).trans (reevaluate ..)

theorem lapse (s : State) (p : Port) (h : Handle) : KeepsSegs s (s.lapse p h) :=
  (((modEntry ..).trans (post ..)).trans (claimEnds ..)).trans (reevaluate ..)

theorem holdExpiry (s : State) (g : Seg) : KeepsSegs s (s.holdExpiry g) := by
  unfold State.holdExpiry
  split
  · next held => exact (endHold (Segment.state_of_heldBy held) true).trans (choose ..)
  · exact refl s

theorem rearmExpiry (s : State) (g : Seg) : KeepsSegs s (s.rearmExpiry g) := by
  have rearmed : (s.seg g).Ok → (s.seg g).rearm.Ok := fun ok => ⟨ok.queue, ok.current, ok.hold⟩
  exact ite ((modSeg fun ok => (rearmed ok).startSweep).trans (choose ..)) (refl s)

theorem waitExpiry (s : State) (h : Handle) : KeepsSegs s (s.waitExpiry h) := by
  unfold State.waitExpiry
  split
  · exact ite ((modEntry ..).trans (respond ..)) (refl s)
  · exact refl s

theorem settleEnd (s : State) (h : Handle) : KeepsSegs s (s.settleEnd h) := (modEntry ..).trans (atSegOf choose _ _)

theorem leaseLapse (s : State) (h : Handle) (p : Port) : KeepsSegs s (s.leaseLapse h p) := ite ((lapse ..).trans (atSegOf choose _ _)) (refl s)

theorem watchProbeDue (s : State) (h : Handle) : KeepsSegs s (s.watchProbeDue h) := ite ((modEntry ..).trans (atSegOf choose _ _)) (refl s)

theorem happen (s : State) (ev : Event) : KeepsSegs s (s.happen ev) := by
  cases ev with
  | leaseLapse h p => exact leaseLapse ..
  | waitExpiry h => exact waitExpiry ..
  | watchProbeDue h => exact watchProbeDue ..
  | rearmExpiry g => exact rearmExpiry ..
  | settleEnd h => exact settleEnd ..
  | holdExpiry g => exact holdExpiry ..
  | waiterGranted h => exact reevaluate ..
  | retireComplete h => exact ite (completeRetire ..) (refl s)
  | arbiterGrant g => exact choose ..

theorem tick10ms (s : State) (l : List Event) : KeepsSegs s (s.tick10ms l) := by
  refine trans ⟨fun g ok => ?_⟩ (foldl happen _ _)
  rw [State.seg_count10ms, Segment.tick10ms]
  split
  · exact ⟨ok.queue, ok.current, ok.hold⟩
  · exact ok

theorem tick100us (s : State) (l : List Event) : KeepsSegs s (s.tick100us l) := by
  refine trans ⟨fun g ok => ?_⟩ (foldl happen _ _)
  rw [State.seg_count100us, Segment.tick100us]
  exact ⟨ok.queue, ok.current, by simpa using ok.hold⟩

/-! ## Requests -/

theorem submit {body : Tag → State → State} (hb : ∀ t s, KeepsSegs s (body t s)) (s : State) (p : Port) (tag code : Byte)
    (params : List Byte) : KeepsSegs s (s.submit p tag code params body) := by
  unfold State.submit
  refine ite ?_ (refl s)
  dsimp only
  split
  · exact of_segs (by simp)
  · exact (of_segs (by simp)).trans (hb _ _)

theorem orBadParam {α : Type} {s : State} {f : α → State} (hf : ∀ a, KeepsSegs s (f a)) (p : Port) (t : Tag) (args : Option α) :
    KeepsSegs s (s.orBadParam p t args f) := by
  cases args with
  | none => exact respond ..
  | some a => exact hf a

theorem modPort (s : State) (p : Port) (f : PortRec → PortRec) : KeepsSegs s (s.modPort p f) := of_segs (by simp)

theorem answerWatch (s : State) (h : Handle) (st : Status) (aux : Byte) : KeepsSegs s (s.answerWatch h st aux) := of_segs (by simp)

theorem answerLookup (s : State) (p : Port) (t : Tag) (a : Seg × AMode × Nat) : KeepsSegs s (s.answerLookup p t a) := by
  unfold State.answerLookup
  split
  · exact respond ..
  · exact respond ..

theorem answerSubscribe (s : State) (p : Port) (t : Tag) (a : (Handle × Gen) × EntryMask) : KeepsSegs s (s.answerSubscribe p t a) := by
  unfold State.answerSubscribe
  split
  · exact respond ..
  · exact (modEntry ..).trans (respond ..)

theorem answerAdmit (s : State) (p : Port) (t : Tag) (a : AdmitArgs) : KeepsSegs s (s.answerAdmit p t a) := by
  unfold State.answerAdmit
  split
  · exact respond ..
  · exact (modEntry ..).trans (choose ..)

theorem retireHold (s : State) (h : Handle) : KeepsSegs s (s.retireHold h) := by
  refine atSegOf (fun s g => ?_) _ _
  split
  · next held => exact endHold (Segment.state_of_heldBy held) true
  · exact refl s

theorem retireAdmission (s : State) (h : Handle) : KeepsSegs s (s.retireAdmission h) := by
  unfold State.retireAdmission
  dsimp only
  split
  · exact of_segs (by simp)
  · exact modEntry ..

theorem enterRetiring (s : State) (p : Port) (t : Tag) (h : Handle) : KeepsSegs s (s.enterRetiring p t h) := by
  have dropped : KeepsSegs s (((s.modEntry h (fun e => { e with state := .retiring, fails := 0, retire := some (p, t) })).dropClaims h (some p)).answerWatch
      h .gone 0x00) := of_segs (by simp)
  exact (dropped.trans (retireHold ..)).trans (retireAdmission ..)

theorem answerRetire (s : State) (p : Port) (t : Tag) (r : Handle × Gen) : KeepsSegs s (s.answerRetire p t r) := by
  unfold State.answerRetire
  split
  · exact respond ..
  · have left := enterRetiring s p t r.1
    unfold State.retire State.atSegOf
    dsimp only
    split
    · exact (ite (left.trans (completeRetire ..)) left).trans (choose ..)
    · exact refl s

theorem giveClaim (s : State) (p : Port) (t : Tag) (a : ClaimArgs) : KeepsSegs s (s.giveClaim p t a) := (modEntry ..).trans (respond ..)

theorem answerClaim (s : State) (p : Port) (t : Tag) (a : ClaimArgs) : KeepsSegs s (s.answerClaim p t a) := by
  unfold State.answerClaim
  split
  · exact respond ..
  · dsimp only
    refine ite (respond ..) ?_
    split
    · exact giveClaim ..
    · exact giveClaim ..
    · exact giveClaim ..
    · exact (giveClaim ..).trans (reevaluate ..)
    · exact ite (respond ..) (ite (respond ..) (modEntry ..))

theorem answerRenew (s : State) (p : Port) (t : Tag) (r : Handle × Gen) : KeepsSegs s (s.answerRenew p t r) := by
  unfold State.answerRenew
  split
  · exact respond ..
  · split
    · exact respond ..
    · exact (modEntry ..).trans (respond ..)

theorem answerRelease (s : State) (p : Port) (t : Tag) (r : Handle × Gen) : KeepsSegs s (s.answerRelease p t r) := by
  unfold State.answerRelease
  split
  · exact respond ..
  · exact ite (((release ..).trans (respond ..)).trans (atSegOf choose _ _)) (respond ..)

/-- A transaction is accepted only where HOSTQ has a place left (05 R99). -/
theorem room_of_transferDecision {p : Port} {a : TransferArgs} (taken : s.transferDecision p a = .ok g) : (s.seg g).hostq.length < 6 := by
  unfold State.transferDecision at taken
  dsimp only at taken
  repeat' split at taken
  all_goals cases taken
  assumption

theorem answerTransfer (s : State) (p : Port) (t : Tag) (k : TxKind) (args : Option TransferArgs) : KeepsSegs s (s.answerTransfer p t k args) := by
  unfold State.answerTransfer
  split
  · exact respond ..
  · split
    · exact respond ..
    · next a _ g taken =>
      have room := room_of_transferDecision taken
      have joined : KeepsSegs s (s.modSeg g (fun r => { r with hostq := r.hostq ++ [a.tx p t] })) :=
        modSeg fun ok => ⟨by simpa using room, ok.current, ok.hold⟩
      exact (joined.trans (modEntry ..)).trans (choose ..)

theorem answerWatchCommand (s : State) (p : Port) (t : Tag) (a : WatchArgs) : KeepsSegs s (s.answerWatchCommand p t a) := by
  unfold State.answerWatchCommand
  split
  · exact respond ..
  · exact ite (respond ..) (ite (respond ..) (modEntry ..))

theorem answerWatchCancel (s : State) (p : Port) (t : Tag) (r : Handle × Gen) : KeepsSegs s (s.answerWatchCancel p t r) := by
  unfold State.answerWatchCancel
  split
  · exact respond ..
  · exact ite ((answerWatch ..).trans (respond ..)) (respond ..)

theorem answerSetLimits (s : State) (p : Port) (t : Tag) (n : Nat) : KeepsSegs s (s.answerSetLimits p t n) := by
  have limit : ∀ (u : State) (h : Handle), KeepsSegs u (u.applyLimit h) := fun u h => ite (of_segs (by simp)) (refl u)
  have limits : KeepsSegs s (handles.foldl State.applyLimit { s with threshold := n }) :=
    (of_segs (s := s) (t := { s with threshold := n }) fun _ => rfl).trans (foldl limit _ _)
  exact (limits.trans (respond ..)).trans (forAnyOrder choose _ _)

theorem answerSurveyCommand (s : State) (p : Port) (t : Tag) (a : Seg × Nat × Nat) : KeepsSegs s (s.answerSurveyCommand p t a) := by
  unfold State.answerSurveyCommand
  split
  · exact respond ..
  · split
    · exact respond ..
    · exact (modSeg fun ok => ⟨ok.queue, ok.current, ok.hold⟩).trans (choose ..)

theorem answerSetup (s : State) (p : Port) (t : Tag) (a : Seg × Settings) : KeepsSegs s (s.answerSetup p t a) :=
  ite ((modSeg fun ok => ⟨ok.queue, ok.current, ok.hold⟩).trans (respond ..)) (respond ..)

theorem answerEnable (s : State) (p : Port) (t : Tag) (g : Seg) : KeepsSegs s (s.answerEnable p t g) := by
  unfold State.answerEnable
  split
  · next off =>
    have enabled : KeepsSegs s (s.modSeg g Segment.enable) := modSeg fun ok => by
      rw [Segment.enable_eq]
      exact .of_rest ok.queue (ok.current_none (by simp [off])) (ok.hold_none (by simp [off])) (by simp) (by simp)
    exact (enabled.trans (respond ..)).trans (choose ..)
  · exact respond ..

theorem answerDisable (s : State) (p : Port) (t : Tag) (b : Bool) (g : Seg) : KeepsSegs s (s.answerDisable p t b g) := by
  unfold State.answerDisable
  refine ite (respond ..) ?_
  split
  · exact respond ..
  · exact modSeg fun ok => ⟨ok.queue, ok.current, ok.hold⟩
  all_goals exact goOff ..

theorem answerReset (s : State) (p : Port) (t : Tag) (pr : Progress) (g : Seg) : KeepsSegs s (s.answerReset p t pr g) := by
  obtain ⟨⟨sweep, -, seg⟩, others⟩ := s.seg_resetSegment p t g pr
  have reset : KeepsSegs s (s.resetSegment p t g pr) := by
    refine of_own (fun _ => ?_) others
    rw [seg]
    exact .of_rest (Nat.zero_le _) rfl rfl (by simp [Segment.reset]) (by simp [Segment.reset])
  exact ite (respond ..) (ite (respond ..) reset)

/-! ## Resets -/

theorem portReset (s : State) (p : Port) : KeepsSegs s (s.portReset p) := by
  have withdrawn : KeepsSegs s (s.withdrawPort p) := ⟨fun g ok => by rw [State.seg_withdrawPort]; exact ok.portReset p⟩
  exact ite ((withdrawn.trans (forAnyOrder happen _ _)).trans (forAnyOrder choose _ _)) (refl s)

theorem pinReset (s : State) : KeepsSegs s s.pinReset := by
  refine ⟨fun g _ => ?_⟩
  have seg : s.pinReset.seg g = { ({} : Segment) with sattn := (s.seg g).sattn } := by simp [State.pinReset, State.seg]
  rw [seg]
  exact .of_rest (Nat.zero_le _) rfl rfl (by simp) (by simp)

/-! ## Every command -/

/-- Every command keeps the segments. -/
theorem exec {i : Instr} (hx : Machine.exec i s = .next t) : KeepsSegs s t := by
  cases i <;> cases hx
  case exchangeBegin => exact modPort ..
  case leadByte => exact modPort ..
  case submitRejected p bytes =>
    refine ite ?_ (refl s)
    dsimp only
    split
    · exact of_segs (by simp)
    · exact refl s
  case badCommand => exact ite (refl s) (submit (fun _ _ => respond ..) ..)
  case takeResponse => exact modPort ..
  case takeNotice => exact modPort ..
  case summary => exact modPort ..
  case portReset => exact portReset ..
  case pinReset => exact pinReset ..
  case admitDevice => exact submit (fun _ _ => orBadParam (answerAdmit _ _ _) ..) ..
  case retire => exact submit (fun _ _ => orBadParam (answerRetire _ _ _) ..) ..
  case retireComplete => exact ite (completeRetire ..) (refl s)
  case lookup => exact submit (fun _ _ => orBadParam (answerLookup _ _ _) ..) ..
  case list => exact submit (fun _ _ => orBadParam (fun _ => respond ..) ..) ..
  case readEntry => exact submit (fun _ _ => orBadParam (fun _ => ite (respond ..) (respond ..)) ..) ..
  case subscribe => exact submit (fun _ _ => orBadParam (answerSubscribe _ _ _) ..) ..
  case segmentSubscribe => exact submit (fun _ _ => orBadParam (fun _ => (modPort ..).trans (respond ..)) ..) ..
  case claim => exact submit (fun _ _ => orBadParam (answerClaim _ _ _) ..) ..
  case renew => exact submit (fun _ _ => orBadParam (answerRenew _ _ _) ..) ..
  case release => exact submit (fun _ _ => orBadParam (answerRelease _ _ _) ..) ..
  case waiterGranted => exact reevaluate ..
  case leaseLapse => exact leaseLapse ..
  case waitExpiry => exact waitExpiry ..
  case timebaseTick10ms => exact tick10ms ..
  case timebaseTick100us => exact tick100us ..
  case write => exact submit (fun _ _ => answerTransfer ..) ..
  case read => exact submit (fun _ _ => answerTransfer ..) ..
  case writeRead => exact submit (fun _ _ => answerTransfer ..) ..
  case ping => exact submit (fun _ _ => answerTransfer ..) ..
  case arbiterGrant => exact choose ..
  case arbLost => exact busEvent ..
  case busBusy => exact busBusy ..
  case clockTimeout => exact busEvent ..
  case hostTransactionEnd => exact endOfKind ..
  case holdExpiry => exact holdExpiry ..
  case settleEnd => exact ite (settleEnd ..) (refl s)
  case admissionTransferEnd => exact endOfKind ..
  case watch => exact submit (fun _ _ => orBadParam (answerWatchCommand _ _ _) ..) ..
  case watchCancel => exact submit (fun _ _ => orBadParam (answerWatchCancel _ _ _) ..) ..
  case watchProbeDue => exact watchProbeDue ..
  case watchProbeEnd => exact endOfKind ..
  case setLimits => exact submit (fun _ _ => orBadParam (answerSetLimits _ _ _) ..) ..
  case survey => exact submit (fun _ _ => orBadParam (answerSurveyCommand _ _ _) ..) ..
  case surveyAbort => exact submit (fun _ _ => orBadParam (fun _ => ite ((answerSurvey ..).trans (respond ..)) (respond ..)) ..) ..
  case surveyProbeEnd => exact endOfKind ..
  case segmentSetup => exact submit (fun _ _ => orBadParam (answerSetup _ _ _) ..) ..
  case segmentEnable => exact submit (fun _ _ => orBadParam (answerEnable _ _ _) ..) ..
  case segmentDisable => exact submit (fun _ _ => orBadParam (answerDisable _ _ _ _) ..) ..
  case disableComplete => exact ite (busEvent ..) (refl s)
  case segmentReset => exact submit (fun _ _ => orBadParam (answerReset _ _ _ _) ..) ..
  case segmentStatus => exact submit (fun _ _ => orBadParam (fun _ => respond ..) ..) ..
  case recoveryEnd => exact recoveryEnd ..
  case portSetup => exact submit (fun _ _ => orBadParam (fun _ => (modPort ..).trans (respond ..)) ..) ..
  case attentionAsserted g =>
    have asserted : (s.seg g).Ok → ({ s.seg g with sattn := true } : Segment).Ok := fun ok => ⟨ok.queue, ok.current, ok.hold⟩
    exact (modSeg fun ok => (asserted ok).startSweep).trans (choose ..)
  case attentionDeasserted g =>
    refine modSeg fun ok => ?_
    dsimp only
    split
    · exact ⟨ok.queue, ok.current, ok.hold⟩
    · exact ⟨ok.queue, ok.current, ok.hold⟩
  case rearmExpiry => exact rearmExpiry ..
  case sweepReadEnd => exact endOfKind ..
  case exchangeIgnoredEnd => exact modPort ..

end KeepsSegs

/-- Settles O17: every command keeps the segments, and taking it from the queue touches none. -/
theorem segmentsKept : Obligations.SegmentsKept := by
  intro s t ok hs g
  unfold step at hs
  split at hs
  · cases hs; exact ok g
  · next c rest _ =>
    have taken : KeepsSegs s { s with pending := rest } := .of_segs fun _ => rfl
    exact (taken.trans (.exec hs)).keeps g (ok g)

end Sys2Proof.Machine
end

section
/-! PROOFS. The acceptance of a host transfer (05 R93, R99, R100). -/

namespace Sys2Proof.Machine

/-! ## Every check passes (05 R99) -/

section Passed

variable {s : State} {p : Port} {pl : Place} {h : Handle} {k : TxKind} {hi lo : Byte} {chain : Bool} {data : List Byte} {m : Nat}

/-- What fits the limits of a descriptor is not refused by them, whatever the kind of transfer has of it. -/
theorem Desc.limits_askedTransfer_eq_none {d : Desc} (g : Gen) (fitsWrite : data.length ≤ d.maxburst) (fitsRead : m ≤ d.maxburst)
    (chainable : chain = true → d.chainCapable = true) :
    let a := askedTransfer k h g hi lo chain data m
    d.limits a.wdata.length a.rlen a.chain = none := by
  have short : ¬(((k = .write ∨ k = .writeRead) ∧ d.maxburst < data.length) ∨ ((k = .read ∨ k = .writeRead) ∧ d.maxburst < m)) := by omega
  have apart : ¬(k ≠ .ping ∧ chain = true ∧ d.chainCapable = false) := by
    rintro ⟨-, chained, incapable⟩
    simp [chainable chained] at incapable
  intro a
  rw [Desc.limits_askedTransfer, if_neg short, if_neg apart]

/-- An entry's own generation is accepted where none of the checks fails and HOSTQ has room. -/
theorem State.transferDecision_ok {a : TransferArgs} (place : (s.entry a.handle).place = some pl) (gen : (s.entry a.handle).gen = a.gen)
    (live : (s.entry a.handle).state = .present ∨ (s.entry a.handle).state = .suspect) (runs : (s.seg pl.seg).state.refusal = none)
    (may : (s.entry a.handle).right p a.kind = none) (fits : (s.entry a.handle).desc.limits a.wdata.length a.rlen a.chain = none)
    (room : (s.seg pl.seg).hostq.length < Config.hostqPlaces) : s.transferDecision p a = .ok pl.seg := by
  have used : (s.entry a.handle).state ≠ .vacant := by
    intro vacant
    simp [vacant] at live
  have passes : s.transferStatus p pl a = none := by
    rw [State.transferStatus_right (EntryState.transferStatus_live live) runs, may, fits, Option.none_or]
  rw [State.transferDecision_current place gen used, passes]
  exact if_pos room

end Passed

/-! ## What acceptance does (05 R100) -/

/-- The part once a request for a host transfer has been accepted: the transaction as it was given stands at the tail of HOSTQ, INFLIGHT is 1 higher, and
the arbiter has chosen. -/
def State.joined (s : State) (p : Port) (t : Tag) (g : Seg) (a : TransferArgs) : State :=
  (((s.accepted p t).setSeg g { s.seg g with hostq := (s.seg g).hostq ++ [a.tx p t] }).setEntry a.handle
    { s.entry a.handle with inflight := (s.entry a.handle).inflight + 1 }).choose g

theorem State.acceptTransfer_accepted (s : State) (p : Port) (t : Tag) (g : Seg) (a : TransferArgs) :
    (s.accepted p t).acceptTransfer p t g a = s.joined p t g a := by
  simp only [State.acceptTransfer, State.joined, State.modSeg_eq, State.modEntry_eq, State.entry_setSeg, State.seg_accepted,
    State.entry_accepted, Entry.rise]

/-- A request whose transfer the decision sends to a segment joins that segment's HOSTQ. -/
theorem exec_transferRequest_joined {s : State} {p : Port} {t : Tag} {k : TxKind} {h : Handle} {gen : Gen} {hi lo : Byte} {chain : Bool}
    {data : List Byte} {m : Nat} {g : Seg} (hr : Ready s p t) (d₁ : 1 ≤ data.length) (d₂ : data.length ≤ 32) (m₁ : 1 ≤ m) (m₂ : m ≤ 32)
    (decision : (s.accepted p t).transferDecision p (askedTransfer k h gen hi lo chain data m) = .ok g) :
    exec (transferRequest p t k h gen hi lo chain data m) s = .next (s.joined p t g (askedTransfer k h gen hi lo chain data m)) := by
  rw [exec_transferRequest h gen hi lo chain d₁ d₂ m₁ m₂ k hr, State.answerTransfer, decision]
  exact congrArg _ (State.acceptTransfer_accepted ..)

/-- Settles O33: the port's right by the claim is the one check that tells the kinds apart; with it no check fails, and the request joins HOSTQ. -/
theorem transferAccepted : Obligations.TransferAccepted := by
  intro s p t h pl hi lo chain data m hr place live on free room d₁ d₂ fitsWrite m₁ m₂ fitsRead chainable e ref joined
  have accepts (k : TxKind) (may : e.right p k = none) : exec (transferRequest p t k h e.gen hi lo chain data m) s =
      .next (s.joined p t pl.seg (askedTransfer k h e.gen hi lo chain data m)) := by
    have fits := Desc.limits_askedTransfer_eq_none (h := h) (k := k) (hi := hi) (lo := lo) e.gen fitsWrite fitsRead chainable
    exact exec_transferRequest_joined hr d₁ d₂ m₁ m₂ <| State.transferDecision_ok (by simpa using place) (by simp [e])
      (by simpa using live) (by simpa using SegState.refusal_eq_none on free) (by simpa using may) (by simpa using fits)
      (by simpa [Config.hostqPlaces] using room)
  have own (claim : e.claim = .none ∨ e.claim = .shared ∨ (e.claim = .exclusive ∧ (e.holder p).isSome = true)) :
      ¬(e.claim = .exclusive ∧ e.holder p = none) := by
    rintro ⟨exclusive, other⟩
    simp [exclusive, other] at claim
  refine ⟨fun claim => ?_, fun claim => ?_⟩
  · have apart : e.claim ≠ .shared := by
      intro shared
      simp [shared] at claim
    have may (k : TxKind) : e.right p k = none := Entry.right_eq_none (own (claim.imp_right .inr)) fun ⟨shared, _⟩ => apart shared
    exact ⟨accepts .write (may _), accepts .writeRead (may _)⟩
  · have may {k : TxKind} (reads : ¬(k = .write ∨ k = .writeRead)) : e.right p k = none :=
      Entry.right_eq_none (own claim) fun ⟨_, writes⟩ => reads writes
    exact ⟨accepts .read (may (by simp)), accepts .ping (may (by simp))⟩

end Sys2Proof.Machine
end

section
/-! PROOFS. What reports and the threshold make of an entry (06 R118 to R121): one update of its STATE and FAILS, with the HEALTH notice of the new state. -/

namespace Sys2Proof.Machine

/-! ## HEALTH notices (06 R120) -/

/-- What a posting does to each port: those that the condition names are offered the notice (09 R153). -/
theorem State.port_postWhere (s : State) (who : Port → Bool) (k : NoticeKind) (sub : Subject) (d : Byte) (q : Port) :
    (s.postWhere who k sub d).port q = if who q then (s.port q).offer k sub d else s.port q := by
  unfold State.postWhere State.post
  cases q <;> cases who .A <;> cases who .B <;> rfl

section Reports

variable {s : State} {h : Handle}

/-- The entry in another STATE, with other FAILS. -/
def State.healthMoved (s : State) (h : Handle) (st : EntryState) (n : Nat) : State :=
  s.setEntry h { s.entry h with state := st, fails := n }

/-- HEALTH of a new state is posted to those subscribed to the entry, under the reference that a change of STATE leaves (06 R120). -/
theorem State.postHealth_healthMoved (st : EntryState) (n : Nat) : (s.healthMoved h st n).postHealth h st =
    (s.healthMoved h st n).postWhere (fun q => ((s.entry h).subs q).health) .health (.entry h (s.entry h).gen) (entryStateCode st) := by
  have subs : ∀ q, Entry.subs { s.entry h with state := st, fails := n } q = (s.entry h).subs q := fun q => by cases q <;> rfl
  simp [State.postHealth, State.healthMoved, State.subject, subs]

/-! ## Reports (06 R118, R119) -/

theorem State.becomeLost_eq (s : State) (h : Handle) : s.becomeLost h = (s.healthMoved h .lost 0).postHealth h .lost := rfl

theorem Entry.reachable_iff (e : Entry) : e.reachable = true ↔ e.state = .present ∨ e.state = .suspect := by simp [Entry.reachable]

theorem State.failureReport_lost (live : (s.entry h).state = .present ∨ (s.entry h).state = .suspect)
    (full : s.threshold ≤ (s.entry h).fails + 1) : s.failureReport h = s.becomeLost h := by
  simp only [State.failureReport, (Entry.reachable_iff _).2 live, full, if_true]

theorem State.failureReport_below (live : (s.entry h).state = .present ∨ (s.entry h).state = .suspect)
    (below : (s.entry h).fails + 1 < s.threshold) : s.failureReport h =
      if (s.entry h).state = .present then (s.healthMoved h .suspect ((s.entry h).fails + 1)).postHealth h .suspect
      else s.healthMoved h .suspect ((s.entry h).fails + 1) := by
  simp only [State.failureReport, (Entry.reachable_iff _).2 live, if_true, if_neg (Nat.not_le.2 below)]
  rfl

theorem State.failureReport_unreachable (out : ¬((s.entry h).state = .present ∨ (s.entry h).state = .suspect)) :
    s.failureReport h = s := if_neg (mt (Entry.reachable_iff _).1 out)

theorem State.successReport_suspect (suspect : (s.entry h).state = .suspect) : s.successReport h =
    ((s.healthMoved h .present 0).postHealth h .present).answerWatch h .ok howRecovered := if_pos suspect

/-- The answer of a watch with a status that carries a result (06 R127, 11 R181): it is removed, and a probe that is DUE is withdrawn. -/
theorem State.answerWatch_some {w : Watch} (hw : (s.entry h).watch = some w) {st : Status} (aux : Byte) (carries : watchCarries st = true) :
    s.answerWatch h st aux = (s.setEntry h { s.entry h with
      watch := none, inflight := if w.probe = .due then (s.entry h).inflight - 1 else (s.entry h).inflight }).respond w.port w.tag st
        [byte h.val, byte (s.entry h).gen.val, entryStateCode (s.entry h).state, byte w.probes, aux] := by
  have ended : (s.entry h).endWatch = { s.entry h with
      watch := none, inflight := if w.probe = .due then (s.entry h).inflight - 1 else (s.entry h).inflight } := by
    rw [Entry.endWatch_eq, Entry.watchDue, hw]
    by_cases due : w.probe = .due <;> simp [due, bit]
  rw [State.answerWatch_told _ _ _ carries, State.watchTold, hw, ended]

theorem State.answerWatch_none (none : (s.entry h).watch = none) (st : Status) (aux : Byte) : s.answerWatch h st aux = s := by
  simp only [State.answerWatch, none]

/-- Settles O48: each report is one update of STATE and FAILS, with its notice; a success answers the watch that it finds. -/
theorem reportsMoveHealth : Obligations.ReportsMoveHealth := by
  intro s h e moved noticed
  have told (st : EntryState) (n : Nat) : (moved st n).postHealth h st = noticed (moved st n) st := State.postHealth_healthMoved st n
  have entry : (noticed (moved .present 0) .present).entry h = { e with state := .present, fails := 0 } := by simp [noticed, moved]
  refine ⟨fun live => ⟨fun full => ?_, fun below present => ?_, fun below suspect => ?_⟩, fun suspect none => ?_, fun w suspect hw => ?_,
    fun calm => if_neg calm, fun present suspect => State.failureReport_unreachable (not_or.2 ⟨present, suspect⟩)⟩
  · rw [State.failureReport_lost live full, State.becomeLost_eq]
    exact told .lost 0
  · rw [State.failureReport_below live below, if_pos present]
    exact told .suspect _
  · rw [State.failureReport_below live below, if_neg (suspect ▸ nofun)]
    rfl
  · rw [State.successReport_suspect suspect]
    exact (congrArg (·.answerWatch h .ok howRecovered) (told .present 0)).trans (State.answerWatch_none (by rw [entry]; exact none) ..)
  · rw [State.successReport_suspect suspect]
    refine (congrArg (·.answerWatch h .ok howRecovered) (told .present 0)).trans ?_
    rw [State.answerWatch_some (w := w) (by rw [entry]; exact hw) _ rfl, entry]
    rfl

end Reports

/-! ## The threshold (06 R121) -/

section Limits

variable {s : State} {h : Handle} {l : List Handle}

/-- Whether a SUSPECT entry has failed as often as a threshold allows (06 R121). -/
def Entry.overLimit (n : Nat) (e : Entry) : Bool := e.state == .suspect && n ≤ e.fails

/-- The entry once a threshold has been applied to it (06 R121). -/
def Entry.limited (n : Nat) (e : Entry) : Entry := if e.overLimit n then { e with state := .lost, fails := 0 } else e

theorem Entry.overLimit_iff {n : Nat} {e : Entry} : e.overLimit n = true ↔ e.state = .suspect ∧ n ≤ e.fails := by simp [Entry.overLimit]

/-- The part once the threshold has been applied to one entry: it alone is LOST, with its notice, where its FAILS is not below. -/
theorem State.applyLimit_eq (s : State) (h : Handle) : s.applyLimit h =
    if (s.entry h).overLimit s.threshold then s.becomeLost h else s := by
  simp only [State.applyLimit, Entry.overLimit_iff]

theorem Quiet.applyLimit (s : State) (h : Handle) : Quiet s (s.applyLimit h) := .ite (.becomeLost ..) (.refl s)

theorem State.entry_applyLimit (s : State) (h k : Handle) :
    (s.applyLimit h).entry k = if k = h then (s.entry h).limited s.threshold else s.entry k := by
  rw [State.applyLimit_eq, Entry.limited]
  split
  · exact State.entry_becomeLost ..
  · split
    · next hk => rw [hk]
    · rfl

theorem State.seg_applyLimit (s : State) (h : Handle) (g : Seg) : (s.applyLimit h).seg g = s.seg g := by
  rw [State.applyLimit_eq]
  split
  · exact State.seg_becomeLost g
  · rfl

/-- The HEALTH, LOST that a threshold `n` brings about for an entry, as a port is offered it (06 R120, R121). -/
def State.limitNotice (s : State) (n : Nat) (q : Port) (r : PortRec) (h : Handle) : PortRec :=
  if (s.entry h).overLimit n && ((s.entry h).subs q).health then r.offer .health (.entry h (s.entry h).gen) 0x04 else r

theorem State.port_applyLimit (s : State) (h : Handle) (q : Port) :
    (s.applyLimit h).port q = s.limitNotice s.threshold q (s.port q) h := by
  rw [State.applyLimit_eq, State.limitNotice]
  cases (s.entry h).overLimit s.threshold with
  | false => rfl
  | true =>
    rw [if_pos rfl, State.becomeLost_eq, State.postHealth_healthMoved, State.port_postWhere, State.healthMoved, State.port_setEntry]
    rfl

theorem State.entry_limits (nodup : l.Nodup) (s : State) (h : Handle) :
    (l.foldl State.applyLimit s).entry h = if h ∈ l then (s.entry h).limited s.threshold else s.entry h := by
  induction l generalizing s with
  | nil => simp
  | cons k l ih =>
    obtain ⟨out, nodup⟩ := List.nodup_cons.1 nodup
    rw [List.foldl_cons, ih nodup, State.entry_applyLimit, (Quiet.applyLimit s k).threshold]
    by_cases hk : h = k
    · subst hk; simp [out]
    · simp [hk]

/-- The notices that a threshold brings about are offered in the order in which it is applied. -/
theorem State.port_limits (nodup : l.Nodup) (s : State) (q : Port) :
    (l.foldl State.applyLimit s).port q = l.foldl (s.limitNotice s.threshold q) (s.port q) := by
  induction l generalizing s with
  | nil => rfl
  | cons k l ih =>
    obtain ⟨out, nodup⟩ := List.nodup_cons.1 nodup
    rw [List.foldl_cons, List.foldl_cons, ih nodup, State.port_applyLimit, (Quiet.applyLimit s k).threshold]
    refine List.foldl_ext _ _ _ fun r h hh => ?_
    have apart : h ≠ k := fun same => out (same ▸ hh)
    rw [State.limitNotice, State.limitNotice, State.entry_applyLimit, if_neg apart]

/-- The part once a new threshold has been applied to every entry (06 R121). -/
def State.limitTo (s : State) (n : Nat) : State := handles.foldl State.applyLimit { s with threshold := n }

theorem State.threshold_limitTo (s : State) (n : Nat) : (s.limitTo n).threshold = n := (Quiet.foldl .applyLimit handles _).threshold

theorem State.seg_limitTo (s : State) (n : Nat) (g : Seg) : (s.limitTo n).seg g = s.seg g :=
  State.foldl_frame (view := fun u => u.seg g) (fun u k _ => u.seg_applyLimit k g) { s with threshold := n }

theorem State.entry_limitTo (s : State) (n : Nat) (h : Handle) : (s.limitTo n).entry h = (s.entry h).limited n :=
  (State.entry_limits nodup_handles _ h).trans (if_pos (mem_handles h))

/-- The entries of which a new threshold has HEALTH, LOST posted to a port, in ascending order (06 R120, R121). -/
def State.limitPosted (s : State) (n : Nat) (q : Port) : List Handle :=
  handles.filter (fun h => (s.entry h).overLimit n && ((s.entry h).subs q).health)

theorem State.pairwise_limitPosted (s : State) (n : Nat) (q : Port) : (s.limitPosted n q).Pairwise (· < ·) :=
  (List.pairwise_lt_finRange 48).filter _

theorem State.mem_limitPosted {n : Nat} {q : Port} :
    h ∈ s.limitPosted n q ↔ (s.entry h).overLimit n = true ∧ ((s.entry h).subs q).health = true := by simp [State.limitPosted]

theorem State.port_limitTo (s : State) (n : Nat) (q : Port) : (s.limitTo n).port q =
    (s.limitPosted n q).foldl (fun r h => r.offer .health (.entry h (s.entry h).gen) 0x04) (s.port q) := by
  have port : State.port { s with threshold := n } q = s.port q := by cases q <;> rfl
  rw [State.limitTo, State.port_limits nodup_handles, port]
  exact List.foldl_filter.symm

end Limits

end Sys2Proof.Machine
end

section
/-! PROOFS. Every step keeps the threshold from 1 to 7 and FAILS in its relation to STATE and the threshold (06 R116): one lemma for each operation. But for a
failure report and SET_LIMITS, which measure FAILS against the threshold, each operation leaves STATE and FAILS of an entry alone, or clears FAILS as the
entry comes into a state other than SUSPECT. -/

namespace Sys2Proof.Machine

/-! ## One entry -/

/-- What an operation that does not measure FAILS makes of an entry: STATE and FAILS stand, or FAILS is 0 in a state other than SUSPECT (06 R116). -/
inductive Entry.Calm (e f : Entry) : Prop
  | stands (state : f.state = e.state) (fails : f.fails = e.fails)
  | clears (state : f.state ≠ .suspect) (fails : f.fails = 0)

namespace Entry.Calm

variable {e f k : Entry}

theorem refl (e : Entry) : e.Calm e := .stands rfl rfl

theorem trans (h₁ : e.Calm f) (h₂ : f.Calm k) : e.Calm k := by
  cases h₂ with
  | clears state fails => exact .clears state fails
  | stands state fails =>
    cases h₁ with
    | clears state' fails' => exact .clears (state ▸ state') (fails.trans fails')
    | stands state' fails' => exact .stands (state.trans state') (fails.trans fails')

theorem failsOk {n : Nat} (calm : e.Calm f) (ok : e.FailsOk n) : f.FailsOk n := by
  unfold Entry.FailsOk at ok ⊢
  cases calm with
  | stands state fails => rw [state, fails]; exact ok
  | clears state fails => rw [if_neg state]; exact fails

theorem vacant (e : Entry) (g : Gen) : e.Calm (Entry.vacant g) := .clears nofun rfl
theorem taken (e : Entry) (pl : Place) (a b : EntryMask) (src : AdmSource) : e.Calm (e.taken pl a b src) := .clears nofun rfl
theorem noClaims (e : Entry) : e.Calm e.noClaims := .stands rfl rfl
theorem lower (e : Entry) : e.Calm e.lower := .stands rfl rfl
theorem rise (e : Entry) : e.Calm e.rise := .stands rfl rfl
theorem endWatch (e : Entry) : e.Calm e.endWatch := by rw [Entry.endWatch_eq]; exact .stands rfl rfl
theorem setChain (e : Entry) (p : Port) (b : Bool) : e.Calm (e.setChain p b) := .stands (by simp) (by simp)
theorem setHolder (e : Entry) (p : Port) (o : Option Holder) : e.Calm (e.setHolder p o) := .stands (by simp) (by simp)
theorem setSubs (e : Entry) (p : Port) (m : EntryMask) : e.Calm (e.setSubs p m) := .stands (by simp) (by simp)
theorem dropHolder (e : Entry) (p : Port) : e.Calm (e.dropHolder p) := (setHolder e p none).trans (.stands rfl rfl)
theorem takeClaim (e : Entry) (p : Port) (m : ClaimMode) (lease : Nat) : e.Calm (e.takeClaim p m lease) :=
  (setHolder e p _).trans (.stands rfl rfl)
theorem cancelRe (e : Entry) : e.Calm e.cancelRe := by rw [Entry.cancelRe_eq]; exact .clears nofun rfl
theorem endAdm (e : Entry) : e.Calm e.endAdm := by rw [Entry.endAdm_eq]; exact .stands rfl rfl

theorem grantTo (e : Entry) (w : Waiter) : e.Calm (e.grantTo w) := by
  unfold Entry.grantTo
  split
  · exact ((setHolder ..).trans (setHolder ..)).trans (.stands rfl rfl)
  · exact (setHolder ..).trans (.stands rfl rfl)

theorem reevaluated (e : Entry) : e.Calm e.reevaluated := by
  unfold Entry.reevaluated
  split
  · split
    · exact grantTo ..
    · exact refl e
  · exact refl e

theorem fallen (e : Entry) : e.Calm e.fallen := by
  unfold Entry.fallen
  split
  · exact vacant ..
  · exact lower e

theorem of_chosen (c : e.Chosen f) : e.Calm f := by
  induction c with
  | refl => exact refl e
  | answered p _ ih => exact (ih.trans (setChain ..)).trans (fallen _)
  | admission _ _ ih => exact ih.trans (.stands rfl rfl)
  | watch _ _ ih => exact ih.trans (.stands rfl rfl)
  | rise _ _ _ ih => exact ih.trans (rise _)

theorem portReset (e : Entry) (p : Port) : e.Calm (e.portReset p) :=
  .stands (e.state_portReset p) (by simp [Entry.portReset_eq, Entry.unclaimed_eq])

end Entry.Calm

/-- A threshold that has been applied to an entry is above its FAILS (06 R121). -/
theorem Entry.FailsOk.limited {m : Nat} {e : Entry} (ok : e.FailsOk m) (n : Nat) : (e.limited n).FailsOk n := by
  unfold Entry.limited
  split
  · exact rfl
  · next below =>
    unfold Entry.FailsOk at ok ⊢
    split
    · next suspect =>
      rw [if_pos suspect] at ok
      exact ⟨ok.1, Nat.lt_of_not_le fun full => below (Entry.overLimit_iff.2 ⟨suspect, full⟩)⟩
    · next other => rwa [if_neg other] at ok

/-- A SET_LIMITS that can be read asks for a threshold from 1 to 7 (06 R121). -/
theorem parseLimits_range {params : List Byte} {n : Nat} (read : parseLimits params = some n) : 1 ≤ n ∧ n ≤ 7 := by
  unfold parseLimits at read
  split at read
  · split at read
    · next range => cases read; exact range
    · cases read
  · cases read

/-! ## The whole part -/

/-- A step that keeps the health figures. -/
structure KeepsHealth (s t : State) : Prop where
  keeps : s.HealthOk → t.HealthOk

namespace KeepsHealth

variable {s t u : State}

theorem refl (s : State) : KeepsHealth s s := ⟨id⟩

theorem trans (h₁ : KeepsHealth s t) (h₂ : KeepsHealth t u) : KeepsHealth s u := ⟨fun ok => h₂.keeps (h₁.keeps ok)⟩

theorem of_calm (same : t.threshold = s.threshold) (calm : ∀ h, (s.entry h).Calm (t.entry h)) : KeepsHealth s t where
  keeps ok := ⟨by rw [same]; exact ok.low, by rw [same]; exact ok.high, fun h => by rw [same]; exact (calm h).failsOk (ok.fails h)⟩

theorem of_entries (same : t.threshold = s.threshold) (entries : ∀ h, t.entry h = s.entry h) : KeepsHealth s t :=
  of_calm same fun h => by rw [entries]; exact .refl _

/-- An operation that changes one entry. -/
theorem of_own {h : Handle} {f : Entry} (quiet : Quiet s t) (entry : ∀ k, t.entry k = if k = h then f else s.entry k)
    (calm : (s.entry h).Calm f) : KeepsHealth s t := of_calm quiet.threshold fun k => by
  rw [entry]
  split
  · next hk => rw [hk]; exact calm
  · exact .refl _

theorem ite {c : Prop} [Decidable c] (h₁ : KeepsHealth s t) (h₂ : KeepsHealth s u) : KeepsHealth s (if c then t else u) := by
  split <;> assumption

theorem thenIf {c : Prop} [Decidable c] (h₁ : KeepsHealth s t) (h₂ : KeepsHealth t u) : KeepsHealth s (if c then u else t) :=
  ite (h₁.trans h₂) h₁

theorem foldl {α : Type} {f : State → α → State} (hf : ∀ s a, KeepsHealth s (f s a)) (l : List α) (s : State) :
    KeepsHealth s (l.foldl f s) := by
  induction l generalizing s with
  | nil => exact refl s
  | cons a l ih => exact (hf s a).trans (ih _)

theorem forAnyOrder {α : Type} {f : State → α → State} (hf : ∀ s a, KeepsHealth s (f s a)) (s : State) (l : List α) :
    KeepsHealth s (s.forAnyOrder l f) :=
  (of_entries (t := (s.anyOrder l).2) (Quiet.anyOrder s l).threshold (by simp)).trans (foldl hf _ _)

theorem atSegOf {f : State → Seg → State} (hf : ∀ s g, KeepsHealth s (f s g)) (s : State) (h : Handle) :
    KeepsHealth s (s.atSegOf h f) := by
  unfold State.atSegOf
  split
  · exact hf _ _
  · exact refl s

theorem modEntry {h : Handle} {f : Entry → Entry} (calm : (s.entry h).Calm (f (s.entry h))) : KeepsHealth s (s.modEntry h f) :=
  of_own (.modEntry ..) (fun k => s.entry_modEntry h k f) calm

/-! ## Operations on records other than entries -/

theorem modSeg (s : State) (g : Seg) (f : Segment → Segment) : KeepsHealth s (s.modSeg g f) := of_entries rfl fun _ => rfl
theorem modPort (s : State) (p : Port) (f : PortRec → PortRec) : KeepsHealth s (s.modPort p f) := of_entries (by simp) (by simp)
theorem setPort (s : State) (p : Port) (r : PortRec) : KeepsHealth s (s.setPort p r) := of_entries (by simp) (by simp)
theorem respond (s : State) (p : Port) (t : Tag) (st : Status) (l : List Byte) : KeepsHealth s (s.respond p t st l) :=
  of_entries (Quiet.respond ..).threshold (by simp)
theorem post (s : State) (p : Port) (k : NoticeKind) (sub : Subject) (d : Byte) : KeepsHealth s (s.post p k sub d) := modPort ..
theorem postWhere (s : State) (who : Port → Bool) (k : NoticeKind) (sub : Subject) (d : Byte) :
    KeepsHealth s (s.postWhere who k sub d) := of_entries (by simp) (by simp)
theorem respondTo (s : State) (o : Option (Port × Tag)) (st : Status) (l : List Byte) : KeepsHealth s (s.respondTo o st l) :=
  of_entries (Quiet.respondTo ..).threshold (by simp)
theorem answerSurvey (s : State) (g : Seg) (st : Status) : KeepsHealth s (s.answerSurvey g st) :=
  of_entries (Quiet.answerSurvey ..).threshold (by simp)

theorem tellFailure (s : State) (a : Option AdmRec) (pl : Option Place) (st : Status) : KeepsHealth s (s.tellFailure a pl st) :=
  of_entries (Quiet.tellFailure ..).threshold (by simp)

/-! ## The claim unit, the directory, the arbiter -/

theorem reevaluate (s : State) (h : Handle) : KeepsHealth s (s.reevaluate h) :=
  of_own (.reevaluate ..) (s.entry_reevaluate h) (.reevaluated _)

theorem dropClaims (s : State) (h : Handle) (o : Option Port) : KeepsHealth s (s.dropClaims h o) :=
  of_own (.dropClaims ..) (fun k => s.entry_dropClaims h k o) (.noClaims _)

theorem failFirst (s : State) (h : Handle) (st : Status) : KeepsHealth s (s.failFirst h st) :=
  of_own (.failFirst ..) (fun k => s.entry_failFirst h k st) (.vacant ..)

theorem completeRetire (s : State) (h : Handle) : KeepsHealth s (s.completeRetire h) :=
  of_own (.completeRetire ..) (s.entry_completeRetire h) (.vacant ..)

theorem fall (s : State) (h : Handle) : KeepsHealth s (s.fall h) := of_own (.fall ..) (s.entry_fall h) (.fallen _)

theorem fallNamed (s : State) (n : Option Handle) : KeepsHealth s (s.fallNamed n) := by
  cases n with
  | none => exact refl s
  | some h => exact fall s h

theorem choose (s : State) (g : Seg) : KeepsHealth s (s.choose g) :=
  of_calm (Quiet.choose s g).threshold fun h => .of_chosen ((State.Chosen.choose s g).entry h)

/-! ## The health monitor -/

theorem answerWatch (s : State) (h : Handle) (st : Status) (aux : Byte) : KeepsHealth s (s.answerWatch h st aux) :=
  of_own (.answerWatch ..) (fun k => s.entry_answerWatch h k st aux) (.endWatch _)

theorem successReport (s : State) (h : Handle) : KeepsHealth s (s.successReport h) :=
  ite (((modEntry (.clears (by simp) rfl)).trans (postWhere ..)).trans (answerWatch ..)) (refl s)

/-- A failure report counts up to the threshold: below it FAILS is one higher, at it the entry is LOST with FAILS 0 (06 R118). -/
theorem failureReport (s : State) (h : Handle) : KeepsHealth s (s.failureReport h) where
  keeps ok := by
    have same := (Quiet.failureReport s h).threshold
    refine ⟨by rw [same]; exact ok.low, by rw [same]; exact ok.high, fun k => ?_⟩
    rw [same, State.entry_failureReport]
    split
    · split
      · exact rfl
      · next below => exact ⟨Nat.le_add_left .., Nat.lt_of_not_le below⟩
    · exact ok.fails k

theorem report (s : State) (h : Handle) (o : Outcome) : KeepsHealth s (s.report h o) :=
  ite (successReport ..) (ite (failureReport ..) (refl s))

theorem reportNamed (s : State) (n : Option Handle) (o : Outcome) : KeepsHealth s (s.reportNamed n o) := by
  cases n with
  | none => exact refl s
  | some h => exact report s h o

/-- A new threshold is applied to every entry, so that none is left that has failed as often (06 R121). -/
theorem limitTo {n : Nat} (low : 1 ≤ n) (high : n ≤ 7) (s : State) : KeepsHealth s (s.limitTo n) where
  keeps ok := by
    refine ⟨by rw [State.threshold_limitTo]; exact low, by rw [State.threshold_limitTo]; exact high, fun h => ?_⟩
    rw [State.threshold_limitTo, State.entry_limitTo]
    exact (ok.fails h).limited n

/-! ## The admission unit -/

theorem beginReadmission (s : State) (h : Handle) (src : AdmSource) : KeepsHealth s (s.beginReadmission h src) :=
  modEntry (.clears nofun rfl)

theorem endFirst (s : State) (h : Handle) (a : AdmRec) (d : Desc) (src : DSrc) : KeepsHealth s (s.endFirst h a d src) := by
  have first : KeepsHealth s (s.modEntry h (fun e => { e with state := .present, fails := 0, desc := d, dsrc := src, adm := none })) :=
    modEntry (.clears (by simp) rfl)
  unfold State.endFirst
  dsimp only
  split
  · exact first.trans (modPort ..)
  · exact first.trans (post ..)
  all_goals exact first

theorem endReappeared (s : State) (h : Handle) (d : Desc) (src : DSrc) : KeepsHealth s (s.endReappeared h d src) :=
  ((modEntry (.clears (by simp) rfl)).trans (postWhere ..)).trans (answerWatch ..)

theorem endReplaced (s : State) (h : Handle) (d : Desc) (src : DSrc) : KeepsHealth s (s.endReplaced h d src) :=
  (((dropClaims ..).trans (modEntry (.clears (by simp) rfl))).trans (postWhere ..)).trans (answerWatch ..)

theorem failRe (s : State) (h : Handle) : KeepsHealth s (s.failRe h) := by
  have lost : KeepsHealth s (s.modEntry h (fun e => { e with state := .lost, fails := 0, adm := none })) := modEntry (.clears (by simp) rfl)
  unfold State.failRe
  dsimp only
  split
  · exact lost.trans (ite (answerWatch ..) (modEntry (.stands rfl rfl)))
  · exact lost

theorem endAdmission (s : State) (h : Handle) (a : AdmRec) (d : Desc) (src : DSrc) : KeepsHealth s (s.endAdmission h a d src) := by
  unfold State.endAdmission
  dsimp only
  split
  · exact endFirst ..
  · exact ite (endReappeared ..) (ite (endReappeared ..) (endReplaced ..))

theorem plan (s : State) (h : Handle) (a : AdmRec) : KeepsHealth s (s.modEntry h (fun e => e.plan a)) := modEntry (.stands rfl rfl)

theorem admissionNext (s : State) (h : Handle) (a : AdmRec) (o : Outcome) (rx : List Byte) :
    KeepsHealth s (s.admissionNext h a o rx) := by
  have fails (st : Status) : KeepsHealth s (s.failAdmission h a st) := by
    unfold State.failAdmission
    split
    · exact failFirst ..
    · exact failRe ..
  unfold State.admissionNext
  dsimp only
  split
  · split
    · exact ite (endAdmission ..) (plan ..)
    · exact ite (plan ..) (endAdmission ..)
    · exact endAdmission ..
  · exact plan ..
  · split
    · exact failFirst ..
    · exact plan ..
  all_goals
    split
    · exact fails _
    all_goals exact endAdmission ..

/-! ## The segment controllers -/

theorem answerTx (s : State) (t : HostTx) (st : Status) (n : Nat) (rx : List Byte) (b : Bool) : KeepsHealth s (s.answerTx t st n rx b) :=
  of_own (.answerTx ..) (s.entry_answerTx t st n rx b) (.setChain ..)

theorem completeAll (s : State) (g : Seg) (st : Status) : KeepsHealth s (s.completeAll g st) :=
  (modSeg ..).trans (foldl (fun _ _ => (answerTx ..).trans (fall ..)) _ _)

theorem dropHold (s : State) (g : Seg) (l : LineEnd) (b : Bool) : KeepsHealth s (s.dropHold g l b) := by
  unfold State.dropHold
  split
  · exact ite ((modSeg ..).trans (modEntry (.setChain ..))) (modSeg ..)
  · exact refl s

theorem endHold (s : State) (g : Seg) (b : Bool) : KeepsHealth s (s.endHold g b) := (modSeg ..).trans (dropHold ..)

theorem becomeStuck (s : State) (g : Seg) (c : Byte) : KeepsHealth s (s.becomeStuck g c) := by
  unfold State.becomeStuck
  refine trans ?_ (postWhere ..)
  refine trans ?_ (forAnyOrder (fun _ _ => failFirst ..) _ _)
  exact (((modSeg ..).trans (completeAll ..)).trans (answerSurvey ..)).trans (modSeg ..)

theorem goOff (s : State) (g : Seg) (b : Bool) (o : Option (Port × Tag)) : KeepsHealth s (s.goOff g b o) := by
  unfold State.goOff
  refine trans ?_ (respondTo ..)
  refine trans ?_ (foldl (fun _ _ => modEntry (.cancelRe _)) _ _)
  refine trans ?_ (forAnyOrder (fun _ _ => failFirst ..) _ _)
  refine trans ?_ (forAnyOrder (fun _ _ => answerWatch ..) _ _)
  refine trans ?_ (dropHold ..)
  exact (((modSeg ..).trans (completeAll ..)).trans (answerSurvey ..)).trans (modSeg ..)

/-! ## The bus engine -/

theorem loadSettle (s : State) (h : Handle) (c : Current) : KeepsHealth s (s.loadSettle h c) :=
  ite (modEntry (.stands rfl rfl)) (refl s)

theorem tryHold (s : State) (g : Seg) (t : HostTx) (c : Current) : KeepsHealth s (s.tryHold g t c) :=
  ite (refl s) (ite (modEntry (.setChain ..)) (modSeg ..))

theorem endHost (s : State) (g : Seg) (c : Current) (o : Outcome) : KeepsHealth s (s.endHost g c o) := by
  unfold State.endHost
  dsimp only
  split
  · exact refl s
  · refine trans ?_ (fall ..)
    refine thenIf ?_ (tryHold ..)
    exact (((report ..).trans (loadSettle ..)).trans (modSeg ..)).trans (answerTx ..)

theorem endAdmissionTransfer (s : State) (h : Handle) (c : Current) (o : Outcome) : KeepsHealth s (s.endAdmissionTransfer h c o) := by
  unfold State.endAdmissionTransfer
  dsimp only
  split
  · exact ite (((report ..).trans (modEntry (.lower _))).trans (admissionNext ..)) ((report ..).trans (fall ..))
  · exact (report ..).trans (fall ..)

theorem watchOutcome (s : State) (h : Handle) (o : Outcome) : KeepsHealth s (s.watchOutcome h o) := by
  unfold State.watchOutcome
  split
  · exact refl s
  · exact ite (modEntry (.stands rfl rfl))
      (ite (beginReadmission ..) (ite (answerWatch ..) (modEntry (.stands rfl rfl))))

theorem endWatchProbe (s : State) (h : Handle) (o : Outcome) : KeepsHealth s (s.endWatchProbe h o) := by
  unfold State.endWatchProbe
  split
  · exact ite ((((modEntry (.stands rfl rfl)).trans (report ..)).trans (watchOutcome ..)).trans (fall ..))
      ((report ..).trans (fall ..))
  · exact (report ..).trans (fall ..)

theorem judge (s : State) (g : Seg) (c : Cursor) (listed : Option (Handle × EntryState)) (o : Outcome) :
    KeepsHealth s (s.judge g c listed o).1 := by
  unfold State.judge
  split
  · split
    · split
      · exact modEntry (f := fun e => e.taken _ _ _ _) (.taken ..)
      · exact ite (refl s) (post ..)
    · exact refl s
  · split
    · exact refl s
    · exact refl s
    · split
      · exact beginReadmission ..
      · exact refl s
    all_goals exact refl s

theorem endSurveyProbe (s : State) (g : Seg) (n : Option Handle) (o : Outcome) : KeepsHealth s (s.endSurveyProbe g n o) := by
  rw [State.endSurveyProbe_eq]
  have first := reportNamed s n o
  split
  · refine ite (ite ((first.trans (answerSurvey ..)).trans (fallNamed ..)) ?_) (first.trans (fallNamed ..))
    refine thenIf ?_ (answerSurvey ..)
    exact ((first.trans (judge ..)).trans (modSeg ..)).trans (fallNamed ..)
  · exact first.trans (fallNamed ..)

theorem judgeByte (s : State) (g : Seg) (h : Handle) (b : Byte) : KeepsHealth s (s.judgeByte g h b) :=
  ite ((postWhere ..).trans (modSeg ..)) (refl s)

theorem endSweepRead (s : State) (g : Seg) (h : Handle) (c : Current) (o : Outcome) : KeepsHealth s (s.endSweepRead g h c o) := by
  have first := report s h o
  unfold State.endSweepRead
  dsimp only
  refine trans ?_ (fall ..)
  refine ite ?_ first
  cases o with
  | ok => exact (first.trans (judgeByte ..)).trans (modSeg ..)
  | busStuck => exact first
  | aborted => exact first
  | addrNack | dataNack | clockTimeout | arbLost | busBusy => exact first.trans (modSeg ..)

theorem deliver (s : State) (g : Seg) (c : Current) (o : Outcome) : KeepsHealth s (s.deliver g c o) := by
  unfold State.deliver
  cases c.kind with
  | host => exact endHost ..
  | survey => exact endSurveyProbe ..
  | admission => cases c.entry with
    | none => exact refl s
    | some h => exact endAdmissionTransfer ..
  | watch => cases c.entry with
    | none => exact refl s
    | some h => exact endWatchProbe ..
  | sweep => cases c.entry with
    | none => exact refl s
    | some h => exact endSweepRead ..

theorem afterTransfer (s : State) (g : Seg) (o : Outcome) : KeepsHealth s (s.afterTransfer g o) := by
  unfold State.afterTransfer
  split
  · exact goOff ..
  all_goals
    split
    · exact modSeg ..
    · exact becomeStuck ..
    all_goals exact (modSeg ..).trans (choose ..)

theorem endTransfer (s : State) (g : Seg) (c : Current) (o : Outcome) : KeepsHealth s (s.endTransfer g c o) :=
  ((modSeg ..).trans (deliver ..)).trans (afterTransfer ..)

theorem transferEnds (s : State) (g : Seg) (c : Current) (e : TransferEnd) : KeepsHealth s (s.transferEnds g c e) := by
  unfold State.transferEnds
  split
  · exact endTransfer ..
  · exact refl s

theorem losesArbitration (s : State) (g : Seg) (c : Current) (pr : Progress) : KeepsHealth s (s.losesArbitration g c pr) :=
  ite (refl s) (ite (modSeg ..) (endTransfer ..))

theorem waitsTooLong (s : State) (g : Seg) (c : Current) (b : Bool) : KeepsHealth s (s.waitsTooLong g c b) :=
  ite (refl s) (ite (modSeg ..) (endTransfer ..))

theorem innerRecovery (s : State) (g : Seg) (c : Current) (l : List LineObs) : KeepsHealth s (s.innerRecovery g c l) := by
  unfold State.innerRecovery
  split
  · exact refl s
  · exact modSeg ..
  · exact endTransfer ..

theorem busEvent (s : State) (g : Seg) (ev : BusEvent) : KeepsHealth s (s.busEvent g ev) := by
  unfold State.busEvent
  split
  · refine ite ?_ ?_
    · cases ev with
      | recovery obs => exact innerRecovery ..
      | ended | clockTimeout | arbLost | busBusy => exact refl s
    · cases ev with
      | ended e => exact transferEnds ..
      | clockTimeout pr => exact endTransfer ..
      | arbLost pr => exact losesArbitration ..
      | busBusy => exact waitsTooLong ..
      | recovery => exact refl s
  · exact refl s

theorem busBusy (s : State) (g : Seg) (b : Bool) : KeepsHealth s (s.busBusy g b) := by
  unfold State.busBusy
  split
  · exact ite (refl s) (waitsTooLong ..)
  · exact refl s

theorem endOfKind (s : State) (g : Seg) (k : CurKind) (e : TransferEnd) : KeepsHealth s (s.endOfKind g k e) := ite (busEvent ..) (refl s)

theorem outerRecovery (s : State) (g : Seg) (b : Bool) : KeepsHealth s (s.outerRecovery g b) := by
  unfold State.outerRecovery
  split
  · exact ite (((modSeg ..).trans (respondTo ..)).trans (choose ..)) (((becomeStuck ..).trans (modSeg ..)).trans (respondTo ..))
  all_goals exact ite ((modSeg ..).trans (choose ..)) (becomeStuck ..)

theorem recoveryEnd (s : State) (g : Seg) (obs : List LineObs) : KeepsHealth s (s.recoveryEnd g obs) := by
  unfold State.recoveryEnd
  split
  · split
    · exact outerRecovery ..
    · exact refl s
  all_goals exact busEvent ..

/-! ## Claims, and the events inside a step -/

theorem claimEnds (s : State) (h : Handle) (p : Port) : KeepsHealth s (s.claimEnds h p) := by
  refine atSegOf (fun s g => ?_) _ _
  dsimp only
  refine ite (endHold ..) ?_
  split
  · exact ite (modSeg ..) (refl s)
  · exact refl s

theorem lapse (s : State) (p : Port) (h : Handle) : KeepsHealth s (s.lapse p h) :=
  (((modEntry (.dropHolder ..)).trans (post ..)).trans (claimEnds ..)).trans (reevaluate ..)

theorem release (s : State) (p : Port) (h : Handle) : KeepsHealth s (s.release p h) :=
  ((modEntry (.dropHolder ..)).trans (claimEnds ..)).trans (reevaluate ..)

theorem leaseLapse (s : State) (h : Handle) (p : Port) : KeepsHealth s (s.leaseLapse h p) :=
  ite ((lapse ..).trans (atSegOf choose _ _)) (refl s)

theorem waitExpiry (s : State) (h : Handle) : KeepsHealth s (s.waitExpiry h) := by
  unfold State.waitExpiry
  split
  · exact ite ((modEntry (.stands rfl rfl)).trans (respond ..)) (refl s)
  · exact refl s

theorem watchProbeDue (s : State) (h : Handle) : KeepsHealth s (s.watchProbeDue h) :=
  ite ((modEntry (.stands rfl rfl)).trans (atSegOf choose _ _)) (refl s)

theorem rearmExpiry (s : State) (g : Seg) : KeepsHealth s (s.rearmExpiry g) := ite ((modSeg ..).trans (choose ..)) (refl s)

theorem settleEnd (s : State) (h : Handle) : KeepsHealth s (s.settleEnd h) :=
  (modEntry (.stands rfl rfl)).trans (atSegOf choose _ _)

theorem holdExpiry (s : State) (g : Seg) : KeepsHealth s (s.holdExpiry g) := ite ((endHold ..).trans (choose ..)) (refl s)

theorem happen (s : State) (ev : Event) : KeepsHealth s (s.happen ev) := by
  cases ev with
  | leaseLapse h p => exact leaseLapse ..
  | waitExpiry h => exact waitExpiry ..
  | watchProbeDue h => exact watchProbeDue ..
  | rearmExpiry g => exact rearmExpiry ..
  | settleEnd h => exact settleEnd ..
  | holdExpiry g => exact holdExpiry ..
  | waiterGranted h => exact reevaluate ..
  | retireComplete h => exact ite (completeRetire ..) (refl s)
  | arbiterGrant g => exact choose ..

theorem mapEntries {f : Entry → Entry} (calm : ∀ e : Entry, e.Calm (f e)) (s : State) : KeepsHealth s (s.mapEntries f) :=
  of_calm rfl fun h => by rw [State.entry_mapEntries]; exact calm _

theorem mapSegs (s : State) (f : Segment → Segment) : KeepsHealth s (s.mapSegs f) := of_entries rfl fun _ => rfl

theorem tick10ms (s : State) (l : List Event) : KeepsHealth s (s.tick10ms l) :=
  ((mapEntries (f := Entry.tick10ms) (fun _ => .stands rfl rfl) s).trans (mapSegs ..)).trans (foldl happen _ _)

theorem tick100us (s : State) (l : List Event) : KeepsHealth s (s.tick100us l) :=
  ((mapEntries (f := Entry.tick100us) (fun _ => .stands rfl rfl) s).trans (mapSegs ..)).trans (foldl happen _ _)

/-! ## Requests -/

theorem submit {body : Tag → State → State} (hb : ∀ t s, KeepsHealth s (body t s)) (s : State) (p : Port) (tag code : Byte)
    (params : List Byte) : KeepsHealth s (s.submit p tag code params body) := by
  unfold State.submit
  refine ite ?_ (refl s)
  dsimp only
  split
  · exact setPort ..
  · exact (setPort ..).trans (hb _ _)

/-- A request whose parameters are read, if they can be. -/
theorem orBadParam_of {α : Type} {s : State} {f : α → State} {args : Option α} (hf : ∀ a, args = some a → KeepsHealth s (f a)) (p : Port)
    (t : Tag) : KeepsHealth s (s.orBadParam p t args f) := by
  cases args with
  | none => exact respond ..
  | some a => exact hf a rfl

theorem orBadParam {α : Type} {s : State} {f : α → State} (hf : ∀ a, KeepsHealth s (f a)) (p : Port) (t : Tag) (args : Option α) :
    KeepsHealth s (s.orBadParam p t args f) := orBadParam_of (fun a _ => hf a) p t

theorem answerAdmit (s : State) (p : Port) (t : Tag) (a : AdmitArgs) : KeepsHealth s (s.answerAdmit p t a) := by
  unfold State.answerAdmit
  split
  · exact respond ..
  · exact (modEntry (.taken ..)).trans (choose ..)

theorem enterRetiring (s : State) (p : Port) (t : Tag) (h : Handle) : KeepsHealth s (s.enterRetiring p t h) := by
  have retires : KeepsHealth s (s.modEntry h (fun e => { e with state := .retiring, fails := 0, retire := some (p, t) })) :=
    modEntry (.clears (by simp) rfl)
  have hold (u : State) : KeepsHealth u (u.retireHold h) := atSegOf (fun _ _ => ite (endHold ..) (refl _)) _ _
  have admission (u : State) : KeepsHealth u (u.retireAdmission h) := (ite (tellFailure ..) (refl u)).trans (modEntry (.endAdm _))
  exact (((retires.trans (dropClaims ..)).trans (answerWatch ..)).trans (hold _)).trans (admission _)

theorem answerRetire (s : State) (p : Port) (t : Tag) (r : Handle × Gen) : KeepsHealth s (s.answerRetire p t r) := by
  unfold State.answerRetire
  split
  · exact respond ..
  · unfold State.retire State.atSegOf
    dsimp only
    split
    · exact trans (thenIf (enterRetiring ..) (completeRetire ..)) (choose ..)
    · exact refl s

theorem answerSubscribe (s : State) (p : Port) (t : Tag) (a : (Handle × Gen) × EntryMask) : KeepsHealth s (s.answerSubscribe p t a) := by
  unfold State.answerSubscribe
  split
  · exact respond ..
  · exact (modEntry (.setSubs ..)).trans (respond ..)

theorem giveClaim (s : State) (p : Port) (t : Tag) (a : ClaimArgs) : KeepsHealth s (s.giveClaim p t a) :=
  (modEntry (.takeClaim ..)).trans (respond ..)

theorem answerClaim (s : State) (p : Port) (t : Tag) (a : ClaimArgs) : KeepsHealth s (s.answerClaim p t a) := by
  unfold State.answerClaim
  split
  · exact respond ..
  · dsimp only
    refine ite (respond ..) ?_
    split
    · exact giveClaim ..
    · exact giveClaim ..
    · exact giveClaim ..
    · exact (giveClaim ..).trans (reevaluate ..)
    · exact ite (respond ..) (ite (respond ..) (modEntry (.stands rfl rfl)))

theorem answerRenew (s : State) (p : Port) (t : Tag) (r : Handle × Gen) : KeepsHealth s (s.answerRenew p t r) := by
  unfold State.answerRenew
  split
  · exact respond ..
  · split
    · exact respond ..
    · exact (modEntry (.setHolder ..)).trans (respond ..)

theorem answerRelease (s : State) (p : Port) (t : Tag) (r : Handle × Gen) : KeepsHealth s (s.answerRelease p t r) := by
  unfold State.answerRelease
  split
  · exact respond ..
  · exact ite (((release ..).trans (respond ..)).trans (atSegOf choose _ _)) (respond ..)

theorem answerTransfer (s : State) (p : Port) (t : Tag) (k : TxKind) (args : Option TransferArgs) :
    KeepsHealth s (s.answerTransfer p t k args) := by
  unfold State.answerTransfer
  split
  · exact respond ..
  · split
    · exact respond ..
    · exact ((modSeg ..).trans (modEntry (.rise _))).trans (choose ..)

theorem answerWatchCommand (s : State) (p : Port) (t : Tag) (a : WatchArgs) : KeepsHealth s (s.answerWatchCommand p t a) := by
  unfold State.answerWatchCommand
  split
  · exact respond ..
  · exact ite (respond ..) (ite (respond ..) (modEntry (.stands rfl rfl)))

theorem answerWatchCancel (s : State) (p : Port) (t : Tag) (r : Handle × Gen) : KeepsHealth s (s.answerWatchCancel p t r) := by
  unfold State.answerWatchCancel
  split
  · exact respond ..
  · exact ite ((answerWatch ..).trans (respond ..)) (respond ..)

theorem answerSetLimits {n : Nat} (low : 1 ≤ n) (high : n ≤ 7) (s : State) (p : Port) (t : Tag) :
    KeepsHealth s (s.answerSetLimits p t n) := ((limitTo low high s).trans (respond ..)).trans (forAnyOrder choose _ _)

theorem answerSurveyCommand (s : State) (p : Port) (t : Tag) (a : Seg × Nat × Nat) : KeepsHealth s (s.answerSurveyCommand p t a) := by
  unfold State.answerSurveyCommand
  split
  · exact respond ..
  · split
    · exact respond ..
    · exact (modSeg ..).trans (choose ..)

theorem answerDisable (s : State) (p : Port) (t : Tag) (b : Bool) (g : Seg) : KeepsHealth s (s.answerDisable p t b g) := by
  unfold State.answerDisable
  refine ite (respond ..) ?_
  split
  · exact respond ..
  · exact modSeg ..
  all_goals exact goOff ..

theorem cutTransfer (s : State) (g : Seg) (c : Current) : KeepsHealth s (s.cutTransfer g c) := by
  unfold State.cutTransfer
  split
  · exact deliver ..
  · exact deliver ..
  · exact deliver ..
  all_goals exact refl s

/-- What ends with a transfer that a segment reset has cut, where it is of the kind given. -/
theorem deliverCut (s : State) (g : Seg) (k : CurKind) (cut : Option Current) : KeepsHealth s (match cut with
    | some c => if c.kind = k then s.deliver g c .aborted else s
    | none => s) := by
  cases cut with
  | none => exact refl s
  | some c => exact ite (deliver ..) (refl s)

theorem resetSegment (s : State) (p : Port) (t : Tag) (g : Seg) (pr : Progress) : KeepsHealth s (s.resetSegment p t g pr) := by
  have cut : ∀ (u : State) (o : Option Current), KeepsHealth u (match o with
      | some c => u.cutTransfer g c
      | none => u) := by
    intro u o
    cases o with
    | none => exact refl u
    | some c => exact cutTransfer ..
  unfold State.resetSegment
  refine trans ?_ (modSeg ..)
  refine trans ?_ (dropHold ..)
  refine trans ?_ ((deliverCut ..).trans (modSeg ..))
  refine trans ?_ ((deliverCut ..).trans (answerSurvey ..))
  exact ((modSeg ..).trans (cut _ _)).trans (completeAll ..)

/-! ## Resets -/

theorem withdrawPort (s : State) (p : Port) : KeepsHealth s (s.withdrawPort p) := of_calm (s.threshold_withdrawPort p) fun h => by
  obtain ⟨n, entry⟩ := s.entry_withdrawPort p h
  rw [entry]
  have withdrawn : (s.entry h).Calm { s.entry h with inflight := n } := .stands rfl rfl
  exact withdrawn.trans (.portReset ..)

theorem portReset (s : State) (p : Port) : KeepsHealth s (s.portReset p) :=
  ite (((withdrawPort ..).trans (forAnyOrder happen _ _)).trans (forAnyOrder choose _ _)) (refl s)

/-- A reset by the pin brings the reset values of all but the pins, whatever stood before (10 R176). -/
theorem pinReset (s : State) : KeepsHealth s s.pinReset := ⟨fun _ =>
  ⟨State.healthOk_reset.low, State.healthOk_reset.high, State.healthOk_reset.fails⟩⟩

/-! ## Every command -/

/-- Every command keeps the health figures. -/
theorem exec {i : Instr} (hx : Machine.exec i s = .next t) : KeepsHealth s t := by
  cases i <;> cases hx
  case exchangeBegin => exact modPort ..
  case leadByte => exact modPort ..
  case submitRejected p bytes =>
    refine ite ?_ (refl s)
    dsimp only
    split
    · exact setPort ..
    · exact refl s
  case badCommand => exact ite (refl s) (submit (fun _ _ => respond ..) ..)
  case takeResponse => exact modPort ..
  case takeNotice => exact modPort ..
  case summary => exact modPort ..
  case portReset => exact portReset ..
  case pinReset => exact pinReset ..
  case admitDevice => exact submit (fun _ _ => orBadParam (answerAdmit _ _ _) ..) ..
  case retire => exact submit (fun _ _ => orBadParam (answerRetire _ _ _) ..) ..
  case retireComplete => exact ite (completeRetire ..) (refl s)
  case lookup =>
    refine submit (fun _ u => orBadParam (fun a => ?_) ..) ..
    unfold State.answerLookup
    split
    · exact respond ..
    · exact respond ..
  case list => exact submit (fun _ _ => orBadParam (fun _ => respond ..) ..) ..
  case readEntry => exact submit (fun _ _ => orBadParam (fun _ => ite (respond ..) (respond ..)) ..) ..
  case subscribe => exact submit (fun _ _ => orBadParam (answerSubscribe _ _ _) ..) ..
  case segmentSubscribe => exact submit (fun _ _ => orBadParam (fun _ => (modPort ..).trans (respond ..)) ..) ..
  case claim => exact submit (fun _ _ => orBadParam (answerClaim _ _ _) ..) ..
  case renew => exact submit (fun _ _ => orBadParam (answerRenew _ _ _) ..) ..
  case release => exact submit (fun _ _ => orBadParam (answerRelease _ _ _) ..) ..
  case waiterGranted => exact reevaluate ..
  case leaseLapse => exact leaseLapse ..
  case waitExpiry => exact waitExpiry ..
  case timebaseTick10ms => exact tick10ms ..
  case timebaseTick100us => exact tick100us ..
  case write => exact submit (fun _ _ => answerTransfer ..) ..
  case read => exact submit (fun _ _ => answerTransfer ..) ..
  case writeRead => exact submit (fun _ _ => answerTransfer ..) ..
  case ping => exact submit (fun _ _ => answerTransfer ..) ..
  case arbiterGrant => exact choose ..
  case arbLost => exact busEvent ..
  case busBusy => exact busBusy ..
  case clockTimeout => exact busEvent ..
  case hostTransactionEnd => exact endOfKind ..
  case holdExpiry => exact holdExpiry ..
  case settleEnd => exact ite (settleEnd ..) (refl s)
  case admissionTransferEnd => exact endOfKind ..
  case watch => exact submit (fun _ _ => orBadParam (answerWatchCommand _ _ _) ..) ..
  case watchCancel => exact submit (fun _ _ => orBadParam (answerWatchCancel _ _ _) ..) ..
  case watchProbeDue => exact watchProbeDue ..
  case watchProbeEnd => exact endOfKind ..
  case setLimits =>
    refine submit (fun _ u => orBadParam_of (fun n read => ?_) ..) ..
    obtain ⟨low, high⟩ := parseLimits_range read
    exact answerSetLimits low high u ..
  case survey => exact submit (fun _ _ => orBadParam (answerSurveyCommand _ _ _) ..) ..
  case surveyAbort => exact submit (fun _ _ => orBadParam (fun _ => ite ((answerSurvey ..).trans (respond ..)) (respond ..)) ..) ..
  case surveyProbeEnd => exact endOfKind ..
  case segmentSetup => exact submit (fun _ _ => orBadParam (fun _ => ite ((modSeg ..).trans (respond ..)) (respond ..)) ..) ..
  case segmentEnable =>
    exact submit (fun _ _ => orBadParam (fun _ => ite (((modSeg ..).trans (respond ..)).trans (choose ..)) (respond ..)) ..) ..
  case segmentDisable => exact submit (fun _ _ => orBadParam (answerDisable _ _ _ _) ..) ..
  case disableComplete => exact ite (busEvent ..) (refl s)
  case segmentReset =>
    exact submit (fun _ _ => orBadParam (fun _ => ite (respond ..) (ite (respond ..) (resetSegment ..))) ..) ..
  case segmentStatus => exact submit (fun _ _ => orBadParam (fun _ => respond ..) ..) ..
  case recoveryEnd => exact recoveryEnd ..
  case portSetup => exact submit (fun _ _ => orBadParam (fun _ => (modPort ..).trans (respond ..)) ..) ..
  case attentionAsserted => exact (modSeg ..).trans (choose ..)
  case attentionDeasserted => exact modSeg ..
  case rearmExpiry => exact rearmExpiry ..
  case sweepReadEnd => exact endOfKind ..
  case exchangeIgnoredEnd => exact modPort ..

end KeepsHealth

/-- Settles O15: every command keeps the health figures, and taking it from the queue touches none of them. -/
theorem healthKept : Obligations.HealthKept := by
  intro s t ok hs
  unfold step at hs
  split at hs
  · cases hs; exact ok
  · next c rest _ =>
    have taken : KeepsHealth s { s with pending := rest } := .of_entries rfl fun _ => rfl
    exact (taken.trans (.exec hs)).keeps ok

end Sys2Proof.Machine
end

section
/-! PROOFS. The commands of the health monitor: WATCH and WATCH_CANCEL (06 R123, R127, R128), and SET_LIMITS (06 R121). -/

namespace Sys2Proof.Machine

variable {s : State} {p : Port} {t : Tag} {h : Handle} {st : Status}

/-! ## WATCH (06 R123) -/

section Watches

variable {gen : Gen} {interval limit : Nat}

/-- The bytes of a WATCH reach its block. -/
theorem exec_watch (gen : Gen) (hr : Ready s p t) (i₁ : 1 ≤ interval) (i₂ : interval ≤ 255) (l₁ : 1 ≤ limit)
    (l₂ : limit ≤ 255) : exec (.watch p (byte t.val) [byte h.val, byte gen.val, byte interval, byte limit]) s =
      .next ((s.accepted p t).answerWatchCommand p t ⟨h, gen, interval, limit⟩) := by
  show Host.Outcome.next _ = _
  rw [State.submit_ready hr (by simp), parseWatch_bytes h gen i₁ i₂ l₁ l₂, State.orBadParam_some]

theorem State.watchRefusal_busy (current : s.refRefusal h gen = none) (watched : (s.entry h).watch.isSome = true) :
    s.watchRefusal h gen = some .busy := by simp [State.watchRefusal, current, watched]

theorem State.watchRefusal_probing (current : s.refRefusal h gen = none) (unwatched : (s.entry h).watch = none)
    (probing : (s.entry h).state = .probing) : s.watchRefusal h gen = some .notReady := by simp [State.watchRefusal, current, unwatched, probing]

theorem State.watchRefusal_none (current : s.refRefusal h gen = none) (unwatched : (s.entry h).watch = none)
    (ready : (s.entry h).state ≠ .probing) : s.watchRefusal h gen = none := by simp [State.watchRefusal, current, unwatched, ready]

theorem State.answerWatchCommand_refused (refused : s.watchRefusal h gen = some st) :
    s.answerWatchCommand p t ⟨h, gen, interval, limit⟩ = s.respond p t st [] := by simp only [State.answerWatchCommand, refused]

/-- A WATCH that is not refused is answered at once, refused for a segment that is OFF, or leaves a WATCH (06 R123). -/
theorem State.answerWatchCommand_decided (taken : s.watchRefusal h gen = none) : s.answerWatchCommand p t ⟨h, gen, interval, limit⟩ =
    if (s.entry h).state = .present then s.respond p t .ok (watchResult h (s.entry h) 0 howPresent)
    else if s.segmentIsOff h then s.respond p t .segmentOff []
    else s.setEntry h { s.entry h with watch := some ⟨p, t, interval, limit, interval, .none, 0⟩ } := by
  simp only [State.answerWatchCommand, taken, State.modEntry_eq]

theorem State.segmentIsOff_iff {pl : Place} (place : (s.entry h).place = some pl) :
    s.segmentIsOff h = true ↔ (s.seg pl.seg).state = .off := by simp [State.segmentIsOff, place]

/-! ## WATCH_CANCEL (06 R127, R128) -/

/-- The bytes of a WATCH_CANCEL reach its block. -/
theorem exec_watchCancel (gen : Gen) (hr : Ready s p t) : exec (.watchCancel p (byte t.val) [byte h.val, byte gen.val]) s =
    .next ((s.accepted p t).answerWatchCancel p t (h, gen)) := by
  show Host.Outcome.next _ = _
  rw [State.submit_ready hr (by simp), parseRefOnly_byte, State.orBadParam_some]

theorem State.answerWatchCancel_notFound (current : s.refRefusal h gen = none) (other : ∀ w ∈ (s.entry h).watch, w.port ≠ p) :
    s.answerWatchCancel p t (h, gen) = s.respond p t .notFound [] := by
  have foreign : (s.entry h).watch.any (fun w => w.port == p) = false := by simpa [Option.any_eq_false] using other
  simp [State.answerWatchCancel, current, foreign]

theorem State.answerWatchCancel_own {w : Watch} (current : s.refRefusal h gen = none) (hw : (s.entry h).watch = some w)
    (own : w.port = p) : s.answerWatchCancel p t (h, gen) = (s.answerWatch h .aborted 0x00).respond p t .ok [] := by
  simp [State.answerWatchCancel, current, hw, own]

/-- Settles O46: WATCH is decided in order, and WATCH_CANCEL answers the watch that it finds before itself. -/
theorem watchBeginsAndIsCancelled : Obligations.WatchBeginsAndIsCancelled := by
  constructor
  · intro s p t h pl interval limit hr place i₁ i₂ l₁ l₂ e ask
    have asked : exec ask s = .next ((s.accepted p t).answerWatchCommand p t ⟨h, e.gen, interval, limit⟩) := exec_watch e.gen hr i₁ i₂ l₁ l₂
    have entry : (s.accepted p t).entry h = e := s.entry_accepted p t h
    have state : ((s.accepted p t).entry h).state = e.state := congrArg Entry.state entry
    have watch : ((s.accepted p t).entry h).watch = e.watch := congrArg Entry.watch entry
    have current (used : e.state ≠ .vacant) (live : e.state ≠ .retiring) : (s.accepted p t).refRefusal h e.gen = none := by
      rw [State.refRefusal_accepted]
      exact State.refRefusal_none rfl used live
    have off : (s.accepted p t).segmentIsOff h = true ↔ (s.seg pl.seg).state = .off := by
      rw [State.segmentIsOff_iff ((congrArg Entry.place entry).trans place), State.seg_accepted]
    rw [asked]
    refine ⟨fun watched used live => ?_, fun none => ⟨fun probing => ?_, fun present => ?_, fun away => ?_⟩⟩
    · rw [State.answerWatchCommand_refused (State.watchRefusal_busy (current used live) (by rw [watch]; exact watched))]
    · have current := current (by simp [probing]) (by simp [probing])
      rw [State.answerWatchCommand_refused (State.watchRefusal_probing current (watch.trans none) (state.trans probing))]
    · have taken := State.watchRefusal_none (current (by simp [present]) (by simp [present])) (watch.trans none) (by rw [state, present]; nofun)
      rw [State.answerWatchCommand_decided taken, entry, if_pos present, watchResult, present]
      rfl
    · have out : e.state ≠ .present ∧ e.state ≠ .vacant ∧ e.state ≠ .retiring ∧ e.state ≠ .probing := by
        rcases away with away | away <;> simp [away]
      obtain ⟨absent, used, live, ready⟩ := out
      have taken := State.watchRefusal_none (current used live) (watch.trans none) (by rwa [state])
      rw [State.answerWatchCommand_decided taken, entry, if_neg absent]
      exact ⟨fun down => by rw [if_pos (off.2 down)], fun up => by rw [if_neg (mt off.1 up)]⟩
  · intro s p t h hr used live e ask
    have asked : exec ask s = .next ((s.accepted p t).answerWatchCancel p t (h, e.gen)) := exec_watchCancel e.gen hr
    have entry : (s.accepted p t).entry h = e := s.entry_accepted p t h
    have current : (s.accepted p t).refRefusal h e.gen = none := by
      rw [State.refRefusal_accepted]
      exact State.refRefusal_none rfl used live
    rw [asked]
    refine ⟨fun other => ?_, fun w hw own => ?_⟩
    · rw [State.answerWatchCancel_notFound current (by rwa [entry])]
    · have watched : ((s.accepted p t).entry h).watch = some w := (congrArg Entry.watch entry).trans hw
      rw [State.answerWatchCancel_own current watched own, State.answerWatch_some watched _ rfl, entry, own]

end Watches

/-! ## SET_LIMITS (06 R121) -/

section SetLimits

/-- The bytes of a SET_LIMITS reach its block. -/
theorem exec_setLimits {n : Nat} (hr : Ready s p t) (low : 1 ≤ n) (high : n ≤ 7) :
    exec (.setLimits p (byte t.val) [byte n]) s = .next ((s.accepted p t).answerSetLimits p t n) := by
  have reads : parseLimits [byte n] = some n := by simp [parseLimits, toNat_byte_of_le (n := n) (by omega), low, high]
  show Host.Outcome.next _ = _
  rw [State.submit_ready hr (by simp), reads, State.orBadParam_some]

/-- Where no sweep runs no arbiter has to choose (08 R143). -/
theorem State.answerSetLimits_eq (calm : ∀ g, (s.seg g).sweep.state ≠ .sweeping) (n : Nat) :
    s.answerSetLimits p t n = (s.limitTo n).respond p t .ok [byte s.threshold, byte n] := by
  have none : ((s.limitTo n).respond p t .ok [byte s.threshold, byte n]).sweepingSegs = [] := by
    refine List.filter_eq_nil_iff.2 fun g _ => ?_
    rw [State.seg_respond, State.seg_limitTo, beq_iff_eq]
    exact calm g
  exact congrArg (State.forAnyOrder ((s.limitTo n).respond p t .ok [byte s.threshold, byte n]) · State.choose) none

theorem State.limitPosted_accepted (n : Nat) (q : Port) : (s.accepted p t).limitPosted n q = s.limitPosted n q := by
  simp only [State.limitPosted, State.entry_accepted]

/-- Settles O49: the threshold is applied to each entry once, in the order of the handles, before the command is answered. -/
theorem setLimitsApplies : Obligations.SetLimitsApplies := by
  intro s p t n hr low high calm falls
  have exceeds (h : Handle) : (s.entry h).overLimit n = true ↔ falls h := Entry.overLimit_iff
  have done := State.answerSetLimits_eq (p := p) (t := t) (s := s.accepted p t) (by simpa only [State.seg_accepted] using calm) n
  refine ⟨_, (exec_setLimits hr low high).trans (congrArg _ done), ?_, fun g => ?_, fun h => ?_, fun q => ⟨s.limitPosted n q, ?_, fun h => ?_, ?_⟩⟩
  · exact (Quiet.respond ..).threshold.trans (State.threshold_limitTo ..)
  · rw [State.seg_respond, State.seg_limitTo, State.seg_accepted]
  · rw [State.entry_respond, State.entry_limitTo, State.entry_accepted]
    exact ⟨fun full => if_pos ((exceeds h).2 full), fun below => if_neg (mt (exceeds h).1 below)⟩
  · exact State.pairwise_limitPosted ..
  · rw [State.mem_limitPosted, exceeds]
  · rw [State.respond_eq, State.port_setPort, State.port_limitTo, State.port_limitTo, State.limitPosted_accepted,
      State.limitPosted_accepted, State.threshold_accepted]
    simp only [State.entry_accepted]
    split
    · next hq => rw [hq]
    · rfl

end SetLimits

end Sys2Proof.Machine
end

section
/-! PROOFS. The commands SURVEY and SURVEY_ABORT (07 R131, R132, R138, R139). -/

namespace Sys2Proof.Machine

section SurveyCommands

variable {s : State} {p : Port} {t : Tag} {g : Seg} {c : Cursor} {low high : Nat}

/-! ## SURVEY (07 R131, R132) -/

theorem parseSurvey_bytes (g : Seg) (above : 8 ≤ low) (ordered : low ≤ high) (below : high ≤ 119) :
    parseSurvey [byte g.val, byte low, byte high] = some (g, low, high) := by
  have readLow := toNat_byte_of_le (n := low) (by omega)
  have readHigh := toNat_byte_of_le (n := high) (by omega)
  simp [parseSurvey, readLow, readHigh, above, ordered, below]

/-- The bytes of a SURVEY reach its block. -/
theorem exec_survey (g : Seg) (ready : Ready s p t) (above : 8 ≤ low) (ordered : low ≤ high) (below : high ≤ 119) :
    exec (.survey p (byte t.val) [byte g.val, byte low, byte high]) s = .next ((s.accepted p t).answerSurveyCommand p t (g, low, high)) := by
  show Host.Outcome.next _ = _
  rw [State.submit_ready ready (by simp), parseSurvey_bytes g above ordered below, State.orBadParam_some]

theorem State.answerSurveyCommand_refused {st : Status} (refused : (s.seg g).state.refusal = some st) (low high : Nat) :
    s.answerSurveyCommand p t (g, low, high) = s.respond p t st [] := by simp only [State.answerSurveyCommand, refused]

theorem State.answerSurveyCommand_busy (runs : (s.seg g).state.refusal = none) (running : (s.seg g).survey = some c) (low high : Nat) :
    s.answerSurveyCommand p t (g, low, high) = s.respond p t .busy [portCode c.port, byte c.next] := by
  simp only [State.answerSurveyCommand, runs, running]

theorem State.answerSurveyCommand_begun (runs : (s.seg g).state.refusal = none) (free : (s.seg g).survey = none) (low high : Nat) :
    s.answerSurveyCommand p t (g, low, high) = (s.setSeg g { s.seg g with survey := some (Cursor.start p t low high) }).choose g := by
  simp only [State.answerSurveyCommand, runs, free, State.modSeg_eq]

/-! ## SURVEY_ABORT (07 R138, R139) -/

/-- The bytes of a SURVEY_ABORT reach its block. -/
theorem exec_surveyAbort (ready : Ready s p t) (g : Seg) :
    exec (.surveyAbort p (byte t.val) [byte g.val]) s = .next ((s.accepted p t).answerSurveyAbort p t g) := by
  show Host.Outcome.next _ = _
  rw [State.submit_ready ready (by simp), parseSegOnly_byte, State.orBadParam_some]

/-- A survey that runs is answered, and its cursor is removed. -/
theorem State.answerSurvey_running (running : (s.seg g).survey = some c) (st : Status) :
    s.answerSurvey g st = (s.setSeg g { s.seg g with survey := none }).respond c.port c.tag st (surveyResult g c) := by
  simpa only [State.setSeg_seg] using s.answerSurvey_setSeg g running st

theorem State.answerSurveyAbort_notFound (free : (s.seg g).survey = none) :
    s.answerSurveyAbort p t g = s.respond p t .notFound [] := by simp [State.answerSurveyAbort, free]

theorem State.answerSurveyAbort_running (running : (s.seg g).survey = some c) : s.answerSurveyAbort p t g =
    ((s.setSeg g { s.seg g with survey := none }).respond c.port c.tag .aborted (surveyResult g c)).respond p t .ok [] := by
  rw [State.answerSurveyAbort, if_pos (by simp [running]), State.answerSurvey_running running]

/-- Settles O50: a SURVEY is decided by the segment's state and then by the cursor that stands there, and an abort by the cursor alone. -/
theorem surveyBeginsAndIsAborted : Obligations.SurveyBeginsAndIsAborted := by
  constructor
  · intro s p t g low high ready above ordered below ask
    have asked : exec ask s = .next ((s.accepted p t).answerSurveyCommand p t (g, low, high)) := exec_survey g ready above ordered below
    have same : (s.accepted p t).seg g = s.seg g := s.seg_accepted p t g
    rw [asked]
    refine ⟨fun off => ?_, fun stuck => ?_, fun on alive => ?_⟩
    · rw [State.answerSurveyCommand_refused (st := .segmentOff) (by rw [same, off]; rfl)]
    · rw [State.answerSurveyCommand_refused (st := .busStuck) (by rw [same, stuck]; rfl)]
    · have runs : ((s.accepted p t).seg g).state.refusal = none := by rw [same, SegState.refusal_eq_none on alive]
      refine ⟨fun c running => ?_, fun free => ?_⟩
      · rw [State.answerSurveyCommand_busy runs (by rw [same, running])]
      · rw [State.answerSurveyCommand_begun runs (by rw [same, free]), same, Cursor.start]
  · intro s p t g ready
    rw [exec_surveyAbort ready]
    refine ⟨fun free => ?_, fun c running => ?_⟩
    · rw [State.answerSurveyAbort_notFound (by rw [State.seg_accepted, free])]
    · rw [State.answerSurveyAbort_running (by rw [State.seg_accepted, running]), State.seg_accepted, surveyResult]

end SurveyCommands

end Sys2Proof.Machine
end

section
/-! PROOFS. The attention inputs and the re-arm interval (08 R142, R148, R149). -/

namespace Sys2Proof.Machine

/-! ## The start of a sweep (08 R142) -/

/-- On any segment, OFF and STUCK ones too, a start is tried: `Segment.startSweep_eq` without its hypotheses. -/
theorem Segment.startSweep_ite (r : Segment) : r.startSweep = { r with
    sweep := if r.config.attnen = true ∧ r.state ≠ .off ∧ r.state ≠ .stuck ∧ r.sattn = true ∧ r.sweep.state = .idle
      then ⟨.sweeping, some 0, 0, 0, 0⟩ else r.sweep } := by
  by_cases off : r.state = .off
  · rw [Segment.startSweep, if_neg (by simp [Segment.following, off]), if_neg (by simp [off])]
  by_cases stuck : r.state = .stuck
  · rw [Segment.startSweep, if_neg (by simp [stuck]), if_neg (by simp [stuck])]
  · simp [Segment.startSweep_eq r off stuck, off, stuck]

section Inputs

variable {s : State} {g : Seg}

/-! ## The attention input (08 R142, R148, R149) -/

theorem State.attentionAsserted_starts (follows : (s.seg g).config.attnen = true) (on : (s.seg g).state ≠ .off)
    (free : (s.seg g).state ≠ .stuck) (idle : (s.seg g).sweep.state = .idle) : s.attentionAsserted g =
      (s.setSeg g { s.seg g with sattn := true, sweep := ⟨.sweeping, some 0, 0, 0, 0⟩ }).choose g := by
  rw [State.attentionAsserted, State.modSeg_eq, Segment.startSweep_ite, if_pos ⟨follows, on, free, rfl, idle⟩]

theorem State.attentionAsserted_stays (rests : (s.seg g).config.attnen = false ∨ (s.seg g).state = .off ∨ (s.seg g).state = .stuck ∨
    (s.seg g).sweep.state ≠ .idle) : s.attentionAsserted g = (s.setSeg g { s.seg g with sattn := true }).choose g := by
  rw [State.attentionAsserted, State.modSeg_eq, Segment.startSweep_ite, if_neg]
  rintro ⟨follows, on, free, -, idle⟩
  rcases rests with apart | off | stuck | runs
  · exact absurd follows (by simp [apart])
  · exact on off
  · exact free stuck
  · exact runs idle

theorem State.attentionDeasserted_eq (s : State) (g : Seg) : s.attentionDeasserted g = s.setSeg g { s.seg g with
    sattn := false
    sweep := if (s.seg g).sweep.state = .disarmed then { (s.seg g).sweep with state := .idle, rearmleft := 0 } else (s.seg g).sweep } := by
  rw [State.attentionDeasserted, State.modSeg_eq]
  split <;> rfl

/-! ## The re-arm interval (08 R148) -/

theorem Segment.rearmDue_iff {r : Segment} :
    r.rearmDue = true ↔ r.sweep.state = .disarmed ∧ r.sweep.rearmleft = 0 ∧ 1 ≤ r.config.rearm := by
  simp [Segment.rearmDue, and_assoc, Nat.one_le_iff_ne_zero, Nat.pos_iff_ne_zero]

/-- The unit is IDLE once it re-arms, so whether a sweep starts turns on its segment and its input alone. -/
theorem Segment.startSweep_rearm (r : Segment) : r.rearm.startSweep = { r with sweep :=
    if r.config.attnen = true ∧ r.state ≠ .off ∧ r.state ≠ .stuck ∧ r.sattn = true
    then ⟨.sweeping, some 0, 0, 0, 0⟩ else { r.sweep with state := .idle, rearmleft := 0 } } := by
  simp only [Segment.startSweep_ite, Segment.rearm, and_true]

theorem State.rearmExpiry_due (due : (s.seg g).rearmDue = true) :
    s.rearmExpiry g = (s.setSeg g (s.seg g).rearm.startSweep).choose g := by
  rw [State.rearmExpiry, if_pos due, State.modSeg_eq]

end Inputs

/-- Settles O59: the start of a sweep is decided by what the input, the unit and its segment are, after a re-arm too. -/
theorem inputStartsSweepsAndUnitsRearm : Obligations.InputStartsSweepsAndUnitsRearm := by
  refine ⟨fun s g => ⟨fun follows on free idle => ?_, fun rests => ?_, ?_⟩, fun s g disarmed left runs => ?_⟩
  · exact congrArg Host.Outcome.next (State.attentionAsserted_starts follows on free idle)
  · exact congrArg Host.Outcome.next (State.attentionAsserted_stays rests)
  · exact congrArg Host.Outcome.next (s.attentionDeasserted_eq g)
  · show Host.Outcome.next (s.rearmExpiry g) = _
    rw [State.rearmExpiry_due (Segment.rearmDue_iff.2 ⟨disarmed, left, runs⟩), Segment.startSweep_rearm]

end Sys2Proof.Machine
end

section
/-! PROOFS. The notice list of a port: what a posting does to it, and that the list stays well formed (09 R158, R159). -/

namespace Sys2Proof.Machine

variable {pr : PortRec} {l : List Notice} {n : Notice} {k : NoticeKind} {sub : Subject} {d : Byte}

/-! ## A posting that merges, is appended, or is dropped (09 R158) -/

/-- A notice of the list once a posting has been merged into those of its KIND and SUBJECT (09 R158). -/
def Notice.taking (n : Notice) (k : NoticeKind) (sub : Subject) (d : Byte) : Notice :=
  if n.is k sub then { n with detail := d, merge := min 255 (n.merge + 1) } else n

theorem Notice.taking_of_is (hk : n.kind = k) (hs : n.subject = sub) :
    n.taking k sub d = { n with detail := d, merge := min 255 (n.merge + 1) } := if_pos (Notice.is_iff.2 ⟨hk, hs⟩)

theorem Notice.taking_of_not (other : ¬(n.kind = k ∧ n.subject = sub)) : n.taking k sub d = n := if_neg (mt Notice.is_iff.1 other)

@[simp] theorem Notice.kind_taking (n : Notice) (k : NoticeKind) (sub : Subject) (d : Byte) : (n.taking k sub d).kind = n.kind := by
  unfold Notice.taking
  split <;> rfl

@[simp] theorem Notice.subject_taking (n : Notice) (k : NoticeKind) (sub : Subject) (d : Byte) :
    (n.taking k sub d).subject = n.subject := by
  unfold Notice.taking
  split <;> rfl

theorem State.port_post_same (s : State) (p : Port) (k : NoticeKind) (sub : Subject) (d : Byte) :
    (s.post p k sub d).port p = (s.port p).offer k sub d := State.port_modPort_same ..

theorem PortRec.offer_merges (waits : ∃ n ∈ pr.notices, n.kind = k ∧ n.subject = sub) (d : Byte) : pr.offer k sub d = { pr with
    notices := pr.notices.map (fun n => n.taking k sub d), latch := pr.latch.map (fun l => l.merged pr.notices.head? k sub) } := by
  obtain ⟨n, hn, is⟩ := waits
  exact if_pos (List.any_eq_true.2 ⟨n, hn, Notice.is_iff.2 is⟩)

/-- No notice of this KIND and SUBJECT waits, so a posting finds none to merge into. -/
theorem PortRec.any_is_of_new (new : ∀ n ∈ pr.notices, ¬(n.kind = k ∧ n.subject = sub)) :
    ¬(pr.notices.any (fun n => n.is k sub) = true) := fun merges => by
  obtain ⟨n, hn, is⟩ := List.any_eq_true.1 merges
  exact new n hn (Notice.is_iff.1 is)

theorem PortRec.offer_appends (new : ∀ n ∈ pr.notices, ¬(n.kind = k ∧ n.subject = sub)) (room : pr.notices.length < 16) (d : Byte) :
    pr.offer k sub d = { pr with notices := pr.notices ++ [⟨k, sub, d, 1⟩] } := by
  rw [PortRec.offer, if_neg (PortRec.any_is_of_new new)]
  exact if_pos room

theorem PortRec.offer_drops (new : ∀ n ∈ pr.notices, ¬(n.kind = k ∧ n.subject = sub)) (full : 16 ≤ pr.notices.length) (d : Byte) :
    pr.offer k sub d = { pr with noticeLost := true, latch := pr.latch.map Latch.dropped } := by
  rw [PortRec.offer, if_neg (PortRec.any_is_of_new new)]
  exact if_neg (Nat.not_lt.2 full)

theorem map_taking_of_new (new : ∀ n ∈ l, ¬(n.kind = k ∧ n.subject = sub)) : l.map (fun n => n.taking k sub d) = l :=
  (List.map_congr_left fun n hn => Notice.taking_of_not (new n hn)).trans (List.map_id' l)

/-- In a list without duplicates a posting is merged into the one notice of its KIND and SUBJECT, and the others stay. -/
theorem distinctNotices.map_taking {pre post : List Notice} (distinct : distinctNotices (pre ++ n :: post)) (hk : n.kind = k)
    (hs : n.subject = sub) : (pre ++ n :: post).map (fun n => n.taking k sub d) =
      pre ++ { n with detail := d, merge := min 255 (n.merge + 1) } :: post := by
  obtain ⟨-, tail, apart⟩ := List.pairwise_append.1 distinct
  obtain ⟨after, -⟩ := List.pairwise_cons.1 tail
  have before := map_taking_of_new (d := d) fun m hm ⟨hk', hs'⟩ => apart m hm n List.mem_cons_self ⟨hk'.trans hk.symm, hs'.trans hs.symm⟩
  have behind := map_taking_of_new (d := d) fun m hm ⟨hk', hs'⟩ => after m hm ⟨hk.trans hk'.symm, hs.trans hs'.symm⟩
  rw [List.map_append, List.map_cons, before, behind, Notice.taking_of_is hk hs]

/-! ## The list stays well formed -/

theorem Notice.merge_taking (ok : 1 ≤ n.merge ∧ n.merge ≤ 255) : 1 ≤ (n.taking k sub d).merge ∧ (n.taking k sub d).merge ≤ 255 := by
  unfold Notice.taking
  split
  · dsimp only
    omega
  · exact ok

theorem NoticesOk.map_taking (ok : NoticesOk l) : NoticesOk (l.map (fun n => n.taking k sub d)) where
  length := by simpa using ok.length
  distinct := by
    simpa only [distinctNotices, List.pairwise_map, Notice.kind_taking, Notice.subject_taking] using ok.distinct
  merge := List.forall_mem_map.2 fun n hn => Notice.merge_taking (ok.merge n hn)

theorem NoticesOk.append (ok : NoticesOk l) (new : ∀ n ∈ l, ¬(n.kind = k ∧ n.subject = sub)) (room : l.length < 16) :
    NoticesOk (l ++ [⟨k, sub, d, 1⟩]) where
  length := by simp; omega
  distinct := List.pairwise_append.2 ⟨ok.distinct, List.pairwise_singleton .., fun m hm x hx => by
    cases List.mem_singleton.1 hx
    exact new m hm⟩
  merge m hm := by
    rcases List.mem_append.1 hm with old | last
    · exact ok.merge m old
    · cases List.mem_singleton.1 last
      exact ⟨Nat.le_refl 1, show 1 ≤ 255 by decide⟩

theorem NoticesOk.tail {rest : List Notice} (ok : NoticesOk (n :: rest)) : NoticesOk rest where
  length := (Nat.le_succ _).trans ok.length
  distinct := (List.pairwise_cons.1 ok.distinct).2
  merge m hm := ok.merge m (List.mem_cons_of_mem _ hm)

theorem deliverHead_cons (n : Notice) (rest : List Notice) (merged : Nat) :
    deliverHead (n :: rest) merged = if merged = 0 then rest else { n with merge := merged } :: rest := rfl

/-- A head that has been delivered leaves the list, or stays for the merges it took, of which there were at most 255 (09 R159). -/
theorem NoticesOk.deliverHead (ok : NoticesOk l) {merged : Nat} (few : merged ≤ 255) : NoticesOk (Machine.deliverHead l merged) := by
  cases l with
  | nil => exact ok
  | cons n rest =>
    rw [deliverHead_cons]
    split
    · exact ok.tail
    · next some =>
      obtain ⟨apart, distinct⟩ := List.pairwise_cons.1 ok.distinct
      exact ⟨ok.length, List.pairwise_cons.2 ⟨apart, distinct⟩,
        List.forall_mem_cons.2 ⟨⟨Nat.pos_of_ne_zero some, few⟩, ok.tail.merge⟩⟩

/-! ## What is latched counts at most 255 merges (09 R159, 10 R170) -/

theorem Latch.merged_summaryByte (b : Byte) (m : Nat) (head : Option Notice) (k : NoticeKind) (sub : Subject) :
    (Latch.summaryByte b m).merged head k sub =
      if head.any (fun n => n.is k sub) then .summaryByte b (min 255 (m + 1)) else .summaryByte b m := rfl

theorem Latch.merged_notice (n : Notice) (m : Nat) (head : Option Notice) (k : NoticeKind) (sub : Subject) :
    (Latch.notice n m).merged head k sub = if n.is k sub then .notice n (min 255 (m + 1)) else .notice n m := rfl

theorem Latch.mergesOk.merged {x : Latch} (ok : x.mergesOk) (head : Option Notice) (k : NoticeKind) (sub : Subject) :
    (x.merged head k sub).mergesOk := by
  cases x with
  | summaryByte b m =>
    rw [Latch.merged_summaryByte]
    split
    · exact Nat.min_le_left ..
    · exact ok
  | notice n m =>
    rw [Latch.merged_notice]
    split
    · exact Nat.min_le_left ..
    · exact ok
  | response | marker | report => trivial

theorem Latch.mergesOk.dropped {x : Latch} (ok : x.mergesOk) : x.dropped.mergesOk := by
  cases x with
  | report => trivial
  | summaryByte | response | notice | marker => exact ok

/-- A posting keeps the notice list, and what is latched of it, well formed (09 R158, R159). -/
theorem PortRec.NoticesOk.offer (ok : pr.NoticesOk) (k : NoticeKind) (sub : Subject) (d : Byte) : (pr.offer k sub d).NoticesOk := by
  by_cases waits : ∃ n ∈ pr.notices, n.kind = k ∧ n.subject = sub
  · rw [PortRec.offer_merges waits]
    exact ⟨ok.list.map_taking, Option.forall_mem_map.2 fun x hx => (ok.latch x hx).merged ..⟩
  · have new : ∀ n ∈ pr.notices, ¬(n.kind = k ∧ n.subject = sub) := fun n hn is => waits ⟨n, hn, is⟩
    rcases Nat.lt_or_ge pr.notices.length 16 with room | full
    · rw [PortRec.offer_appends new room]
      exact ⟨ok.list.append new room, ok.latch⟩
    · rw [PortRec.offer_drops new full]
      exact ⟨ok.list, Option.forall_mem_map.2 fun x hx => (ok.latch x hx).dropped⟩

/-- Settles O11: a posting is an offer to the port's list, taken apart by whether a notice of its KIND and SUBJECT waits and whether there is room. -/
theorem postingMergesAppendsOrDrops : Obligations.PostingMergesAppendsOrDrops := by
  intro s p k sub d
  refine ⟨State.port_modPort_other .., State.entries_modPort .., State.segs_modPort .., fun ok => ?_,
    fun pre n post list hk hs distinct => ?_, fun new => ⟨fun room => ?_, fun full => ?_⟩⟩
  all_goals rw [State.port_post_same]
  · exact ok.offer k sub d
  · rw [PortRec.offer_merges ⟨n, by simp [list], hk, hs⟩]
    rw [list] at distinct
    exact ⟨by rw [list]; exact distinct.map_taking hk hs, rfl⟩
  · rw [PortRec.offer_appends new room]
    exact ⟨rfl, rfl⟩
  · rw [PortRec.offer_drops new full]
    exact ⟨rfl, rfl⟩

end Sys2Proof.Machine
end

section
/-! PROOFS. What each command does to the two ports: a port's record moves by its own exchanges, by what it is told, and by resets. With it, what
every step keeps of the notice lists (09 R158, R159). -/

namespace Sys2Proof.Machine

/-! ## What the blocks do with a request: they tell the ports of things -/

namespace Quiet

theorem orBadParam {α : Type} {s : State} {f : α → State} (hf : ∀ a, Quiet s (f a)) (p : Port) (t : Tag) (args : Option α) :
    Quiet s (s.orBadParam p t args f) := by
  cases args with
  | none => exact .respond ..
  | some a => exact hf a

theorem answerAdmit (s : State) (p : Port) (t : Tag) (a : AdmitArgs) : Quiet s (s.answerAdmit p t a) := by
  unfold State.answerAdmit
  split
  · exact .respond ..
  · exact (Quiet.modEntry ..).trans (.choose ..)

theorem retireHold (s : State) (h : Handle) : Quiet s (s.retireHold h) := .atSegOf (fun _ _ => .ite (.endHold ..) (.refl _)) _ _

theorem retireAdmission (s : State) (h : Handle) : Quiet s (s.retireAdmission h) :=
  (Quiet.ite (.tellFailure ..) (.refl s)).trans (.modEntry ..)

theorem enterRetiring (s : State) (p : Port) (t : Tag) (h : Handle) : Quiet s (s.enterRetiring p t h) :=
  ((((Quiet.modEntry ..).trans (.dropClaims ..)).trans (.answerWatch ..)).trans (.retireHold ..)).trans (.retireAdmission ..)

theorem retire (s : State) (p : Port) (t : Tag) (h : Handle) : Quiet s (s.retire p t h) := by
  unfold State.retire State.atSegOf
  dsimp only
  split
  · exact (Quiet.thenIf (.enterRetiring ..) (.completeRetire ..)).trans (.choose ..)
  · exact .refl s

theorem answerRetire (s : State) (p : Port) (t : Tag) (r : Handle × Gen) : Quiet s (s.answerRetire p t r) := by
  unfold State.answerRetire
  split
  · exact .respond ..
  · exact .retire ..

theorem answerLookup (s : State) (p : Port) (t : Tag) (a : Seg × AMode × Nat) : Quiet s (s.answerLookup p t a) := by
  unfold State.answerLookup
  split
  · exact .respond ..
  · exact .respond ..

theorem answerSubscribe (s : State) (p : Port) (t : Tag) (a : (Handle × Gen) × EntryMask) : Quiet s (s.answerSubscribe p t a) := by
  unfold State.answerSubscribe
  split
  · exact .respond ..
  · exact (Quiet.modEntry ..).trans (.respond ..)

theorem giveClaim (s : State) (p : Port) (t : Tag) (a : ClaimArgs) : Quiet s (s.giveClaim p t a) := (Quiet.modEntry ..).trans (.respond ..)

theorem conflict (s : State) (p : Port) (t : Tag) (a : ClaimArgs) : Quiet s (s.conflict p t a) :=
  .ite (.respond ..) (.ite (.respond ..) (.modEntry ..))

theorem answerClaim (s : State) (p : Port) (t : Tag) (a : ClaimArgs) : Quiet s (s.answerClaim p t a) := by
  unfold State.answerClaim
  split
  · exact .respond ..
  · dsimp only
    refine .ite (.respond ..) ?_
    split
    · exact .giveClaim ..
    · exact .giveClaim ..
    · exact .giveClaim ..
    · exact (Quiet.giveClaim ..).trans (.reevaluate ..)
    · exact .conflict ..

theorem answerRenew (s : State) (p : Port) (t : Tag) (r : Handle × Gen) : Quiet s (s.answerRenew p t r) := by
  unfold State.answerRenew
  split
  · exact .respond ..
  · split
    · exact .respond ..
    · exact (Quiet.modEntry ..).trans (.respond ..)

theorem answerRelease (s : State) (p : Port) (t : Tag) (r : Handle × Gen) : Quiet s (s.answerRelease p t r) := by
  unfold State.answerRelease
  split
  · exact .respond ..
  · exact .ite (((Quiet.release ..).trans (.respond ..)).trans (.atSegOf .choose _ _)) (.respond ..)

theorem acceptTransfer (s : State) (p : Port) (t : Tag) (g : Seg) (a : TransferArgs) : Quiet s (s.acceptTransfer p t g a) :=
  ((Quiet.modSeg ..).trans (.modEntry ..)).trans (.choose ..)

theorem answerTransfer (s : State) (p : Port) (t : Tag) (k : TxKind) (args : Option TransferArgs) :
    Quiet s (s.answerTransfer p t k args) := by
  unfold State.answerTransfer
  split
  · exact .respond ..
  · split
    · exact .respond ..
    · exact .acceptTransfer ..

theorem answerWatchCommand (s : State) (p : Port) (t : Tag) (a : WatchArgs) : Quiet s (s.answerWatchCommand p t a) := by
  unfold State.answerWatchCommand
  split
  · exact .respond ..
  · exact .ite (.respond ..) (.ite (.respond ..) (.modEntry ..))

theorem answerWatchCancel (s : State) (p : Port) (t : Tag) (r : Handle × Gen) : Quiet s (s.answerWatchCancel p t r) := by
  unfold State.answerWatchCancel
  split
  · exact .respond ..
  · exact .ite ((Quiet.answerWatch ..).trans (.respond ..)) (.respond ..)

/-- Once the threshold is replaced, the rest of SET_LIMITS only tells the ports (06 R121). -/
theorem answerSetLimits (s : State) (p : Port) (t : Tag) (n : Nat) : Quiet { s with threshold := n } (s.answerSetLimits p t n) :=
  ((Quiet.foldl (fun _ _ => .ite (.becomeLost ..) (.refl _)) ..).trans (.respond ..)).trans (.forAnyOrder .choose _ _)

theorem answerSurveyCommand (s : State) (p : Port) (t : Tag) (a : Seg × Nat × Nat) : Quiet s (s.answerSurveyCommand p t a) := by
  unfold State.answerSurveyCommand
  split
  · exact .respond ..
  · split
    · exact .respond ..
    · exact (Quiet.modSeg ..).trans (.choose ..)

theorem answerSurveyAbort (s : State) (p : Port) (t : Tag) (g : Seg) : Quiet s (s.answerSurveyAbort p t g) :=
  .ite ((Quiet.answerSurvey ..).trans (.respond ..)) (.respond ..)

theorem answerSetup (s : State) (p : Port) (t : Tag) (a : Seg × Settings) : Quiet s (s.answerSetup p t a) :=
  .ite ((Quiet.modSeg ..).trans (.respond ..)) (.respond ..)

theorem answerEnable (s : State) (p : Port) (t : Tag) (g : Seg) : Quiet s (s.answerEnable p t g) :=
  .ite (((Quiet.modSeg ..).trans (.respond ..)).trans (.choose ..)) (.respond ..)

theorem answerDisable (s : State) (p : Port) (t : Tag) (b : Bool) (g : Seg) : Quiet s (s.answerDisable p t b g) := by
  unfold State.answerDisable
  refine .ite (.respond ..) ?_
  split
  · exact .respond ..
  · exact .modSeg ..
  all_goals exact .goOff ..

theorem cutTransfer (s : State) (g : Seg) (c : Current) : Quiet s (s.cutTransfer g c) := by
  unfold State.cutTransfer
  split
  · exact .deliver ..
  · exact .deliver ..
  · exact .deliver ..
  all_goals exact .refl s

theorem cutSurvey (s : State) (g : Seg) (cut : Option Current) : Quiet s (s.cutSurvey g cut) := by
  cases cut with
  | none => exact .answerSurvey ..
  | some c => exact (Quiet.ite (.deliver ..) (.refl s)).trans (.answerSurvey ..)

theorem cutSweep (s : State) (g : Seg) (cut : Option Current) : Quiet s (s.cutSweep g cut) := by
  cases cut with
  | none => exact .modSeg ..
  | some c => exact (Quiet.ite (.deliver ..) (.refl s)).trans (.modSeg ..)

theorem resetSegment (s : State) (p : Port) (t : Tag) (g : Seg) (pr : Progress) : Quiet s (s.resetSegment p t g pr) := by
  unfold State.resetSegment
  refine Quiet.trans ?_ ((Quiet.dropHold ..).trans (.modSeg ..))
  refine Quiet.trans ?_ (((Quiet.completeAll ..).trans (.cutSurvey ..)).trans (.cutSweep ..))
  split
  · exact (Quiet.modSeg ..).trans (.cutTransfer ..)
  · exact .modSeg ..

theorem answerReset (s : State) (p : Port) (t : Tag) (pr : Progress) (g : Seg) : Quiet s (s.answerReset p t pr g) :=
  .ite (.respond ..) (.ite (.respond ..) (.resetSegment ..))

/-! ## Events of their own step -/

theorem busBusy (s : State) (g : Seg) (b : Bool) : Quiet s (s.busBusy g b) := by
  unfold State.busBusy
  split
  · exact .ite (.refl s) (.waitsTooLong ..)
  · exact .refl s

theorem recoveryEnd (s : State) (g : Seg) (obs : List LineObs) : Quiet s (s.recoveryEnd g obs) := by
  unfold State.recoveryEnd
  split
  · split
    · exact .outerRecovery ..
    · exact .refl s
  all_goals exact .busEvent ..

end Quiet

/-! ## The moves of a port's record -/

/-- All that a step can do to a port's record: its exchange begins, is decided, or ends (10 R163 to R171), a mask of it is replaced (09 R156, 10
R173), the blocks tell it of things, or it is reset (10 R174, R176). -/
inductive PortRec.Move (pr : PortRec) : PortRec → Prop
  | told {pr' : PortRec} : Told pr pr' → Move pr pr'
  | begins : Move pr pr.beginExchange
  | lead (b : Byte) : Move pr (pr.takeLead b)
  | rejected (bytes : List Byte) (why : Reason) : Move pr ((pr.receive bytes).reject why)
  | accepted (bytes : List Byte) (t : Tag) : Move pr ((pr.receive bytes).accept t)
  | takeResponse (clocked : Nat) : Move pr (pr.takeResponse clocked)
  | takeNotice (clocked : Nat) : Move pr (pr.takeNotice clocked)
  | takeSummary (clocked : Nat) : Move pr (pr.takeSummary clocked)
  | ignored : Move pr pr.endIgnored
  | attnOutMask (m : AttnMask) : Move pr { pr with attnOutMask := m }
  | segMasks (v : Vector SegMask 6) : Move pr { pr with segMasks := v }
  | portReset : Move pr {}
  | pinReset (cs : Bool) : Move pr { PortRec.pinReset with cs := cs }

/-- From `s` to `t` the record of each port has changed by moves alone. -/
structure PortMoves (s t : State) : Prop where
  port : ∀ p, Relation.ReflTransGen PortRec.Move (s.port p) (t.port p)

namespace PortMoves

variable {s t u : State}

/-- What every move keeps of a port's record is kept. -/
theorem keeps (moves : PortMoves s t) {P : PortRec → Prop} (move : ∀ a b, P a → a.Move b → P b) {p : Port} (ok : P (s.port p)) :
    P (t.port p) := by
  have path := moves.port p
  generalize t.port p = b at path ⊢
  induction path with
  | refl => exact ok
  | tail _ last ih => exact move _ _ ih last

theorem refl (s : State) : PortMoves s s := ⟨fun _ => .refl⟩

theorem trans (h₁ : PortMoves s t) (h₂ : PortMoves t u) : PortMoves s u := ⟨fun p => (h₁.port p).trans (h₂.port p)⟩

theorem of_ports (same : ∀ p, t.port p = s.port p) : PortMoves s t := ⟨fun p => by rw [same]⟩

theorem of_quiet (quiet : Quiet s t) : PortMoves s t := ⟨fun p => .single (.told (quiet.told p))⟩

theorem ite {c : Prop} [Decidable c] (h₁ : PortMoves s t) (h₂ : PortMoves s u) : PortMoves s (if c then t else u) := by
  split <;> assumption

theorem setPort {p : Port} {pr : PortRec} (move : (s.port p).Move pr) : PortMoves s (s.setPort p pr) where
  port q := by
    rw [State.port_setPort]
    split
    · next same => subst same; exact .single move
    · exact .refl

theorem modPort {p : Port} {f : PortRec → PortRec} (move : (s.port p).Move (f (s.port p))) : PortMoves s (s.modPort p f) := setPort move

/-! ## Requests -/

theorem submit {body : Tag → State → State} (hb : ∀ t s, PortMoves s (body t s)) (s : State) (p : Port) (tag code : Byte)
    (params : List Byte) : PortMoves s (s.submit p tag code params body) := by
  unfold State.submit
  refine ite ?_ (refl s)
  dsimp only
  split
  · exact setPort (.rejected ..)
  · exact (setPort (.accepted ..)).trans (hb _ _)

/-- A request whose block does no more to the ports than tell them of things. -/
theorem request {α : Type} {args : Option α} {answer : State → Tag → α → State} (quiet : ∀ s t a, Quiet s (answer s t a)) (s : State)
    (p : Port) (tag code : Byte) (params : List Byte) :
    PortMoves s (s.submit p tag code params (fun t u => u.orBadParam p t args (answer u t))) :=
  submit (fun t u => of_quiet (.orBadParam (quiet u t) ..)) ..

theorem transfer (s : State) (p : Port) (tag code : Byte) (params : List Byte) (k : TxKind) (args : Option TransferArgs) :
    PortMoves s (s.submit p tag code params (fun t u => u.answerTransfer p t k args)) :=
  submit (fun _ _ => of_quiet (.answerTransfer ..)) ..

theorem orBadParam {α : Type} {f : α → State} (hf : ∀ a, PortMoves s (f a)) (p : Port) (t : Tag) (args : Option α) :
    PortMoves s (s.orBadParam p t args f) := by
  cases args with
  | none => exact of_quiet (.respond ..)
  | some a => exact hf a

theorem submitRejected (s : State) (p : Port) (bytes : List Byte) : PortMoves s (s.submitRejected p bytes) := by
  refine ite ?_ (refl s)
  dsimp only
  split
  · exact setPort (.rejected ..)
  · exact refl s

theorem answerSegSubscribe (s : State) (p : Port) (t : Tag) (a : Seg × SegMask) : PortMoves s (s.answerSegSubscribe p t a) :=
  (modPort (.segMasks _)).trans (of_quiet (.respond ..))

theorem portSetup (s : State) (p : Port) (t : Tag) (m : AttnMask) : PortMoves s (s.portSetup p t m) :=
  (modPort (.attnOutMask _)).trans (of_quiet (.respond ..))

theorem answerSetLimits (s : State) (p : Port) (t : Tag) (n : Nat) : PortMoves s (s.answerSetLimits p t n) :=
  (of_ports (t := { s with threshold := n }) fun p => by cases p <;> rfl).trans (of_quiet (.answerSetLimits ..))

/-! ## Resets -/

theorem withdrawPort (s : State) (p : Port) : PortMoves s (s.withdrawPort p) := by
  have lowered : Quiet s ((s.withdrawn p).foldl (fun s t => s.modEntry t.handle Entry.lower) s) := .foldl (fun _ _ => .modEntry ..) _ _
  exact (of_quiet ((lowered.trans (.mapEntries ..)).trans (.mapSegs ..))).trans (setPort .portReset)

theorem portReset (s : State) (p : Port) : PortMoves s (s.portReset p) :=
  ite ((withdrawPort s p).trans (of_quiet ((Quiet.forAnyOrder .happen ..).trans (.forAnyOrder .choose ..)))) (refl s)

theorem pinReset (s : State) : PortMoves s s.pinReset where
  port
    | .A => .single (.pinReset _)
    | .B => .single (.pinReset _)

/-! ## Every command -/

/-- Every command changes the record of each port by moves alone. -/
theorem exec {i : Instr} (hx : Machine.exec i s = .next t) : PortMoves s t := by
  cases i <;> cases hx
  case exchangeBegin => exact modPort .begins
  case leadByte => exact modPort (.lead _)
  case submitRejected => exact submitRejected ..
  case badCommand => exact ite (refl s) (submit (fun _ _ => of_quiet (.respond ..)) ..)
  case takeResponse => exact modPort (.takeResponse _)
  case takeNotice => exact modPort (.takeNotice _)
  case summary => exact modPort (.takeSummary _)
  case portReset => exact portReset ..
  case pinReset => exact pinReset ..
  case admitDevice => exact request (fun _ _ => .answerAdmit _ _ _) ..
  case retire => exact request (fun _ _ => .answerRetire _ _ _) ..
  case retireComplete => exact of_quiet (.ite (.completeRetire ..) (.refl s))
  case lookup => exact request (fun _ _ => .answerLookup _ _ _) ..
  case list => exact request (fun _ _ _ => .respond ..) ..
  case readEntry => exact request (fun _ _ _ => .ite (.respond ..) (.respond ..)) ..
  case subscribe => exact request (fun _ _ => .answerSubscribe _ _ _) ..
  case segmentSubscribe => exact submit (fun _ _ => orBadParam (answerSegSubscribe _ _ _) ..) ..
  case claim => exact request (fun _ _ => .answerClaim _ _ _) ..
  case renew => exact request (fun _ _ => .answerRenew _ _ _) ..
  case release => exact request (fun _ _ => .answerRelease _ _ _) ..
  case waiterGranted => exact of_quiet (.reevaluate ..)
  case leaseLapse => exact of_quiet (.leaseLapse ..)
  case waitExpiry => exact of_quiet (.waitExpiry ..)
  case timebaseTick10ms => exact of_quiet (.tick10ms ..)
  case timebaseTick100us => exact of_quiet (.tick100us ..)
  case write => exact transfer ..
  case read => exact transfer ..
  case writeRead => exact transfer ..
  case ping => exact transfer ..
  case arbiterGrant => exact of_quiet (.choose ..)
  case arbLost => exact of_quiet (.busEvent ..)
  case busBusy => exact of_quiet (.busBusy ..)
  case clockTimeout => exact of_quiet (.busEvent ..)
  case hostTransactionEnd => exact of_quiet (.endOfKind ..)
  case holdExpiry => exact of_quiet (.holdExpiry ..)
  case settleEnd => exact of_quiet (.ite (.settleEnd ..) (.refl s))
  case admissionTransferEnd => exact of_quiet (.endOfKind ..)
  case watch => exact request (fun _ _ => .answerWatchCommand _ _ _) ..
  case watchCancel => exact request (fun _ _ => .answerWatchCancel _ _ _) ..
  case watchProbeDue => exact of_quiet (.watchProbeDue ..)
  case watchProbeEnd => exact of_quiet (.endOfKind ..)
  case setLimits => exact submit (fun _ _ => orBadParam (answerSetLimits _ _ _) ..) ..
  case survey => exact request (fun _ _ => .answerSurveyCommand _ _ _) ..
  case surveyAbort => exact request (fun _ _ => .answerSurveyAbort _ _ _) ..
  case surveyProbeEnd => exact of_quiet (.endOfKind ..)
  case segmentSetup => exact request (fun _ _ => .answerSetup _ _ _) ..
  case segmentEnable => exact request (fun _ _ => .answerEnable _ _ _) ..
  case segmentDisable => exact request (fun _ _ => .answerDisable _ _ _ _) ..
  case disableComplete => exact of_quiet (.ite (.busEvent ..) (.refl s))
  case segmentReset => exact request (fun _ _ => .answerReset _ _ _ _) ..
  case segmentStatus => exact request (fun _ _ _ => .respond ..) ..
  case recoveryEnd => exact of_quiet (.recoveryEnd ..)
  case portSetup => exact submit (fun _ _ => orBadParam (portSetup _ _ _) ..) ..
  case attentionAsserted => exact of_quiet ((Quiet.modSeg ..).trans (.choose ..))
  case attentionDeasserted => exact of_quiet (.modSeg ..)
  case rearmExpiry => exact of_quiet (.rearmExpiry ..)
  case sweepReadEnd => exact of_quiet (.endOfKind ..)
  case exchangeIgnoredEnd => exact modPort .ignored

/-- Every step changes the record of each port by moves alone; taking the command from the queue touches neither. -/
theorem step (hs : Machine.step s = .next t) : PortMoves s t := by
  unfold Machine.step at hs
  split at hs
  · cases hs; exact refl s
  · next c rest _ => exact (of_ports (t := { s with pending := rest }) fun p => by cases p <;> rfl).trans (exec hs)

end PortMoves

/-! ## Each move keeps the notice list -/

namespace PortRec.NoticesOk

variable {pr pr' : PortRec}

/-- Whatever else of the record changes, the list that stays is well formed, and so is a latch that counts at most 255 merges. -/
theorem of_notices (ok : pr.NoticesOk) (same : pr'.notices = pr.notices) (latch : ∀ l ∈ pr'.latch, l.mergesOk) : pr'.NoticesOk :=
  ⟨same ▸ ok.list, latch⟩

/-- With nothing latched there are no merges to count. -/
theorem unlatched (ok : pr.NoticesOk) (same : pr'.notices = pr.notices) (none : pr'.latch = Option.none) : pr'.NoticesOk :=
  ok.of_notices same (by simp [none])

theorem empty (empty : pr.notices = []) (none : pr.latch = Option.none) : pr.NoticesOk := ⟨empty ▸ ⟨by simp, .nil, by simp⟩, by simp [none]⟩

theorem told (ok : pr.NoticesOk) (told : Told pr pr') : pr'.NoticesOk := by
  induction told with
  | refl => exact ok
  | response r _ ih => exact ih.of_notices rfl ih.latch
  | notice k sub d _ ih => exact ih.offer k sub d

theorem endExchange (ok : pr.NoticesOk) : pr.endExchange.NoticesOk := ok.unlatched rfl rfl

theorem beginExchange (ok : pr.NoticesOk) : pr.beginExchange.NoticesOk := by
  unfold PortRec.beginExchange
  split
  · exact ok
  · refine ok.of_notices rfl fun l hl => ?_
    cases hl
    exact Nat.zero_le _

theorem headMerges_le (ok : pr.NoticesOk) : pr.headMerges ≤ 255 := by
  unfold PortRec.headMerges
  split
  · next b m latched => exact ok.latch _ latched
  all_goals exact Nat.zero_le _

/-- A notice is latched with the merges that its head took since chip select fell, counted so far in the summary byte's latch (10 R163, R170). -/
theorem mergesOk_leadLatch (ok : pr.NoticesOk) (k : Exchange) : ∀ l ∈ pr.leadLatch k, l.mergesOk := by
  intro l hl
  cases k with
  | takeNotice =>
    cases hl
    split
    · exact ok.headMerges_le
    · trivial
  | takeResponse =>
    cases hl
    split <;> trivial
  | summary => cases hl; trivial
  | none | lead | submit | portReset | ignored => cases hl

theorem takeLead (ok : pr.NoticesOk) (b : Byte) : (pr.takeLead b).NoticesOk := by
  unfold PortRec.takeLead
  split
  · split
    · next k _ => exact ok.of_notices rfl (ok.mergesOk_leadLatch k)
    · exact ok.unlatched rfl rfl
  · exact ok

theorem takeResponse (ok : pr.NoticesOk) (n : Nat) : (pr.takeResponse n).NoticesOk := by
  unfold PortRec.takeResponse
  split
  · split
    · split
      · exact ok.unlatched rfl rfl
      · exact ok.endExchange
    all_goals exact ok.endExchange
  · exact ok

theorem takeNotice (ok : pr.NoticesOk) (n : Nat) : (pr.takeNotice n).NoticesOk := by
  unfold PortRec.takeNotice
  split
  · split
    · next x m latched =>
      have few : m ≤ 255 := ok.latch _ latched
      split
      · exact ⟨ok.list.deliverHead few, ok.endExchange.latch⟩
      · exact ok.endExchange
    all_goals exact ok.endExchange
  · exact ok

theorem takeSummary (ok : pr.NoticesOk) (n : Nat) : (pr.takeSummary n).NoticesOk := by
  unfold PortRec.takeSummary
  split
  · split
    · split
      · exact ok.unlatched rfl rfl
      · exact ok.endExchange
    all_goals exact ok.endExchange
  · exact ok

theorem endIgnored (ok : pr.NoticesOk) : pr.endIgnored.NoticesOk := by
  unfold PortRec.endIgnored
  split
  · exact ok.endExchange
  · exact ok.endExchange
  · exact ok.endExchange
  all_goals exact ok

theorem move (ok : pr.NoticesOk) (move : pr.Move pr') : pr'.NoticesOk := by
  cases move with
  | told told => exact ok.told told
  | begins => exact ok.beginExchange
  | lead b => exact ok.takeLead b
  | rejected => exact ok.unlatched rfl rfl
  | accepted => exact ok.unlatched rfl rfl
  | takeResponse n => exact ok.takeResponse n
  | takeNotice n => exact ok.takeNotice n
  | takeSummary n => exact ok.takeSummary n
  | ignored => exact ok.endIgnored
  | attnOutMask => exact ok.of_notices rfl ok.latch
  | segMasks => exact ok.of_notices rfl ok.latch
  | portReset => exact .empty rfl rfl
  | pinReset => exact .empty rfl rfl

end PortRec.NoticesOk

/-- Settles O12: a step changes a port's record by moves, and each move keeps the notice list and what is latched of it. -/
theorem noticeListsKept : Obligations.NoticeListsKept :=
  fun _ _ ok hs p => (PortMoves.step hs).keeps (fun _ _ kept move => kept.move move) (ok p)

end Sys2Proof.Machine
end

section
/-! PROOFS. How TAKE_RESPONSE, TAKE_NOTICE and SUMMARY end, after the last byte that was latched or before it (09 R159, 10 R169 to R171). -/

namespace Sys2Proof.Machine

section Takes

variable {pr : PortRec} {n : Nat}

theorem Latch.whole_iff {l : Latch} : l.whole n = true ↔ l.bytes.length ≤ n := decide_eq_true_iff

/-! ## TAKE_RESPONSE (10 R169) -/

theorem exec_takeResponse (s : State) (p : Port) (n : Nat) :
    exec (.takeResponse p n) s = .next (s.setPort p ((s.port p).takeResponse n)) := rfl

theorem PortRec.takeResponse_response {r : Response} (taking : pr.exchange = .takeResponse) (latched : pr.latch = some (.response r)) :
    pr.takeResponse n = if (responseFrame r).length ≤ n
      then { pr.endExchange with respq := pr.respq.tail, tags := pr.tags.set r.tag.val false } else pr.endExchange := by
  rw [PortRec.takeResponse, if_pos taking, latched]
  exact if_congr Latch.whole_iff rfl rfl

theorem PortRec.takeResponse_marker (taking : pr.exchange = .takeResponse) (latched : pr.latch = some .marker) :
    pr.takeResponse n = pr.endExchange := by
  rw [PortRec.takeResponse, if_pos taking, latched]

/-! ## TAKE_NOTICE (09 R159, 10 R170) -/

theorem exec_takeNotice (s : State) (p : Port) (n : Nat) : exec (.takeNotice p n) s = .next (s.setPort p ((s.port p).takeNotice n)) := rfl

/-- A notice frame has eight bytes (11 R182). -/
@[simp] theorem length_noticeFrame (x : Notice) : (noticeFrame x).length = 8 := by
  unfold noticeFrame
  cases x.subject <;> simp [subjectBytes]

theorem PortRec.takeNotice_notice {x : Notice} {merged : Nat} (taking : pr.exchange = .takeNotice)
    (latched : pr.latch = some (.notice x merged)) :
    pr.takeNotice n = if 8 ≤ n then { pr.endExchange with notices := deliverHead pr.notices merged } else pr.endExchange := by
  rw [PortRec.takeNotice, if_pos taking, latched, ← length_noticeFrame x]
  exact if_congr Latch.whole_iff rfl rfl

theorem PortRec.takeNotice_marker (taking : pr.exchange = .takeNotice) (latched : pr.latch = some .marker) :
    pr.takeNotice n = pr.endExchange := by
  rw [PortRec.takeNotice, if_pos taking, latched]

/-! ## SUMMARY (10 R171) -/

theorem exec_summary (s : State) (p : Port) (n : Nat) : exec (.summary p n) s = .next (s.setPort p ((s.port p).takeSummary n)) := rfl

theorem PortRec.takeSummary_report {bytes : List Byte} {rej lost again : Bool} (taking : pr.exchange = .summary)
    (latched : pr.latch = some (.report bytes rej lost again)) :
    pr.takeSummary n = if bytes.length ≤ n then { pr.endExchange with
        rejected := if rej then false else pr.rejected
        reason := if rej then none else pr.reason
        noticeLost := if lost && !again then false else pr.noticeLost }
      else pr.endExchange := by
  have rejected : (pr.rejected && !rej) = if rej then false else pr.rejected := by cases rej <;> simp
  have noticeLost : (pr.noticeLost && (!lost || again)) = if lost && !again then false else pr.noticeLost := by
    cases lost <;> cases again <;> simp
  rw [PortRec.takeSummary, if_pos taking, latched, ← rejected, ← noticeLost]
  exact if_congr Latch.whole_iff rfl rfl

end Takes

/-! ## A posting that merges into the head during the exchange (10 R163, R170) -/

section Merges

variable {s : State} {p : Port} {head : Notice} {rest : List Notice}

/-- A posting of the head's KIND and SUBJECT is merged into what is latched as into the list. -/
theorem State.latch_post_head (list : (s.port p).notices = head :: rest) (d : Byte) :
    ((s.post p head.kind head.subject d).port p).latch =
      (s.port p).latch.map (fun l => l.merged (some head) head.kind head.subject) := by
  rw [State.port_post_same, PortRec.offer_merges ⟨head, by simp [list], rfl, rfl⟩, list]
  rfl

end Merges

/-- Settles O4: the end of each exchange is decided by how many bytes were clocked out of those latched. -/
theorem takesDeliverWholeOrNotAtAll : Obligations.TakesDeliverWholeOrNotAtAll := by
  refine ⟨fun s p n taking => ⟨fun r rest latched queue => ⟨fun whole => ?_, fun cut => ?_⟩, fun latched => ?_⟩,
    fun s p n taking => ⟨fun x merged head rest latched list => ⟨fun whole => ?_, fun cut => ?_⟩, fun latched => ?_⟩,
    fun s p k sub d head rest list hk hs => ?_,
    fun s p n b0 b1 b2 b3 rej lost again taking latched => ⟨fun whole => ?_, fun cut => ?_⟩⟩
  · rw [exec_takeResponse, PortRec.takeResponse_response taking latched, if_pos whole, queue]
    rfl
  · rw [exec_takeResponse, PortRec.takeResponse_response taking latched, if_neg (Nat.not_le.2 cut)]
    rfl
  · rw [exec_takeResponse, PortRec.takeResponse_marker taking latched]
    rfl
  · rw [exec_takeNotice, PortRec.takeNotice_notice taking latched, if_pos whole, list, deliverHead_cons]
    rfl
  · rw [exec_takeNotice, PortRec.takeNotice_notice taking latched, if_neg (Nat.not_le.2 cut)]
    rfl
  · rw [exec_takeNotice, PortRec.takeNotice_marker taking latched]
    rfl
  · subst hk hs
    refine ⟨fun b m latched => ?_, fun x m latched hk hs => ?_⟩
    · rw [State.latch_post_head list, latched, Option.map_some, Latch.merged_summaryByte, if_pos (by simp [Notice.is])]
    · rw [State.latch_post_head list, latched, Option.map_some, Latch.merged_notice, if_pos (Notice.is_iff.2 ⟨hk, hs⟩)]
  · rw [exec_summary, PortRec.takeSummary_report taking latched, if_pos (show [b0, b1, b2, b3].length ≤ n from whole)]
    rfl
  · rw [exec_summary, PortRec.takeSummary_report taking latched, if_neg (show ¬[b0, b1, b2, b3].length ≤ n from Nat.not_le.2 cut)]
    rfl

end Sys2Proof.Machine
end

section
/-! PROOFS. SUBSCRIBE and SEGMENT_SUBSCRIBE (09 R155, R156). -/

namespace Sys2Proof.Machine

section Subscriptions

variable {s : State} {p : Port} {t : Tag} {h : Handle} {gen : Gen}

/-- The bytes of a SUBSCRIBE reach its block. -/
theorem exec_subscribe (h : Handle) (gen : Gen) (m : EntryMask) (hr : Ready s p t) :
    exec (.subscribe p (byte t.val) [byte h.val, byte gen.val, entryMaskCode m]) s =
      .next ((s.accepted p t).answerSubscribe p t ((h, gen), m)) := by
  have read : parseSubscribe [byte h.val, byte gen.val, entryMaskCode m] = some ((h, gen), m) := by simp [parseSubscribe]
  show Host.Outcome.next _ = _
  rw [State.submit_ready hr (by simp), read, State.orBadParam_some]

theorem State.answerSubscribe_refused {st : Status} (refused : s.refRefusal h gen = some st) (m : EntryMask) :
    s.answerSubscribe p t ((h, gen), m) = s.respond p t st [] := by
  simp only [State.answerSubscribe, refused]

theorem State.answerSubscribe_taken (current : s.refRefusal h gen = none) (m : EntryMask) : s.answerSubscribe p t ((h, gen), m) =
    (s.setEntry h ((s.entry h).setSubs p m)).respond p t .ok [entryMaskCode ((s.entry h).subs p), entryMaskCode m] := by
  simp only [State.answerSubscribe, current, State.modEntry_eq]

/-- The bytes of a SEGMENT_SUBSCRIBE reach its block. -/
theorem exec_segmentSubscribe (g : Seg) (m : SegMask) (hr : Ready s p t) :
    exec (.segmentSubscribe p (byte t.val) [byte g.val, segMaskCode m]) s = .next ((s.accepted p t).answerSegSubscribe p t (g, m)) := by
  have read : parseSegSubscribe [byte g.val, segMaskCode m] = some (g, m) := by simp [parseSegSubscribe]
  show Host.Outcome.next _ = _
  rw [State.submit_ready hr (by simp), read, State.orBadParam_some]

/-- The mask is replaced and the answer placed in one change of the port's record. -/
theorem State.answerSegSubscribe_eq (s : State) (p : Port) (t : Tag) (g : Seg) (m : SegMask) :
    s.answerSegSubscribe p t (g, m) = s.modPort p (fun r => { r with
      segMasks := r.segMasks.set g.val m
      respq := r.respq ++ [⟨t, .ok, false, false, [segMaskCode (s.port p).segMasks[g.val], segMaskCode m]⟩] }) := by
  simp only [State.answerSegSubscribe, State.respond_eq, State.modPort_eq, State.port_setPort_same, State.setPort_setPort]

end Subscriptions

/-- Settles O24: the reference is judged first, and then one mask of the requesting port is replaced. -/
theorem subscriptionsReplaceMasks : Obligations.SubscriptionsReplaceMasks := by
  refine ⟨fun s p t h gen m hr => ⟨fun hg live serving => ?_, fun stale => ?_, fun hg retiring => ?_⟩, fun s p t g m hr => ?_⟩
  · rw [exec_subscribe h gen m hr, State.answerSubscribe_taken (by rw [State.refRefusal_accepted, State.refRefusal_none hg live serving]),
      State.entry_accepted]
  · rw [exec_subscribe h gen m hr, State.answerSubscribe_refused (by rw [State.refRefusal_accepted, State.refRefusal_stale stale])]
  · rw [exec_subscribe h gen m hr, State.answerSubscribe_refused (by rw [State.refRefusal_accepted, State.refRefusal_gone hg retiring])]
  · have kept : ((s.accepted p t).port p).segMasks = (s.port p).segMasks := by rw [State.port_accepted_same]; rfl
    rw [exec_segmentSubscribe g m hr, State.answerSegSubscribe_eq, kept]

end Sys2Proof.Machine
end

section
/-! PROOFS. Why a tag can stay OUTSTANDING with nothing in use of it (10 R167): an accepted RETIRE is carried out on the segment of its entry, and
`State.WorkOk` and `State.TagsOk` allow an entry in use that has no place, and so no segment. -/

namespace Sys2Proof.Machine

/-- An entry in use that has no place. -/
def placeless : Entry := { Entry.vacant 0 with state := .present }

/-- Entry 0 is in use without a place, and Port A brings a RETIRE of it with tag 0. -/
def retirePlaceless : State :=
  { (State.reset.setEntry 0 placeless).setPort .A { exchange := .submit } with pending := [.retire .A (byte 0) [byte 0, byte 0]] }

theorem retirePlaceless_entry (h : Handle) : retirePlaceless.entry h = if h = 0 then placeless else Entry.vacant 0 := by
  revert h; decide

theorem retirePlaceless_seg (g : Seg) : retirePlaceless.seg g = {} := State.seg_reset g

/-- No entry has a work: there is none in the part. -/
theorem retirePlaceless_works (h : Handle) : retirePlaceless.works h = 0 := by
  have idle : (retirePlaceless.entry h).admWaiting = false ∧ (retirePlaceless.entry h).watchDue = false := by
    rw [retirePlaceless_entry]; split <;> exact ⟨rfl, rfl⟩
  simp [State.works, retirePlaceless_seg, idle, bit]

theorem retirePlaceless_workOk : retirePlaceless.WorkOk where
  segs g := by rw [retirePlaceless_seg]; exact Segment.ok_default
  vacant h := by rw [retirePlaceless_entry]; split <;> simp [placeless, Entry.vacant]
  record h := by rw [retirePlaceless_entry]; split <;> simp [placeless, Entry.vacant]
  first h a ha := by rw [retirePlaceless_entry] at ha; split at ha <;> cases ha
  planned h a ha := by rw [retirePlaceless_entry] at ha; split at ha <;> cases ha
  bus g h c hc := by simp [retirePlaceless_seg] at hc
  queue g t ht := by simp [retirePlaceless_seg] at ht
  hold g ho hh := by simp [retirePlaceless_seg] at hh
  count h := by rw [retirePlaceless_works, retirePlaceless_entry]; split <;> rfl

/-- No request waits for an answer, and no response waits in RESPQ. -/
theorem retirePlaceless_tagsInUse (p : Port) : retirePlaceless.tagsInUse p = [] := by
  have owners (h : Handle) : (retirePlaceless.entry h).owners = [] := by rw [retirePlaceless_entry]; split <;> rfl
  cases p <;> simp [State.tagsInUse, owners, retirePlaceless_seg, Segment.owners] <;> rfl

theorem retirePlaceless_tagsOk : retirePlaceless.TagsOk where
  count p t := by rw [retirePlaceless_tagsInUse]; revert t; cases p <;> decide
  retiring h hs := by rw [retirePlaceless_entry] at hs; split at hs <;> cases hs
  retire h hr := by rw [retirePlaceless_entry] at hr; split at hr <;> cases hr
  source h a ha := by rw [retirePlaceless_entry] at ha; split at ha <;> cases ha
  latch p r hl := by cases p <;> cases hl

/-- An accepted RETIRE of an entry with no place does nothing: what it does is done on the segment of the entry. -/
theorem State.retire_of_no_place {s : State} {h : Handle} (none : (s.entry h).place = Option.none) (p : Port) (t : Tag) :
    s.retire p t h = s := by
  simp only [State.retire, State.atSegOf, none]

/-- An accepted RETIRE of an entry with no place takes its tag, and nothing will answer it. -/
theorem exec_retire_of_no_place {s : State} {p : Port} {t : Tag} {h : Handle} {g : Gen} (hr : Ready s p t) (none : (s.entry h).place = Option.none)
    (accepted : (s.accepted p t).retireRefusal p h g = Option.none) :
    exec (.retire p (byte t.val) [byte h.val, byte g.val]) s = .next (s.accepted p t) := by
  rw [exec_retire h g hr, State.answerRetire, accepted]
  exact congrArg _ (State.retire_of_no_place (by rw [State.entry_accepted]; exact none) p t)

/-- Taking a tag gives it to nobody yet. -/
theorem State.tagsInUse_accepted (s : State) (p q : Port) (t : Tag) : (s.accepted p t).tagsInUse q = s.tagsInUse q := by
  have respq : ((s.accepted p t).port q).respq = (s.port q).respq := by
    rw [State.accepted, State.port_setPort]
    split
    · next same => subst same; rfl
    · rfl
  simp only [State.tagsInUse, respq, State.entry_accepted, State.seg_accepted]

/-- Tag 0 is OUTSTANDING after the step, and no request and no response has it. -/
theorem retirePlaceless_step :
    ∃ u, step retirePlaceless = .next u ∧ u.tagsInUse .A = [] ∧ (u.port .A).tags[(0 : Tag).val] = true := by
  let s : State := { retirePlaceless with pending := [] }
  have entry : s.entry 0 = placeless := retirePlaceless_entry 0
  have ready : Ready s .A 0 := ⟨rfl, by decide⟩
  have current : (s.accepted .A 0).retireRefusal .A 0 0 = none := by
    simp [State.retireRefusal, State.refRefusal, State.isCurrent, entry, placeless, Entry.vacant]
  have taken : step retirePlaceless = exec (.retire .A (byte (0 : Tag).val) [byte (0 : Handle).val, byte (0 : Gen).val]) s := rfl
  refine ⟨s.accepted .A 0, ?_, ?_, by decide⟩
  · rw [taken, exec_retire_of_no_place ready (by rw [entry]; rfl) current]
  · rw [State.tagsInUse_accepted]; exact retirePlaceless_tagsInUse .A

/-- Refutes O19: on `retirePlaceless` the accepted RETIRE leaves its tag OUTSTANDING with no request that waits and no response. -/
theorem not_tagsKept : ¬ Obligations.TagsKept := by
  rintro ⟨kept, -⟩
  obtain ⟨u, hstep, unused, outstanding⟩ := retirePlaceless_step
  have count := (kept retirePlaceless u retirePlaceless_workOk retirePlaceless_tagsOk hstep).count .A 0
  rw [unused, outstanding] at count
  exact absurd count (by decide)

end Sys2Proof.Machine
end

section
/-! PROOFS. How an exchange begins, is decided by its lead byte, and ends without effect (10 R163, R164, R169 to R171, R176, 11 R177). -/

namespace Sys2Proof.Machine

/-! ## The summary byte (10 R164, 11 R177) -/

theorem bit_le_one (b : Bool) : bit b ≤ 1 := by cases b <;> decide

/-- A bit of a byte made of a number, read from the number. -/
theorem getLsbD_byte_of_bit {i n : Nat} {b : Bool} (low : i < 8) (stands : n / 2 ^ i % 2 = bit b) : (byte n).getLsbD i = b := by
  rw [byte, BitVec.getLsbD_ofNat, Nat.testBit_eq_decide_div_mod_eq, stands, decide_eq_true low]
  cases b <;> rfl

theorem PortRec.freeTags_eq_count (pr : PortRec) : pr.freeTags = pr.tags.toList.count false := by
  rw [PortRec.freeTags, List.count_eq_length_filter]
  congr 2
  funext b
  cases b <;> rfl

theorem PortRec.freeTags_le (pr : PortRec) : pr.freeTags ≤ 8 :=
  (List.length_filter_le ..).trans (by simp)

/-- The parts of the summary byte stand in their places: the four indicators above FREETAGS, which is at most 8. -/
theorem PortRec.summaryByte_parts (pr : PortRec) :
    pr.summaryByte.getLsbD 7 = !pr.respq.isEmpty ∧ pr.summaryByte.getLsbD 6 = !pr.notices.isEmpty ∧
      pr.summaryByte.getLsbD 5 = pr.rejected ∧ pr.summaryByte.getLsbD 4 = pr.noticeLost ∧ pr.summaryByte.toNat % 16 = pr.freeTags := by
  have resp := bit_le_one (!pr.respq.isEmpty)
  have notice := bit_le_one (!pr.notices.isEmpty)
  have rejected := bit_le_one pr.rejected
  have lost := bit_le_one pr.noticeLost
  have free := pr.freeTags_le
  rw [PortRec.summaryByte, toNat_byte]
  refine ⟨getLsbD_byte_of_bit (by decide) ?_, getLsbD_byte_of_bit (by decide) ?_, getLsbD_byte_of_bit (by decide) ?_,
    getLsbD_byte_of_bit (by decide) ?_, ?_⟩
  all_goals omega

/-! ## The exchange begins, is decided, ends -/

theorem exec_exchangeBegin (s : State) (p : Port) : exec (.exchangeBegin p) s = .next (s.setPort p (s.port p).beginExchange) := rfl

theorem PortRec.beginExchange_of_high {pr : PortRec} (high : pr.cs = false) :
    pr.beginExchange = { pr with cs := true, exchange := .lead, latch := some (.summaryByte pr.summaryByte 0) } := by
  simp [PortRec.beginExchange, high]

theorem exec_leadByte (s : State) (p : Port) (b : Byte) : exec (.leadByte p b) s = .next (s.setPort p ((s.port p).takeLead b)) := rfl

/-- A lead byte that names a kind of exchange decides it. -/
theorem PortRec.takeLead_known {pr : PortRec} {b : Byte} {k : Exchange} (leading : pr.exchange = .lead) (known : leadKind b = some k) :
    pr.takeLead b = { pr with exchange := k, latch := pr.leadLatch k } := by
  rw [PortRec.takeLead, if_pos leading, known]

theorem PortRec.takeLead_unknown {pr : PortRec} {b : Byte} (leading : pr.exchange = .lead) (unknown : leadKind b = none) :
    pr.takeLead b = { pr with exchange := .ignored, latch := none, rejected := true, reason := some .badLead } := by
  rw [PortRec.takeLead, if_pos leading, unknown]

theorem leadKind_eq_none {b : Byte} (unknown : b ∉ [(0x01 : Byte), 0x02, 0x03, 0x04, 0x0A]) : leadKind b = none := by
  simp only [List.mem_cons, List.not_mem_nil, or_false, not_or] at unknown
  obtain ⟨submit, response, notice, summary, reset⟩ := unknown
  rw [leadKind, if_neg submit, if_neg response, if_neg notice, if_neg summary, if_neg reset]

theorem PortRec.leadLatch_takeResponse (pr : PortRec) :
    pr.leadLatch .takeResponse = some (pr.respq.head?.elim .marker .response) := by
  cases queue : pr.respq <;> simp [PortRec.leadLatch, queue]

theorem PortRec.leadLatch_takeNotice {pr : PortRec} {b : Byte} {merged : Nat} (latched : pr.latch = some (.summaryByte b merged)) :
    pr.leadLatch .takeNotice = some (pr.notices.head?.elim .marker (fun n => .notice n merged)) := by
  have merges : pr.headMerges = merged := by simp [PortRec.headMerges, latched]
  cases list : pr.notices <;> simp [PortRec.leadLatch, list, merges]

theorem exec_exchangeIgnoredEnd (s : State) (p : Port) :
    exec (.exchangeIgnoredEnd p) s = .next (s.setPort p (s.port p).endIgnored) := rfl

theorem PortRec.endIgnored_of_mem {pr : PortRec} (idle : pr.exchange ∈ [Exchange.none, .lead, .ignored]) : pr.endIgnored = pr.endExchange := by
  simp only [List.mem_cons, List.not_mem_nil, or_false] at idle
  rcases idle with kind | kind | kind <;> simp only [PortRec.endIgnored, kind]

/-- Settles O3: the summary byte is latched with its parts in place, the lead byte names the kind or none, and an exchange without effect ends. -/
theorem exchangesBeginAndAreDecided : Obligations.ExchangesBeginAndAreDecided := by
  refine ⟨fun s p high => ?_, fun s p leading => ⟨?_, ?_, fun b merged latched => ?_, ?_, ?_, fun b unknown => ?_⟩, fun s p idle => ?_⟩
  · obtain ⟨resp, notice, rejected, lost, free⟩ := (s.port p).summaryByte_parts
    exact ⟨(s.port p).summaryByte, by rw [exec_exchangeBegin, PortRec.beginExchange_of_high high], resp, notice, rejected, lost,
      by rw [free, PortRec.freeTags_eq_count]⟩
  · rw [exec_leadByte, PortRec.takeLead_known (k := .submit) leading rfl]; rfl
  · rw [exec_leadByte, PortRec.takeLead_known (k := .takeResponse) leading rfl, PortRec.leadLatch_takeResponse]
  · rw [exec_leadByte, PortRec.takeLead_known (k := .takeNotice) leading rfl, PortRec.leadLatch_takeNotice latched]
  · rw [exec_leadByte, PortRec.takeLead_known (k := .summary) leading rfl]; rfl
  · rw [exec_leadByte, PortRec.takeLead_known (k := .portReset) leading rfl]; rfl
  · rw [exec_leadByte, PortRec.takeLead_unknown leading (leadKind_eq_none unknown)]
  · rw [exec_exchangeIgnoredEnd, PortRec.endIgnored_of_mem idle]; rfl

end Sys2Proof.Machine
end

section
/-! PROOFS. How a port judges what a SUBMIT exchange brings (10 R165), and why the check byte betrays every single changed byte (11 R178). -/

namespace Sys2Proof.Machine

/-! ## The check byte (11 R178) -/

/-- The bit that went into the CRC last, taken back. -/
def uncrcBit (c : Byte) : Byte := if c.getLsbD 0 then ((c ^^^ 0x07) >>> 1) ||| 0x80 else c >>> 1

theorem uncrcBit_crcBit : ∀ c : Byte, uncrcBit (crcBit c) = c := by decide

theorem crcBit_injective : Function.Injective crcBit := Function.LeftInverse.injective uncrcBit_crcBit

/-- What eight bits of the CRC make of the sum of its value and a byte. -/
def crcEight (c : Byte) : Byte := crcBit (crcBit (crcBit (crcBit (crcBit (crcBit (crcBit (crcBit c)))))))

theorem crcByte_eq (c b : Byte) : crcByte c b = crcEight (c ^^^ b) := rfl

theorem crcEight_injective : Function.Injective crcEight := by
  have two := crcBit_injective.comp crcBit_injective
  have four := two.comp two
  exact four.comp four

theorem crcByte_left_injective (b : Byte) : Function.Injective (crcByte · b) := fun _ _ same =>
  (BitVec.xor_left_inj b).1 (crcEight_injective same)

theorem crcByte_right_injective (c : Byte) : Function.Injective (crcByte c) := fun _ _ same =>
  (BitVec.xor_right_inj c).1 (crcEight_injective same)

/-- A difference in the CRC is never lost in the bytes that follow. -/
theorem foldl_crcByte_injective (l : List Byte) : Function.Injective (l.foldl crcByte) := by
  induction l with
  | nil => exact Function.injective_id
  | cons b l ih => exact ih.comp (crcByte_left_injective b)

/-- One changed byte changes the CRC. -/
theorem crc8_set_ne {l : List Byte} {i : Nat} {b : Byte} (inside : i < l.length) (changed : b ≠ l[i]) : crc8 (l.set i b) ≠ crc8 l := by
  have old : l = l.take i ++ l[i] :: l.drop (i + 1) := by rw [List.cons_getElem_drop_succ, List.take_append_drop]
  rw [List.set_eq_take_append_cons_drop, if_pos inside]
  nth_rw 3 [old]
  rw [crc8_append, crc8_append]
  exact fun same => changed (crcByte_right_injective _ (foldl_crcByte_injective _ same))

/-- A check byte is right exactly where it brings the CRC to 0. -/
theorem crc8_check_iff {l : List Byte} {n : Nat} (length : l.length = n + 1) : crc8 (l.take n) = l.getD n 0 ↔ crc8 l = 0 := by
  have last : n < l.length := by omega
  have split : l = l.take n ++ [l[n]] := by
    conv_lhs => rw [← List.take_append_drop n l, List.drop_eq_getElem_cons last, List.drop_of_length_le (by omega)]
  have whole : crc8 l = crcByte (crc8 (l.take n)) l[n] := by
    conv_lhs => rw [split, crc8_append]
    rfl
  rw [whole, List.getD_eq_getElem _ _ last]
  refine ⟨fun right => by rw [right, crcByte_self], fun zero => ?_⟩
  exact (crcByte_right_injective _ (zero.trans (crcByte_self _).symm)).symm

theorem crc8_requestFrame (tag code : Byte) (params : List Byte) : crc8 (requestFrame tag code params) = 0 := by
  rw [requestFrame, withCheck, crc8_append]
  exact crcByte_self _

/-! ## The seven tests (10 R165) -/

theorem PortRec.freeTags_eq_zero_iff {pr : PortRec} : pr.freeTags = 0 ↔ pr.tags.toList.all id = true := by
  rw [PortRec.freeTags, List.length_eq_zero_iff, List.filter_eq_nil_iff, List.all_eq_true]
  simp only [Bool.not_eq_true', Bool.not_eq_false, id]

/-- A tag OUTSTANDING, read from the list of the tags. -/
theorem getD_tags (tags : Vector Bool 8) (t : Tag) : tags.toList.getD t.val false = tags[t.val] := by simp

section Judge

variable {pr : PortRec} {bytes : List Byte} {why : Reason}

/-- What FRAMEBUF holds of bytes that are as many as a LENGTH in its range says. -/
theorem PortRec.receive_whole {n : Nat} (length : bytes.length = n) (fits : n ≤ 44) :
    pr.receive bytes = { pr with frame := bytes, received := n } := by
  rw [PortRec.receive, List.take_of_length_le (by simp only [Config.frameBytes]; omega), length, Nat.min_eq_right (by omega)]

/-- A port rejects for the first of the seven tests that fails. -/
theorem PortRec.judge_of_frameReason (fails : frameReason pr.tags bytes = some why) : (pr.receive bytes).judge = .error why := by
  cases bytes with
  | nil => cases fails; rfl
  | cons len rest =>
    simp only [frameReason, List.getD_cons_zero, List.getD_cons_succ, List.cons_ne_nil, if_false, List.length_cons] at fails
    by_cases range : len.toNat < 4 ∨ 44 < len.toNat
    · rw [if_pos range] at fails
      cases fails
      simp [PortRec.receive, PortRec.judge, Config.frameBytes, range]
    rw [if_neg range] at fails
    by_cases short : rest.length + 1 < len.toNat
    · rw [if_pos short] at fails
      cases fails
      simp [PortRec.receive, PortRec.judge, Config.frameBytes, range, short]
    rw [if_neg short] at fails
    by_cases long : len.toNat < rest.length + 1
    · rw [if_pos long] at fails
      cases fails
      have few : ¬ min 255 (rest.length + 1) < len.toNat := by omega
      have many : len.toNat < min 255 (rest.length + 1) := by omega
      simp [PortRec.receive, PortRec.judge, Config.frameBytes, range, few, many]
    rw [if_neg long] at fails
    rw [PortRec.receive_whole (n := len.toNat) (by simp only [List.length_cons]; omega) (by omega), PortRec.judge]
    simp only [Config.frameBytes, range, if_false, Nat.lt_irrefl]
    by_cases check : crc8 ((len :: rest).take (len.toNat - 1)) ≠ (len :: rest).getD (len.toNat - 1) 0
    · rw [if_pos check] at fails ⊢
      cases fails; rfl
    rw [if_neg check] at fails ⊢
    by_cases bad : 8 ≤ (rest.getD 0 0).toNat
    · rw [if_pos bad] at fails
      cases fails
      rw [dif_neg (Nat.not_lt.2 bad)]
    rw [if_neg bad] at fails
    rw [dif_pos (Nat.lt_of_not_le bad)]
    by_cases full : pr.tags.toList.all id = true
    · rw [if_pos full] at fails
      cases fails
      exact if_pos (PortRec.freeTags_eq_zero_iff.2 full)
    rw [if_neg full] at fails
    refine (if_neg (fun zero => full (PortRec.freeTags_eq_zero_iff.1 zero))).trans ?_
    rw [getD_tags pr.tags ⟨_, Nat.lt_of_not_le bad⟩] at fails
    by_cases taken : pr.tags[(rest.getD 0 0).toNat] = true
    · rw [if_pos taken] at fails
      cases fails
      exact if_neg (by simp only [PortRec.isFree, taken, Bool.not_true, Bool.false_eq_true, not_false_eq_true])
    · rw [if_neg taken] at fails
      cases fails

end Judge

/-! ## What is rejected -/

section Rejected

variable {s : State} {p : Port} {why : Reason}

theorem State.submit_rejected {tag code : Byte} {params : List Byte} {body : Tag → State → State} (submitting : (s.port p).exchange = .submit)
    (fails : frameReason (s.port p).tags (requestFrame tag code params) = some why) : s.submit p tag code params body = s.rejectedAs p why := by
  rw [State.submit, if_pos submitting]
  simp only [PortRec.judge_of_frameReason fails]
  rfl

theorem exec_submitRejected {bytes : List Byte} (submitting : (s.port p).exchange = .submit)
    (fails : frameReason (s.port p).tags bytes = some why) : exec (.submitRejected p bytes) s = .next (s.rejectedAs p why) := by
  show Host.Outcome.next (s.submitRejected p bytes) = _
  rw [State.submitRejected, if_pos submitting]
  simp only [PortRec.judge_of_frameReason fails]
  rfl

/-- A frame whose LENGTH and number of bytes are right is rejected CHECK where its CRC is not 0. -/
theorem frameReason_check {tags : Vector Bool 8} {bytes : List Byte} (low : 4 ≤ bytes.length) (high : bytes.length ≤ 44)
    (length : (bytes.getD 0 0).toNat = bytes.length) (wrong : crc8 bytes ≠ 0) : frameReason tags bytes = some .check := by
  have nonempty : bytes ≠ [] := fun empty => by simp [empty] at low
  have check : crc8 (bytes.take (bytes.length - 1)) ≠ bytes.getD (bytes.length - 1) 0 := fun right => wrong ((crc8_check_iff (by omega)).1 right)
  simp only [frameReason, length, if_neg nonempty, Nat.lt_irrefl, if_false, if_pos check]
  rw [if_neg (by omega)]

end Rejected

/-! ## Whole frames (10 R165 tests 5 to 7) -/

/-- A whole frame with its check byte right is judged by its tag alone. -/
theorem frameReason_requestFrame (tags : Vector Bool 8) (tag code : Byte) {params : List Byte} (fits : params.length ≤ 40) :
    frameReason tags (requestFrame tag code params) =
      if 8 ≤ tag.toNat then some .badTag
      else if tags.toList.all id then some .noTag
      else if tags.toList.getD tag.toNat false then some .tagInUse
      else none := by
  have length : (requestFrame tag code params).length = 3 + params.length + 1 := by rw [length_requestFrame]; omega
  have len : ((requestFrame tag code params).getD 0 0).toNat = 3 + params.length + 1 := by
    simp only [requestFrame, withCheck, List.cons_append, List.getD_cons_zero, toNat_byte]
    omega
  have named : (requestFrame tag code params).getD 1 0 = tag := rfl
  have nonempty : requestFrame tag code params ≠ [] := nofun
  have right := (crc8_check_iff length).2 (crc8_requestFrame tag code params)
  have range : ¬(3 + params.length + 1 < 4 ∨ 44 < 3 + params.length + 1) := by omega
  simp only [frameReason, nonempty, len, length, named, range, Nat.lt_irrefl, Nat.add_sub_cancel, right, ne_eq, not_true_eq_false, if_false]

theorem all_tags {tags : Vector Bool 8} (taken : ∀ u : Tag, tags[u.val] = true) : tags.toList.all id = true := by
  rw [List.all_eq_true]
  intro b hb
  obtain ⟨i, hi, rfl⟩ := List.getElem_of_mem hb
  exact taken ⟨i, by simpa using hi⟩

theorem not_all_tags {tags : Vector Bool 8} {u : Tag} (free : tags[u.val] = false) : ¬tags.toList.all id = true := by
  intro all
  have taken := List.all_eq_true.1 all _ (List.getElem_mem (n := u.val) (by simp))
  simp [free] at taken

/-- Settles O5: the port's judgement is the table of the tests, and a changed byte after LENGTH leaves a CRC other than 0. -/
theorem badFramesRejected : Obligations.BadFramesRejected := by
  refine ⟨fun s p bytes why submitting fails => exec_submitRejected submitting fails,
    fun s p tag code params i b submitting fits after inside changed => exec_submitRejected submitting ?_⟩
  have length : (requestFrame tag code params).length = 4 + params.length := length_requestFrame tag code params
  have within : i < (requestFrame tag code params).length := by omega
  refine frameReason_check (by rw [List.length_set]; omega) (by rw [List.length_set]; omega) ?_ ?_
  · obtain ⟨j, rfl⟩ := Nat.exists_eq_add_of_le' after
    rw [List.length_set, length]
    simp only [requestFrame, withCheck, List.cons_append, List.set_cons_succ, List.getD_cons_zero, toNat_byte]
    omega
  · rw [← crc8_requestFrame tag code params]
    exact crc8_set_ne within (by rwa [List.getD_eq_getElem _ _ within] at changed)

end Sys2Proof.Machine
end

section
/-! PROOFS. The parameter bytes that a request's block can read are exactly the well-formed ones (10 R166, 11 R179, R180). -/

namespace Sys2Proof.Machine

/-! ## Single operands (11 R179) -/

@[simp] theorem isSome_parseHandle (b : Byte) : (parseHandle b).isSome = decide (b.toNat < 48) := by
  unfold parseHandle; split <;> simp [*]

@[simp] theorem isSome_parseGen (b : Byte) : (parseGen b).isSome = decide (b.toNat < 16) := by
  unfold parseGen; split <;> simp [*]

@[simp] theorem isSome_parseSeg (b : Byte) : (parseSeg b).isSome = wfSeg b := by
  unfold parseSeg wfSeg; split <;> simp [*]

@[simp] theorem isSome_parseAMode (b : Byte) : (parseAMode b).isSome = (b = 0 || b = 1) := by revert b; decide
@[simp] theorem isSome_parseDMode (b : Byte) : (parseDMode b).isSome = decide (b.toNat < 2) := by revert b; decide
@[simp] theorem isSome_parseClaimMode (b : Byte) : (parseClaimMode b).isSome = (b = 1 || b = 2) := by revert b; decide
@[simp] theorem isSome_parseSpeed (b : Byte) : (parseSpeed b).isSome = decide (b.toNat < 3) := by revert b; decide
@[simp] theorem isSome_parseOnOff (b : Byte) : (parseOnOff b).isSome = decide (b.toNat < 2) := by revert b; decide

@[simp] theorem isSome_parseEntryMask (b : Byte) : (parseEntryMask b).isSome = decide (b.toNat < 8) := by
  unfold parseEntryMask; split <;> simp [*]
@[simp] theorem isSome_parseSegMask (b : Byte) : (parseSegMask b).isSome = decide (b.toNat < 4) := by
  unfold parseSegMask; split <;> simp [*]
@[simp] theorem isSome_parseAttnMask (b : Byte) : (parseAttnMask b).isSome = decide (b.toNat < 4) := by
  unfold parseAttnMask; split <;> simp [*]
@[simp] theorem isSome_parseFlags (b : Byte) : (parseFlags b).isSome = decide (b.toNat < 2) := by
  unfold parseFlags; split <;> simp [*]
@[simp] theorem isSome_parsePos (b : Byte) : (parsePos b).isSome = decide (1 ≤ b.toNat) := by
  unfold parsePos; split <;> simp [*]

theorem parseLen_eq (b : Byte) : parseLen b = if wfLen b then some b.toNat else none := by
  simp [parseLen, wfLen]

@[simp] theorem isSome_parseLen (b : Byte) : (parseLen b).isSome = wfLen b := by
  rw [parseLen_eq]; split <;> simp [*]

/-! ## Operands one after the other -/

@[simp] theorem any_parseLen (b : Byte) (f : Nat → Bool) : (parseLen b).any f = (wfLen b && f b.toNat) := by
  rw [parseLen_eq]; split <;> simp [*]

/-- An operand that the next one does not depend on is read by itself. -/
@[simp] theorem any_const {α : Type} (x : Option α) (c : Bool) : x.any (fun _ => c) = (x.isSome && c) := by cases x <;> simp

@[simp] theorem isSome_guard {α : Type} {c : Prop} [Decidable c] (x : Option α) : (if c then x else none).isSome = (decide c && x.isSome) := by
  split <;> simp [*]

@[simp] theorem isSome_unless {α : Type} {c : Bool} (x : Option α) : (if c then none else x).isSome = (!c && x.isSome) := by
  cases c <;> rfl

@[simp] theorem isSome_parseRef (h g : Byte) : (parseRef h g).isSome = wfRef h g := by
  simp [parseRef, wfRef, Option.isSome_bind]

/-- The range of an address goes by its mode (01 R18). -/
theorem any_parseAMode_addrInRange (am : Byte) (a : Nat) :
    (parseAMode am).any (fun m => addrInRange m a) = ((am = 0 && 0x08 ≤ a && a ≤ 0x77) || (am = 1 && a ≤ 0x3FF)) := by
  by_cases seven : am = 0
  · simp [parseAMode, addrInRange, seven]
  · by_cases ten : am = 1
    · simp [parseAMode, addrInRange, ten]
    · rw [parseAMode, if_neg seven, if_neg ten, decide_eq_false seven, decide_eq_false ten]
      rfl

@[simp] theorem isSome_parsePlace (g am hi lo : Byte) : (parsePlace g am hi lo).isSome = wfPlace g am hi lo := by
  have read : (parsePlace g am hi lo).isSome = (wfSeg g && (parseAMode am).any (fun m => addrInRange m (ofBe16 hi lo))) := by
    simp [parsePlace, Option.isSome_bind]
  rw [read, any_parseAMode_addrInRange]
  rfl

/-- CHAIN is clear and no other bit of FLAGS is set: the byte is 0 (05 R98). -/
@[simp] theorem any_parseFlags_clear (b : Byte) : (parseFlags b).any (!·) = decide (b = 0) := by revert b; decide

/-! ## The parameters of each command (11 R180) -/

section Params

theorem isSome_parseRefOnly : ∀ params, (parseRefOnly params).isSome = wfRefParams params
  | [_, _] => by simp [parseRefOnly, wfRefParams]
  | [] | [_] | _ :: _ :: _ :: _ => rfl

theorem isSome_parseSegOnly : ∀ params, (parseSegOnly params).isSome = wfSegParams params
  | [_] => by simp [parseSegOnly, wfSegParams]
  | [] | _ :: _ :: _ => rfl

variable (p : Port) (tag : Byte)

theorem wf_admitDevice : ∀ params, (Instr.admitDevice p tag params).wf = (wfTag tag && (parseAdmit params).isSome)
  | [_, _, _, _, _, _] => by simp [Instr.wf, parseAdmit, Option.isSome_bind, Bool.and_assoc]
  | [] | [_] | [_, _] | [_, _, _] | [_, _, _, _] | [_, _, _, _, _] | _ :: _ :: _ :: _ :: _ :: _ :: _ :: _ => rfl

theorem wf_lookup : ∀ params, (Instr.lookup p tag params).wf = (wfTag tag && (parseLookup params).isSome)
  | [_, _, _, _] => by simp [Instr.wf, parseLookup]
  | [] | [_] | [_, _] | [_, _, _] | _ :: _ :: _ :: _ :: _ :: _ => rfl

theorem wf_list : ∀ params, (Instr.list p tag params).wf = (wfTag tag && (parseList params).isSome)
  | [_, _] => by simp [Instr.wf, parseList, Option.isSome_bind, Bool.and_assoc]
  | [] | [_] | _ :: _ :: _ :: _ => rfl

theorem wf_subscribe : ∀ params, (Instr.subscribe p tag params).wf = (wfTag tag && (parseSubscribe params).isSome)
  | [_, _, _] => by simp [Instr.wf, parseSubscribe, Option.isSome_bind]
  | [] | [_] | [_, _] | _ :: _ :: _ :: _ :: _ => rfl

theorem wf_segmentSubscribe : ∀ params, (Instr.segmentSubscribe p tag params).wf = (wfTag tag && (parseSegSubscribe params).isSome)
  | [_, _] => by simp [Instr.wf, parseSegSubscribe, Option.isSome_bind]
  | [] | [_] | _ :: _ :: _ :: _ => rfl

theorem wf_claim : ∀ params, (Instr.claim p tag params).wf = (wfTag tag && (parseClaim params).isSome)
  | [_, _, _, _, _] => by simp [Instr.wf, parseClaim, Option.isSome_bind, Bool.and_assoc]
  | [] | [_] | [_, _] | [_, _, _] | [_, _, _, _] | _ :: _ :: _ :: _ :: _ :: _ :: _ => rfl

theorem wf_write : ∀ params, (Instr.write p tag params).wf = (wfTag tag && (parseWrite params).isSome)
  | _ :: _ :: _ :: _ :: _ :: _ :: _ => by simp [Instr.wf, parseWrite, Option.isSome_bind, Bool.and_assoc]
  | [] | [_] | [_, _] | [_, _, _] | [_, _, _, _] | [_, _, _, _, _] => rfl

theorem wf_read : ∀ params, (Instr.read p tag params).wf = (wfTag tag && (parseRead params).isSome)
  | [_, _, _, _, _, _] => by simp [Instr.wf, parseRead, Option.isSome_bind, Bool.and_assoc]
  | [] | [_] | [_, _] | [_, _, _] | [_, _, _, _] | [_, _, _, _, _] | _ :: _ :: _ :: _ :: _ :: _ :: _ :: _ => rfl

theorem wf_writeRead : ∀ params, (Instr.writeRead p tag params).wf = (wfTag tag && (parseWriteRead params).isSome)
  | _ :: _ :: _ :: _ :: _ :: _ :: _ :: _ => by simp [Instr.wf, parseWriteRead, Option.isSome_bind, Bool.and_assoc]
  | [] | [_] | [_, _] | [_, _, _] | [_, _, _, _] | [_, _, _, _, _] | [_, _, _, _, _, _] => rfl

theorem wf_ping : ∀ params, (Instr.ping p tag params).wf = (wfTag tag && (parsePing params).isSome)
  | [_, _, _] => by simp [Instr.wf, parsePing, Option.isSome_bind]
  | [] | [_] | [_, _] | _ :: _ :: _ :: _ :: _ => rfl

theorem wf_watch : ∀ params, (Instr.watch p tag params).wf = (wfTag tag && (parseWatch params).isSome)
  | [_, _, _, _] => by simp [Instr.wf, parseWatch, Option.isSome_bind, Bool.and_assoc]
  | [] | [_] | [_, _] | [_, _, _] | _ :: _ :: _ :: _ :: _ :: _ => rfl

theorem wf_setLimits : ∀ params, (Instr.setLimits p tag params).wf = (wfTag tag && (parseLimits params).isSome)
  | [_] => by simp [Instr.wf, parseLimits]
  | [] | _ :: _ :: _ => rfl

theorem wf_survey : ∀ params, (Instr.survey p tag params).wf = (wfTag tag && (parseSurvey params).isSome)
  | [_, _, _] => by simp [Instr.wf, parseSurvey, Option.isSome_bind, Bool.and_assoc]
  | [] | [_] | [_, _] | _ :: _ :: _ :: _ :: _ => rfl

theorem wf_segmentSetup : ∀ params, (Instr.segmentSetup p tag params).wf = (wfTag tag && (parseSetup params).isSome)
  | [_, _, _, _, _, _, _, _, _] => by simp [Instr.wf, parseSetup, Option.isSome_bind, Bool.and_assoc, Nat.lt_succ_iff (n := 3)]
  | [] | [_] | [_, _] | [_, _, _] | [_, _, _, _] | [_, _, _, _, _] | [_, _, _, _, _, _] | [_, _, _, _, _, _, _]
  | [_, _, _, _, _, _, _, _] | _ :: _ :: _ :: _ :: _ :: _ :: _ :: _ :: _ :: _ :: _ => rfl

theorem wf_portSetup : ∀ params, (Instr.portSetup p tag params).wf = (wfTag tag && (parsePortSetup params).isSome)
  | [_] => by simp [Instr.wf, parsePortSetup]
  | [] | _ :: _ :: _ => rfl

end Params

end Sys2Proof.Machine
end

section
/-! PROOFS. What a port does with the requests of the catalogue (10 R165 to R167, R173): each is rejected for its tag, or takes it and goes to its
block; parameter bytes that the block cannot read are answered BAD_PARAM. -/

namespace Sys2Proof.Machine

/-! ## What answering a request leaves of a port's record -/

/-- What a port keeps of its record while its request is answered: its exchange, its FRAMEBUF, its tags, its indicators of rejection, and a LATCH that
is absent. -/
structure PortRec.Rests (a b : PortRec) : Prop where
  cs : b.cs = a.cs
  exchange : b.exchange = a.exchange
  frame : b.frame = a.frame
  received : b.received = a.received
  tags : b.tags = a.tags
  rejected : b.rejected = a.rejected
  reason : b.reason = a.reason
  latch : a.latch = none → b.latch = none

theorem PortRec.latch_offer_none {pr : PortRec} (absent : pr.latch = none) (k : NoticeKind) (sub : Subject) (d : Byte) :
    (pr.offer k sub d).latch = none := by
  unfold PortRec.offer
  split_ifs <;> simp [absent]

theorem Told.latch_none {a b : PortRec} (told : Told a b) (absent : a.latch = none) : b.latch = none := by
  induction told with
  | refl => exact absent
  | response r _ ih => exact ih
  | notice k sub d _ ih => exact PortRec.latch_offer_none ih k sub d

theorem Told.rests {a b : PortRec} (told : Told a b) : a.Rests b := by
  have kept := told.kept
  refine ⟨?_, ?_, ?_, ?_, ?_, ?_, ?_, told.latch_none⟩
  all_goals rw [kept]

/-- From `s` to `t` the request of a port is answered: the port's record rests but for what it is told and its masks, and the other port is told of
things. -/
structure Answers (p : Port) (s t : State) : Prop where
  own : (s.port p).Rests (t.port p)
  other : Told (s.port p.other) (t.port p.other)

namespace Answers

variable {p : Port} {s u : State}

theorem of_told (told : ∀ q, Told (s.port q) (u.port q)) : Answers p s u := ⟨(told p).rests, told p.other⟩

theorem of_quiet (quiet : Quiet s u) : Answers p s u := of_told quiet.told

theorem modPort {f : PortRec → PortRec} (rests : (s.port p).Rests (f (s.port p))) : Answers p s (s.modPort p f) where
  own := by rw [State.port_modPort_same]; exact rests
  other := by rw [State.port_modPort_other]; exact .refl _

theorem answerSetLimits (s : State) (p : Port) (t : Tag) (n : Nat) : Answers p s (s.answerSetLimits p t n) := by
  have told := (Quiet.answerSetLimits s p t n).told
  exact of_told fun | .A => told .A | .B => told .B

theorem answerSegSubscribe (s : State) (p : Port) (t : Tag) (a : Seg × SegMask) : Answers p s (s.answerSegSubscribe p t a) := by
  rw [State.answerSegSubscribe_eq]
  exact modPort ⟨rfl, rfl, rfl, rfl, rfl, rfl, rfl, id⟩

end Answers

/-! ## PORT_SETUP (10 R173) -/

/-- The mask is replaced and the answer placed in one change of the port's record. -/
theorem State.portSetup_eq (s : State) (p : Port) (t : Tag) (m : AttnMask) : s.portSetup p t m = s.modPort p (fun r => { r with
    attnOutMask := m
    respq := r.respq ++ [⟨t, .ok, false, false, [attnMaskCode (s.port p).attnOutMask, attnMaskCode m]⟩] }) := by
  simp only [State.portSetup, State.respond_eq, State.modPort_eq, State.port_setPort_same, State.setPort_setPort]

theorem Answers.portSetup (s : State) (p : Port) (t : Tag) (m : AttnMask) : Answers p s (s.portSetup p t m) := by
  rw [State.portSetup_eq]
  exact modPort ⟨rfl, rfl, rfl, rfl, rfl, rfl, rfl, id⟩

/-! ## The catalogue (10 section 10.9) -/

/-- The request is well framed, but its parameter bytes are not those of its command (10 R166, 11 R179). -/
structure IllFormed (c : Instr) (p : Port) (tag : Byte) (params : List Byte) : Prop where
  named : wfTag tag = true
  ill : c.wf = false
  progress : ∀ pr, c = .segmentReset p tag params pr → pr.wf = true

/-- A command that is a request of the catalogue: it goes through the port to its block, which answers it, or with BAD_PARAM alone where its parameter
bytes cannot be read. -/
def Served (c : Instr) (p : Port) (tag : Byte) (params : List Byte) : Prop :=
  ∃ (code : Byte) (block : Tag → State → State), (∀ s, exec c s = .next (s.submit p tag code params block)) ∧
    (∀ t s, Answers p s (block t s)) ∧ (IllFormed c p tag params → ∀ t s, block t s = s.respond p t .badParam (badParamResult c))

namespace IllFormed

variable {c : Instr} {p : Port} {tag : Byte} {params : List Byte}

/-- Parameter bytes are not read where only a command that is well formed has them read. -/
theorem unread {α : Type} {args : Option α} (reads : c.wf = (wfTag tag && args.isSome)) (ill : IllFormed c p tag params) : args = none := by
  simpa [ill.ill, ill.named] using reads.symm

theorem unread_ref (wf : c.wf = (wfTag tag && wfRefParams params)) : IllFormed c p tag params → parseRefOnly params = none :=
  unread (by rw [isSome_parseRefOnly, wf])

theorem unread_seg (wf : c.wf = (wfTag tag && wfSegParams params)) : IllFormed c p tag params → parseSegOnly params = none :=
  unread (by rw [isSome_parseSegOnly, wf])

end IllFormed

namespace Served

variable {c : Instr} {p : Port} {tag code : Byte} {params : List Byte} {α : Type} {args : Option α}

theorem request {answer : State → Tag → α → State}
    (through : ∀ s, exec c s = .next (s.submit p tag code params (fun t u => u.orBadParam p t args (answer u t))))
    (answers : ∀ s t a, Answers p s (answer s t a)) (unread : IllFormed c p tag params → args = none) (empty : badParamResult c = []) :
    Served c p tag params := by
  refine ⟨code, _, through, fun t s => ?_, fun ill t s => ?_⟩
  · cases args with
    | none => exact .of_quiet (.respond ..)
    | some a => exact answers s t a
  · rw [unread ill, empty]; rfl

theorem transfer {k : TxKind} {args : Option TransferArgs}
    (through : ∀ s, exec c s = .next (s.submit p tag code params (fun t u => u.answerTransfer p t k args)))
    (unread : IllFormed c p tag params → args = none) (counts : badParamResult c = txResult k 0 []) : Served c p tag params :=
  ⟨code, _, through, fun _ _ => .of_quiet (.answerTransfer ..), fun ill t s => by rw [unread ill, counts]; rfl⟩

end Served

open Served IllFormed in
/-- Every request of the catalogue goes to its block. -/
theorem served_of_requestOf {c : Instr} {p : Port} {tag : Byte} {params : List Byte} (asks : requestOf c = some (p, tag, params)) :
    Served c p tag params := by
  cases c <;> cases asks
  case admitDevice => exact request (fun _ => rfl) (fun _ _ _ => .of_quiet (.answerAdmit ..)) (unread (wf_admitDevice ..)) rfl
  case retire => exact request (fun _ => rfl) (fun _ _ _ => .of_quiet (.answerRetire ..)) (unread_ref rfl) rfl
  case lookup => exact request (fun _ => rfl) (fun _ _ _ => .of_quiet (.answerLookup ..)) (unread (wf_lookup ..)) rfl
  case list => exact request (fun _ => rfl) (fun _ _ _ => .of_quiet (.respond ..)) (unread (wf_list ..)) rfl
  case readEntry => exact request (fun _ => rfl) (fun _ _ _ => .of_quiet (.ite (.respond ..) (.respond ..))) (unread_ref rfl) rfl
  case subscribe => exact request (fun _ => rfl) (fun _ _ _ => .of_quiet (.answerSubscribe ..)) (unread (wf_subscribe ..)) rfl
  case segmentSubscribe => exact request (fun _ => rfl) (fun u _ _ => .answerSegSubscribe u ..) (unread (wf_segmentSubscribe ..)) rfl
  case claim => exact request (fun _ => rfl) (fun _ _ _ => .of_quiet (.answerClaim ..)) (unread (wf_claim ..)) rfl
  case renew => exact request (fun _ => rfl) (fun _ _ _ => .of_quiet (.answerRenew ..)) (unread_ref rfl) rfl
  case release => exact request (fun _ => rfl) (fun _ _ _ => .of_quiet (.answerRelease ..)) (unread_ref rfl) rfl
  case write => exact transfer (fun _ => rfl) (unread (wf_write ..)) rfl
  case read => exact transfer (fun _ => rfl) (unread (wf_read ..)) rfl
  case writeRead => exact transfer (fun _ => rfl) (unread (wf_writeRead ..)) rfl
  case ping => exact transfer (fun _ => rfl) (unread (wf_ping ..)) rfl
  case watch => exact request (fun _ => rfl) (fun _ _ _ => .of_quiet (.answerWatchCommand ..)) (unread (wf_watch ..)) rfl
  case watchCancel => exact request (fun _ => rfl) (fun _ _ _ => .of_quiet (.answerWatchCancel ..)) (unread_ref rfl) rfl
  case setLimits => exact request (fun _ => rfl) (fun u _ _ => .answerSetLimits u ..) (unread (wf_setLimits ..)) rfl
  case survey => exact request (fun _ => rfl) (fun _ _ _ => .of_quiet (.answerSurveyCommand ..)) (unread (wf_survey ..)) rfl
  case surveyAbort => exact request (fun _ => rfl) (fun _ _ _ => .of_quiet (.answerSurveyAbort ..)) (unread_seg rfl) rfl
  case segmentSetup => exact request (fun _ => rfl) (fun _ _ _ => .of_quiet (.answerSetup ..)) (unread (wf_segmentSetup ..)) rfl
  case segmentEnable => exact request (fun _ => rfl) (fun _ _ _ => .of_quiet (.answerEnable ..)) (unread_seg rfl) rfl
  case segmentDisable => exact request (fun _ => rfl) (fun _ _ _ => .of_quiet (.answerDisable ..)) (unread_seg rfl) rfl
  case segmentReset pr =>
    refine request (fun _ => rfl) (fun _ _ _ => .of_quiet (.answerReset ..)) (fun ill => unread_seg ?_ ill) rfl
    rw [Instr.wf, ill.progress pr rfl, Bool.and_true]
  case segmentStatus => exact request (fun _ => rfl) (fun _ _ _ => .of_quiet (.respond ..)) (unread_seg rfl) rfl
  case portSetup => exact request (fun _ => rfl) (fun u _ _ => .portSetup u ..) (unread (wf_portSetup ..)) rfl

/-! ## The tag of a request (10 R165 tests 5 to 7, R166, R167) -/

section Tag

variable {c : Instr} {s : State} {p : Port} {tag : Byte} {params : List Byte} {why : Reason}

theorem Served.rejected (served : Served c p tag params) (submitting : (s.port p).exchange = .submit)
    (fails : ∀ code, frameReason (s.port p).tags (requestFrame tag code params) = some why) : exec c s = .next (s.rejectedAs p why) := by
  obtain ⟨code, block, through, -⟩ := served
  rw [through, State.submit_rejected submitting (fails code)]

theorem Served.accepted {t : Tag} (served : Served c p (byte t.val) params) (fits : params.length ≤ 40) (ready : Ready s p t) :
    ∃ v, exec c s = .next v ∧ Answers p (s.accepted p t) v := by
  obtain ⟨code, block, through, answers, -⟩ := served
  exact ⟨_, by rw [through, State.submit_ready ready fits], answers t _⟩

end Tag

theorem toNat_byte_tag (t : Tag) : (byte t.val).toNat = t.val := toNat_byte_of_le (by omega)

/-- Settles O6: the tag decides between rejection and acceptance, and the block leaves the port's record at rest and the other port told of things. -/
theorem requestTakesItsTag : Obligations.RequestTakesItsTag := by
  intro c s p tag params asks fits submitting
  have served := served_of_requestOf asks
  refine ⟨fun bad => served.rejected submitting fun code => by rw [frameReason_requestFrame _ _ _ fits, if_pos bad], ?_⟩
  rintro t rfl
  have named : ¬8 ≤ (byte t.val).toNat := by rw [toNat_byte_tag]; omega
  refine ⟨fun taken => served.rejected submitting fun code => ?_, fun u free taken => served.rejected submitting fun code => ?_, fun free => ?_⟩
  · rw [frameReason_requestFrame _ _ _ fits, if_neg named, if_pos (all_tags taken)]
  · rw [frameReason_requestFrame _ _ _ fits, if_neg named, if_neg (not_all_tags free), toNat_byte_tag, getD_tags, if_pos taken]
  · obtain ⟨v, hx, own, other⟩ := served.accepted fits ⟨submitting, free⟩
    rw [State.port_accepted_same] at own
    rw [State.port_accepted_other] at other
    have masks : (v.port p.other).attnOutMask = (s.port p.other).attnOutMask ∧ (v.port p.other).segMasks = (s.port p.other).segMasks := by
      rw [other.kept]; exact ⟨rfl, rfl⟩
    have rests := other.rests
    exact ⟨v, hx, own.tags, own.cs, own.exchange, own.frame, own.received, own.latch rfl, own.rejected, own.reason, rests.cs, rests.exchange,
      rests.frame, rests.received, rests.tags, rests.rejected, rests.reason, masks.1, masks.2⟩

/-! ## What the port answers itself (10 R166, 11 R179) -/

/-- A whole frame of an unknown code whose tag is FREE (10 R166). -/
theorem exec_badCommand {s : State} {p : Port} {t : Tag} {code : Byte} {params : List Byte} (ready : Ready s p t) (fits : params.length ≤ 40)
    (unknown : code ∉ commandCodes) :
    exec (.badCommand p (byte t.val) code params) s = .next ((s.accepted p t).respond p t .badCommand []) := by
  show Host.Outcome.next (if commandCodes.contains code = true then s else _) = _
  rw [if_neg (by simpa using unknown), State.submit_ready ready fits]

/-- Settles O7: a block that cannot read its parameter bytes answers BAD_PARAM alone, and the port BAD_COMMAND. -/
theorem portAnswersBadRequestsItself : Obligations.PortAnswersBadRequestsItself := by
  refine ⟨fun c s p t params asks fits ready ill progress => ?_, fun s p t code params ready fits unknown => ?_⟩
  · obtain ⟨code, block, through, -, bad⟩ := served_of_requestOf asks
    have named : wfTag (byte t.val) = true := decide_eq_true (by rw [toNat_byte_tag]; exact t.isLt)
    rw [through, State.submit_ready ready fits, bad ⟨named, ill, progress⟩]
  · rw [exec_badCommand ready fits unknown, State.accepted, State.respond_eq, State.port_setPort_same, State.setPort_setPort]
    rfl

/-! ## PORT_SETUP, settled -/

theorem exec_portSetup {s : State} {p : Port} {t : Tag} (m : Byte) (ready : Ready s p t) : exec (.portSetup p (byte t.val) [m]) s =
    .next ((s.accepted p t).orBadParam p t (parseAttnMask m) ((s.accepted p t).portSetup p t)) := by
  show Host.Outcome.next _ = _
  rw [State.submit_ready ready (by simp)]
  rfl

theorem attnMaskCode_bits : ∀ m : Byte, m.toNat < 4 → attnMaskCode ⟨m.getLsbD 0, m.getLsbD 1⟩ = m := by decide

/-- With a response in RESPQ the output follows RESP, or a notice and NOTICE (10 R172). -/
theorem PortRec.attnOut_of_response {pr : PortRec} (waits : pr.respq ≠ []) :
    pr.attnOut = (pr.attnOutMask.resp || (!pr.notices.isEmpty && pr.attnOutMask.notice)) := by
  rw [PortRec.attnOut, List.isEmpty_eq_false_iff.2 waits]
  rfl

/-- Settles O8: a mask of RESP and NOTICE is read and replaces the old one with the answer, which the ATTN output counts; any other is not read. -/
theorem portSetupReplacesMask : Obligations.PortSetupReplacesMask := by
  refine fun s p t m ready => ⟨fun mask => ?_, fun other => ?_⟩
  · have before : ((s.accepted p t).port p).attnOutMask = (s.port p).attnOutMask := by rw [State.port_accepted_same]; rfl
    have answered : exec (.portSetup p (byte t.val) [m]) s = .next ((s.accepted p t).modPort p (fun r => { r with
        attnOutMask := ⟨m.getLsbD 0, m.getLsbD 1⟩
        respq := r.respq ++ [⟨t, .ok, false, false, [attnMaskCode (s.port p).attnOutMask, m]⟩] })) := by
      rw [exec_portSetup m ready, parseAttnMask, if_pos mask, State.orBadParam_some, State.portSetup_eq, before, attnMaskCode_bits m mask]
    refine ⟨_, answered, rfl, ?_⟩
    rw [State.port_modPort_same, PortRec.attnOut_of_response (List.concat_ne_nil _ _), State.port_accepted_same]
    rfl
  · rw [exec_portSetup m ready, parseAttnMask, if_neg (Nat.not_lt.2 other), State.orBadParam_none]

end Sys2Proof.Machine
end

section
/-! PROOFS. A step carries out the command at the front of the queue; every command goes on in every state, and leaves the rest of the queue alone (model's
queue, log entry 10; log entry 17). -/

namespace Sys2Proof.Machine

/-! ## The front of the queue -/

theorem step_of_pending_cons {s : State} {c : Instr} {rest : List Instr} (waits : s.pending = c :: rest) :
    step s = exec c { s with pending := rest } := by
  unfold step
  rw [waits]

theorem step_of_pending_nil {s : State} (empty : s.pending = []) : step s = .next s := by
  unfold step
  rw [empty]

/-- Settles O1: the first command of a queue is carried out with the rest as the queue, and an empty queue idles. -/
theorem stepTakesFront : Obligations.StepTakesFront := fun _ _ _ => ⟨step_of_pending_cons rfl, step_of_pending_nil rfl⟩

/-! ## What leaves the queue alone -/

/-- From `s` to `t` the queue of commands is left alone. -/
structure LeavesQueue (s t : State) : Prop where
  pending : t.pending = s.pending

namespace LeavesQueue

variable {s t u : State}

theorem refl (s : State) : LeavesQueue s s := ⟨rfl⟩

theorem trans (h₁ : LeavesQueue s t) (h₂ : LeavesQueue t u) : LeavesQueue s u := ⟨h₂.pending.trans h₁.pending⟩

theorem of_quiet (quiet : Quiet s t) : LeavesQueue s t := ⟨quiet.pending⟩

theorem ite {c : Prop} [Decidable c] (h₁ : LeavesQueue s t) (h₂ : LeavesQueue s u) : LeavesQueue s (if c then t else u) := by
  split <;> assumption

theorem setPort (s : State) (p : Port) (pr : PortRec) : LeavesQueue s (s.setPort p pr) := ⟨s.pending_setPort p pr⟩

theorem modPort (s : State) (p : Port) (f : PortRec → PortRec) : LeavesQueue s (s.modPort p f) := ⟨s.pending_modPort p f⟩

/-! ## Requests -/

/-- A request leaves the queue alone where its block does: before that the port takes a frame. -/
theorem submit {body : Tag → State → State} (block : ∀ t u, LeavesQueue u (body t u)) (s : State) (p : Port) (tag code : Byte)
    (params : List Byte) : LeavesQueue s (s.submit p tag code params body) := by
  unfold State.submit
  refine ite ?_ (refl s)
  dsimp only
  split
  · exact setPort ..
  · exact (setPort ..).trans (block _ _)

/-- A request whose block reads its parameter bytes and answers, or answers BAD_PARAM. -/
theorem request {α : Type} {args : Option α} {answer : State → Tag → α → State} (answers : ∀ u t a, LeavesQueue u (answer u t a)) (s : State)
    (p : Port) (tag code : Byte) (params : List Byte) :
    LeavesQueue s (s.submit p tag code params (fun t u => u.orBadParam p t args (answer u t))) := by
  refine submit (fun t u => ?_) ..
  cases args with
  | none => exact of_quiet (.respond ..)
  | some a => exact answers u t a

/-- A request whose block does no more than `Quiet` says. -/
theorem quietly {α : Type} {args : Option α} {answer : State → Tag → α → State} (quiet : ∀ u t a, Quiet u (answer u t a)) (s : State)
    (p : Port) (tag code : Byte) (params : List Byte) :
    LeavesQueue s (s.submit p tag code params (fun t u => u.orBadParam p t args (answer u t))) :=
  request (fun u t a => of_quiet (quiet u t a)) ..

theorem transfer (s : State) (p : Port) (tag code : Byte) (params : List Byte) (k : TxKind) (args : Option TransferArgs) :
    LeavesQueue s (s.submit p tag code params (fun t u => u.answerTransfer p t k args)) :=
  submit (fun _ _ => of_quiet (.answerTransfer ..)) ..

theorem submitRejected (s : State) (p : Port) (bytes : List Byte) : LeavesQueue s (s.submitRejected p bytes) := by
  refine ite ?_ (refl s)
  dsimp only
  split
  · exact setPort ..
  · exact refl s

theorem answerSegSubscribe (s : State) (p : Port) (t : Tag) (a : Seg × SegMask) : LeavesQueue s (s.answerSegSubscribe p t a) :=
  (modPort ..).trans (of_quiet (.respond ..))

theorem portSetup (s : State) (p : Port) (t : Tag) (m : AttnMask) : LeavesQueue s (s.portSetup p t m) :=
  (modPort ..).trans (of_quiet (.respond ..))

theorem answerSetLimits (s : State) (p : Port) (t : Tag) (n : Nat) : LeavesQueue s (s.answerSetLimits p t n) :=
  ⟨(Quiet.answerSetLimits s p t n).pending⟩

/-! ## Resets -/

theorem withdrawPort (s : State) (p : Port) : LeavesQueue s (s.withdrawPort p) := by
  have lowered : Quiet s ((s.withdrawn p).foldl (fun s t => s.modEntry t.handle Entry.lower) s) := .foldl (fun _ _ => .modEntry ..) _ _
  exact (of_quiet ((lowered.trans (.mapEntries ..)).trans (.mapSegs ..))).trans (setPort ..)

theorem portReset (s : State) (p : Port) : LeavesQueue s (s.portReset p) :=
  ite ((withdrawPort s p).trans (of_quiet ((Quiet.resetEvents s p).trans (.forAnyOrder .choose ..)))) (refl s)

theorem pinReset (s : State) : LeavesQueue s s.pinReset := ⟨rfl⟩

end LeavesQueue

/-! ## Every command -/

open LeavesQueue in
/-- Every arm of `exec` answers a next state. The commands of the port touch its record; a request passes its port and goes to its block; the events are
`Quiet`; and a reset names the queue among what it keeps. -/
theorem exec_goesOn (c : Instr) (s : State) : ∃ t, exec c s = .next t ∧ LeavesQueue s t := by
  cases c <;> refine ⟨_, rfl, ?_⟩
  case exchangeBegin | leadByte | takeResponse | takeNotice | summary | exchangeIgnoredEnd => exact modPort ..
  case submitRejected => exact submitRejected ..
  case badCommand => exact ite (refl s) (submit (fun _ _ => of_quiet (.respond ..)) ..)
  case portReset => exact portReset ..
  case pinReset => exact pinReset s
  case admitDevice => exact quietly (fun _ _ => .answerAdmit _ _ _) ..
  case retire => exact quietly (fun _ _ => .answerRetire _ _ _) ..
  case lookup => exact quietly (fun _ _ => .answerLookup _ _ _) ..
  case list | segmentStatus => exact quietly (fun _ _ _ => .respond ..) ..
  case readEntry => exact quietly (fun _ _ _ => .ite (.respond ..) (.respond ..)) ..
  case subscribe => exact quietly (fun _ _ => .answerSubscribe _ _ _) ..
  case segmentSubscribe => exact request (fun _ _ => answerSegSubscribe _ _ _) ..
  case claim => exact quietly (fun _ _ => .answerClaim _ _ _) ..
  case renew => exact quietly (fun _ _ => .answerRenew _ _ _) ..
  case release => exact quietly (fun _ _ => .answerRelease _ _ _) ..
  case write | read | writeRead | ping => exact transfer ..
  case watch => exact quietly (fun _ _ => .answerWatchCommand _ _ _) ..
  case watchCancel => exact quietly (fun _ _ => .answerWatchCancel _ _ _) ..
  case setLimits => exact request (fun _ _ => answerSetLimits _ _ _) ..
  case survey => exact quietly (fun _ _ => .answerSurveyCommand _ _ _) ..
  case surveyAbort => exact quietly (fun _ _ => .answerSurveyAbort _ _ _) ..
  case segmentSetup => exact quietly (fun _ _ => .answerSetup _ _ _) ..
  case segmentEnable => exact quietly (fun _ _ => .answerEnable _ _ _) ..
  case segmentDisable => exact quietly (fun _ _ => .answerDisable _ _ _ _) ..
  case segmentReset => exact quietly (fun _ _ => .answerReset _ _ _ _) ..
  case portSetup => exact request (fun _ _ => portSetup _ _ _) ..
  case retireComplete => exact of_quiet (.ite (.completeRetire ..) (.refl s))
  case waiterGranted => exact of_quiet (.reevaluate ..)
  case leaseLapse => exact of_quiet (.leaseLapse ..)
  case waitExpiry => exact of_quiet (.waitExpiry ..)
  case timebaseTick10ms => exact of_quiet (.tick10ms ..)
  case timebaseTick100us => exact of_quiet (.tick100us ..)
  case arbiterGrant => exact of_quiet (.choose ..)
  case arbLost | clockTimeout => exact of_quiet (.busEvent ..)
  case busBusy => exact of_quiet (.busBusy ..)
  case hostTransactionEnd | admissionTransferEnd | watchProbeEnd | surveyProbeEnd | sweepReadEnd => exact of_quiet (.endOfKind ..)
  case disableComplete => exact of_quiet (.ite (.busEvent ..) (.refl s))
  case recoveryEnd => exact of_quiet (.recoveryEnd ..)
  case holdExpiry => exact of_quiet (.holdExpiry ..)
  case settleEnd => exact of_quiet (.ite (.settleEnd ..) (.refl s))
  case watchProbeDue => exact of_quiet (.watchProbeDue ..)
  case rearmExpiry => exact of_quiet (.rearmExpiry ..)
  case attentionAsserted => exact of_quiet ((Quiet.modSeg ..).trans (.choose ..))
  case attentionDeasserted => exact of_quiet (.modSeg ..)

/-- Settles O2: no command faults or is refused, and none touches the queue. -/
theorem everyCommandGoesOn : Obligations.EveryCommandGoesOn := by
  intro c s
  obtain ⟨t, goesOn, leaves⟩ := exec_goesOn c s
  exact ⟨t, goesOn, leaves.pending⟩

end Sys2Proof.Machine
end
